-- ==== Sys2Proof/Word.lean ====
section
/-! DEFINITION. The bit-vector types of the UEE: bytes, 32-bit register and instruction words, 16-bit lengths, and
memory addresses. -/

namespace Sys2Proof

/-- An octet (spec/30_encoding.md R101: event payload bytes are unsigned octets). -/
abbrev Byte := BitVec 8

/-- A register of the window, or an instruction word (spec/10_state.md R22, spec/30_encoding.md R90). -/
abbrev Word := BitVec 32

/-- A transfer length or byte count (spec/10_state.md R25, R36). -/
abbrev Half := BitVec 16

/-- A memory address. `ADDR_W` is at most 32 (spec/00_scope.md R5); the bits above `ADDR_W - 1` are 0 (log entry 14). -/
abbrev Addr := BitVec 32

/-- One USB packet: a byte list (spec/10_state.md R41). -/
abbrev Packet := List Byte

end Sys2Proof
end

