-- ==== Sys2Proof/Syntax.lean ====
section
/-! DEFINITION. The instructions of the UEE: the ten commands and the nine bus events of spec/opcode_table.json, one
constructor a row, in the table's order. A command's address and length operands stand in ARG_ADDR and ARG_LEN, which
are state (spec/30_encoding.md R101); an event's payload is part of the event (R97). -/

namespace Sys2Proof

inductive Instr where
  /-- INIT (spec/45_device_state.md R278). -/
  | init
  /-- CONNECT (spec/45_device_state.md R279). -/
  | connect
  /-- DISCONNECT (spec/45_device_state.md R280). -/
  | disconnect
  /-- WRITE epa, cb (spec/40_endpoint_table.md R121). -/
  | write (epa : Byte) (cb : Bool)
  /-- READ epa, cb (spec/40_endpoint_table.md R123). -/
  | read (epa : Byte) (cb : Bool)
  /-- ABORT epa (spec/40_endpoint_table.md R131). -/
  | abort (epa : Byte)
  /-- ABORT_ALL (spec/40_endpoint_table.md R133). -/
  | abortAll
  /-- IS_BUSY epa (spec/40_endpoint_table.md R134). -/
  | isBusy (epa : Byte)
  /-- REMAINING epa (spec/40_endpoint_table.md R135). -/
  | remaining (epa : Byte)
  /-- POLL (spec/46_events_and_service.md R319). -/
  | poll
  /-- EV_BUS_RESET (spec/46_events_and_service.md R302). -/
  | evBusReset
  /-- EV_SUSPEND (spec/46_events_and_service.md R303). -/
  | evSuspend
  /-- EV_RESUME (spec/46_events_and_service.md R304). -/
  | evResume
  /-- EV_SOF frame (spec/46_events_and_service.md R305). -/
  | evSof (frame : BitVec 11)
  /-- EV_SETUP with its 8-byte payload (spec/46_events_and_service.md R306). -/
  | evSetup (pay : Packet)
  /-- EV_SETUPEND (spec/46_events_and_service.md R307). -/
  | evSetupEnd
  /-- EV_OUT epa with its payload of CNT bytes (spec/46_events_and_service.md R308). -/
  | evOut (epa : Byte) (pay : Packet)
  /-- EV_IN_TAKEN epa (spec/46_events_and_service.md R309). -/
  | evInTaken (epa : Byte)
  /-- EV_SENTSTALL epa (spec/46_events_and_service.md R310). -/
  | evSentStall (epa : Byte)
  deriving DecidableEq, Repr, Inhabited

end Sys2Proof
end

