-- ==== Sys2Proof/WellFormed.lean ====
section
/-! DEFINITION. Which instructions have a word (spec/30_encoding.md R95, R99). The field widths of the types give
everything but three checks: the payload length of EV_SETUP, the count and the direction bit of EV_OUT, and the
direction bit of EV_IN_TAKEN. -/

namespace Sys2Proof

/-- The instruction has a well-formed word and payload (spec/30_encoding.md R95, R99). -/
def Instr.wellFormed : Instr → Bool
  | .init | .connect | .disconnect | .abortAll | .poll => true
  | .write _ _ | .read _ _ | .abort _ | .isBusy _ | .remaining _ => true
  | .evBusReset | .evSuspend | .evResume | .evSof _ | .evSetupEnd | .evSentStall _ => true
  | .evSetup pay => pay.length == 8
  | .evOut epa pay => !epa.msb && decide (pay.length < 2048)
  | .evInTaken epa => epa.msb

end Sys2Proof
end

