-- ==== Sys2Proof/Decode.lean ====
section
/-! DEFINITION. The decoder and the encoder of spec/30_encoding.md. A word is delivered on one of two ports, CMD or the
bus, and the port decides how it is read (R90). Both decoders are total and reject by name. -/

namespace Sys2Proof

/-- Where an instruction word arrives (spec/30_encoding.md R90). -/
inductive Port where
  | cmd
  | bus
  deriving DecidableEq, Repr

/-- Why a word is malformed (spec/30_encoding.md R95, R99). -/
inductive DecodeError where
  /-- R94: the OPC is not listed. -/
  | unknownOpcode
  /-- R91, R97: a reserved bit is not 0. -/
  | reservedBits
  /-- R93: CB is set in a command other than WRITE and READ. -/
  | cbNotUsed
  /-- R95, R99: EPA is not 0 in a word that names no endpoint. -/
  | epaNotUsed
  /-- R98: the EVC is not listed. -/
  | unknownEvent
  /-- R99: EPA[7] is 1 in EV_OUT or 0 in EV_IN_TAKEN. -/
  | wrongDirection
  /-- R98, R99: CNT is not what the event's row asks for. -/
  | wrongCount
  /-- R97: the payload's length is not what the event's row asks for. -/
  | wrongPayload
  deriving DecidableEq, Repr

/-- OPC of a command word and EVC of an event word, bits 31:24 (spec/30_encoding.md R91, R97). -/
def codeField (w : Word) : Byte := w.extractLsb' 24 8

/-- EPA, bits 23:16 (spec/30_encoding.md R91, R97). -/
def epaField (w : Word) : Byte := w.extractLsb' 16 8

/-- CB, bit 8 (spec/30_encoding.md R91). -/
def cbField (w : Word) : Bool := w.getLsbD 8

/-- CNT, bits 10:0 (spec/30_encoding.md R97). -/
def cntField (w : Word) : BitVec 11 := w.extractLsb' 0 11

/-- A command without operands: EPA and CB are 0 (spec/30_encoding.md R95). -/
def plainCommand (w : Word) (i : Instr) : Except DecodeError Instr :=
  if cbField w then .error .cbNotUsed
  else if epaField w ≠ 0 then .error .epaNotUsed
  else .ok i

/-- A command that names an endpoint and has no CB (spec/30_encoding.md R95). -/
def endpointCommand (w : Word) (i : Byte → Instr) : Except DecodeError Instr :=
  if cbField w then .error .cbNotUsed else .ok (i (epaField w))

/-- The command a word written to CMD encodes (spec/30_encoding.md R91 to R95). -/
def decodeCommand (w : Word) : Except DecodeError Instr :=
  if w.extractLsb' 9 7 ≠ 0 ∨ w.extractLsb' 0 8 ≠ 0 then .error .reservedBits
  else if codeField w = 0x01 then plainCommand w .init
  else if codeField w = 0x02 then plainCommand w .connect
  else if codeField w = 0x03 then plainCommand w .disconnect
  else if codeField w = 0x10 then .ok (.write (epaField w) (cbField w))
  else if codeField w = 0x11 then .ok (.read (epaField w) (cbField w))
  else if codeField w = 0x20 then endpointCommand w .abort
  else if codeField w = 0x21 then plainCommand w .abortAll
  else if codeField w = 0x30 then endpointCommand w .isBusy
  else if codeField w = 0x31 then endpointCommand w .remaining
  else if codeField w = 0x40 then plainCommand w .poll
  else .error .unknownOpcode

/-- An event without operands: EPA, CNT and payload are empty (spec/30_encoding.md R98, R99). -/
def plainEvent (w : Word) (pay : Packet) (i : Instr) : Except DecodeError Instr :=
  if epaField w ≠ 0 then .error .epaNotUsed
  else if cntField w ≠ 0 then .error .wrongCount
  else if pay ≠ [] then .error .wrongPayload
  else .ok i

/-- EV_SOF: CNT is the frame number (spec/30_encoding.md R98). -/
def sofEvent (w : Word) (pay : Packet) : Except DecodeError Instr :=
  if epaField w ≠ 0 then .error .epaNotUsed
  else if pay ≠ [] then .error .wrongPayload
  else .ok (.evSof (cntField w))

/-- EV_SETUP: CNT is 8 and the payload has 8 bytes (spec/30_encoding.md R99). -/
def setupEvent (w : Word) (pay : Packet) : Except DecodeError Instr :=
  if epaField w ≠ 0 then .error .epaNotUsed
  else if cntField w ≠ 8 then .error .wrongCount
  else if pay.length ≠ 8 then .error .wrongPayload
  else .ok (.evSetup pay)

/-- EV_OUT: EPA[7] is 0 and CNT is the payload's length (spec/30_encoding.md R99). -/
def outEvent (w : Word) (pay : Packet) : Except DecodeError Instr :=
  if (epaField w).msb then .error .wrongDirection
  else if (cntField w).toNat ≠ pay.length then .error .wrongCount
  else .ok (.evOut (epaField w) pay)

/-- EV_IN_TAKEN: EPA[7] is 1 (spec/30_encoding.md R99). -/
def inTakenEvent (w : Word) (pay : Packet) : Except DecodeError Instr :=
  if !(epaField w).msb then .error .wrongDirection
  else if cntField w ≠ 0 then .error .wrongCount
  else if pay ≠ [] then .error .wrongPayload
  else .ok (.evInTaken (epaField w))

/-- EV_SENTSTALL: any EPA (spec/30_encoding.md R98). -/
def sentStallEvent (w : Word) (pay : Packet) : Except DecodeError Instr :=
  if cntField w ≠ 0 then .error .wrongCount
  else if pay ≠ [] then .error .wrongPayload
  else .ok (.evSentStall (epaField w))

/-- The event a word and payload on the bus port encode (spec/30_encoding.md R97 to R99). -/
def decodeEvent (w : Word) (pay : Packet) : Except DecodeError Instr :=
  if w.extractLsb' 11 5 ≠ 0 then .error .reservedBits
  else if codeField w = 0x01 then plainEvent w pay .evBusReset
  else if codeField w = 0x02 then plainEvent w pay .evSuspend
  else if codeField w = 0x03 then plainEvent w pay .evResume
  else if codeField w = 0x04 then sofEvent w pay
  else if codeField w = 0x10 then setupEvent w pay
  else if codeField w = 0x11 then plainEvent w pay .evSetupEnd
  else if codeField w = 0x12 then outEvent w pay
  else if codeField w = 0x13 then inTakenEvent w pay
  else if codeField w = 0x14 then sentStallEvent w pay
  else .error .unknownEvent

/-- The instruction that a word and payload encode on a port. A command carries no payload (spec/30_encoding.md
R90). -/
def decode (p : Port) (w : Word) (pay : Packet) : Except DecodeError Instr :=
  match p with
  | .cmd => if pay ≠ [] then .error .wrongPayload else decodeCommand w
  | .bus => decodeEvent w pay

/-- The match and mask pairs of the command words (spec/30_encoding.md R95): INIT, CONNECT, DISCONNECT, WRITE, READ,
ABORT, ABORT_ALL, IS_BUSY, REMAINING, POLL. -/
def commandTable : List (Word × Word) :=
  [(0x01000000, 0xFFFFFFFF), (0x02000000, 0xFFFFFFFF), (0x03000000, 0xFFFFFFFF), (0x10000000, 0xFF00FEFF),
   (0x11000000, 0xFF00FEFF), (0x20000000, 0xFF00FFFF), (0x21000000, 0xFFFFFFFF), (0x30000000, 0xFF00FFFF),
   (0x31000000, 0xFF00FFFF), (0x40000000, 0xFFFFFFFF)]

/-- The match and mask pairs of the event words (spec/30_encoding.md R99): EV_BUS_RESET, EV_SUSPEND, EV_RESUME, EV_SOF,
EV_SETUP, EV_SETUPEND, EV_OUT, EV_IN_TAKEN, EV_SENTSTALL. -/
def eventTable : List (Word × Word) :=
  [(0x01000000, 0xFFFFFFFF), (0x02000000, 0xFFFFFFFF), (0x03000000, 0xFFFFFFFF), (0x04000000, 0xFFFFF800),
   (0x10000008, 0xFFFFFFFF), (0x11000000, 0xFFFFFFFF), (0x12000000, 0xFF80F800), (0x13800000, 0xFF80FFFF),
   (0x14000000, 0xFF00FFFF)]

/-- A word matches a row of a table. -/
def matchesRow (w : Word) (row : Word × Word) : Bool := w &&& row.2 == row.1

/-- An instruction as it is delivered: port, word and payload. -/
structure Encoded where
  port : Port
  word : Word
  pay  : Packet
  deriving DecidableEq, Repr

/-- A command word from its fields (spec/30_encoding.md R91). -/
def commandWord (opc epa : Byte) (cb : Bool) : Word :=
  opc ++ epa ++ (0#7 ++ BitVec.ofBool cb ++ 0#8)

/-- An event word from its fields (spec/30_encoding.md R97). -/
def eventWord (evc epa : Byte) (cnt : BitVec 11) : Word :=
  evc ++ epa ++ (0#5 ++ cnt)

/-- The word and payload of a well-formed instruction (spec/30_encoding.md R94, R98). -/
def encode : Instr → Encoded
  | .init => ⟨.cmd, commandWord 0x01 0 false, []⟩
  | .connect => ⟨.cmd, commandWord 0x02 0 false, []⟩
  | .disconnect => ⟨.cmd, commandWord 0x03 0 false, []⟩
  | .write epa cb => ⟨.cmd, commandWord 0x10 epa cb, []⟩
  | .read epa cb => ⟨.cmd, commandWord 0x11 epa cb, []⟩
  | .abort epa => ⟨.cmd, commandWord 0x20 epa false, []⟩
  | .abortAll => ⟨.cmd, commandWord 0x21 0 false, []⟩
  | .isBusy epa => ⟨.cmd, commandWord 0x30 epa false, []⟩
  | .remaining epa => ⟨.cmd, commandWord 0x31 epa false, []⟩
  | .poll => ⟨.cmd, commandWord 0x40 0 false, []⟩
  | .evBusReset => ⟨.bus, eventWord 0x01 0 0, []⟩
  | .evSuspend => ⟨.bus, eventWord 0x02 0 0, []⟩
  | .evResume => ⟨.bus, eventWord 0x03 0 0, []⟩
  | .evSof frame => ⟨.bus, eventWord 0x04 0 frame, []⟩
  | .evSetup pay => ⟨.bus, eventWord 0x10 0 8, pay⟩
  | .evSetupEnd => ⟨.bus, eventWord 0x11 0 0, []⟩
  | .evOut epa pay => ⟨.bus, eventWord 0x12 epa (BitVec.ofNat 11 pay.length), pay⟩
  | .evInTaken epa => ⟨.bus, eventWord 0x13 epa 0, []⟩
  | .evSentStall epa => ⟨.bus, eventWord 0x14 epa 0, []⟩

/-- The first `n` bytes of a number, least significant first. -/
def bytesOfNat : Nat → Nat → Packet
  | 0, _ => []
  | n + 1, x => BitVec.ofNat 8 x :: bytesOfNat n (x / 256)

/-- How many payload bytes follow an event word: CNT for EV_SETUP and EV_OUT, none otherwise (spec/30_encoding.md
R97). -/
def payloadLength (w : Word) : Nat :=
  if codeField w = 0x10 ∨ codeField w = 0x12 then (cntField w).toNat else 0

/-- The 32-bit word in bits 31:0 of an instruction of the opcode table. -/
def tableWord (nbits w : Nat) : Word := BitVec.ofNat 32 (w % 2 ^ nbits)

/-- The payload of an event of the opcode table: byte `k` in bits 39 + 8k down to 32 + 8k, 0 above `nbits`. DESIGN
CHOICE (log entry 7). -/
def tablePayload (nbits w : Nat) : Packet :=
  bytesOfNat (payloadLength (tableWord nbits w)) (w % 2 ^ nbits / 2 ^ 32)

/-- The instruction a row of the opcode table encodes. The table names no port, and four words are both a command and
an event: DESIGN CHOICE, the command port is tried first (log entry 6). -/
def decodeTableWord (nbits w : Nat) : Option Instr :=
  match decode .cmd (tableWord nbits w) [] with
  | .ok i => some i
  | .error _ =>
    match decode .bus (tableWord nbits w) (tablePayload nbits w) with
    | .ok i => some i
    | .error _ => none

end Sys2Proof
end

