-- ==== Sys2Proof/Config.lean ====
section
/-! DEFINITION. The implementation parameters of spec/00_scope.md R5, the two draws that an implementation supplies
(R8), and the base configuration C0 of spec/95_test_vectors.md. -/

namespace Sys2Proof

/-- The direction of a transfer, seen from the host (spec/00_scope.md R13). -/
inductive Dir where
  | in
  | out
  deriving DecidableEq, Repr, Inhabited

/-- The transfer type of a data endpoint (spec/00_scope.md R5). -/
inductive EpType where
  | bulk
  | interrupt
  | isochronous
  deriving DecidableEq, Repr, Inhabited

/-- One entry `(num, dir, mps, type)` of `EPS` (spec/00_scope.md R5). -/
structure EpDesc where
  num  : BitVec 4
  dir  : Dir
  mps  : Nat
  type : EpType
  deriving DecidableEq, Repr, Inhabited

/-- The `(addr, len)` of a descriptor in memory (spec/00_scope.md R5). -/
structure DescLoc where
  addr : Addr
  len  : Half
  deriving DecidableEq, Repr, Inhabited

/-- When service invocations run (spec/00_scope.md R5, spec/46_events_and_service.md R314). -/
inductive RunMode where
  | interrupt
  | polled
  deriving DecidableEq, Repr, Inhabited

/-- The three answers of a request handler (spec/43_request_dispatch.md R210). -/
inductive Answer where
  | ok
  | requestError
  | unhandled
  deriving DecidableEq, Repr, Inhabited

/-- The data-stage buffer a hook may arm (spec/43_request_dispatch.md R211). -/
structure Arm where
  addr : Addr
  n    : Half
  cb   : Bool
  deriving DecidableEq, Repr, Inhabited

/-- One answer of the override hook: an outcome and an optional arm (spec/43_request_dispatch.md R211). -/
structure HookAnswer where
  outcome : Answer
  arm     : Option Arm
  deriving DecidableEq, Repr, Inhabited

/-- The configuration `cfg` (spec/00_scope.md R5). `HOOK` is whether the override hook is present; its answers, and
those of `PRODUCT`, are draws (R8). `UID_SIZE` is the length of `uid`. -/
structure Config where
  addrW     : Nat
  mps0      : Nat
  eps       : List EpDesc
  uid       : List Byte
  devDesc   : DescLoc
  cfgDesc   : DescLoc
  str       : List (Byte × DescLoc)
  serialBuf : Addr
  hook      : Bool
  hookReset : Bool
  hookSof   : Bool
  hookIsr   : Bool
  mode      : RunMode
  nqDepth   : Nat
  usbBase   : Nat
  deriving DecidableEq, Repr, Inhabited

namespace Config

/-- `CONFIG_VALUE`, fixed at 1 (spec/00_scope.md R5). -/
abbrev configValue : Byte := 1

/-- `MANUF_INDEX`, `PRODUCT_INDEX` and `SERIAL_INDEX` (spec/00_scope.md R5). -/
abbrev manufIndex : Byte := 1
@[inherit_doc manufIndex] abbrev productIndex : Byte := 2
@[inherit_doc manufIndex] abbrev serialIndex : Byte := 3

/-- The legal values of the parameters (the table of spec/00_scope.md R5). -/
def legal (c : Config) : Bool :=
  decide (8 ≤ c.addrW) && decide (c.addrW ≤ 32)
  && [8, 16, 32, 64].contains c.mps0
  && c.eps.all (fun d => d.num != 0 && decide (1 ≤ d.mps) && decide (d.mps ≤ 1023))
  && decide ((c.eps.map (fun d => (d.num, d.dir))).Nodup)
  && decide ((c.eps.filter (fun d => d.type == .isochronous)).length ≤ 1)
  && c.eps.all (fun d => d.type != .isochronous || d.dir == .in)
  && decide (1 ≤ c.uid.length) && decide (c.uid.length ≤ 63)
  && decide (1 ≤ c.nqDepth) && decide (c.nqDepth ≤ 255)
  && decide (c.devDesc.addr.toNat < 2 ^ c.addrW) && decide (c.cfgDesc.addr.toNat < 2 ^ c.addrW)
  && c.str.all (fun e => decide (e.2.addr.toNat < 2 ^ c.addrW)) && decide (c.serialBuf.toNat < 2 ^ c.addrW)

/-- The answer of the `n`-th call of the override hook that the field `hookIn` of State does not list: a draw
(spec/00_scope.md R8, spec/43_request_dispatch.md R211), so nothing is known of it (log entry 9). -/
opaque hookDraw : Nat → HookAnswer

/-- The answer of the `n`-th query of the product-name accessor that the field `productIn` of State does not list: a
draw (spec/00_scope.md R8), so nothing is known of it (log entry 9). -/
opaque productDraw : Nat → Option DescLoc

/-- The base configuration C0 of spec/95_test_vectors.md, section 0. DESIGN CHOICE: the configuration of
`State.reset`; every parameter is open (log entry 1). -/
def base : Config where
  addrW     := 16
  mps0      := 64
  eps       := [⟨1, .in, 64, .interrupt⟩, ⟨2, .out, 64, .bulk⟩, ⟨3, .in, 64, .bulk⟩, ⟨4, .in, 8, .bulk⟩]
  uid       := [0x3C, 0xAB, 0x05, 0xF0]
  devDesc   := ⟨0x1000, 18⟩
  cfgDesc   := ⟨0x1100, 32⟩
  str       := [(0, ⟨0x1200, 4⟩), (1, ⟨0x1210, 10⟩), (2, ⟨0x1220, 12⟩)]
  serialBuf := 0x1300
  hook      := false
  hookReset := false
  hookSof   := false
  hookIsr   := false
  mode      := .interrupt
  nqDepth   := 16
  usbBase   := 0

end Config
end Sys2Proof
end

