-- ==== Sys2Proof/Machine/State.lean ====
section
/-! DEFINITION. The state of the UEE as plain data: every field of spec/10_state.md, the configuration, and the model's
own fields (the schedule, the pending draws, and what the CPU's last load returned). -/

namespace Sys2Proof.Machine

open Sys2Proof

/-- The device states of spec/10_state.md R33. -/
inductive DevState where
  | attached
  | default
  | addressed
  | suspended
  | configured
  deriving DecidableEq, Repr

/-- The endpoint states of spec/10_state.md R35. -/
inductive EpState where
  | idle
  | transmitting
  | receiving
  | halted
  | stalled
  | status
  deriving DecidableEq, Repr

/-- The device-wide fields (spec/10_state.md R34). -/
structure Dev where
  state  : DevState
  saved  : DevState
  addr   : BitVec 7
  config : Byte
  alt    : Byte
  pullup : Bool
  deriving DecidableEq, Repr

/-- An endpoint record (spec/10_state.md R36). -/
structure EpRec where
  state : EpState
  buf   : Addr
  len   : Half
  rem   : Half
  cb    : Bool
  pp    : Bool
  wr    : Bool
  deriving DecidableEq, Repr

/-- A data endpoint: its entry of `EPS`, its record (spec/10_state.md R36), its `active` bit (R40), its one packet
buffer (R41: `rxbuf[e]` of an OUT endpoint, `txbuf[e]` of an IN one), its one packet latch (R42: `L_OUT[e]` of an OUT
endpoint, `L_IN[e]` of an IN one) and its latch `L_STALL[e]`. -/
structure DataEp where
  desc   : EpDesc
  ep     : EpRec
  active : Bool
  pkt    : Option Packet
  latch  : Bool
  stall  : Bool
  deriving DecidableEq, Repr

/-- The setup snapshot (spec/10_state.md R38, R39): the 8 bytes `setup[0]` to `setup[7]`. -/
structure Setup where
  b0 : Byte
  b1 : Byte
  b2 : Byte
  b3 : Byte
  b4 : Byte
  b5 : Byte
  b6 : Byte
  b7 : Byte
  deriving DecidableEq, Repr

/-- The latches that are not a data endpoint's (spec/10_state.md R42). -/
structure Latches where
  reset        : Bool
  suspend      : Bool
  resume       : Bool
  sof          : Bool
  ep0SentStall : Bool
  ep0SetupEnd  : Bool
  ep0Setup     : Bool
  ep0Out       : Bool
  ep0In        : Bool
  deriving DecidableEq, Repr

/-- The record kinds of spec/30_encoding.md R106. -/
inductive RecKind where
  | xferDone
  | xferError
  | stateChange
  | resetHook
  | sofHook
  | serviceEnter
  | serviceExit
  deriving DecidableEq, Repr

/-- A notification record `Rec(KIND, EPA, CODE, AUX, XF, RM)` (spec/10_state.md R45, spec/30_encoding.md R105). -/
structure Record where
  kind : RecKind
  epa  : Byte
  code : Byte
  aux  : Byte
  xf   : Half
  rm   : Half
  deriving DecidableEq, Repr

/-- The fault reasons that a step records in `faults` (spec/00_scope.md R9, spec/10_state.md R46). -/
inductive FaultReason where
  /-- spec/20_memory.md R65. -/
  | ownershipViolation
  /-- spec/60_exceptions.md R347. -/
  | notifyOverflow
  /-- spec/20_memory.md R63. -/
  | badRegisterAccess
  deriving DecidableEq, Repr

/-- The actions the UEE drives into the SIE (spec/10_state.md R47). -/
inductive Action where
  | commit (epa : Byte) (bytes : Packet)
  | dataEnd
  | rxRelease (epa : Byte)
  | stall0 (on : Bool)
  | addrLoad (a : BitVec 7)
  | epEnable (epa : Byte) (on : Bool)
  | toggleReset (epa : Byte)
  | pullup (on : Bool)
  | flush (epa : Byte)
  deriving DecidableEq, Repr

/-- What an agent does in one step (spec/00_scope.md R7, spec/20_memory.md R66). `regRead` and `regWrite` are CPU
accesses of `bits` bits at a CPU address in the register window (spec/10_state.md R22); `memRead` and `memWrite` are CPU
accesses to one byte of memory (spec/10_state.md R48); `event` is a word and payload from the bus (spec/30_encoding.md
R97); `service` is the service sequencer taking its turn (spec/46_events_and_service.md R314). -/
inductive Stimulus where
  | regRead (addr bits : Nat)
  | regWrite (addr bits : Nat) (value : Word)
  | memRead (addr : Nat)
  | memWrite (addr : Nat) (value : Byte)
  | event (word : Word) (pay : Packet)
  | service
  deriving DecidableEq, Repr

/-- Memory (spec/10_state.md R48) as (address, byte) pairs in canonical form: see `Memory.wf` in Machine/Ops.lean. -/
abbrev Memory := List Host.Cell

/-- The state of the UEE, the memory it shares with the CPU, and the model's own fields. -/
structure State where
  /-- The configuration (spec/00_scope.md R5); no step writes it. -/
  cfg      : Config
  /-- ARG_ADDR (spec/10_state.md R24). -/
  argAddr  : Addr
  /-- ARG_LEN (spec/10_state.md R25). -/
  argLen   : Half
  /-- RESULT (spec/10_state.md R26). -/
  result   : Word
  /-- IRQ_EN.NIE (spec/10_state.md R31). -/
  nie      : Bool
  /-- The device-wide fields (spec/10_state.md R34). -/
  dev      : Dev
  /-- `ep[0]` (spec/10_state.md R36). -/
  ep0      : EpRec
  /-- `ctl_open` (spec/10_state.md R38). -/
  ctlOpen  : Bool
  /-- `setup` (spec/10_state.md R38). -/
  setup    : Setup
  /-- `ep0_stall` (spec/10_state.md R38). -/
  ep0Stall : Bool
  /-- `rxbuf[0]` (spec/10_state.md R41). -/
  rx0      : Option Packet
  /-- `txbuf[0]` (spec/10_state.md R41). -/
  tx0      : Option Packet
  /-- `tx0stage` (spec/10_state.md R41). -/
  tx0stage : Packet
  /-- The data endpoints, in `EPS` order (spec/10_state.md R37). -/
  deps     : List DataEp
  /-- The latches (spec/10_state.md R42). -/
  lat      : Latches
  /-- `sof_frame` (spec/10_state.md R42). -/
  sofFrame : BitVec 11
  /-- `nq`, oldest record first (spec/10_state.md R45). -/
  nq       : List Record
  /-- `nq_ovf` (spec/10_state.md R45). -/
  nqOvf    : Bool
  /-- `faults` (spec/10_state.md R46). -/
  faults   : List FaultReason
  /-- `acts` (spec/10_state.md R47). -/
  acts     : List Action
  /-- `host_in` (spec/10_state.md R47). -/
  hostIn   : List (Byte × Packet)
  /-- `Mem` (spec/10_state.md R48). -/
  mem      : Memory
  /-- The model's own: the value the CPU's last load returned, none if it returned none (log entry 10). -/
  readData : Option Word
  /-- The model's own: what the agents do next, soonest first (log entry 2). -/
  inputs   : List Stimulus
  /-- The model's own: answers of the override hook still to be drawn (log entry 9). -/
  hookIn   : List HookAnswer
  /-- The model's own: answers of the product-name accessor still to be drawn (log entry 9). -/
  productIn : List (Option DescLoc)
  /-- The model's own: how many answers were taken from the draws of Config.lean (log entry 9). -/
  draws    : Nat
  deriving DecidableEq, Repr

/-- Why a step stops. Each is SAFE: the model stops where the spec has no step or names no place. -/
inductive Fault where
  /-- A well-formed event whose admission condition does not hold has no step (spec/46_events_and_service.md R300).
  Raised by the meanings of the nine events. Safe. -/
  | eventNotAdmitted
  /-- A malformed event word or payload has no step (spec/30_encoding.md R100). Raised by the delivery of an event.
  Safe. -/
  | malformedEvent
  /-- The service sequencer was scheduled while it is not enabled (spec/46_events_and_service.md R314). Raised by the
  delivery of `service`. Safe. -/
  | sequencerNotEnabled
  /-- No agent is scheduled and the sequencer is not enabled: no agent has a step (spec/00_scope.md R9,
  spec/46_events_and_service.md R314). Raised by `step`. Safe. -/
  | noAgentEnabled
  /-- A CPU memory access at or above `2^ADDR_W`, where there is no byte (spec/10_state.md R48). Safe. -/
  | outsideMemory
  /-- A CPU register access outside the 256 bytes at `USB_BASE`, where there is no register (spec/10_state.md R22).
  Safe. -/
  | outsideWindow
  deriving DecidableEq, Repr

/-- Why an instruction has no meaning in the model. -/
inductive Refusal where
  /-- The instruction is not modelled yet. Raised by `exec` alone. Safe. -/
  | notModelled (mnemonic : String)
  deriving DecidableEq, Repr

/-- An endpoint record at reset (spec/10_state.md R49). -/
def EpRec.reset : EpRec where
  state := .idle
  buf   := 0
  len   := 0
  rem   := 0
  cb    := false
  pp    := false
  wr    := false

/-- A data endpoint at reset (spec/10_state.md R49). -/
def DataEp.reset (d : EpDesc) : DataEp where
  desc   := d
  ep     := EpRec.reset
  active := false
  pkt    := none
  latch  := false
  stall  := false

/-- The device-wide fields at reset (spec/10_state.md R49). -/
def Dev.reset : Dev where
  state  := .attached
  saved  := .attached
  addr   := 0
  config := 0
  alt    := 0
  pullup := false

/-- The setup snapshot at reset: eight 0 bytes (spec/10_state.md R49). -/
def Setup.reset : Setup := ⟨0, 0, 0, 0, 0, 0, 0, 0⟩

/-- Every latch 0 (spec/10_state.md R49). -/
def Latches.none : Latches := ⟨false, false, false, false, false, false, false, false, false⟩

/-- The UEE of a configuration after power-on reset, with an initial memory (spec/10_state.md R48, R49,
spec/70_reset_and_hazards.md R370). -/
def State.resetWith (cfg : Config) (mem : Memory) : State where
  cfg       := cfg
  argAddr   := 0
  argLen    := 0
  result    := 0
  nie       := false
  dev       := Dev.reset
  ep0       := EpRec.reset
  ctlOpen   := false
  setup     := Setup.reset
  ep0Stall  := false
  rx0       := none
  tx0       := none
  tx0stage  := []
  deps      := cfg.eps.map DataEp.reset
  lat       := Latches.none
  sofFrame  := 0
  nq        := []
  nqOvf     := false
  faults    := []
  acts      := []
  hostIn    := []
  mem       := mem
  readData  := none
  inputs    := []
  hookIn    := []
  productIn := []
  draws     := 0

/-- The machine right after power-on reset: the base configuration (DESIGN CHOICE, log entry 1), and memory with nothing
listed (log entry 8). -/
def State.reset : State := State.resetWith Config.base []

end Sys2Proof.Machine
end

