-- ==== Sys2Proof/Machine/Operands.lean ====
section
/-! DEFINITION. Operand forms: endpoint addresses and their lookup, the fields of a setup packet, memory addresses, the
numeric codes of states and record kinds, and the orders in which data endpoints are served. -/

namespace Sys2Proof.Machine

open Sys2Proof

/-! ### Codes -/

/-- The 3-bit code of a device state (spec/10_state.md R33). -/
def DevState.code : DevState → BitVec 3
  | .attached => 0
  | .default => 1
  | .addressed => 2
  | .suspended => 3
  | .configured => 4

/-- `>= Suspended` in the order of the codes (spec/45_device_state.md R271). -/
def DevState.atLeastSuspended (d : DevState) : Bool := decide (DevState.suspended.code.toNat ≤ d.code.toNat)

/-- The 3-bit code of an endpoint state (spec/10_state.md R35). -/
def EpState.code : EpState → BitVec 3
  | .idle => 0
  | .transmitting => 1
  | .receiving => 2
  | .halted => 3
  | .stalled => 4
  | .status => 5

/-- The KIND byte of a record (spec/30_encoding.md R106). -/
def RecKind.code : RecKind → Byte
  | .xferDone => 0x01
  | .xferError => 0x02
  | .stateChange => 0x03
  | .resetHook => 0x04
  | .sofHook => 0x05
  | .serviceEnter => 0x06
  | .serviceExit => 0x07

/-! ### Memory addresses -/

/-- A memory address reduced modulo `2^ADDR_W` (spec/20_memory.md R60). -/
def wrapAddr (c : Config) (a : Nat) : Addr := BitVec.ofNat 32 (a % 2 ^ c.addrW)

/-- `a - b` modulo `2^ADDR_W`. -/
def wrapSub (c : Config) (a b : Nat) : Nat := (a + (2 ^ c.addrW - b % 2 ^ c.addrW)) % 2 ^ c.addrW

/-- A descriptor location with its address reduced to `ADDR_W` bits, the type of a memory address (log entry 14). -/
def locate (c : Config) (l : DescLoc) : DescLoc := { l with addr := wrapAddr c l.addr.toNat }

/-! ### Endpoint addresses -/

/-- NUM, bits 3:0 of an endpoint address byte (spec/30_encoding.md R92). -/
def epaNum (a : Byte) : BitVec 4 := a.extractLsb' 0 4

/-- DIR, bit 7 of an endpoint address byte (spec/30_encoding.md R92). -/
def epaDir (a : Byte) : Dir := if a.msb then .in else .out

/-- The endpoint address of a data endpoint: `0x80 | n` for IN, `n` for OUT (spec/40_endpoint_table.md R120). -/
def epaOf (d : EpDesc) : Byte := (match d.dir with | .in => 0x80#8 | .out => 0x00#8) ||| d.num.zeroExtend 8

/-- The endpoint address of EP0: `0x80` while Transmitting, `0x00` otherwise (spec/40_endpoint_table.md R120). -/
def epaOf0 (s : State) : Byte := if s.ep0.state = .transmitting then 0x80 else 0x00

/-- What an endpoint address names: EP0, or a data endpoint with its place in the table (spec/10_state.md R37). -/
inductive EpRef where
  | ep0
  | data (k : Nat) (d : DataEp)
  deriving DecidableEq, Repr

/-- The data endpoint of a number and direction, with its place in the table (spec/10_state.md R37). -/
def findEp (num : BitVec 4) (dir : Dir) : List DataEp → Option (Nat × DataEp)
  | [] => none
  | d :: ds =>
    if d.desc.num = num ∧ d.desc.dir = dir then some (0, d)
    else (findEp num dir ds).map (fun p => (p.1 + 1, p.2))

/-- `lookup(a)` (spec/10_state.md R37). -/
def lookup (s : State) (a : Byte) : Option EpRef :=
  if a.extractLsb' 4 3 ≠ 0 then none
  else if epaNum a = 0 then some .ep0
  else (findEp (epaNum a) (epaDir a) s.deps).map (fun p => .data p.1 p.2)

/-- The record an endpoint address names. -/
def EpRef.rec0 (s : State) : EpRef → EpRec
  | .ep0 => s.ep0
  | .data _ d => d.ep

/-- Change one data endpoint. -/
def State.modifyEp (s : State) (k : Nat) (f : DataEp → DataEp) : State := { s with deps := s.deps.modify k f }

/-- Change one data endpoint's record. -/
def State.modifyRec (s : State) (k : Nat) (f : EpRec → EpRec) : State := s.modifyEp k (fun d => { d with ep := f d.ep })

/-- The places of the data endpoints of one direction, by ascending number 1 to 15 (spec/46_events_and_service.md
R315). -/
def epOrder (dir : Dir) (deps : List DataEp) : List Nat :=
  (List.range' 1 15).filterMap (fun n => (findEp (BitVec.ofNat 4 n) dir deps).map Prod.fst)

/-! ### The setup packet (spec/10_state.md R39) -/

/-- The snapshot of 8 bytes (spec/42_control_transfer.md R176). -/
def Setup.ofBytes : Packet → Option Setup
  | [b0, b1, b2, b3, b4, b5, b6, b7] => some ⟨b0, b1, b2, b3, b4, b5, b6, b7⟩
  | _ => none

/-- `dir = bmRequestType[7]`: 1 is IN. -/
def Setup.dir (s : Setup) : Dir := if s.b0.msb then .in else .out

/-- `type = bmRequestType[6:5]`: 0 is Standard. -/
def Setup.type (s : Setup) : BitVec 2 := s.b0.extractLsb' 5 2

/-- `recipient = bmRequestType[4:0]`: 0 is Device. -/
def Setup.recipient (s : Setup) : BitVec 5 := s.b0.extractLsb' 0 5

/-- `bRequest`. -/
def Setup.request (s : Setup) : Byte := s.b1

/-- `wValue = {setup[3], setup[2]}`. -/
def Setup.wValue (s : Setup) : Half := s.b3 ++ s.b2

/-- `wIndex = {setup[5], setup[4]}`. -/
def Setup.wIndex (s : Setup) : Half := s.b5 ++ s.b4

/-- `wLength = {setup[7], setup[6]}`. -/
def Setup.wLength (s : Setup) : Half := s.b7 ++ s.b6

end Sys2Proof.Machine
end

