-- ==== Sys2Proof/Machine/Flags.lean ====
section
/-! DEFINITION. Status codes and RESULT, the three endpoint flags `cb`, `pp`, `wr` with the record updates that write
them, and the conditions on latches (spec/10_state.md R42, R43; spec/60_exceptions.md R340). The UEE has no condition
codes (R43). -/

namespace Sys2Proof.Machine

open Sys2Proof

/-! ### Status codes and RESULT -/

/-- The status codes of spec/60_exceptions.md R340 that RESULT or a record can hold. RequestError (7) and Unhandled (8)
are `Answer`s: they never leave the SETUP service (R344). -/
inductive Status where
  | ok
  | illegal
  | deviceUnconfigured
  | endpointBusy
  | endpointStalled
  | rxBufferOverrun
  | endpointError
  deriving DecidableEq, Repr

/-- The 8-bit code of a status (spec/60_exceptions.md R340). -/
def Status.code : Status → Byte
  | .ok => 0
  | .illegal => 1
  | .deviceUnconfigured => 2
  | .endpointBusy => 3
  | .endpointStalled => 4
  | .rxBufferOverrun => 5
  | .endpointError => 6

/-- The 8-bit code of a request handler's answer (spec/60_exceptions.md R340). -/
def answerCode : Answer → Byte
  | .ok => 0
  | .requestError => 7
  | .unhandled => 8

/-- `{status[7:0], 8'h00, value[15:0]}` (spec/10_state.md R26). -/
def resultWord (st : Status) (value : Half) : Word := st.code ++ 0#8 ++ value

/-- `RESULT <- {status, 0, value}` (spec/10_state.md R26). -/
def State.setResult (s : State) (st : Status) (value : Half) : State := { s with result := resultWord st value }

/-! ### Record updates -/

/-- The state a transfer of a direction runs in (spec/40_endpoint_table.md R122). -/
def Dir.running : Dir → EpState
  | .in => .transmitting
  | .out => .receiving

/-- The record after a successful `begin_transfer`: `cb` replaced, `wr` cleared, `pp` kept (spec/40_endpoint_table.md
R122, R127). -/
def EpRec.arm (r : EpRec) (d : Dir) (addr : Addr) (n : Half) (cb : Bool) : EpRec :=
  { r with state := Dir.running d, buf := addr, len := n, rem := n, cb := cb, wr := false }

/-- The record after an abort of a running transfer (spec/40_endpoint_table.md R130). -/
def EpRec.aborted (r : EpRec) : EpRec := { r with state := .idle, rem := 0, cb := false, pp := false, wr := false }

/-- The record after `n` more bytes were moved (spec/42_control_transfer.md R182, R186; spec/44_data_endpoints.md R251,
R256). -/
def EpRec.advance (r : EpRec) (c : Config) (n : Nat) : EpRec :=
  { r with buf := wrapAddr c (r.buf.toNat + n), rem := r.rem - BitVec.ofNat 16 n }

/-- The record after an overrun: the packet is held (spec/42_control_transfer.md R185, spec/44_data_endpoints.md
R255). -/
def EpRec.overrun (r : EpRec) : EpRec := { r with state := .idle, rem := 0, cb := false, pp := true }

/-- The record after a transfer completed (spec/42_control_transfer.md R188, spec/44_data_endpoints.md R257). -/
def EpRec.completed (r : EpRec) : EpRec := { r with state := .idle, cb := false }

/-- A received packet is held unconsumed (spec/42_control_transfer.md R184, spec/44_data_endpoints.md R254). -/
def EpRec.hold (r : EpRec) : EpRec := { r with pp := true }

/-- The record after `stall0` (spec/42_control_transfer.md R181). -/
def EpRec.stall (_ : EpRec) : EpRec := { EpRec.reset with state := .stalled }

/-- `len - rem`, the bytes moved so far (spec/44_data_endpoints.md R261). -/
def EpRec.moved (r : EpRec) : Half := r.len - r.rem

/-! ### Latches -/

/-- At least one latch is set (spec/46_events_and_service.md R314). -/
def latchPending (s : State) : Bool :=
  s.lat.reset || s.lat.suspend || s.lat.resume || s.lat.sof || s.lat.ep0SentStall || s.lat.ep0SetupEnd
  || s.lat.ep0Setup || s.lat.ep0Out || s.lat.ep0In || s.deps.any (fun d => d.latch || d.stall)

/-- The service sequencer is enabled to take a step of its own (spec/46_events_and_service.md R314). -/
def sequencerEnabled (s : State) : Bool := s.cfg.mode == .interrupt && latchPending s

/-- `irq_cpu = nie AND (len(nq) > 0)` (spec/60_exceptions.md R346). -/
def irqCpu (s : State) : Bool := s.nie && !s.nq.isEmpty

/-- `bus_up` (spec/46_events_and_service.md R300). -/
def busUp (s : State) : Bool := s.dev.pullup

/-- `bus_live` (spec/46_events_and_service.md R300). -/
def busLive (s : State) : Bool :=
  busUp s && (s.lat.reset
    || (!s.lat.suspend && (s.dev.state == .default || s.dev.state == .addressed || s.dev.state == .configured
        || (s.dev.state == .suspended && s.lat.resume))))

/-- `latch(e = EP0 ? L0_IN : L_IN[e])`, or the OUT latch of an OUT data endpoint (spec/10_state.md R42). -/
def DataEp.setLatch (d : DataEp) : DataEp := { d with latch := true }

/-- `clear(L_OUT[e] or L_IN[e])` (spec/10_state.md R42). -/
def DataEp.clearLatch (d : DataEp) : DataEp := { d with latch := false }

end Sys2Proof.Machine
end

