-- ==== Sys2Proof/Machine/Ops.lean ====
section
/-! DEFINITION. The named operations over memory, the notification queue, the fault list and the SIE action trace
(spec/00_scope.md R11). The UEE takes no exception and returns from none (spec/60_exceptions.md R348, R351, R352). -/

namespace Sys2Proof.Machine

open Sys2Proof

/-! ### Memory (spec/10_state.md R48, spec/20_memory.md R60) -/

/-- What an address that memory does not list reads as. The spec leaves the initial content open (spec/10_state.md R48).
DESIGN CHOICE 0x00 (log entry 8). -/
def Memory.background : Byte := 0x00

/-- The canonical form: addresses strictly rising, no entry equal to what an unlisted address reads as. -/
abbrev Memory.wf (m : Memory) : Prop :=
  m.Pairwise (fun x y => x.1 < y.1) ∧ ∀ c ∈ m, c.2 ≠ Memory.background

/-- The byte at an address. -/
def Memory.read : Memory → Nat → Byte
  | [], _ => Memory.background
  | (b, w) :: m, a => if a = b then w else Memory.read m a

/-- Put a byte in front of a memory, unless it is what an unlisted address reads as. -/
def Memory.put (a : Nat) (v : Byte) (m : Memory) : Memory := if v = Memory.background then m else (a, v) :: m

/-- Write the byte at an address, keeping the canonical form. -/
def Memory.write : Memory → Nat → Byte → Memory
  | [], a, v => Memory.put a v []
  | (b, w) :: m, a, v =>
    if a < b then Memory.put a v ((b, w) :: m)
    else if a = b then Memory.put a v m
    else (b, w) :: Memory.write m a v

/-- `MemRead(a, 1)`: addresses wrap modulo `2^ADDR_W` (spec/20_memory.md R60). -/
def memRead (s : State) (a : Nat) : Byte := s.mem.read (a % 2 ^ s.cfg.addrW)

/-- `MemWrite(a, 1, v)` (spec/20_memory.md R60). -/
def memWrite (s : State) (a : Nat) (v : Byte) : State := { s with mem := s.mem.write (a % 2 ^ s.cfg.addrW) v }

/-- `[MemRead(a + i, 1) : i = 0 .. n-1]` (spec/41_fifo_transport.md R157). -/
def memReadBytes (s : State) (a : Nat) : Nat → Packet
  | 0 => []
  | n + 1 => memRead s a :: memReadBytes s (a + 1) n

/-- `MemWrite(a + i, 1, p[i])` in ascending order (spec/41_fifo_transport.md R158). -/
def memWriteBytes (s : State) (a : Nat) : Packet → State
  | [] => s
  | b :: bs => memWriteBytes (memWrite s a b) (a + 1) bs

/-! ### Ownership (spec/20_memory.md R65) -/

/-- Address `a` is in the owned set of an endpoint with this record. -/
def EpRec.owns (r : EpRec) (c : Config) (a : Nat) : Bool :=
  (r.state == .transmitting || r.state == .receiving)
  && decide (wrapSub c a (wrapSub c r.buf.toNat r.moved.toNat) < r.len.toNat)

/-- The length of the serial-number string descriptor, `4*UID_SIZE + 2` (spec/43_request_dispatch.md R224). -/
def serialLen (c : Config) : Nat := 4 * c.uid.length + 2

/-- Address `a` is in the region at SERIAL_BUF that the UEE always owns (wrapping: log entry 13). -/
def serialOwns (c : Config) (a : Nat) : Bool := decide (wrapSub c a c.serialBuf.toNat < serialLen c)

/-- Address `a` is in some owned set. -/
def owned (s : State) (a : Nat) : Bool :=
  s.ep0.owns s.cfg a || s.deps.any (fun d => d.ep.owns s.cfg a) || serialOwns s.cfg a

/-! ### Faults, actions, notifications -/

/-- `raise Fault(reason)` (spec/00_scope.md R9): recorded, and the step goes on (log entry 4). -/
def raise (r : FaultReason) (s : State) : State := { s with faults := s.faults ++ [r] }

/-- `Act(a)` (spec/10_state.md R47). -/
def act (a : Action) (s : State) : State := { s with acts := s.acts ++ [a] }

/-- `Notify(rec)` (spec/60_exceptions.md R345, R347). -/
def notify (r : Record) (s : State) : State :=
  if s.nq.length < s.cfg.nqDepth then { s with nq := s.nq ++ [r] }
  else raise .notifyOverflow { s with nqOvf := true }

/-- `Rec(STATE_CHANGE, 0x00, code(old), code(new), 0, 0)` (spec/45_device_state.md R274). -/
def stateChange (old new : DevState) : Record :=
  ⟨.stateChange, 0x00, old.code.zeroExtend 8, new.code.zeroExtend 8, 0, 0⟩

/-- An observer record, which carries no endpoint, code or count (spec/30_encoding.md R106). -/
def observer (k : RecKind) : Record := ⟨k, 0x00, 0, 0, 0, 0⟩

/-- `if on : Notify(rec)`, the optional observer hooks (spec/00_scope.md R5). -/
def notifyIf (on : Bool) (r : Record) (s : State) : State := if on then notify r s else s

end Sys2Proof.Machine
end

