-- ==== Sys2Proof/Machine/Fifo.lean ====
section
/-! DEFINITION. The FIFO transport of spec/41_fifo_transport.md: the only operations that touch the packet buffers,
apart from bus events and flushes (R150). Each is a step within one service invocation. -/

namespace Sys2Proof.Machine

open Sys2Proof

/-- `FifoRead(EP0, n)`: the first `n` bytes of the packet; the buffer is not changed (R151). -/
def fifoRead (p : Packet) (n : Nat) : Packet := p.take n

/-- `copy_in(e, n)`: the bytes of an IN packet, read from memory in ascending order (R157). -/
def copyIn (s : State) (r : EpRec) (n : Nat) : Packet := memReadBytes s r.buf.toNat n

/-- `copy_out(e, p)`: an OUT packet drained to memory in ascending order (R158). -/
def copyOut (r : EpRec) (p : Packet) (s : State) : State := memWriteBytes s r.buf.toNat p

/-- `FifoWrite(e, bytes, 1)` on a data endpoint: the packet is committed (R153). -/
def fifoWrite (k : Nat) (d : DataEp) (bytes : Packet) (s : State) : State :=
  act (.commit (epaOf d.desc) bytes) (s.modifyEp k (fun d => { d with pkt := some bytes }))

/-- `FifoWrite(EP0, bytes, commit)`: the bytes are staged, whatever `commit` is (R153). -/
def fifoWrite0 (bytes : Packet) (s : State) : State := { s with tx0stage := s.tx0stage ++ bytes }

/-- `Ep0Commit(last)` (R154). -/
def ep0Commit (last : Bool) (s : State) : State :=
  let s' := act (.commit 0x80 s.tx0stage) { s with tx0 := some s.tx0stage, tx0stage := [] }
  if last then act .dataEnd s' else s'

/-- `ReleaseRx(e)` on a data endpoint (R155). -/
def releaseRx (k : Nat) (d : DataEp) (s : State) : State :=
  act (.rxRelease (epaOf d.desc)) (s.modifyEp k (fun d => { d with pkt := none }))

/-- `ReleaseRx(EP0)` (R155). -/
def releaseRx0 (s : State) : State := act (.rxRelease 0x00) { s with rx0 := none }

end Sys2Proof.Machine
end

