-- ==== Sys2Proof/Machine/EndpointTable.lean ====
section
/-! DEFINITION. The endpoint table's commands (spec/40_endpoint_table.md): WRITE, READ, ABORT, ABORT_ALL, IS_BUSY and
REMAINING, over the two shared operations `begin_transfer` and `abort`. -/

namespace Sys2Proof.Machine

open Sys2Proof

/-- What one step of the machine, or one instruction, answers. -/
abbrev StepResult := Host.Outcome State Fault Refusal

/-! ### Starting a transfer -/

/-- `ep0_data_legal(d)` (R124). -/
def ep0DataLegal (s : State) (d : Dir) : Bool := s.ctlOpen && s.setup.wLength != 0 && d == s.setup.dir

/-- The checks of `begin_transfer`, in the order of R122: the endpoint, or the first failing status. -/
def beginCheck (s : State) (a : Byte) (d : Dir) : Except Status EpRef :=
  match lookup s a with
  | none => .error .illegal
  | some e =>
    if epaDir a ≠ d then .error .illegal
    else if (e.rec0 s).state = .stalled then .error .endpointStalled
    else if (e.rec0 s).state ≠ .idle then .error .endpointBusy
    else
      match e with
      | .ep0 => if ep0DataLegal s d then .ok .ep0 else .error .illegal
      | .data k x => if s.dev.state = .configured then .ok (.data k x) else .error .deviceUnconfigured

/-- The effect of a `begin_transfer` that passes its checks: the record is armed, and an IN transfer latches its
endpoint (R122, R126). -/
def armEp (e : EpRef) (d : Dir) (addr : Addr) (n : Half) (cb : Bool) (s : State) : State :=
  match e with
  | .ep0 =>
    { s with
      ep0 := s.ep0.arm d addr n cb
      lat := { s.lat with ep0In := s.lat.ep0In || d == .in } }
  | .data k _ =>
    s.modifyEp k (fun x => { x with ep := x.ep.arm d addr n cb, latch := x.latch || d == .in })

/-- `begin_transfer(a, d, addr, n, cbv)` (R122, R125). -/
def beginTransfer (a : Byte) (d : Dir) (addr : Addr) (n : Half) (cb : Bool) (s : State) : Status × State :=
  match beginCheck s a d with
  | .error st => (st, s)
  | .ok e => (.ok, armEp e d addr n cb s)

/-- `RESULT <- {begin_transfer(EPA, d, arg_addr, arg_len, CB), 0, 0}`, shared by WRITE and READ (R121, R123). -/
def transferCommand (epa : Byte) (d : Dir) (cb : Bool) (s : State) : State :=
  let r := beginTransfer epa d s.argAddr s.argLen cb s
  r.2.setResult r.1 0

/-- WRITE epa, cb (R121). -/
def execWrite (epa : Byte) (cb : Bool) (s : State) : StepResult := .next (transferCommand epa .in cb s)

/-- READ epa, cb (R123). -/
def execRead (epa : Byte) (cb : Bool) (s : State) : StepResult := .next (transferCommand epa .out cb s)

/-! ### Aborting -/

/-- `abort(e)` on EP0 (R130): a SETUP not yet serviced is never discarded. -/
def abort0 (s : State) : State :=
  if s.ep0.state = .idle then s
  else
    act (.flush 0x00)
      { s with
        tx0 := none
        rx0 := if s.lat.ep0Setup then s.rx0 else none
        lat := { s.lat with ep0In := false, ep0Out := false }
        ep0 := s.ep0.aborted }

/-- What `abort(e)` leaves of a data endpoint (R130): an Idle one is untouched and keeps its `rem` (log entry 17,
DEDUCED). -/
def DataEp.aborted (d : DataEp) : DataEp :=
  if d.ep.state = .idle then d else { d with pkt := none, latch := false, ep := d.ep.aborted }

/-- The action of `abort(e)` on a data endpoint (R130). -/
def DataEp.abortActs (d : DataEp) : List Action :=
  if d.ep.state = .idle then [] else [.flush (epaOf d.desc)]

/-- `abort(e)` (R130). -/
def abort (e : EpRef) (s : State) : State :=
  match e with
  | .ep0 => abort0 s
  | .data k d => { s.modifyEp k DataEp.aborted with acts := s.acts ++ d.abortActs }

/-- `abort_all()`: every data endpoint, in `EPS` order (R132; log entry 16). -/
def abortAll (s : State) : State :=
  { s with deps := s.deps.map DataEp.aborted, acts := s.acts ++ s.deps.flatMap DataEp.abortActs }

/-- A command that names an endpoint: Illegal and nothing else for an unknown address (R120). -/
def onEndpoint (epa : Byte) (f : EpRef → State → State) (s : State) : State :=
  match lookup s epa with
  | none => s.setResult .illegal 0
  | some e => f e s

/-- ABORT epa (R131). -/
def execAbort (epa : Byte) (s : State) : StepResult :=
  .next (onEndpoint epa (fun e s => (abort e s).setResult .ok 0) s)

/-- ABORT_ALL (R133). -/
def execAbortAll (s : State) : StepResult := .next ((abortAll s).setResult .ok 0)

/-! ### Queries -/

/-- IS_BUSY epa (R134): busy is state ≠ Idle. -/
def execIsBusy (epa : Byte) (s : State) : StepResult :=
  .next (onEndpoint epa (fun e s => s.setResult .ok (if (e.rec0 s).state ≠ .idle then 1 else 0)) s)

/-- REMAINING epa (R135). -/
def execRemaining (epa : Byte) (s : State) : StepResult :=
  .next (onEndpoint epa (fun e s => s.setResult .ok (e.rec0 s).rem) s)

end Sys2Proof.Machine
end

