-- ==== Sys2Proof/Machine/Device.lean ====
section
/-! DEFINITION. The device state machine (spec/45_device_state.md): `set_state`, activation and deactivation, the bus
reset, suspend and resume services, and INIT, CONNECT and DISCONNECT. -/

namespace Sys2Proof.Machine

open Sys2Proof

/-! ### set_state -/

/-- What `deactivate_all()` leaves of a data endpoint (R283). -/
def DataEp.deactivated (d : DataEp) : DataEp :=
  { d with active := false, pkt := none, latch := false, stall := false, ep := { d.ep with pp := false } }

/-- The action of `deactivate_all()` on a data endpoint (R283). -/
def DataEp.deactivateActs (d : DataEp) : List Action :=
  if d.active then [.epEnable (epaOf d.desc) false] else []

/-- `deactivate_all()`, in `EPS` order (R283). -/
def deactivateAll (s : State) : State :=
  { s with deps := s.deps.map DataEp.deactivated, acts := s.acts ++ s.deps.flatMap DataEp.deactivateActs }

/-- What `activate_all()` leaves of a data endpoint (spec/43_request_dispatch.md R229). -/
def DataEp.activated (d : DataEp) : DataEp := { d with active := true }

/-- The actions of `activate_all()` on a data endpoint (spec/43_request_dispatch.md R229). -/
def DataEp.activateActs (d : DataEp) : List Action := [.epEnable (epaOf d.desc) true, .toggleReset (epaOf d.desc)]

/-- `activate_all()`, in `EPS` order (spec/43_request_dispatch.md R229). -/
def activateAll (s : State) : State :=
  { s with deps := s.deps.map DataEp.activated, acts := s.acts ++ s.deps.flatMap DataEp.activateActs }

/-- The aborts of `set_state` on leaving a state `>= Suspended` for one below (R270, R271). -/
def leaveConfigured (new : DevState) (s : State) : State :=
  if s.dev.state.atLeastSuspended && !new.atLeastSuspended then
    let s' := abortAll s
    { s' with dev := { s'.dev with alt := 0 } }
  else s

/-- The deactivation of `set_state` on entering a state below Suspended (R270). -/
def enterBelowSuspended (new : DevState) (s : State) : State :=
  if !new.atLeastSuspended then deactivateAll s else s

/-- `set_state(new)` (R270). -/
def setState (new : DevState) (s : State) : State :=
  let old := s.dev.state
  let s' := enterBelowSuspended new (leaveConfigured new s)
  let saved := if new = .suspended then old else s'.dev.saved
  notify (stateChange old new) { s' with dev := { s'.dev with saved := saved, state := new } }

/-! ### Services (inside one invocation) -/

/-- `ep0_soft_reset()` (spec/42_control_transfer.md R172). -/
def ep0SoftReset (s : State) : State :=
  { s with ep0 := EpRec.reset, lat := { s.lat with ep0Out := false, ep0In := false } }

/-- `service_reset()` (R275). -/
def serviceReset (s : State) : State :=
  let s1 := setState .default { s with lat := { s.lat with reset := false } }
  let s2 := { s1 with
    ep0 := EpRec.reset
    deps := s1.deps.map (fun d => { d with ep := EpRec.reset })
    ctlOpen := false
    dev := { s1.dev with config := 0, alt := 0 } }
  notifyIf s.cfg.hookReset (observer .resetHook) s2

/-- `service_suspend()` (R276). -/
def serviceSuspend (s : State) : State :=
  let s1 := { s with lat := { s.lat with suspend := false } }
  if s1.dev.state ≠ .suspended then setState .suspended s1 else s1

/-- `service_resume()` (R277). -/
def serviceResume (s : State) : State :=
  let s1 := { s with lat := { s.lat with resume := false } }
  if s1.dev.state = .suspended then setState s1.dev.saved s1 else s1

/-! ### Commands -/

/-- Every field of spec/10_state.md R49 at its reset value; `faults`, `acts` and `host_in` are kept, and so are the
configuration, memory and the model's own fields (R278, spec/70_reset_and_hazards.md R371). -/
def initState (s : State) : State :=
  { State.resetWith s.cfg s.mem with
    faults := s.faults
    acts := s.acts
    hostIn := s.hostIn
    readData := s.readData
    inputs := s.inputs
    hookIn := s.hookIn
    productIn := s.productIn
    draws := s.draws }

/-- INIT (R278). -/
def execInit (s : State) : StepResult :=
  .next ((notify (stateChange s.dev.state .attached) (act (.pullup false) (initState s))).setResult .ok 0)

/-- CONNECT (R279). -/
def execConnect (s : State) : StepResult :=
  .next ((act (.pullup true) { s with dev := { s.dev with pullup := true } }).setResult .ok 0)

/-- `if ep0_stall = 1 : ep0_stall <- 0 ; Act(Stall0(0))` (R280). -/
def clearStall (s : State) : State := if s.ep0Stall then act (.stall0 false) { s with ep0Stall := false } else s

/-- The effect of DISCONNECT before RESULT is written (R280). -/
def disconnectState (s : State) : State :=
  let s1 := act (.pullup false) { s with dev := { s.dev with pullup := false } }
  let s2 := ep0SoftReset (setState .attached s1)
  let s3 := { s2 with
    ctlOpen := false
    rx0 := none
    tx0 := none
    tx0stage := []
    lat := Latches.none
    deps := s2.deps.map (fun d => { d with latch := false, stall := false }) }
  let s4 := clearStall s3
  let s5 := act (.addrLoad 0) { s4 with dev := { s4.dev with addr := 0 } }
  { s5 with dev := { s5.dev with config := 0, alt := 0 } }

/-- DISCONNECT (R280). -/
def execDisconnect (s : State) : StepResult := .next ((disconnectState s).setResult .ok 0)

end Sys2Proof.Machine
end

