-- ==== Sys2Proof/Machine/Requests.lean ====
section
/-! DEFINITION. The standard request dispatcher and the override hook (spec/43_request_dispatch.md). It is called from
the SETUP service only, inside one atomic invocation. -/

namespace Sys2Proof.Machine

open Sys2Proof

/-! ### Draws (spec/00_scope.md R8) -/

/-- One answer of the override hook: the next one listed, else a free one (R211; log entry 9). -/
def drawHook (s : State) : HookAnswer × State :=
  match s.hookIn with
  | a :: rest => (a, { s with hookIn := rest })
  | [] => (Config.hookDraw s.draws, { s with draws := s.draws + 1 })

/-- One answer of the product-name accessor: the next one listed, else a free one (R222; log entry 9). -/
def drawProduct (s : State) : Option DescLoc × State :=
  match s.productIn with
  | a :: rest => (a, { s with productIn := rest })
  | [] => (Config.productDraw s.draws, { s with draws := s.draws + 1 })

/-! ### SET_ADDRESS -/

/-- The field checks of SET_ADDRESS (R218). -/
def addressFieldsOk (p : Setup) : Bool :=
  decide (p.wValue.toNat < 128) && p.wLength == 0 && p.recipient == 0 && p.wIndex == 0

/-- `dev.addr <- v ; Act(AddrLoad(v))` (R219). -/
def loadAddress (v : BitVec 7) (s : State) : State :=
  act (.addrLoad v) { s with dev := { s.dev with addr := v } }

/-- `set_address(s)` (R218). -/
def setAddress (p : Setup) (s : State) : Answer × State :=
  if !addressFieldsOk p then (.requestError, s)
  else
    let v : BitVec 7 := p.wValue.setWidth 7
    match s.dev.state with
    | .default => (.ok, loadAddress v (if v ≠ 0 then setState .addressed s else s))
    | .addressed => (.ok, loadAddress v (if v = 0 then setState .default s else s))
    | .attached | .suspended | .configured => (.requestError, s)

/-! ### GET_DESCRIPTOR -/

/-- The lower-case hex digit of a nibble, as an ASCII code (R224). -/
def hexDigit (x : BitVec 4) : Byte :=
  if x.toNat < 10 then BitVec.ofNat 8 (0x30 + x.toNat) else BitVec.ofNat 8 (0x61 + (x.toNat - 10))

/-- The bytes of the serial-number string descriptor (R224). -/
def serialBytes (c : Config) : Packet :=
  BitVec.ofNat 8 (serialLen c) :: 3
    :: c.uid.flatMap (fun u => [hexDigit (u.extractLsb' 4 4), 0x00, hexDigit (u.extractLsb' 0 4), 0x00])

/-- `serial()` (R224). -/
def serial (s : State) : DescLoc × State :=
  (locate s.cfg ⟨s.cfg.serialBuf, BitVec.ofNat 16 (serialLen s.cfg)⟩,
    memWriteBytes s s.cfg.serialBuf.toNat (serialBytes s.cfg))

/-- `STR[i]` if present (R222). -/
def strEntry (c : Config) (i : Byte) : Option DescLoc := (c.str.find? (fun e => e.1 == i)).map (fun e => e.2)

/-- `select(t, i)` for the string type (R222). -/
def selectString (i : Byte) (s : State) : Option DescLoc × State :=
  if i = Config.productIndex then
    let d := drawProduct s
    ((d.1.orElse fun _ => strEntry s.cfg i).map (locate s.cfg), d.2)
  else if i = Config.serialIndex then
    let d := serial s
    (some d.1, d.2)
  else ((strEntry s.cfg i).map (locate s.cfg), s)

/-- `select(t, i)` (R222; descriptor type codes R215). -/
def select (t i : Byte) (s : State) : Option DescLoc × State :=
  if t = 1 then (if i = 0 then some (locate s.cfg s.cfg.devDesc) else none, s)
  else if t = 2 then (if i = 0 then some (locate s.cfg s.cfg.cfgDesc) else none, s)
  else if t = 3 then selectString i s
  else (none, s)

/-- The length sent, `min(n, wLength)` (R223). -/
def clampLen (n w : Half) : Half := if n.toNat ≤ w.toNat then n else w

/-- `get_descriptor(s)` (R221, R223). -/
def getDescriptor (p : Setup) (s : State) : Answer × State :=
  if p.dir ≠ .in ∨ p.recipient ≠ 0 then (.requestError, s)
  else
    let r := select (p.wValue.extractLsb' 8 8) (p.wValue.extractLsb' 0 8) s
    match r.1 with
    | none => (.unhandled, r.2)
    | some l =>
      if p.wLength ≠ 0 then (.ok, (beginTransfer 0x80 .in l.addr (clampLen l.len p.wLength) false r.2).2)
      else (.ok, r.2)

/-! ### SET_CONFIGURATION -/

/-- `set_configuration(s)` (R226, R227, R228, R230). -/
def setConfiguration (p : Setup) (s : State) : Answer × State :=
  if p.wLength ≠ 0 ∨ p.recipient ≠ 0 ∨ p.wIndex ≠ 0 then (.requestError, s)
  else
    match s.dev.state with
    | .addressed =>
      if p.wValue = Config.configValue.zeroExtend 16 then
        (.ok, activateAll (setState .configured { s with dev := { s.dev with config := Config.configValue } }))
      else (.requestError, s)
    | .configured =>
      if p.wValue = 0 then (.ok, setState .addressed { s with dev := { s.dev with config := 0 } })
      else if p.wValue = Config.configValue.zeroExtend 16 then (.ok, activateAll s)
      else (.requestError, s)
    | .attached | .default | .suspended => (.requestError, s)

/-! ### Dispatch -/

/-- The codes of the six unimplemented standard requests: GET_STATUS, CLEAR_FEATURE, SET_FEATURE, GET_CONFIGURATION,
GET_INTERFACE, SET_INTERFACE (R215, R216). -/
def unimplemented : List Byte := [0, 1, 3, 8, 10, 11]

/-- `std_dispatch(s)` (R213, R215, R217). -/
def stdDispatch (p : Setup) (s : State) : Answer × State :=
  if p.type ≠ 0 then (.unhandled, s)
  else if p.request = 5 then setAddress p s
  else if p.request = 6 then getDescriptor p s
  else if p.request = 9 then setConfiguration p s
  else if unimplemented.contains p.request then (.requestError, s)
  else (.unhandled, s)

/-- `apply_arm(s, arm)` (R212): the status of `begin_transfer` is discarded. -/
def applyArm (p : Setup) (arm : Option Arm) (s : State) : State :=
  match arm with
  | none => s
  | some a =>
    (beginTransfer (match p.dir with | .in => 0x80#8 | .out => 0x00#8) p.dir (wrapAddr s.cfg a.addr.toNat) a.n a.cb s).2

/-- `dispatch(s)`: the override hook is consulted first, for every setup (R210). -/
def dispatch (p : Setup) (s : State) : Answer × State :=
  if s.cfg.hook then
    let d := drawHook s
    match d.1.outcome with
    | .ok => (.ok, applyArm p d.1.arm d.2)
    | .requestError => (.requestError, d.2)
    | .unhandled => stdDispatch p d.2
  else stdDispatch p s

end Sys2Proof.Machine
end

