-- ==== Sys2Proof/Machine/Control.lean ====
section
/-! DEFINITION. The control transfer sequencer of EP0 (spec/42_control_transfer.md): the stall-sent, SetupEnd, SETUP,
EP0 OUT and EP0 IN services. Each runs inside one atomic invocation, when its latch is set. -/

namespace Sys2Proof.Machine

open Sys2Proof

/-- `service_ep0_sentstall()` (R172). -/
def serviceEp0SentStall (s : State) : State :=
  { ep0SoftReset { s with lat := { s.lat with ep0SentStall := false } } with ctlOpen := false }

/-- `service_ep0_setupend()` (R173). -/
def serviceEp0SetupEnd (s : State) : State :=
  { ep0SoftReset { s with lat := { s.lat with ep0SetupEnd := false } } with ctlOpen := false }

/-- `no_data_phase()` (R179). EP0 is in Status between its first and last statement (R189), and Idle after it. -/
def noDataPhase (s : State) : State :=
  let s1 := act .dataEnd { s with ep0 := { s.ep0 with state := .status } }
  { s1 with ctlOpen := false, ep0 := { s1.ep0 with state := .idle } }

/-- `stall0()` (R181). -/
def stall0 (s : State) : State :=
  act (.stall0 true) { s with ep0 := s.ep0.stall, ctlOpen := false, ep0Stall := true }

/-- What the SETUP service does with the dispatcher's answer (R175, R179, R180, R181, R190). -/
def afterDispatch (p : Setup) (r : Answer × State) : State :=
  match r.1 with
  | .ok =>
    if p.wLength = 0 then noDataPhase r.2
    else if p.dir = .in then r.2
    else if r.2.ep0.state ≠ .receiving then { r.2 with ep0 := { r.2.ep0 with wr := true } }
    else r.2
  | .requestError | .unhandled => stall0 r.2

/-- The accepted SETUP, before its dispatch: EP0 soft-reset, the snapshot taken, its packet released, the control
transfer open (R175, R176). -/
def acceptSetup (p : Setup) (s : State) : State :=
  { releaseRx0 { ep0SoftReset s with setup := p } with ctlOpen := true }

/-- `service_ep0_setup()` (R175). -/
def serviceEp0Setup (s : State) : State :=
  let s1 := { s with lat := { s.lat with ep0Setup := false } }
  match s1.rx0 with
  | none => s1
  | some q =>
    match Setup.ofBytes (fifoRead q q.length) with
    | none => s1
    | some p => afterDispatch p (dispatch p (acceptSetup p s1))

/-- `complete0(x)` (R188). -/
def complete0 (x : Byte) (s : State) : State :=
  let s1 := { s with ep0 := { s.ep0 with state := .idle }, ctlOpen := false }
  let s2 := notifyIf s1.ep0.cb ⟨.xferDone, x, 0, 0, s1.ep0.moved, s1.ep0.rem⟩ s1
  { s2 with ep0 := { s2.ep0 with cb := false } }

/-- `service_ep0_in()` (R182). -/
def serviceEp0In (s : State) : State :=
  let s1 := { s with lat := { s.lat with ep0In := false } }
  if s1.ep0.state ≠ .transmitting ∨ s1.tx0 ≠ none then s1
  else
    let chunk := min s1.ep0.rem.toNat s1.cfg.mps0
    let s2 := fifoWrite0 (copyIn s1 s1.ep0 chunk) s1
    let s3 := { s2 with ep0 := s2.ep0.advance s2.cfg chunk }
    if chunk < s1.cfg.mps0 then complete0 0x80 (ep0Commit true s3) else ep0Commit false s3

/-- `Rec(XFER_ERROR, epa, code, 0, xf, count)` (spec/30_encoding.md R106, spec/60_exceptions.md R343). -/
def xferError (epa : Byte) (st : Status) (xf : Half) (count : Nat) : Record :=
  ⟨.xferError, epa, st.code, 0, xf, BitVec.ofNat 16 count⟩

/-- EP0 received the packet `q` while Receiving and it fits (R186, R187). -/
def ep0Receive (q : Packet) (s : State) : State :=
  let s1 := releaseRx0 (copyOut s.ep0 (fifoRead q q.length) s)
  let s2 := { s1 with ep0 := s1.ep0.advance s1.cfg q.length }
  if q.length < s.cfg.mps0 then complete0 0x00 (act .dataEnd s2) else s2

/-- `service_ep0_out()` (R184 to R186). -/
def serviceEp0Out (s : State) : State :=
  let s1 := { s with lat := { s.lat with ep0Out := false } }
  match s1.rx0 with
  | none => s1
  | some q =>
    if s1.ep0.state ≠ .receiving then
      notifyIf (!s1.ep0.wr) (xferError 0x00 .endpointError 0 q.length) { s1 with ep0 := s1.ep0.hold }
    else if q.length > s1.ep0.rem.toNat then
      notify (xferError 0x00 .rxBufferOverrun s1.ep0.moved q.length) { s1 with ep0 := s1.ep0.overrun }
    else ep0Receive q s1

end Sys2Proof.Machine
end

