-- ==== Sys2Proof/Machine/DataPump.lean ====
section
/-! DEFINITION. The data endpoint transfer pump (spec/44_data_endpoints.md): the data IN, data OUT and stall-sent
services. Each runs inside one atomic invocation, when its latch is set. An endpoint is given by its place in the
table. -/

namespace Sys2Proof.Machine

open Sys2Proof

/-- Act on the data endpoint at a place of the table. -/
def withEp (k : Nat) (f : DataEp → State → State) (s : State) : State :=
  match s.deps[k]? with
  | none => s
  | some d => f d s

/-- `complete_data(e)` (R257). -/
def completeData (k : Nat) (s : State) : State :=
  withEp k (fun d s =>
    (notifyIf d.ep.cb ⟨.xferDone, epaOf d.desc, 0, 0, d.ep.moved, d.ep.rem⟩ s).modifyRec k EpRec.completed) s

/-- `service_data_in(e)` (R251, R252). -/
def serviceDataIn (k : Nat) (s : State) : State :=
  withEp k (fun d s =>
    let s1 := s.modifyEp k DataEp.clearLatch
    if d.ep.state ≠ .transmitting ∨ d.pkt ≠ none then s1
    else if d.ep.rem ≠ 0 then
      let chunk := min d.desc.mps d.ep.rem.toNat
      (fifoWrite k d (copyIn s1 d.ep chunk) s1).modifyRec k (fun r => r.advance s1.cfg chunk)
    else completeData k s1) s

/-- A data OUT endpoint received the packet `q` while Receiving and it fits (R256, R260). -/
def dataReceive (k : Nat) (d : DataEp) (q : Packet) (s : State) : State :=
  let s1 := releaseRx k d (copyOut d.ep (fifoRead q q.length) s)
  let s2 := s1.modifyRec k (fun r => r.advance s1.cfg q.length)
  if d.ep.rem.toNat = q.length ∨ q.length < d.desc.mps then completeData k s2 else s2

/-- `service_data_out(e)` (R254 to R256). -/
def serviceDataOut (k : Nat) (s : State) : State :=
  withEp k (fun d s =>
    let s1 := s.modifyEp k DataEp.clearLatch
    match d.pkt with
    | none => s1
    | some q =>
      if d.ep.state ≠ .receiving then
        notify (xferError (epaOf d.desc) .endpointError 0 q.length) (s1.modifyRec k EpRec.hold)
      else if q.length > d.ep.rem.toNat then
        notify (xferError (epaOf d.desc) .rxBufferOverrun d.ep.moved q.length) (s1.modifyRec k EpRec.overrun)
      else dataReceive k d q s1) s

/-- `service_data_stall(e)` of every data endpoint whose `L_STALL[e]` is set (R258; spec/46_events_and_service.md
R315). -/
def serviceDataStalls (s : State) : State := { s with deps := s.deps.map (fun d => { d with stall := false }) }

end Sys2Proof.Machine
end

