-- ==== Sys2Proof/Machine/Service.lean ====
section
/-! DEFINITION. The service sequencer: one invocation over the pending latches in their fixed order, the SOF service,
and the POLL command (spec/46_events_and_service.md R313 to R320). -/

namespace Sys2Proof.Machine

open Sys2Proof

/-- Run a service step if its latch is set when its turn comes (R315, R316). -/
def serviceWhen (latch : State → Bool) (f : State → State) (s : State) : State := if latch s then f s else s

/-- The packet latch of a data endpoint. -/
def latchOf (k : Nat) (s : State) : Bool := (s.deps[k]?.map DataEp.latch).getD false

/-- Serve the data endpoints at these places of the table, in this order (R315). -/
def serviceEach (f : Nat → State → State) : List Nat → State → State
  | [], s => s
  | k :: ks, s => serviceEach f ks (serviceWhen (latchOf k) (f k) s)

/-- What the SOF re-arm does to an OUT data endpoint that holds a packet and is Receiving (R317). -/
def DataEp.rearmed (d : DataEp) : DataEp :=
  if d.desc.dir = .out ∧ d.ep.pp = true ∧ d.ep.state = .receiving ∧ d.pkt ≠ none then
    { d with ep := { d.ep with pp := false }, latch := true }
  else d

/-- The SOF re-arm of EP0 (R317). -/
def rearm0 (s : State) : State :=
  if s.ep0.pp = true ∧ s.ep0.state = .receiving ∧ s.rx0 ≠ none then
    { s with ep0 := { s.ep0 with pp := false }, lat := { s.lat with ep0Out := true } }
  else s

/-- `service_sof()` (R317). -/
def serviceSof (s : State) : State :=
  let s1 := rearm0 { s with lat := { s.lat with sof := false } }
  let s2 := { s1 with deps := s1.deps.map DataEp.rearmed }
  notifyIf s2.cfg.hookSof { observer .sofHook with rm := s2.sofFrame.zeroExtend 16 } s2

/-- The device-wide and EP0 service steps, in order (R315). -/
def serviceControl (s : State) : State :=
  let s := serviceWhen (fun s => s.lat.reset) serviceReset s
  let s := serviceWhen (fun s => s.lat.suspend) serviceSuspend s
  let s := serviceWhen (fun s => s.lat.resume) serviceResume s
  let s := serviceWhen (fun s => s.lat.ep0SentStall) serviceEp0SentStall s
  let s := serviceWhen (fun s => s.lat.ep0SetupEnd) serviceEp0SetupEnd s
  let s := serviceWhen (fun s => s.lat.ep0Setup) serviceEp0Setup s
  let s := serviceWhen (fun s => s.lat.ep0Out) serviceEp0Out s
  serviceWhen (fun s => s.lat.ep0In) serviceEp0In s

/-- The data endpoints' service steps, in order (R315). -/
def serviceData (s : State) : State :=
  let s := serviceEach serviceDataOut (epOrder .out s.deps) s
  let s := serviceEach serviceDataIn (epOrder .in s.deps) s
  serviceDataStalls s

/-- One service invocation (R315, R320). -/
def service (s : State) : State :=
  let s := notifyIf s.cfg.hookIsr (observer .serviceEnter) s
  let s := serviceData (serviceControl s)
  let s := serviceWhen (fun s => s.lat.sof) serviceSof s
  notifyIf s.cfg.hookIsr (observer .serviceExit) s

/-- POLL (R319). -/
def execPoll (s : State) : StepResult := .next ((service s).setResult .ok 0)

end Sys2Proof.Machine
end

