-- ==== Sys2Proof/Machine/Events.lean ====
section
/-! DEFINITION. The nine bus events (spec/46_events_and_service.md R300 to R310). An event that is not admitted, or whose
payload is not well-formed, has no step (R300): the model stops with `Fault.eventNotAdmitted` (log entry 3). -/

namespace Sys2Proof.Machine

open Sys2Proof

/-- An event's step: its event-time effects if it is admitted, else no step (R300, R301). -/
def deliver (admitted : Bool) (s' : State) : StepResult := if admitted then .next s' else .fault .eventNotAdmitted

/-- What EV_BUS_RESET leaves of a data endpoint: buffer empty, latches 0, not active (R302). -/
def DataEp.busReset (d : DataEp) : DataEp := { d with pkt := none, latch := false, stall := false, active := false }

/-- The effect of EV_BUS_RESET: every latch but `L_SOF` is cleared, then `L_RESET` is set (R302). -/
def busResetState (s : State) : State :=
  { s with
    rx0 := none
    tx0 := none
    tx0stage := []
    deps := s.deps.map DataEp.busReset
    lat := { Latches.none with sof := s.lat.sof, reset := true }
    ep0Stall := false
    dev := { s.dev with addr := 0 } }

/-- EV_BUS_RESET (R302). -/
def execEvBusReset (s : State) : StepResult := deliver (busUp s) (busResetState s)

/-- EV_SUSPEND (R303). -/
def execEvSuspend (s : State) : StepResult :=
  deliver (busUp s && !s.lat.resume) { s with lat := { s.lat with suspend := true } }

/-- EV_RESUME (R304). -/
def execEvResume (s : State) : StepResult :=
  deliver (busUp s && (s.dev.state == .suspended || s.lat.suspend)) { s with lat := { s.lat with resume := true } }

/-- EV_SOF (R305). -/
def execEvSof (frame : BitVec 11) (s : State) : StepResult :=
  deliver (busLive s) { s with sofFrame := frame, lat := { s.lat with sof := true } }

/-- EV_SETUP finds a control transfer to end (R306). -/
def setupEndsTransfer (s : State) : Bool :=
  !s.lat.reset && (s.ctlOpen || s.ep0.state == .transmitting || s.ep0.state == .receiving)

/-- The effect of EV_SETUP (R306). -/
def setupState (pay : Packet) (s : State) : State :=
  { s with
    tx0 := none
    tx0stage := []
    rx0 := some pay
    ep0Stall := false
    lat := { s.lat with ep0SetupEnd := s.lat.ep0SetupEnd || setupEndsTransfer s, ep0Setup := true } }

/-- EV_SETUP (R306). -/
def execEvSetup (pay : Packet) (s : State) : StepResult := deliver (pay.length == 8 && busLive s) (setupState pay s)

/-- The admission condition of EV_SETUPEND (R307). -/
def setupEndAdmitted (s : State) : Bool := busLive s && !s.lat.reset && s.ctlOpen && !s.lat.ep0Setup

/-- EV_SETUPEND (R307). -/
def execEvSetupEnd (s : State) : StepResult :=
  deliver (setupEndAdmitted s) { s with tx0 := none, rx0 := none, lat := { s.lat with ep0SetupEnd := true } }

/-- The admission condition of EV_OUT on EP0 (R308). -/
def out0Admitted (pay : Packet) (s : State) : Bool :=
  busLive s && s.rx0.isNone && !s.lat.reset && s.ctlOpen && s.setup.dir == .out && !s.ep0Stall && !s.lat.ep0Setup
  && decide (pay.length ≤ s.cfg.mps0)

/-- The admission condition of EV_OUT on a data endpoint (R308). -/
def outAdmitted (pay : Packet) (d : DataEp) (s : State) : Bool :=
  busLive s && d.pkt.isNone && d.active && decide (pay.length ≤ d.desc.mps)

/-- A packet arrives in a data endpoint's buffer (R308). -/
def DataEp.receive (pay : Packet) (d : DataEp) : DataEp := { d with pkt := some pay, latch := true }

/-- EV_OUT (R308). -/
def execEvOut (epa : Byte) (pay : Packet) (s : State) : StepResult :=
  match lookup s epa with
  | none => .fault .eventNotAdmitted
  | some .ep0 =>
    deliver (!epa.msb && out0Admitted pay s) { s with rx0 := some pay, lat := { s.lat with ep0Out := true } }
  | some (.data k d) =>
    deliver (!epa.msb && outAdmitted pay d s) (s.modifyEp k (DataEp.receive pay))

/-- The host takes a data endpoint's committed packet (R309). -/
def DataEp.taken (d : DataEp) : DataEp := { d with pkt := none, latch := true }

/-- EV_IN_TAKEN (R309). -/
def execEvInTaken (epa : Byte) (s : State) : StepResult :=
  match lookup s epa with
  | none => .fault .eventNotAdmitted
  | some .ep0 =>
    deliver (epa.msb && busLive s && s.tx0.isSome && !s.ep0Stall)
      { s with hostIn := s.hostIn ++ [(0x80, s.tx0.getD [])], tx0 := none, lat := { s.lat with ep0In := true } }
  | some (.data k d) =>
    deliver (epa.msb && busLive s && d.pkt.isSome && d.active)
      { s.modifyEp k DataEp.taken with hostIn := s.hostIn ++ [(epaOf d.desc, d.pkt.getD [])] }

/-- EV_SENTSTALL (R310). -/
def execEvSentStall (epa : Byte) (s : State) : StepResult :=
  match lookup s epa with
  | none => .fault .eventNotAdmitted
  | some .ep0 => deliver (busLive s && s.ep0Stall) { s with lat := { s.lat with ep0SentStall := true } }
  | some (.data k d) =>
    deliver (busLive s && d.active && d.desc.type != .isochronous) (s.modifyEp k (fun d => { d with stall := true }))

end Sys2Proof.Machine
end

