-- ==== Sys2Proof/Machine/Dispatch.lean ====
section
/-! DEFINITION. The meaning of every instruction: one arm per constructor of `Instr`, each one call of its meaning. -/

namespace Sys2Proof.Machine

def exec (i : Instr) (s : State) : Host.Outcome State Fault Refusal :=
  match i with
  | .init => Sys2Proof.Machine.execInit s
  | .connect => Sys2Proof.Machine.execConnect s
  | .disconnect => Sys2Proof.Machine.execDisconnect s
  | .write epa cb => Sys2Proof.Machine.execWrite epa cb s
  | .read epa cb => Sys2Proof.Machine.execRead epa cb s
  | .abort epa => Sys2Proof.Machine.execAbort epa s
  | .abortAll => Sys2Proof.Machine.execAbortAll s
  | .isBusy epa => Sys2Proof.Machine.execIsBusy epa s
  | .remaining epa => Sys2Proof.Machine.execRemaining epa s
  | .poll => Sys2Proof.Machine.execPoll s
  | .evBusReset => Sys2Proof.Machine.execEvBusReset s
  | .evSuspend => Sys2Proof.Machine.execEvSuspend s
  | .evResume => Sys2Proof.Machine.execEvResume s
  | .evSof frame => Sys2Proof.Machine.execEvSof frame s
  | .evSetup pay => Sys2Proof.Machine.execEvSetup pay s
  | .evSetupEnd => Sys2Proof.Machine.execEvSetupEnd s
  | .evOut epa pay => Sys2Proof.Machine.execEvOut epa pay s
  | .evInTaken epa => Sys2Proof.Machine.execEvInTaken epa s
  | .evSentStall epa => Sys2Proof.Machine.execEvSentStall epa s

end Sys2Proof.Machine
end

