-- ==== Sys2Proof/Machine/Window.lean ====
section
/-! DEFINITION. The register window (spec/10_state.md R22 to R32) and the CPU's accesses to it and to memory
(spec/20_memory.md R63, R65), the delivery of an event word, and the delivery of one step of any agent. -/

namespace Sys2Proof.Machine

open Sys2Proof

/-! ### Register views -/

/-- NOTIFY_STAT: NE, OVF and COUNT (spec/10_state.md R27). -/
def notifyStat (s : State) : Word :=
  0#16 ++ BitVec.ofNat 8 s.nq.length ++ (0#6 ++ BitVec.ofBool s.nqOvf ++ BitVec.ofBool (!s.nq.isEmpty))

/-- The word NOTIFY0 of a record (spec/30_encoding.md R105). -/
def Record.word0 (r : Record) : Word := r.kind.code ++ r.epa ++ (r.code ++ r.aux)

/-- The word NOTIFY1 of a record (spec/30_encoding.md R105). -/
def Record.word1 (r : Record) : Word := r.xf ++ r.rm

/-- A word of the head record, 0 when the queue is empty (spec/10_state.md R28). -/
def headWord (f : Record → Word) (s : State) : Word :=
  match s.nq with
  | [] => 0
  | r :: _ => f r

/-- DEVSTATE (spec/10_state.md R22, R30). -/
def devStateWord (s : State) : Word :=
  (0#1 ++ s.ep0.state.code ++ (0#2 ++ BitVec.ofBool s.ctlOpen ++ BitVec.ofBool s.dev.pullup))
  ++ s.dev.config ++ (0#1 ++ s.dev.addr ++ (0#1 ++ s.dev.saved.code ++ (0#1 ++ s.dev.state.code)))

/-- The value a 32-bit aligned load at an offset returns; an offset that is not listed reads 0 (spec/10_state.md R22,
R23, R32). -/
def regValue (s : State) (off : Nat) : Word :=
  if off = 0x04 then s.argAddr
  else if off = 0x08 then s.argLen.zeroExtend 32
  else if off = 0x0C then s.result
  else if off = 0x10 then notifyStat s
  else if off = 0x14 then headWord Record.word0 s
  else if off = 0x18 then headWord Record.word1 s
  else if off = 0x20 then devStateWord s
  else if off = 0x24 then (BitVec.ofBool s.nie).zeroExtend 32
  else 0

/-- A write to NOTIFY_POP (spec/10_state.md R29). -/
def notifyPop (w : Word) (s : State) : State :=
  let s1 := if w.getLsbD 0 then { s with nq := s.nq.tail } else s
  if w.getLsbD 1 then { s1 with nqOvf := false } else s1

/-- A 32-bit aligned store at an offset other than CMD; a read-only register and an offset that is not listed ignore it
(spec/10_state.md R22, R24, R25, R29, R31, R32). -/
def regStore (off : Nat) (w : Word) (s : State) : State :=
  if off = 0x04 then { s with argAddr := wrapAddr s.cfg w.toNat }
  else if off = 0x08 then { s with argLen := w.setWidth 16 }
  else if off = 0x1C then notifyPop w s
  else if off = 0x24 then { s with nie := w.getLsbD 0 }
  else s

/-! ### The CPU -/

/-- A write to CMD: the command runs, or the word is malformed and RESULT is Illegal (spec/10_state.md R23,
spec/30_encoding.md R96). -/
def runCommand (w : Word) (s : State) : StepResult :=
  match decode .cmd w [] with
  | .ok i => exec i s
  | .error _ => .next (s.setResult .illegal 0)

/-- The address is one of the 256 bytes at `USB_BASE` (spec/10_state.md R22). -/
def inWindow (s : State) (addr : Nat) : Bool := decide (s.cfg.usbBase ≤ addr) && decide (addr < s.cfg.usbBase + 256)

/-- The access is an aligned 32-bit access (spec/20_memory.md R63). -/
def aligned32 (s : State) (addr bits : Nat) : Bool := bits == 32 && (addr - s.cfg.usbBase) % 4 == 0

/-- A CPU load from the register window (spec/10_state.md R22, spec/20_memory.md R63). -/
def cpuRegRead (addr bits : Nat) (s : State) : StepResult :=
  if !inWindow s addr then .fault .outsideWindow
  else if !aligned32 s addr bits then .next (raise .badRegisterAccess { s with readData := none })
  else .next { s with readData := some (regValue s (addr - s.cfg.usbBase)) }

/-- A CPU store to the register window (spec/10_state.md R22, R23, spec/20_memory.md R63). -/
def cpuRegWrite (addr bits : Nat) (w : Word) (s : State) : StepResult :=
  if !inWindow s addr then .fault .outsideWindow
  else if !aligned32 s addr bits then .next (raise .badRegisterAccess s)
  else if addr = s.cfg.usbBase then runCommand w s
  else .next (regStore (addr - s.cfg.usbBase) w s)

/-- A CPU access to an owned byte happens, and records OwnershipViolation (spec/20_memory.md R65). -/
def checkOwned (addr : Nat) (s : State) : State := if owned s addr then raise .ownershipViolation s else s

/-- A CPU load of one byte of memory (spec/10_state.md R48, spec/20_memory.md R65). -/
def cpuMemRead (addr : Nat) (s : State) : StepResult :=
  if addr < 2 ^ s.cfg.addrW then
    .next (checkOwned addr { s with readData := some ((memRead s addr).zeroExtend 32) })
  else .fault .outsideMemory

/-- A CPU store of one byte of memory (spec/10_state.md R48, spec/20_memory.md R65). -/
def cpuMemWrite (addr : Nat) (v : Byte) (s : State) : StepResult :=
  if addr < 2 ^ s.cfg.addrW then .next (checkOwned addr (memWrite s addr v)) else .fault .outsideMemory

/-! ### The bus and the sequencer -/

/-- An event word and payload arrive; a malformed one has no step (spec/30_encoding.md R100). -/
def runEvent (w : Word) (pay : Packet) (s : State) : StepResult :=
  match decode .bus w pay with
  | .ok i => exec i s
  | .error _ => .fault .malformedEvent

/-- The service sequencer takes its turn, if it is enabled (spec/46_events_and_service.md R314). -/
def runService (s : State) : StepResult := if sequencerEnabled s then .next (service s) else .fault .sequencerNotEnabled

/-- One step of the agent that is scheduled (spec/00_scope.md R7). -/
def deliverStimulus (x : Stimulus) (s : State) : StepResult :=
  match x with
  | .regRead addr bits => cpuRegRead addr bits s
  | .regWrite addr bits w => cpuRegWrite addr bits w s
  | .memRead addr => cpuMemRead addr s
  | .memWrite addr v => cpuMemWrite addr v s
  | .event w pay => runEvent w pay s
  | .service => runService s

/-- No agent is scheduled: the sequencer steps by itself if it is enabled (spec/46_events_and_service.md R314), else
there is no step (spec/00_scope.md R9). -/
def idleStep (s : State) : StepResult := if sequencerEnabled s then .next (service s) else .fault .noAgentEnabled

/-- How a word of the opcode table is delivered: on the port `decodeTableWord` reads it on (log entries 5, 6). -/
def tableStimulus (s : State) (nbits w : Nat) : Stimulus :=
  match decode .cmd (tableWord nbits w) [] with
  | .ok _ => .regWrite s.cfg.usbBase 32 (tableWord nbits w)
  | .error _ => .event (tableWord nbits w) (tablePayload nbits w)

end Sys2Proof.Machine
end

