-- ==== Sys2Proof/Machine/Step.lean ====
section
/-! DEFINITION. One step of the machine: the agent that is scheduled takes its step; if none is scheduled, the service
sequencer takes one when it is enabled (spec/00_scope.md R7, spec/46_events_and_service.md R314). -/

namespace Sys2Proof.Machine

open Sys2Proof

/-- One atomic step (spec/20_memory.md R66): the soonest stimulus is taken from the schedule and delivered. -/
def step (s : State) : Host.Outcome State Fault Refusal :=
  match s.inputs with
  | [] => idleStep s
  | x :: rest => deliverStimulus x { s with inputs := rest }

/-- The state with one more delivery, to be taken next: the CPU's store of the word to CMD, or the bus's delivery of the
word with its payload (log entry 5). -/
def State.withFetchWord (s : State) (nbits w : Nat) : State := { s with inputs := tableStimulus s nbits w :: s.inputs }

end Sys2Proof.Machine
end

