-- ==== Sys2Proof/Safety.lean ====
section
/-! DEFINITION. What claims are stated in terms of: the invariant of spec/10_state.md R44 with the facts it rests on,
clean, quiescent and final states (spec/00_scope.md R9, spec/70_reset_and_hazards.md R384), and the states a run starts
from (spec/70_reset_and_hazards.md R370). -/

namespace Sys2Proof.Machine

open Sys2Proof

/-! ### Clean, quiescent and final states -/

/-- No fault was recorded (spec/00_scope.md R9). -/
def Clean (s : State) : Prop := s.faults = []

/-- What the bus agent does, as opposed to the CPU and the service sequencer (spec/00_scope.md R7). -/
def Stimulus.isEvent : Stimulus → Bool
  | .event _ _ => true
  | .regRead _ _ | .regWrite _ _ _ | .memRead _ | .memWrite _ _ | .service => false

/-- The three conditions of spec/70_reset_and_hazards.md R384: no latch is set; the sequencer is therefore not enabled;
and the bus agent delivers no further event (log entry 19, DEDUCED). CPU accesses may still be to come. -/
def Quiescent (s : State) : Prop :=
  latchPending s = false ∧ sequencerEnabled s = false ∧ ∀ x ∈ s.inputs, x.isEvent = false

/-- A final state: no fault was recorded (spec/00_scope.md R9: a faulted state is never final), and it is quiescent, which
R9 does not ask and no other rule says (log entry 20, DESIGN CHOICE). -/
def Final (s : State) : Prop := Quiescent s ∧ Clean s

/-- A state a run starts from: power-on reset of some configuration with some memory, and any schedule and draws
(spec/70_reset_and_hazards.md R370, spec/00_scope.md R8). -/
def Starts (s : State) : Prop :=
  ∃ cfg mem inputs hookIn productIn,
    s = { State.resetWith cfg mem with inputs := inputs, hookIn := hookIn, productIn := productIn }

/-! ### Runs of instructions -/

/-- Run instructions one after another; the first that stops ends the run. -/
def execAll : List Instr → State → StepResult
  | [], s => .next s
  | i :: is, s =>
    match exec i s with
    | .next t => execAll is t
    | .fault f => .fault f
    | .refused r => .refused r

/-- `n` times: an invocation, then the host takes the packet it committed (spec/42_control_transfer.md R182,
spec/44_data_endpoints.md R251). -/
def hostReads (epa : Byte) : Nat → List Instr
  | 0 => []
  | n + 1 => .poll :: .evInTaken epa :: hostReads epa n

/-- The states that a run can reach by steps (spec/10_state.md R44). -/
inductive Reaches (s : State) : State → Prop where
  | refl : Reaches s s
  | step {t u : State} : Reaches s t → step t = .next u → Reaches s u

/-! ### Which latches are set -/

/-- The latches that are not a data endpoint's are `l`, no data endpoint's latch is set, and the enter/exit observer is
off. -/
def OnlyLatches (l : Latches) (s : State) : Prop :=
  s.lat = l ∧ s.cfg.hookIsr = false ∧ ∀ d ∈ s.deps, d.latch = false ∧ d.stall = false

/-- The packet latch of the data endpoint at one place of the table is the only latch set, and the enter/exit observer
is off. -/
def OnlyDataLatch (k : Nat) (s : State) : Prop :=
  s.lat = Latches.none ∧ s.cfg.hookIsr = false ∧ (∀ d ∈ s.deps, d.stall = false)
  ∧ ∀ j d, s.deps[j]? = some d → (d.latch = true ↔ j = k)

/-- The SETUP latch is the only latch set, and the 8 bytes of `p` are in `rxbuf[0]`. -/
def SetupArrived (p : Setup) (s : State) : Prop :=
  OnlyLatches { Latches.none with ep0Setup := true } s
  ∧ s.rx0 = some [p.b0, p.b1, p.b2, p.b3, p.b4, p.b5, p.b6, p.b7] ∧ s.tx0 = none ∧ s.tx0stage = []

/-- Every service latch served, and the SETUP accepted: its packet released, the snapshot taken, EP0 Idle, the control
transfer open (spec/42_control_transfer.md R175, R176). -/
def accepted (p : Setup) (s : State) : State :=
  { s with
    lat := Latches.none, rx0 := none, setup := p, ep0 := EpRec.reset, ctlOpen := true
    acts := s.acts ++ [.rxRelease 0x00] }

/-! ### Draws -/

/-- The override hook's next answer is `a`: the first one listed, or the free one when none is listed; `rest` and `n` are
`hookIn` and `draws` after it (spec/43_request_dispatch.md R211; log entry 9, DESIGN CHOICE). -/
def HookDraw (a : HookAnswer) (rest : List HookAnswer) (n : Nat) (s : State) : Prop :=
  (s.hookIn = a :: rest ∧ n = s.draws)
  ∨ (s.hookIn = [] ∧ rest = [] ∧ a = Config.hookDraw s.draws ∧ n = s.draws + 1)

/-- The product-name accessor's next answer is `a`: the first one listed, or the free one when none is listed; `rest` and
`n` are `productIn` and `draws` after it (spec/43_request_dispatch.md R222; log entry 9, DESIGN CHOICE). -/
def ProductDraw (a : Option DescLoc) (rest : List (Option DescLoc)) (n : Nat) (s : State) : Prop :=
  (s.productIn = a :: rest ∧ n = s.draws)
  ∨ (s.productIn = [] ∧ rest = [] ∧ a = Config.productDraw s.draws ∧ n = s.draws + 1)

/-! ### The invariant -/

/-- One record per entry of `EPS`, in its order (spec/10_state.md R37). -/
def TableShape (s : State) : Prop := s.deps.map DataEp.desc = s.cfg.eps

/-- Memory is canonical and lists addresses in `[0, 2^ADDR_W)` only (spec/10_state.md R48). -/
def MemoryOk (s : State) : Prop := Memory.wf s.mem ∧ ∀ c ∈ s.mem, c.1 < 2 ^ s.cfg.addrW

/-- `rem <= len` (spec/10_state.md R44.1) and `buf` fits `ADDR_W` bits (R36). -/
def RecordOk (c : Config) (r : EpRec) : Prop := r.rem.toNat ≤ r.len.toNat ∧ r.buf.toNat < 2 ^ c.addrW

/-- Every record is in range, and so is ARG_ADDR (spec/10_state.md R24, R36, R44.1). -/
def CountsOk (s : State) : Prop :=
  s.argAddr.toNat < 2 ^ s.cfg.addrW ∧ RecordOk s.cfg s.ep0 ∧ ∀ d ∈ s.deps, RecordOk s.cfg d.ep

/-- No endpoint is Halted or in Status; a data endpoint is Idle or runs in its own direction, and its `wr` is 0
(spec/10_state.md R35, R36, R44.2). -/
def StatesOk (s : State) : Prop :=
  (s.ep0.state ≠ .halted ∧ s.ep0.state ≠ .status)
  ∧ ∀ d ∈ s.deps, (d.ep.state = .idle ∨ d.ep.state = Dir.running d.desc.dir) ∧ d.ep.wr = false

/-- EP0 runs a transfer only inside an open control transfer, in the setup's direction; `wr` needs Idle and an open
control transfer; an OUT packet is latched only in an OUT request; nothing is staged between steps (spec/10_state.md
R44.3, R44.9, spec/46_events_and_service.md R308). -/
def Ep0Ok (s : State) : Prop :=
  (s.ep0.state = .transmitting → s.ctlOpen = true ∧ s.setup.dir = .in)
  ∧ (s.ep0.state = .receiving → s.ctlOpen = true ∧ s.setup.dir = .out)
  ∧ (s.ep0.wr = true → s.ep0.state = .idle ∧ s.ctlOpen = true)
  ∧ (s.lat.ep0Out = true → s.setup.dir = .out)
  ∧ s.tx0stage = []

/-- An Idle IN data endpoint holds no packet and has no latch (spec/10_state.md R44.4). -/
def IdleInOk (s : State) : Prop :=
  ∀ d ∈ s.deps, d.desc.dir = .in → d.ep.state = .idle → d.pkt = none ∧ d.latch = false

/-- `dev.alt` is 0; `dev.config` is 0 or `CONFIG_VALUE`, and `CONFIG_VALUE` exactly in Configured and in a suspended
Configured; an active or busy data endpoint needs it (spec/10_state.md R34, R44.5 to R44.7, spec/45_device_state.md
R273, R282). -/
def DeviceOk (s : State) : Prop :=
  s.dev.alt = 0
  ∧ s.dev.saved ≠ .suspended
  ∧ (s.dev.config = 0 ∨ s.dev.config = Config.configValue)
  ∧ (s.dev.config = Config.configValue
      ↔ s.dev.state = .configured ∨ (s.dev.state = .suspended ∧ s.dev.saved = .configured))
  ∧ ∀ d ∈ s.deps, (d.active = true ∨ d.ep.state ≠ .idle) → s.dev.config = Config.configValue

/-- A held packet is in its buffer (spec/10_state.md R44.8), unless a bus reset is pending, or, on EP0, a SetupEnd is
pending: EV_SETUPEND empties `rxbuf[0]` (spec/46_events_and_service.md R307; log entry 15). A held packet is not latched,
and no data endpoint is active while a bus reset is pending. -/
def HeldOk (s : State) : Prop :=
  (s.ep0.pp = true → s.rx0 ≠ none ∨ s.lat.reset = true ∨ s.lat.ep0SetupEnd = true)
  ∧ (s.ep0.pp = true → s.lat.ep0Out = true → s.lat.ep0SetupEnd = true)
  ∧ (∀ d ∈ s.deps, s.lat.reset = true → d.active = false)
  ∧ ∀ d ∈ s.deps, d.ep.pp = true → d.desc.dir = .out ∧ d.latch = false ∧ (d.pkt ≠ none ∨ s.lat.reset = true)

/-- The queue holds at most `NQ_DEPTH` records (spec/10_state.md R44.10). -/
def QueueOk (s : State) : Prop := s.nq.length ≤ s.cfg.nqDepth

/-- Partial-transfer accounting of a Transmitting data endpoint: what was committed is a multiple of `mps(e)`, or all
(spec/44_data_endpoints.md R261). -/
def AccountsOk (s : State) : Prop :=
  ∀ d ∈ s.deps, d.ep.state = .transmitting →
    d.ep.rem.toNat ≤ d.ep.len.toNat ∧ (d.desc.mps ∣ d.ep.len.toNat - d.ep.rem.toNat ∨ d.ep.rem = 0)

/-- The invariant that every step keeps (spec/10_state.md R44, spec/44_data_endpoints.md R261). -/
structure Inv (s : State) : Prop where
  table  : TableShape s
  memory : MemoryOk s
  counts : CountsOk s
  states : StatesOk s
  ep0    : Ep0Ok s
  idleIn : IdleInOk s
  device : DeviceOk s
  held   : HeldOk s
  queue  : QueueOk s
  accounts : AccountsOk s

end Sys2Proof.Machine
end

