-- ==== Sys2Proof/Certificates/Slice0/Obligations.lean ====
section
/-! DEFINITION. The statements for the provers. Each docstring names the rules of spec/ that a statement formalises.
"Has no step" is said as "answers no next state"; which named fault the model stops with is the model's (log entry 3).
What the schedule `inputs` and the value `readData` say is the model's too (log entries 2 and 10). -/

section

open Sys2Proof Sys2Proof.Machine

/-! ### Encoding -/

/-- Decoding the word of a well-formed instruction gives it back, for every operand (spec/30_encoding.md R91 to R99). -/
def Obligations.DecodeOfEncodeGivesInstruction : Prop :=
  ∀ i : Instr, i.wellFormed = true → decode (encode i).port (encode i).word (encode i).pay = .ok i

/-- A word that decodes is the word of the well-formed instruction it decodes to (spec/30_encoding.md R91 to R99). -/
def Obligations.EncodeOfDecodeGivesWord : Prop :=
  ∀ (p : Port) (w : Word) (pay : Packet) (i : Instr),
    decode p w pay = .ok i → i.wellFormed = true ∧ encode i = ⟨p, w, pay⟩

/-- A word decodes exactly when it matches a row of the two tables of match and mask pairs, and its payload has the
length its word asks for (spec/30_encoding.md R95, R97, R99). -/
def Obligations.MasksDecideDecoding : Prop :=
  (∀ w : Word, (∃ i, decode .cmd w [] = .ok i) ↔ ∃ row ∈ commandTable, w &&& row.2 = row.1)
  ∧ ∀ (w : Word) (pay : Packet),
      (∃ i, decode .bus w pay = .ok i)
        ↔ (∃ row ∈ eventTable, w &&& row.2 = row.1) ∧ pay.length = payloadLength w

/-- The words of the examples of spec/40_endpoint_table.md R121 to R135, spec/45_device_state.md R278 and
spec/46_events_and_service.md R319, and one word of each shape of event, decode to what they stand for. -/
def Obligations.SpecWordsDecode : Prop :=
  decode .cmd 0x01000000 [] = .ok .init
  ∧ decode .cmd 0x10810100 [] = .ok (.write 0x81 true)
  ∧ decode .cmd 0x11020000 [] = .ok (.read 0x02 false)
  ∧ decode .cmd 0x20810000 [] = .ok (.abort 0x81)
  ∧ decode .cmd 0x31020000 [] = .ok (.remaining 0x02)
  ∧ decode .cmd 0x40000000 [] = .ok .poll
  ∧ decode .bus 0x04000123 [] = .ok (.evSof 0x123)
  ∧ decode .bus 0x10000008 [0x80, 6, 0, 1, 0, 0, 0x12, 0] = .ok (.evSetup [0x80, 6, 0, 1, 0, 0, 0x12, 0])
  ∧ decode .bus 0x12020003 [1, 2, 3] = .ok (.evOut 0x02 [1, 2, 3])
  ∧ decode .bus 0x13800000 [] = .ok (.evInTaken 0x80)

/-! ### Steps -/

/-- A step whose agent writes CMD, or delivers an event word, runs the instruction that the word decodes to; and a word
of the opcode table that was placed for the next step is the one that step runs (spec/10_state.md R23,
spec/30_encoding.md R97). -/
def Obligations.StepRunsTheDecodedInstruction : Prop :=
  (∀ (s : State) (rest : List Stimulus) (w : Word) (i : Instr),
    s.inputs = .regWrite s.cfg.usbBase 32 w :: rest → decode .cmd w [] = .ok i →
    step s = exec i { s with inputs := rest })
  ∧ (∀ (s : State) (rest : List Stimulus) (w : Word) (pay : Packet) (i : Instr),
    s.inputs = .event w pay :: rest → decode .bus w pay = .ok i → step s = exec i { s with inputs := rest })
  ∧ ∀ (s : State) (nbits w : Nat) (i : Instr),
      decodeTableWord nbits w = some i → step (s.withFetchWord nbits w) = exec i s

/-- A malformed command word, and a command for an endpoint that does not exist, write Illegal to RESULT and change
nothing else; a malformed event word has no step (spec/30_encoding.md R96, R100, spec/40_endpoint_table.md R120). -/
def Obligations.MalformedWordOnlyWritesIllegal : Prop :=
  (∀ (s : State) (rest : List Stimulus) (w : Word) (e : DecodeError),
    s.inputs = .regWrite s.cfg.usbBase 32 w :: rest → decode .cmd w [] = .error e →
    step s = .next { s with inputs := rest, result := 0x01000000 })
  ∧ (∀ (s : State) (epa : Byte) (cb : Bool), lookup s epa = none →
      exec (.write epa cb) s = .next { s with result := 0x01000000 }
      ∧ exec (.read epa cb) s = .next { s with result := 0x01000000 }
      ∧ exec (.abort epa) s = .next { s with result := 0x01000000 }
      ∧ exec (.isBusy epa) s = .next { s with result := 0x01000000 }
      ∧ exec (.remaining epa) s = .next { s with result := 0x01000000 })
  ∧ ∀ (s : State) (rest : List Stimulus) (w : Word) (pay : Packet) (e : DecodeError),
      s.inputs = .event w pay :: rest → decode .bus w pay = .error e → ∀ t, step s ≠ .next t

/-- The sequencer takes a step of its own exactly in INTERRUPT mode with a latch set, whether it is scheduled or nothing
is; the step is one invocation (spec/46_events_and_service.md R314). -/
def Obligations.SequencerStepsExactlyWhenEnabled : Prop :=
  ∀ (s : State) (rest : List Stimulus),
    (s.inputs = [] ∧ rest = []) ∨ s.inputs = .service :: rest →
    (s.cfg.mode = .interrupt ∧ latchPending s = true → step s = .next (service { s with inputs := rest }))
    ∧ (s.cfg.mode = .polled ∨ latchPending s = false → ∀ t, step s ≠ .next t)

/-! ### Commands -/

/-- INIT is the word 0x01000000 exactly; it puts every field at its reset value, keeps the histories, records the
pull-up action and pushes one STATE_CHANGE (spec/45_device_state.md R278, spec/10_state.md R49). `NQ_DEPTH` is at least
1 (spec/00_scope.md R5). -/
def Obligations.InitGivesTheResetState : Prop :=
  (∀ w : Word, decode .cmd w [] = .ok .init ↔ w = 0x01000000)
  ∧ ∀ s : State, 0 < s.cfg.nqDepth →
    exec .init s = .next { s with
      argAddr := 0, argLen := 0, result := 0, nie := false
      dev := ⟨.attached, .attached, 0, 0, 0, false⟩
      ep0 := ⟨.idle, 0, 0, 0, false, false, false⟩
      ctlOpen := false, setup := ⟨0, 0, 0, 0, 0, 0, 0, 0⟩, ep0Stall := false
      rx0 := none, tx0 := none, tx0stage := []
      deps := s.cfg.eps.map (fun d => ⟨d, ⟨.idle, 0, 0, 0, false, false, false⟩, false, none, false, false⟩)
      lat := ⟨false, false, false, false, false, false, false, false, false⟩, sofFrame := 0
      nq := [⟨.stateChange, 0x00, s.dev.state.code.zeroExtend 8, 0, 0, 0⟩], nqOvf := false
      acts := s.acts ++ [.pullup false] }

/-- CONNECT is the word 0x02000000 exactly; it switches the pull-up on, records it, and changes nothing else but RESULT
(spec/45_device_state.md R279). -/
def Obligations.ConnectSwitchesThePullupOn : Prop :=
  (∀ w : Word, decode .cmd w [] = .ok .connect ↔ w = 0x02000000)
  ∧ ∀ s : State, exec .connect s =
    .next { s with dev := { s.dev with pullup := true }, acts := s.acts ++ [.pullup true], result := 0 }

/-- DISCONNECT is the word 0x03000000 exactly (spec/45_device_state.md R280); its effects in order, over
`set_state(Attached)`. -/
def Obligations.DisconnectLeavesTheBus : Prop :=
  (∀ w : Word, decode .cmd w [] = .ok .disconnect ↔ w = 0x03000000)
  ∧ ∀ s t : State,
    t = setState .attached { s with dev := { s.dev with pullup := false }, acts := s.acts ++ [.pullup false] } →
    exec .disconnect s = .next { t with
      ep0 := ⟨.idle, 0, 0, 0, false, false, false⟩, ctlOpen := false, rx0 := none, tx0 := none, tx0stage := []
      lat := ⟨false, false, false, false, false, false, false, false, false⟩, ep0Stall := false
      dev := ⟨.attached, s.dev.saved, 0, 0, 0, false⟩
      acts := t.acts ++ (if s.ep0Stall then [.stall0 false] else []) ++ [.addrLoad 0]
      result := 0 }

/-- An endpoint address names EP0, the endpoint of the table whose address it is, or nothing (spec/10_state.md R37,
spec/40_endpoint_table.md R120). -/
def Obligations.LookupNamesTheTable : Prop :=
  ∀ s : State, s.cfg.legal = true → TableShape s →
    (∀ a : Byte, lookup s a = some .ep0 ↔ a.extractLsb' 4 3 = 0 ∧ a.extractLsb' 0 4 = 0)
    ∧ (∀ (a : Byte) (k : Nat) (d : DataEp),
        lookup s a = some (.data k d) ↔
          s.deps[k]? = some d ∧ a = (match d.desc.dir with | .in => 0x80#8 | .out => 0x00#8) ||| d.desc.num.zeroExtend 8)

/-- WRITE and READ of an Idle data endpoint in Configured start the transfer: `cb` replaced, `wr` cleared, `pp` kept,
and only an IN transfer latches its endpoint (spec/40_endpoint_table.md R121 to R123, R126, R127). -/
def Obligations.TransferArmsAnIdleDataEndpoint : Prop :=
  ∀ (s : State) (epa : Byte) (cb : Bool) (k : Nat) (d : DataEp),
    lookup s epa = some (.data k d) → d.ep.state = .idle → s.dev.state = .configured →
    (epa.msb = true → exec (.write epa cb) s = .next { s with
      deps := s.deps.set k
        { d with ep := ⟨.transmitting, s.argAddr, s.argLen, s.argLen, cb, d.ep.pp, false⟩, latch := true }
      result := 0 })
    ∧ (epa.msb = false → exec (.read epa cb) s = .next { s with
      deps := s.deps.set k { d with ep := ⟨.receiving, s.argAddr, s.argLen, s.argLen, cb, d.ep.pp, false⟩ }
      result := 0 })

/-- WRITE and READ of an Idle EP0 start the data stage of the open control transfer, in its direction, and nothing else
(spec/40_endpoint_table.md R124). -/
def Obligations.EndpointZeroAcceptsOnlyItsDataStage : Prop :=
  ∀ (s : State) (cb : Bool), s.ep0.state = .idle →
    (s.ctlOpen = true ∧ s.setup.wLength ≠ 0 ∧ s.setup.dir = .in → exec (.write 0x80 cb) s = .next { s with
      ep0 := ⟨.transmitting, s.argAddr, s.argLen, s.argLen, cb, s.ep0.pp, false⟩
      lat := { s.lat with ep0In := true }
      result := 0 })
    ∧ (s.ctlOpen = true ∧ s.setup.wLength ≠ 0 ∧ s.setup.dir = .out → exec (.read 0x00 cb) s = .next { s with
      ep0 := ⟨.receiving, s.argAddr, s.argLen, s.argLen, cb, s.ep0.pp, false⟩
      result := 0 })
    ∧ (s.ctlOpen = false ∨ s.setup.wLength = 0 ∨ s.setup.dir = .out →
      exec (.write 0x80 cb) s = .next { s with result := 0x01000000 })
    ∧ (s.ctlOpen = false ∨ s.setup.wLength = 0 ∨ s.setup.dir = .in →
      exec (.read 0x00 cb) s = .next { s with result := 0x01000000 })

/-- A WRITE or READ that is not answered Ok changes nothing but RESULT (spec/40_endpoint_table.md R125); one that fails
a check reports the first failing one, in the order of R122. Which code an unknown address and EP0 misuse give have
statements of their own. -/
def Obligations.RefusedTransferChangesOnlyResult : Prop :=
  (∀ (s : State) (epa : Byte) (cb : Bool) (i : Instr), i = .write epa cb ∨ i = .read epa cb →
    ∃ t, exec i s = .next t ∧ (t.result ≠ 0 → t = { s with result := t.result }))
  ∧ ∀ (s : State) (epa : Byte) (cb : Bool) (e : EpRef), lookup s epa = some e →
    (epa.msb = false → exec (.write epa cb) s = .next { s with result := 0x01000000 })
    ∧ (epa.msb = true → exec (.read epa cb) s = .next { s with result := 0x01000000 })
    ∧ ∀ i, (i = .write epa cb ∧ epa.msb = true) ∨ (i = .read epa cb ∧ epa.msb = false) →
        ((e.rec0 s).state = .stalled → exec i s = .next { s with result := 0x04000000 })
        ∧ ((e.rec0 s).state ≠ .stalled → (e.rec0 s).state ≠ .idle → exec i s = .next { s with result := 0x03000000 })
        ∧ ((e.rec0 s).state = .idle → e ≠ .ep0 → s.dev.state ≠ .configured →
            exec i s = .next { s with result := 0x02000000 })

/-- ABORT of an Idle endpoint changes only RESULT; of any other it cancels the packet, clears the latch and returns the
record to Idle with `rem = 0`; on EP0 a SETUP not yet serviced is kept (spec/40_endpoint_table.md R130). -/
def Obligations.AbortReturnsTheEndpointToIdle : Prop :=
  ∀ (s : State) (epa : Byte) (e : EpRef), lookup s epa = some e →
    ((e.rec0 s).state = .idle → exec (.abort epa) s = .next { s with result := 0 })
    ∧ (e = .ep0 → s.ep0.state ≠ .idle → exec (.abort epa) s = .next { s with
        tx0 := none
        rx0 := if s.lat.ep0Setup then s.rx0 else none
        lat := { s.lat with ep0In := false, ep0Out := false }
        ep0 := ⟨.idle, s.ep0.buf, s.ep0.len, 0, false, false, false⟩
        acts := s.acts ++ [.flush 0x00]
        result := 0 })
    ∧ ∀ k d, e = .data k d → d.ep.state ≠ .idle → exec (.abort epa) s = .next { s with
        deps := s.deps.set k
          { d with pkt := none, latch := false, ep := ⟨.idle, d.ep.buf, d.ep.len, 0, false, false, false⟩ }
        acts := s.acts ++ [.flush (epaOf d.desc)]
        result := 0 }

/-- ABORT_ALL is the word 0x21000000 exactly; it aborts every busy data endpoint, in `EPS` order, and touches nothing of
EP0 (spec/40_endpoint_table.md R132, R133). -/
def Obligations.AbortAllReturnsEveryDataEndpointToIdle : Prop :=
  (∀ w : Word, decode .cmd w [] = .ok .abortAll ↔ w = 0x21000000)
  ∧ ∀ s : State, exec .abortAll s = .next { s with
    deps := s.deps.map (fun d =>
      if d.ep.state = .idle then d
      else { d with pkt := none, latch := false, ep := ⟨.idle, d.ep.buf, d.ep.len, 0, false, false, false⟩ })
    acts := s.acts ++ (s.deps.filter (fun d => d.ep.state != .idle)).map (fun d => .flush (epaOf d.desc))
    result := 0 }

/-- IS_BUSY answers whether the endpoint is not Idle, REMAINING answers its `rem`, and both change nothing but RESULT
(spec/40_endpoint_table.md R134, R135). -/
def Obligations.QueriesOnlyReadTheEndpoint : Prop :=
  ∀ (s : State) (epa : Byte) (e : EpRef), lookup s epa = some e →
    exec (.isBusy epa) s = .next { s with result := if (e.rec0 s).state = .idle then 0x00000000 else 0x00000001 }
    ∧ exec (.remaining epa) s = .next { s with result := (e.rec0 s).rem.zeroExtend 32 }

/-- POLL is the word 0x40000000 exactly; it runs one invocation, in either mode; with no latch set it changes nothing
but RESULT, and pushes the two observer records when HOOK_ISR is set. Every invocation of a state with HOOK_ISR set
pushes SERVICE_ENTER first and SERVICE_EXIT last, and between them does what it does with HOOK_ISR clear
(spec/46_events_and_service.md R319, R320). -/
def Obligations.PollRunsOneInvocation : Prop :=
  (∀ w : Word, decode .cmd w [] = .ok .poll ↔ w = 0x40000000)
  ∧ ∀ s : State,
    exec .poll s = .next { service s with result := 0 }
    ∧ (latchPending s = false → s.cfg.hookIsr = false → exec .poll s = .next { s with result := 0 })
    ∧ (latchPending s = false → s.cfg.hookIsr = true → exec .poll s =
        .next { notify ⟨.serviceExit, 0, 0, 0, 0, 0⟩ (notify ⟨.serviceEnter, 0, 0, 0, 0, 0⟩ s) with result := 0 })
    ∧ (s.cfg.hookIsr = true → service s =
        notify ⟨.serviceExit, 0, 0, 0, 0, 0⟩
          { service { notify ⟨.serviceEnter, 0, 0, 0, 0, 0⟩ s with cfg := { s.cfg with hookIsr := false } } with
            cfg := s.cfg })

/-! ### Bus events -/

/-- EV_BUS_RESET (spec/46_events_and_service.md R302): admitted with the pull-up on; every buffer is emptied, every
latch but `L_SOF` cleared, the stall and the address cleared, every data endpoint inactive, `L_RESET` set. -/
def Obligations.BusResetFlushesTheBuffers : Prop :=
  ∀ s : State,
    (s.dev.pullup = true → exec .evBusReset s = .next { s with
      rx0 := none, tx0 := none, tx0stage := []
      deps := s.deps.map (fun d => { d with pkt := none, latch := false, stall := false, active := false })
      lat := ⟨true, false, false, s.lat.sof, false, false, false, false, false⟩
      ep0Stall := false
      dev := { s.dev with addr := 0 } })
    ∧ (s.dev.pullup = false → ∀ t, exec .evBusReset s ≠ .next t)

/-- EV_SUSPEND, EV_RESUME and EV_SOF set their latch when they are admitted, EV_SOF its frame number too, and have no
step otherwise (spec/46_events_and_service.md R303 to R305). -/
def Obligations.BusSignalsAreLatched : Prop :=
  ∀ (s : State) (frame : BitVec 11),
    (s.dev.pullup = true ∧ s.lat.resume = false →
      exec .evSuspend s = .next { s with lat := { s.lat with suspend := true } })
    ∧ (s.dev.pullup = false ∨ s.lat.resume = true → ∀ t, exec .evSuspend s ≠ .next t)
    ∧ (s.dev.pullup = true ∧ (s.dev.state = .suspended ∨ s.lat.suspend = true) →
      exec .evResume s = .next { s with lat := { s.lat with resume := true } })
    ∧ (s.dev.pullup = false ∨ (s.dev.state ≠ .suspended ∧ s.lat.suspend = false) → ∀ t, exec .evResume s ≠ .next t)
    ∧ (busLive s = true → exec (.evSof frame) s = .next { s with sofFrame := frame, lat := { s.lat with sof := true } })
    ∧ (busLive s = false → ∀ t, exec (.evSof frame) s ≠ .next t)

/-- EV_SETUP (spec/46_events_and_service.md R306): always admitted while the bus is live (R300, written out); the packet
replaces what `rxbuf[0]` held, and an open control transfer is ended, unless a bus reset is pending. -/
def Obligations.SetupReplacesThePacket : Prop :=
  ∀ (s : State) (pay : Packet), pay.length = 8 →
    (s.dev.pullup = true
      ∧ (s.lat.reset = true ∨ (s.lat.suspend = false ∧ (s.dev.state = .default ∨ s.dev.state = .addressed
          ∨ s.dev.state = .configured ∨ (s.dev.state = .suspended ∧ s.lat.resume = true)))) →
      exec (.evSetup pay) s = .next { s with
        rx0 := some pay, tx0 := none, tx0stage := [], ep0Stall := false
        lat := { s.lat with
          ep0Setup := true
          ep0SetupEnd :=
            if s.lat.reset = false ∧ (s.ctlOpen = true ∨ s.ep0.state = .transmitting ∨ s.ep0.state = .receiving)
            then true else s.lat.ep0SetupEnd } })
    ∧ (s.dev.pullup = false
      ∨ (s.lat.reset = false ∧ (s.lat.suspend = true ∨ s.dev.state = .attached
          ∨ (s.dev.state = .suspended ∧ s.lat.resume = false))) →
      ∀ t, exec (.evSetup pay) s ≠ .next t)

/-- EV_SETUPEND (spec/46_events_and_service.md R307). -/
def Obligations.SetupEndFlushesEndpointZero : Prop :=
  ∀ s : State,
    (busLive s = true ∧ s.lat.reset = false ∧ s.ctlOpen = true ∧ s.lat.ep0Setup = false →
      exec .evSetupEnd s = .next { s with tx0 := none, rx0 := none, lat := { s.lat with ep0SetupEnd := true } })
    ∧ (busLive s = false ∨ s.lat.reset = true ∨ s.ctlOpen = false ∨ s.lat.ep0Setup = true →
      ∀ t, exec .evSetupEnd s ≠ .next t)

/-- EV_OUT (spec/46_events_and_service.md R308): a packet enters a free buffer of EP0 or of an active OUT endpoint, and
nothing else has a step. -/
def Obligations.OutPacketFillsTheFreeBuffer : Prop :=
  ∀ (s : State) (epa : Byte) (pay : Packet), epa.msb = false →
    (lookup s epa = some .ep0 → busLive s = true ∧ s.rx0 = none ∧ s.lat.reset = false ∧ s.ctlOpen = true
        ∧ s.setup.dir = .out ∧ s.ep0Stall = false ∧ s.lat.ep0Setup = false ∧ pay.length ≤ s.cfg.mps0 →
      exec (.evOut epa pay) s = .next { s with rx0 := some pay, lat := { s.lat with ep0Out := true } })
    ∧ (∀ k d, lookup s epa = some (.data k d) →
        busLive s = true ∧ d.pkt = none ∧ d.active = true ∧ pay.length ≤ d.desc.mps →
      exec (.evOut epa pay) s = .next { s with deps := s.deps.set k { d with pkt := some pay, latch := true } })
    ∧ ∀ t, exec (.evOut epa pay) s = .next t → busLive s = true
        ∧ ((lookup s epa = some .ep0 ∧ s.rx0 = none ∧ s.lat.reset = false ∧ s.ctlOpen = true ∧ s.setup.dir = .out
              ∧ s.ep0Stall = false ∧ s.lat.ep0Setup = false ∧ pay.length ≤ s.cfg.mps0)
          ∨ ∃ k d, lookup s epa = some (.data k d) ∧ d.pkt = none ∧ d.active = true ∧ pay.length ≤ d.desc.mps)

/-- EV_IN_TAKEN (spec/46_events_and_service.md R309): the host takes a committed packet whole, and nothing else has a
step. -/
def Obligations.HostTakesTheCommittedPacket : Prop :=
  ∀ (s : State) (epa : Byte), epa.msb = true →
    (∀ p, lookup s epa = some .ep0 → busLive s = true ∧ s.tx0 = some p ∧ s.ep0Stall = false →
      exec (.evInTaken epa) s = .next { s with
        hostIn := s.hostIn ++ [(0x80, p)], tx0 := none, lat := { s.lat with ep0In := true } })
    ∧ (∀ k d p, lookup s epa = some (.data k d) → busLive s = true ∧ d.pkt = some p ∧ d.active = true →
      exec (.evInTaken epa) s = .next { s with
        hostIn := s.hostIn ++ [(epa, p)], deps := s.deps.set k { d with pkt := none, latch := true } })
    ∧ ∀ t, exec (.evInTaken epa) s = .next t → busLive s = true
        ∧ ((lookup s epa = some .ep0 ∧ s.tx0 ≠ none ∧ s.ep0Stall = false)
          ∨ ∃ k d, lookup s epa = some (.data k d) ∧ d.pkt ≠ none ∧ d.active = true)

/-- EV_SENTSTALL (spec/46_events_and_service.md R310): it is latched for a stalled EP0 and for an active endpoint that is
not isochronous, and nothing else has a step. POLL with only such latches of data endpoints pending clears them and
changes nothing else but RESULT (spec/44_data_endpoints.md R258). -/
def Obligations.SentStallIsLatched : Prop :=
  (∀ s : State, s.lat = Latches.none → s.cfg.hookIsr = false → (∀ d ∈ s.deps, d.latch = false) →
    exec .poll s = .next { s with deps := s.deps.map (fun d => { d with stall := false }), result := 0 })
  ∧ ∀ (s : State) (epa : Byte),
    (lookup s epa = some .ep0 → busLive s = true ∧ s.ep0Stall = true →
      exec (.evSentStall epa) s = .next { s with lat := { s.lat with ep0SentStall := true } })
    ∧ (∀ k d, lookup s epa = some (.data k d) → busLive s = true ∧ d.active = true ∧ d.desc.type ≠ .isochronous →
      exec (.evSentStall epa) s = .next { s with deps := s.deps.set k { d with stall := true } })
    ∧ ∀ t, exec (.evSentStall epa) s = .next t → busLive s = true
        ∧ ((lookup s epa = some .ep0 ∧ s.ep0Stall = true)
          ∨ ∃ k d, lookup s epa = some (.data k d) ∧ d.active = true ∧ d.desc.type ≠ .isochronous)

/-! ### The device state machine -/

/-- `set_state` (spec/45_device_state.md R270, R283): leaving Suspended or Configured for a state below aborts every
busy data endpoint and clears `dev.alt`; entering a state below Suspended deactivates every data endpoint; entering
Suspended records the state left; one STATE_CHANGE is pushed. -/
def Obligations.SetStateFollowsTheContract : Prop :=
  ∀ (new : DevState) (s : State) (up down : Bool),
    (up = true ↔ s.dev.state = .suspended ∨ s.dev.state = .configured) →
    (down = true ↔ new = .attached ∨ new = .default ∨ new = .addressed) →
    setState new s = notify ⟨.stateChange, 0x00, s.dev.state.code.zeroExtend 8, new.code.zeroExtend 8, 0, 0⟩ { s with
      dev := { s.dev with
        state := new
        saved := if new = .suspended then s.dev.state else s.dev.saved
        alt := if up && down then 0 else s.dev.alt }
      deps :=
        if down then s.deps.map (fun d => { d with
          active := false, pkt := none, latch := false, stall := false
          ep := { d.ep with
            state := if up then .idle else d.ep.state
            rem := if up && d.ep.state != .idle then 0 else d.ep.rem
            cb := if up && d.ep.state != .idle then false else d.ep.cb
            wr := if up && d.ep.state != .idle then false else d.ep.wr
            pp := false } })
        else s.deps
      acts := s.acts
        ++ (if up && down then (s.deps.filter (fun d => d.ep.state != .idle)).map (fun d => .flush (epaOf d.desc))
            else [])
        ++ (if down then (s.deps.filter (fun d => d.active)).map (fun d => .epEnable (epaOf d.desc) false) else []) }

/-- The bus reset, suspend and resume services (spec/45_device_state.md R275 to R277), each run by POLL as the only
pending one; and their order (spec/46_events_and_service.md R315): whatever else is pending, an invocation serves the
reset first, then the suspend, then the resume, and goes on as an invocation from the state that this leaves. -/
def Obligations.PollServesTheBusSignals : Prop :=
  ∀ s : State,
    (OnlyLatches { Latches.none with reset := true } s →
      ∀ t, t = setState .default { s with lat := Latches.none } →
        exec .poll s = .next (notifyIf s.cfg.hookReset ⟨.resetHook, 0, 0, 0, 0, 0⟩ { t with
          ep0 := ⟨.idle, 0, 0, 0, false, false, false⟩
          deps := t.deps.map (fun d => { d with ep := ⟨.idle, 0, 0, 0, false, false, false⟩ })
          ctlOpen := false
          dev := { t.dev with config := 0, alt := 0 }
          result := 0 }))
    ∧ (OnlyLatches { Latches.none with suspend := true } s →
      exec .poll s = .next { (if s.dev.state = .suspended then { s with lat := Latches.none }
        else setState .suspended { s with lat := Latches.none }) with result := 0 })
    ∧ (OnlyLatches { Latches.none with resume := true } s →
      exec .poll s = .next { (if s.dev.state = .suspended then setState s.dev.saved { s with lat := Latches.none }
        else { s with lat := Latches.none }) with result := 0 })
    ∧ (s.cfg.hookIsr = false →
      (s.lat.reset = true → ∀ t, t = setState .default { s with lat := { s.lat with reset := false } } →
        exec .poll s = exec .poll (notifyIf s.cfg.hookReset ⟨.resetHook, 0, 0, 0, 0, 0⟩ { t with
          ep0 := ⟨.idle, 0, 0, 0, false, false, false⟩
          deps := t.deps.map (fun d => { d with ep := ⟨.idle, 0, 0, 0, false, false, false⟩ })
          ctlOpen := false
          dev := { t.dev with config := 0, alt := 0 } }))
      ∧ (s.lat.reset = false → s.lat.suspend = true → ∀ t, t = { s with lat := { s.lat with suspend := false } } →
        exec .poll s = exec .poll (if s.dev.state = .suspended then t else setState .suspended t))
      ∧ (s.lat.reset = false → s.lat.suspend = false → s.lat.resume = true →
        ∀ t, t = { s with lat := { s.lat with resume := false } } →
          exec .poll s = exec .poll (if s.dev.state = .suspended then setState s.dev.saved t else t)))
    ∧ (OnlyLatches { Latches.none with reset := true, suspend := true } s → ∃ t, exec .poll s = .next t
      ∧ t.dev.state = .suspended ∧ t.dev.saved = .default)
    ∧ (OnlyLatches { Latches.none with suspend := true, resume := true } s → s.dev.state ≠ .suspended →
      ∃ t, exec .poll s = .next t ∧ t.dev.state = s.dev.state ∧ t.dev.saved = s.dev.state)

/-- A suspend and a resume restore Configured with every transfer as it was: only the saved state, the two STATE_CHANGE
records and RESULT differ (spec/45_device_state.md R271, R277, spec/60_exceptions.md R358). -/
def Obligations.SuspendThenResumeKeepsTransfers : Prop :=
  ∀ s : State, OnlyLatches Latches.none s → s.dev.pullup = true → s.dev.state = .configured →
    s.nq.length + 2 ≤ s.cfg.nqDepth →
    execAll [.evSuspend, .poll, .evResume, .poll] s = .next { s with
      dev := { s.dev with saved := .configured }
      nq := s.nq ++ [⟨.stateChange, 0x00, 4, 3, 0, 0⟩, ⟨.stateChange, 0x00, 3, 4, 0, 0⟩]
      result := 0 }

/-! ### Control transfers -/

/-- The stall-sent and SetupEnd services close the control transfer, and no EP0 OUT or IN latch of the old transfer is
served after them (spec/42_control_transfer.md R172 to R174). Whatever else but a reset, suspend or resume is pending,
they run before everything else; then the SETUP service, then EP0 OUT, then EP0 IN, each before every data endpoint and
the SOF (spec/46_events_and_service.md R315, R316): a SETUP pending with them is served, in the state they leave. -/
def Obligations.PollServesStallAndSetupEndFirst : Prop :=
  (∀ (s : State) (a b c d : Bool), a = true ∨ b = true →
    OnlyLatches { Latches.none with ep0SentStall := a, ep0SetupEnd := b, ep0Out := c, ep0In := d } s →
    exec .poll s = .next { s with
      lat := Latches.none, ep0 := ⟨.idle, 0, 0, 0, false, false, false⟩, ctlOpen := false, result := 0 })
  ∧ ∀ s : State, s.cfg.hookIsr = false → s.lat.reset = false → s.lat.suspend = false → s.lat.resume = false →
    (s.lat.ep0SentStall = true ∨ s.lat.ep0SetupEnd = true →
      exec .poll s = exec .poll { s with
        lat := { s.lat with ep0SentStall := false, ep0SetupEnd := false, ep0Out := false, ep0In := false }
        ep0 := ⟨.idle, 0, 0, 0, false, false, false⟩, ctlOpen := false })
    ∧ (s.lat.ep0SentStall = false → s.lat.ep0SetupEnd = false →
      (s.lat.ep0Setup = true → exec .poll s = exec .poll (serviceEp0Setup s))
      ∧ (s.lat.ep0Setup = false → s.lat.ep0Out = true → exec .poll s = exec .poll (serviceEp0Out s))
      ∧ (s.lat.ep0Setup = false → s.lat.ep0Out = false → s.lat.ep0In = true →
        exec .poll s = exec .poll (serviceEp0In s)))

/-- Without a hook, a request that a handler rejects or that none handles stalls EP0 and changes no other state of the
device (spec/42_control_transfer.md R181, spec/43_request_dispatch.md R213, R214, R216 to R218, R220 to R222, R226,
R228). One of them draws an answer first: the product name, when the accessor answers none and `STR[2]` is absent (R222).
How a draw is taken is the model's (log entry 9, DESIGN CHOICE). The first clause is the layout of the 8 bytes of a
SETUP, on which every statement about a request rests (spec/10_state.md R39). -/
def Obligations.PollStallsRejectedRequests : Prop :=
  (∀ p : Setup,
    (p.dir = .in ↔ p.b0.getLsbD 7 = true)
    ∧ p.type.toNat = p.b0.toNat / 32 % 4
    ∧ p.recipient.toNat = p.b0.toNat % 32
    ∧ p.request = p.b1
    ∧ p.wValue.toNat = p.b2.toNat + 256 * p.b3.toNat
    ∧ p.wIndex.toNat = p.b4.toNat + 256 * p.b5.toNat
    ∧ p.wLength.toNat = p.b6.toNat + 256 * p.b7.toNat)
  ∧ ∀ (s : State) (p : Setup), s.cfg.hook = false → SetupArrived p s →
    (∀ product n, p.type = 0 → p.request = 6 → p.dir = .in → p.recipient = 0 → p.wValue = 0x0302 →
      ProductDraw none product n s → (∀ e ∈ s.cfg.str, e.1 ≠ 2) →
      exec .poll s = .next { accepted p s with
        productIn := product, draws := n
        ep0 := ⟨.stalled, 0, 0, 0, false, false, false⟩, ctlOpen := false, ep0Stall := true
        acts := s.acts ++ [.rxRelease 0x00, .stall0 true]
        result := 0 })
    ∧ ((p.type ≠ 0
      ∨ p.request = 0 ∨ p.request = 1 ∨ p.request = 3 ∨ p.request = 8 ∨ p.request = 10 ∨ p.request = 11
      ∨ (p.request ≠ 5 ∧ p.request ≠ 6 ∧ p.request ≠ 9)
      ∨ (p.request = 5 ∧ (128 ≤ p.wValue.toNat ∨ p.wLength ≠ 0 ∨ p.recipient ≠ 0 ∨ p.wIndex ≠ 0
          ∨ (s.dev.state ≠ .default ∧ s.dev.state ≠ .addressed)))
      ∨ (p.request = 6 ∧ (p.dir ≠ .in ∨ p.recipient ≠ 0
          ∨ (p.b3 ≠ 1 ∧ p.b3 ≠ 2 ∧ p.b3 ≠ 3) ∨ (p.b3 ≠ 3 ∧ p.b2 ≠ 0)
          ∨ (p.b3 = 3 ∧ p.b2 ≠ 2 ∧ p.b2 ≠ 3 ∧ ∀ e ∈ s.cfg.str, e.1 ≠ p.b2)))
      ∨ (p.request = 9 ∧ (p.wLength ≠ 0 ∨ p.recipient ≠ 0 ∨ p.wIndex ≠ 0
          ∨ (s.dev.state = .addressed ∧ p.wValue ≠ 1) ∨ (s.dev.state = .configured ∧ p.wValue ≠ 0 ∧ p.wValue ≠ 1)
          ∨ (s.dev.state ≠ .addressed ∧ s.dev.state ≠ .configured)))) →
      exec .poll s = .next { accepted p s with
        ep0 := ⟨.stalled, 0, 0, 0, false, false, false⟩, ctlOpen := false, ep0Stall := true
        acts := s.acts ++ [.rxRelease 0x00, .stall0 true]
        result := 0 })

/-- Without a hook, a valid SET_ADDRESS moves Default to Addressed or back, loads the address, and acknowledges
(spec/43_request_dispatch.md R218, R219). -/
def Obligations.PollServesSetAddress : Prop :=
  ∀ (s t : State) (p : Setup) (v : BitVec 7), s.cfg.hook = false → SetupArrived p s →
    p.type = 0 → p.request = 5 → p.wValue.toNat < 128 → p.wLength = 0 → p.recipient = 0 → p.wIndex = 0 →
    s.dev.state = .default ∨ s.dev.state = .addressed → v = p.wValue.setWidth 7 →
    t = (if s.dev.state = .default ∧ v ≠ 0 then setState .addressed (accepted p s)
      else if s.dev.state = .addressed ∧ v = 0 then setState .default (accepted p s)
      else accepted p s) →
    exec .poll s = .next { t with
      dev := { t.dev with addr := v }, acts := t.acts ++ [.addrLoad v, .dataEnd], ctlOpen := false, result := 0 }

/-- Without a hook, SET_CONFIGURATION(1) in Addressed configures and activates, SET_CONFIGURATION(0) in Configured
returns to Addressed, and SET_CONFIGURATION(1) in Configured activates again and does nothing else
(spec/43_request_dispatch.md R226, R227, R229, R230). -/
def Obligations.PollServesSetConfiguration : Prop :=
  ∀ (s : State) (p : Setup), s.cfg.hook = false → SetupArrived p s →
    p.type = 0 → p.request = 9 → p.wLength = 0 → p.recipient = 0 → p.wIndex = 0 →
    (s.dev.state = .addressed → p.wValue = 1 →
      ∀ t, t = setState .configured { accepted p s with dev := { s.dev with config := 1 } } →
        exec .poll s = .next { t with
          deps := t.deps.map (fun d => { d with active := true })
          acts := t.acts ++ t.deps.flatMap (fun d => [.epEnable (epaOf d.desc) true, .toggleReset (epaOf d.desc)])
            ++ [.dataEnd]
          ctlOpen := false, result := 0 })
    ∧ (s.dev.state = .configured → p.wValue = 0 →
      ∀ t, t = setState .addressed { accepted p s with dev := { s.dev with config := 0 } } →
        exec .poll s = .next { t with acts := t.acts ++ [.dataEnd], ctlOpen := false, result := 0 })
    ∧ (s.dev.state = .configured → p.wValue = 1 →
        exec .poll s = .next { accepted p s with
          deps := s.deps.map (fun d => { d with active := true })
          acts := s.acts ++ [.rxRelease 0x00]
            ++ s.deps.flatMap (fun d => [.epEnable (epaOf d.desc) true, .toggleReset (epaOf d.desc)]) ++ [.dataEnd]
          ctlOpen := false, result := 0 })

/-- Without a hook, GET_DESCRIPTOR of a known descriptor other than the serial number sends `min(len, wLength)` bytes
from where it stands, the first packet in the same invocation; with `wLength = 0` it is acknowledged at once
(spec/43_request_dispatch.md R221 to R223, spec/42_control_transfer.md R179, R182). The product name's answer is taken
from `productIn`, or is free when none is listed (log entry 9, DESIGN CHOICE), and a descriptor's address, a drawn one
too, is reduced modulo `2^ADDR_W` (log entry 14, DESIGN CHOICE). -/
def Obligations.PollAnswersGetDescriptor : Prop :=
  ∀ (s : State) (p : Setup) (src : DescLoc) (product : List (Option DescLoc)) (m n chunk : Nat) (bytes : Packet),
    s.cfg.legal = true → s.cfg.hook = false → SetupArrived p s →
    p.type = 0 → p.request = 6 → p.dir = .in → p.recipient = 0 →
    (product = s.productIn ∧ m = s.draws
        ∧ ((p.wValue = 0x0100 ∧ src = s.cfg.devDesc) ∨ (p.wValue = 0x0200 ∧ src = s.cfg.cfgDesc)
          ∨ (p.b3 = 3 ∧ p.b2 ≠ 2 ∧ p.b2 ≠ 3 ∧ strEntry s.cfg p.b2 = some src)))
      ∨ (p.wValue = 0x0302
        ∧ ∃ a, ProductDraw a product m s ∧ (a = some src ∨ (a = none ∧ strEntry s.cfg 2 = some src))) →
    n = min src.len.toNat p.wLength.toNat → chunk = min n s.cfg.mps0 →
    bytes = memReadBytes s (src.addr.toNat % 2 ^ s.cfg.addrW) chunk →
    (p.wLength = 0 → exec .poll s = .next { accepted p s with
      productIn := product, draws := m, acts := s.acts ++ [.rxRelease 0x00, .dataEnd], ctlOpen := false, result := 0 })
    ∧ (p.wLength ≠ 0 → chunk = s.cfg.mps0 → exec .poll s = .next { accepted p s with
      productIn := product, draws := m
      ep0 := ⟨.transmitting, wrapAddr s.cfg (src.addr.toNat + chunk), BitVec.ofNat 16 n, BitVec.ofNat 16 (n - chunk),
        false, false, false⟩
      tx0 := some bytes
      acts := s.acts ++ [.rxRelease 0x00, .commit 0x80 bytes]
      result := 0 })
    ∧ (p.wLength ≠ 0 → chunk < s.cfg.mps0 → exec .poll s = .next { accepted p s with
      productIn := product, draws := m
      ep0 := ⟨.idle, wrapAddr s.cfg (src.addr.toNat + chunk), BitVec.ofNat 16 n, 0, false, false, false⟩
      tx0 := some bytes
      ctlOpen := false
      acts := s.acts ++ [.rxRelease 0x00, .commit 0x80 bytes, .dataEnd]
      result := 0 })

/-- Without a hook, GET_DESCRIPTOR(String, 3) writes the serial number descriptor at SERIAL_BUF, changes no other byte,
and answers like any other descriptor: `min(4*UID_SIZE + 2, wLength)` bytes from SERIAL_BUF, the first packet in the same
invocation; with `wLength = 0` it is acknowledged at once. Nothing else changes (spec/43_request_dispatch.md R223, R224,
spec/42_control_transfer.md R179, R182). -/
def Obligations.PollSynthesizesTheSerialNumber : Prop :=
  ∀ (s : State) (p : Setup) (hex : BitVec 4 → Byte) (base n chunk : Nat),
    s.cfg.legal = true → s.cfg.hook = false → Memory.wf s.mem → SetupArrived p s →
    p.type = 0 → p.request = 6 → p.dir = .in → p.recipient = 0 → p.wValue = 0x0303 →
    (∀ x, hex x = if x.toNat < 10 then BitVec.ofNat 8 (0x30 + x.toNat) else BitVec.ofNat 8 (0x61 + (x.toNat - 10))) →
    base = s.cfg.serialBuf.toNat → n = min (4 * s.cfg.uid.length + 2) p.wLength.toNat → chunk = min n s.cfg.mps0 →
    ∃ t, exec .poll s = .next t
      ∧ memRead t base = BitVec.ofNat 8 (4 * s.cfg.uid.length + 2)
      ∧ memRead t (base + 1) = 3
      ∧ (∀ k u, s.cfg.uid[k]? = some u →
          memRead t (base + 2 + 4 * k) = hex (u.extractLsb' 4 4) ∧ memRead t (base + 2 + 4 * k + 1) = 0x00
          ∧ memRead t (base + 2 + 4 * k + 2) = hex (u.extractLsb' 0 4) ∧ memRead t (base + 2 + 4 * k + 3) = 0x00)
      ∧ (∀ a, (∀ i, i < 4 * s.cfg.uid.length + 2 → a ≠ (base + i) % 2 ^ s.cfg.addrW) → t.mem.read a = s.mem.read a)
      ∧ (p.wLength = 0 → t = { accepted p s with
          mem := t.mem, acts := s.acts ++ [.rxRelease 0x00, .dataEnd], ctlOpen := false, result := 0 })
      ∧ (p.wLength ≠ 0 → chunk = s.cfg.mps0 → t = { accepted p s with
          mem := t.mem
          ep0 := ⟨.transmitting, wrapAddr s.cfg (base + chunk), BitVec.ofNat 16 n, BitVec.ofNat 16 (n - chunk),
            false, false, false⟩
          tx0 := some (memReadBytes t base chunk)
          acts := s.acts ++ [.rxRelease 0x00, .commit 0x80 (memReadBytes t base chunk)]
          result := 0 })
      ∧ (p.wLength ≠ 0 → chunk < s.cfg.mps0 → t = { accepted p s with
          mem := t.mem
          ep0 := ⟨.idle, wrapAddr s.cfg (base + chunk), BitVec.ofNat 16 n, 0, false, false, false⟩
          tx0 := some (memReadBytes t base chunk)
          ctlOpen := false
          acts := s.acts ++ [.rxRelease 0x00, .commit 0x80 (memReadBytes t base chunk), .dataEnd]
          result := 0 })

/-- With a hook, it is consulted before the standard dispatcher; its Ok completes, defers or arms the data stage, its
RequestError stalls, and only its Unhandled reaches the standard dispatcher (spec/43_request_dispatch.md R210 to R212,
spec/42_control_transfer.md R179 to R181, R190). Its answer is taken from `hookIn`, or is free when none is listed (log
entry 9, DESIGN CHOICE), and an arm's address is reduced modulo `2^ADDR_W` (log entry 14, DESIGN CHOICE). -/
def Obligations.HookIsConsultedFirst : Prop :=
  ∀ (s : State) (p : Setup) (a : HookAnswer) (rest : List HookAnswer) (n : Nat),
    s.cfg.hook = true → HookDraw a rest n s →
    (a.outcome = .unhandled → dispatch p s = stdDispatch p { s with hookIn := rest, draws := n })
    ∧ (SetupArrived p s → ∀ t, t = { accepted p s with hookIn := rest, draws := n, result := 0 } →
      (a.outcome = .requestError → exec .poll s = .next { t with
        ep0 := ⟨.stalled, 0, 0, 0, false, false, false⟩, ctlOpen := false, ep0Stall := true
        acts := s.acts ++ [.rxRelease 0x00, .stall0 true] })
      ∧ (a.outcome = .ok →
        (p.wLength = 0 → exec .poll s = .next { t with
          acts := s.acts ++ [.rxRelease 0x00, .dataEnd], ctlOpen := false })
        ∧ (p.wLength ≠ 0 → a.arm = none → p.dir = .in → exec .poll s = .next t)
        ∧ (p.wLength ≠ 0 → a.arm = none → p.dir = .out →
          exec .poll s = .next { t with ep0 := ⟨.idle, 0, 0, 0, false, false, true⟩ })
        ∧ (∀ m, p.wLength ≠ 0 → a.arm = some m → p.dir = .out → exec .poll s = .next { t with
          ep0 := ⟨.receiving, wrapAddr s.cfg m.addr.toNat, m.n, m.n, m.cb, false, false⟩ })
        ∧ (∀ m, p.wLength ≠ 0 → a.arm = some m → p.dir = .in → exec .poll s = .next (serviceEp0In { t with
          ep0 := ⟨.transmitting, wrapAddr s.cfg m.addr.toNat, m.n, m.n, m.cb, false, false⟩
          lat := { Latches.none with ep0In := true } }))))

/-- A request with `wLength = 0` uses no FIFO for data, whatever the hook answers: no packet is committed, one packet
(the SETUP) is released, and EP0 ends Idle or Stalled with the control transfer closed
(spec/42_control_transfer.md R179). -/
def Obligations.NoDataRequestsUseNoDataFifo : Prop :=
  ∀ (s : State) (p : Setup), SetupArrived p s → p.wLength = 0 →
    ∃ t l, exec .poll s = .next t ∧ t.acts = s.acts ++ .rxRelease 0x00 :: l
      ∧ (∀ x ∈ l, (∀ e b, x ≠ .commit e b) ∧ ∀ e, x ≠ .rxRelease e)
      ∧ t.tx0 = none ∧ t.rx0 = none ∧ t.tx0stage = [] ∧ t.ctlOpen = false
      ∧ ((t.ep0.state = .idle ∧ .dataEnd ∈ l) ∨ (t.ep0.state = .stalled ∧ t.ep0Stall = true ∧ .dataEnd ∉ l))

/-- The EP0 IN service (spec/42_control_transfer.md R182, R188): a stale latch is only cleared; a full packet keeps EP0
Transmitting; a shorter one, the zero-length packet included, ends the data stage. -/
def Obligations.PollSendsTheNextEndpointZeroPacket : Prop :=
  ∀ (s : State) (n : Nat) (bytes : Packet), OnlyLatches { Latches.none with ep0In := true } s →
    n = min s.ep0.rem.toNat s.cfg.mps0 → bytes = memReadBytes s s.ep0.buf.toNat n →
    (s.ep0.state ≠ .transmitting ∨ s.tx0 ≠ none → exec .poll s = .next { s with lat := Latches.none, result := 0 })
    ∧ (s.ep0.state = .transmitting → s.tx0 = none → s.tx0stage = [] →
      (n = s.cfg.mps0 → exec .poll s = .next { s with
        lat := Latches.none, tx0 := some bytes
        ep0 := { s.ep0 with
          buf := wrapAddr s.cfg (s.ep0.buf.toNat + n), rem := BitVec.ofNat 16 (s.ep0.rem.toNat - n) }
        acts := s.acts ++ [.commit 0x80 bytes]
        result := 0 })
      ∧ (n < s.cfg.mps0 → exec .poll s =
        .next (notifyIf s.ep0.cb ⟨.xferDone, 0x80, 0, 0, s.ep0.len, 0⟩ { s with
          lat := Latches.none, tx0 := some bytes
          ep0 := { s.ep0 with state := .idle, buf := wrapAddr s.cfg (s.ep0.buf.toNat + n), rem := 0, cb := false }
          ctlOpen := false
          acts := s.acts ++ [.commit 0x80 bytes, .dataEnd]
          result := 0 })))

/-- The EP0 OUT service on a packet it does not accept (spec/42_control_transfer.md R184, R185): the packet is held and
not read; it is reported, unless a consumer read is awaited; an overrun aborts the transfer. -/
def Obligations.PollHoldsAnUnexpectedEndpointZeroPacket : Prop :=
  ∀ s : State, OnlyLatches { Latches.none with ep0Out := true } s →
    (s.rx0 = none → exec .poll s = .next { s with lat := Latches.none, result := 0 })
    ∧ ∀ q, s.rx0 = some q →
      (s.ep0.state ≠ .receiving → exec .poll s =
        .next (notifyIf (!s.ep0.wr) ⟨.xferError, 0x00, 6, 0, 0, BitVec.ofNat 16 q.length⟩ { s with
          lat := Latches.none, ep0 := { s.ep0 with pp := true }, result := 0 }))
      ∧ (s.ep0.state = .receiving → s.ep0.rem.toNat < q.length → exec .poll s =
        .next (notify ⟨.xferError, 0x00, 5, 0, s.ep0.len - s.ep0.rem, BitVec.ofNat 16 q.length⟩ { s with
          lat := Latches.none
          ep0 := { s.ep0 with state := .idle, rem := 0, cb := false, pp := true }
          result := 0 }))

/-- The EP0 OUT service on a packet that fits (spec/42_control_transfer.md R186 to R188): its bytes are in memory from
`buf` on, no other byte changes, the packet is released, and a packet shorter than MPS0 ends the data stage. -/
def Obligations.PollReceivesAnEndpointZeroPacket : Prop :=
  ∀ (s : State) (q : Packet) (left : Half), OnlyLatches { Latches.none with ep0Out := true } s → Memory.wf s.mem →
    s.ep0.state = .receiving → s.rx0 = some q → q.length ≤ s.ep0.rem.toNat →
    left = BitVec.ofNat 16 (s.ep0.rem.toNat - q.length) →
    ∃ m : Memory,
      (∀ i b, q[i]? = some b →
        (∀ j, i < j → j < q.length →
          (s.ep0.buf.toNat + j) % 2 ^ s.cfg.addrW ≠ (s.ep0.buf.toNat + i) % 2 ^ s.cfg.addrW) →
        m.read ((s.ep0.buf.toNat + i) % 2 ^ s.cfg.addrW) = b)
      ∧ (∀ a, (∀ i, i < q.length → a ≠ (s.ep0.buf.toNat + i) % 2 ^ s.cfg.addrW) → m.read a = s.mem.read a)
      ∧ (q.length = s.cfg.mps0 ∨ s.cfg.mps0 < q.length → exec .poll s = .next { s with
          lat := Latches.none, mem := m, rx0 := none
          ep0 := { s.ep0 with buf := wrapAddr s.cfg (s.ep0.buf.toNat + q.length), rem := left }
          acts := s.acts ++ [.rxRelease 0x00]
          result := 0 })
      ∧ (q.length < s.cfg.mps0 → exec .poll s =
          .next (notifyIf s.ep0.cb ⟨.xferDone, 0x00, 0, 0, s.ep0.len - left, left⟩ { s with
            lat := Latches.none, mem := m, rx0 := none
            ep0 := { s.ep0 with
              state := .idle, buf := wrapAddr s.cfg (s.ep0.buf.toNat + q.length), rem := left, cb := false }
            ctlOpen := false
            acts := s.acts ++ [.rxRelease 0x00, .dataEnd]
            result := 0 }))

/-! ### Data endpoints -/

/-- The data IN service (spec/44_data_endpoints.md R251, R252, R257): a stale latch is only cleared; bytes that are left
go out in one packet of at most `mps(e)` bytes; with none left the transfer completes, and no packet is sent. -/
def Obligations.PollSendsTheNextDataPacket : Prop :=
  ∀ (s : State) (k : Nat) (d : DataEp) (n : Nat) (bytes : Packet),
    s.cfg.legal = true → TableShape s → OnlyDataLatch k s → s.deps[k]? = some d → d.desc.dir = .in →
    n = min d.desc.mps d.ep.rem.toNat → bytes = memReadBytes s d.ep.buf.toNat n →
    (d.ep.state ≠ .transmitting ∨ d.pkt ≠ none →
      exec .poll s = .next { s with deps := s.deps.set k { d with latch := false }, result := 0 })
    ∧ (d.ep.state = .transmitting → d.pkt = none →
      (d.ep.rem ≠ 0 → exec .poll s = .next { s with
        deps := s.deps.set k { d with
          latch := false, pkt := some bytes
          ep := { d.ep with
            buf := wrapAddr s.cfg (d.ep.buf.toNat + n), rem := BitVec.ofNat 16 (d.ep.rem.toNat - n) } }
        acts := s.acts ++ [.commit (epaOf d.desc) bytes]
        result := 0 })
      ∧ (d.ep.rem = 0 → exec .poll s =
        .next (notifyIf d.ep.cb ⟨.xferDone, epaOf d.desc, 0, 0, d.ep.len, 0⟩ { s with
          deps := s.deps.set k { d with latch := false, ep := { d.ep with state := .idle, cb := false } }
          result := 0 })))

/-- The data OUT service on a packet it does not accept (spec/44_data_endpoints.md R254, R255): the packet is held and
not read, and it is reported; an overrun aborts the transfer. -/
def Obligations.PollHoldsAnUnexpectedDataPacket : Prop :=
  ∀ (s : State) (k : Nat) (d : DataEp),
    s.cfg.legal = true → TableShape s → OnlyDataLatch k s → s.deps[k]? = some d → d.desc.dir = .out →
    (d.pkt = none → exec .poll s = .next { s with deps := s.deps.set k { d with latch := false }, result := 0 })
    ∧ ∀ q, d.pkt = some q →
      (d.ep.state ≠ .receiving → exec .poll s =
        .next (notify ⟨.xferError, epaOf d.desc, 6, 0, 0, BitVec.ofNat 16 q.length⟩ { s with
          deps := s.deps.set k { d with latch := false, ep := { d.ep with pp := true } }
          result := 0 }))
      ∧ (d.ep.state = .receiving → d.ep.rem.toNat < q.length → exec .poll s =
        .next (notify ⟨.xferError, epaOf d.desc, 5, 0, d.ep.len - d.ep.rem, BitVec.ofNat 16 q.length⟩ { s with
          deps := s.deps.set k { d with
            latch := false, ep := { d.ep with state := .idle, rem := 0, cb := false, pp := true } }
          result := 0 }))

/-- The data OUT service on a packet that fits (spec/44_data_endpoints.md R256, R257): its bytes are in memory from
`buf` on, no other byte changes, the packet is released, and the transfer completes when nothing is left or the packet
is short. -/
def Obligations.PollReceivesADataPacket : Prop :=
  ∀ (s : State) (k : Nat) (d : DataEp) (q : Packet) (left : Half) (r : EpRec),
    s.cfg.legal = true → TableShape s → OnlyDataLatch k s → Memory.wf s.mem →
    s.deps[k]? = some d → d.desc.dir = .out → d.pkt = some q → d.ep.state = .receiving →
    q.length ≤ d.ep.rem.toNat → left = BitVec.ofNat 16 (d.ep.rem.toNat - q.length) →
    r = { d.ep with buf := wrapAddr s.cfg (d.ep.buf.toNat + q.length), rem := left } →
    ∃ m : Memory,
      (∀ i b, q[i]? = some b →
        (∀ j, i < j → j < q.length →
          (d.ep.buf.toNat + j) % 2 ^ s.cfg.addrW ≠ (d.ep.buf.toNat + i) % 2 ^ s.cfg.addrW) →
        m.read ((d.ep.buf.toNat + i) % 2 ^ s.cfg.addrW) = b)
      ∧ (∀ a, (∀ i, i < q.length → a ≠ (d.ep.buf.toNat + i) % 2 ^ s.cfg.addrW) → m.read a = s.mem.read a)
      ∧ (left ≠ 0 ∧ d.desc.mps ≤ q.length → exec .poll s = .next { s with
          mem := m, deps := s.deps.set k { d with latch := false, pkt := none, ep := r }
          acts := s.acts ++ [.rxRelease (epaOf d.desc)]
          result := 0 })
      ∧ (left = 0 ∨ q.length < d.desc.mps → exec .poll s =
          .next (notifyIf d.ep.cb ⟨.xferDone, epaOf d.desc, 0, 0, d.ep.len - left, left⟩ { s with
            mem := m
            deps := s.deps.set k { d with latch := false, pkt := none, ep := { r with state := .idle, cb := false } }
            acts := s.acts ++ [.rxRelease (epaOf d.desc)]
            result := 0 }))

/-- The SOF service (spec/46_events_and_service.md R317): a held packet of an endpoint that is Receiving again is
latched for the next invocation, and nothing else is re-armed. The SOF is served last: data endpoints with a packet latch
are served before it, OUT before IN and each by ascending number (R315). -/
def Obligations.PollOnSofRearmsHeldPackets : Prop :=
  (∀ (s : State) (z : Bool) (k : Nat) (d : DataEp), s.cfg.legal = true → TableShape s → s.cfg.hookIsr = false →
    s.lat = { Latches.none with sof := z } → s.deps[k]? = some d → d.latch = true →
    (∀ e ∈ s.deps, e.desc.dir = d.desc.dir → e.latch = true → d.desc.num.toNat ≤ e.desc.num.toNat) →
    (d.desc.dir = .out → exec .poll s = exec .poll (serviceDataOut k s))
    ∧ (d.desc.dir = .in → (∀ e ∈ s.deps, e.desc.dir = .out → e.latch = false) →
      exec .poll s = exec .poll (serviceDataIn k s)))
  ∧ ∀ (s : State) (z : Bool), OnlyLatches { Latches.none with sof := true } s →
    (z = true ↔ s.ep0.pp = true ∧ s.ep0.state = .receiving ∧ s.rx0 ≠ none) →
    exec .poll s = .next (notifyIf s.cfg.hookSof ⟨.sofHook, 0, 0, 0, 0, s.sofFrame.zeroExtend 16⟩ { s with
      lat := { Latches.none with ep0Out := z }
      ep0 := if z then { s.ep0 with pp := false } else s.ep0
      deps := s.deps.map (fun d =>
        if d.desc.dir = .out ∧ d.ep.pp = true ∧ d.ep.state = .receiving ∧ d.pkt ≠ none then
          { d with latch := true, ep := { d.ep with pp := false } }
        else d)
      result := 0 })

/-! ### Registers and memory -/

/-- An aligned 32-bit load returns the register at its offset and changes nothing of the UEE; the fields of every
register, and 0 elsewhere; and the interrupt line. The first clauses are the numbers of the device states, of the
endpoint states and of the record kinds that the registers show (spec/10_state.md R22 to R28, R30 to R33, R35,
spec/30_encoding.md R105, R106, spec/60_exceptions.md R346). -/
def Obligations.RegisterReadsShowTheState : Prop :=
  (DevState.code .attached = 0 ∧ DevState.code .default = 1 ∧ DevState.code .addressed = 2
    ∧ DevState.code .suspended = 3 ∧ DevState.code .configured = 4)
  ∧ (EpState.code .idle = 0 ∧ EpState.code .transmitting = 1 ∧ EpState.code .receiving = 2
    ∧ EpState.code .halted = 3 ∧ EpState.code .stalled = 4 ∧ EpState.code .status = 5)
  ∧ (RecKind.code .xferDone = 0x01 ∧ RecKind.code .xferError = 0x02 ∧ RecKind.code .stateChange = 0x03
    ∧ RecKind.code .resetHook = 0x04 ∧ RecKind.code .sofHook = 0x05 ∧ RecKind.code .serviceEnter = 0x06
    ∧ RecKind.code .serviceExit = 0x07)
  ∧ ∀ s : State,
    (∀ rest off, s.inputs = .regRead (s.cfg.usbBase + off) 32 :: rest → off < 256 → off % 4 = 0 →
      step s = .next { s with inputs := rest, readData := some (regValue s off) })
    ∧ regValue s 0x04 = s.argAddr
    ∧ regValue s 0x08 = s.argLen.zeroExtend 32
    ∧ regValue s 0x0C = s.result
    ∧ ((regValue s 0x10).getLsbD 0 = !s.nq.isEmpty ∧ (regValue s 0x10).getLsbD 1 = s.nqOvf
        ∧ (regValue s 0x10).extractLsb' 2 6 = 0 ∧ (regValue s 0x10).extractLsb' 8 8 = BitVec.ofNat 8 s.nq.length
        ∧ (regValue s 0x10).extractLsb' 16 16 = 0)
    ∧ (s.nq = [] → regValue s 0x14 = 0 ∧ regValue s 0x18 = 0)
    ∧ (∀ r l, s.nq = r :: l →
        (regValue s 0x14).extractLsb' 24 8 = r.kind.code ∧ (regValue s 0x14).extractLsb' 16 8 = r.epa
        ∧ (regValue s 0x14).extractLsb' 8 8 = r.code ∧ (regValue s 0x14).extractLsb' 0 8 = r.aux
        ∧ (regValue s 0x18).extractLsb' 16 16 = r.xf ∧ (regValue s 0x18).extractLsb' 0 16 = r.rm)
    ∧ ((regValue s 0x20).extractLsb' 0 3 = s.dev.state.code ∧ (regValue s 0x20).extractLsb' 4 3 = s.dev.saved.code
        ∧ (regValue s 0x20).extractLsb' 8 7 = s.dev.addr ∧ (regValue s 0x20).extractLsb' 16 8 = s.dev.config
        ∧ (regValue s 0x20).getLsbD 24 = s.dev.pullup ∧ (regValue s 0x20).getLsbD 25 = s.ctlOpen
        ∧ (regValue s 0x20).extractLsb' 28 3 = s.ep0.state.code ∧ regValue s 0x20 &&& 0x8C008088 = 0)
    ∧ regValue s 0x24 = (if s.nie then 1 else 0)
    ∧ (∀ off, off ∉ [0x04, 0x08, 0x0C, 0x10, 0x14, 0x18, 0x20, 0x24] → regValue s off = 0)
    ∧ (irqCpu s = true ↔ s.nie = true ∧ s.nq ≠ [])

/-- An aligned 32-bit store other than to CMD stores the fields of its register, pops or clears, or is ignored
(spec/10_state.md R24, R25, R27 to R32). -/
def Obligations.RegisterWritesStoreTheirFields : Prop :=
  ∀ (s : State) (rest : List Stimulus) (off : Nat) (w : Word),
    s.inputs = .regWrite (s.cfg.usbBase + off) 32 w :: rest → off < 256 → off % 4 = 0 → off ≠ 0 →
    (off = 0x04 → step s = .next { s with inputs := rest, argAddr := BitVec.ofNat 32 (w.toNat % 2 ^ s.cfg.addrW) })
    ∧ (off = 0x08 → step s = .next { s with inputs := rest, argLen := w.extractLsb' 0 16 })
    ∧ (off = 0x1C → step s = .next { s with
        inputs := rest
        nq := if w.getLsbD 0 then s.nq.drop 1 else s.nq
        nqOvf := s.nqOvf && !w.getLsbD 1 })
    ∧ (off = 0x24 → step s = .next { s with inputs := rest, nie := w.getLsbD 0 })
    ∧ (off ∉ [0x04, 0x08, 0x1C, 0x24] → step s = .next { s with inputs := rest })

/-- `Notify` appends while the queue has room, and otherwise drops the record, sets OVF and records NotifyOverflow
(spec/60_exceptions.md R345, R347). -/
def Obligations.NotifyAppendsOrOverflows : Prop :=
  ∀ (r : Record) (s : State),
    (s.nq.length < s.cfg.nqDepth → notify r s = { s with nq := s.nq ++ [r] })
    ∧ (s.cfg.nqDepth ≤ s.nq.length →
      notify r s = { s with nqOvf := true, faults := s.faults ++ [.notifyOverflow] })

/-- A register access that is not an aligned 32-bit access does nothing to the UEE and records BadRegisterAccess
(spec/20_memory.md R63). That a load then leaves none in `readData` is the model's (log entry 10, DESIGN CHOICE). -/
def Obligations.BadRegisterAccessOnlyRecordsAFault : Prop :=
  ∀ (s : State) (rest : List Stimulus) (off bits : Nat) (w : Word), off < 256 → bits ≠ 32 ∨ off % 4 ≠ 0 →
    (s.inputs = .regWrite (s.cfg.usbBase + off) bits w :: rest →
      step s = .next { s with inputs := rest, faults := s.faults ++ [.badRegisterAccess] })
    ∧ (s.inputs = .regRead (s.cfg.usbBase + off) bits :: rest →
      step s = .next { s with inputs := rest, readData := none, faults := s.faults ++ [.badRegisterAccess] })

/-- The owned bytes are the buffers of the transfers in flight, counted from their start, and SERIAL_BUF
(spec/20_memory.md R65). -/
def Obligations.OwnedMemoryIsTheTransferBuffers : Prop :=
  ∀ (s : State) (a : Nat), a < 2 ^ s.cfg.addrW → CountsOk s →
    (owned s a = true ↔
      (∃ r : EpRec, (r = s.ep0 ∨ ∃ d ∈ s.deps, r = d.ep) ∧ (r.state = .transmitting ∨ r.state = .receiving)
        ∧ ∃ i : Nat, i < r.len.toNat
          ∧ (a : Int) = ((r.buf.toNat : Int) - ((r.len.toNat : Int) - r.rem.toNat) + i) % (2 ^ s.cfg.addrW : Nat))
      ∨ ∃ i : Nat, i < 4 * s.cfg.uid.length + 2 ∧ a = (s.cfg.serialBuf.toNat + i) % 2 ^ s.cfg.addrW)

/-- A CPU load and a CPU store of one byte of memory happen, owned or not, and an owned byte records
OwnershipViolation; a load after a store returns the byte stored (spec/20_memory.md R65, R70). -/
def Obligations.CpuMemoryAccessesMoveOneByte : Prop :=
  ∀ (s : State) (rest : List Stimulus) (a : Nat) (v : Byte) (f : List FaultReason),
    a < 2 ^ s.cfg.addrW → f = (if owned s a then s.faults ++ [.ownershipViolation] else s.faults) →
    (s.inputs = .memRead a :: rest → step s = .next { s with
      inputs := rest, readData := some ((s.mem.read a).zeroExtend 32), faults := f })
    ∧ (s.inputs = .memWrite a v :: rest → Memory.wf s.mem → ∃ m : Memory,
      step s = .next { s with inputs := rest, mem := m, faults := f }
      ∧ m.read a = v ∧ ∀ b, b ≠ a → m.read b = s.mem.read b)

/-! ### The whole machine -/

/-- Every step keeps the invariant, from every state that meets it (spec/10_state.md section 8, R44;
spec/44_data_endpoints.md R261). -/
def Obligations.StepKeepsInvariant : Prop :=
  ∀ s t : State, Inv s → step s = .next t → Inv t

/-- Power-on reset, of every configuration with every memory and schedule, meets the invariant, and nothing is in the
histories; the values are those of spec/10_state.md R49 (spec/70_reset_and_hazards.md R370). -/
def Obligations.PowerOnResetMeetsInvariant : Prop :=
  ∀ s : State, Starts s → MemoryOk s →
    Inv s ∧ s.acts = [] ∧ s.hostIn = [] ∧ s.faults = [] ∧ latchPending s = false ∧ irqCpu s = false
    ∧ s.dev = ⟨.attached, .attached, 0, 0, 0, false⟩ ∧ s.ep0 = ⟨.idle, 0, 0, 0, false, false, false⟩
    ∧ s.argAddr = 0 ∧ s.argLen = 0 ∧ s.result = 0 ∧ s.nie = false ∧ s.nq = [] ∧ s.nqOvf = false
    ∧ s.ctlOpen = false ∧ s.setup = ⟨0, 0, 0, 0, 0, 0, 0, 0⟩ ∧ s.ep0Stall = false
    ∧ s.rx0 = none ∧ s.tx0 = none ∧ s.tx0stage = [] ∧ s.sofFrame = 0
    ∧ s.lat = ⟨false, false, false, false, false, false, false, false, false⟩
    ∧ ∀ d ∈ s.deps, d.ep = ⟨.idle, 0, 0, 0, false, false, false⟩ ∧ d.active = false ∧ d.pkt = none
      ∧ d.latch = false ∧ d.stall = false

/-- `faults`, `acts` and `host_in` are only appended to: no step, INIT included, takes anything back
(spec/10_state.md R46, R47, spec/45_device_state.md R278). -/
def Obligations.HistoriesOnlyGrow : Prop :=
  ∀ s t : State, step s = .next t → s.faults <+: t.faults ∧ s.acts <+: t.acts ∧ s.hostIn <+: t.hostIn

/-- RESULT changes only in a step that writes CMD; ARG_ADDR, ARG_LEN and IRQ_EN only in one that writes them or is INIT;
a record leaves the queue, and OVF is cleared, only in a NOTIFY_POP or INIT (spec/10_state.md R24 to R29, R31). -/
def Obligations.RegistersChangeOnlyByTheCpu : Prop :=
  ∀ (s t : State) (writes : Nat → Prop) (isInit : Prop), step s = .next t →
    (∀ off, writes off ↔ ∃ w rest, s.inputs = .regWrite (s.cfg.usbBase + off) 32 w :: rest) →
    (isInit ↔ ∃ rest, s.inputs = .regWrite s.cfg.usbBase 32 0x01000000 :: rest) →
    (t.result ≠ s.result → writes 0x00)
    ∧ (t.argAddr ≠ s.argAddr → writes 0x04 ∨ isInit)
    ∧ (t.argLen ≠ s.argLen → writes 0x08 ∨ isInit)
    ∧ (t.nie ≠ s.nie → writes 0x24 ∨ isInit)
    ∧ (¬ s.nq <+: t.nq → writes 0x1C ∨ isInit)
    ∧ (s.nqOvf = true → t.nqOvf = false → writes 0x1C ∨ isInit)

/-- Only POLL reaches memory; only INIT, DISCONNECT and POLL change the device state, and the first two only to
Attached; only CONNECT, INIT and DISCONNECT change the pull-up; only EV_IN_TAKEN extends `host_in`; only POLL and INIT
change the SETUP packet (spec/20_memory.md R60, spec/45_device_state.md R280, R281, spec/46_events_and_service.md
R309). -/
def Obligations.InstructionsKeepWhatTheyDoNotReach : Prop :=
  ∀ (i : Instr) (s t : State), exec i s = .next t →
    (i ≠ .poll → t.mem = s.mem)
    ∧ (i ≠ .poll → i ≠ .init → i ≠ .disconnect →
        t.dev.state = s.dev.state ∧ t.dev.saved = s.dev.saved ∧ t.dev.config = s.dev.config ∧ t.dev.alt = s.dev.alt)
    ∧ (i = .init ∨ i = .disconnect → t.dev.state = .attached)
    ∧ (i ≠ .connect → i ≠ .init → i ≠ .disconnect → t.dev.pullup = s.dev.pullup)
    ∧ ((∀ epa, i ≠ .evInTaken epa) → t.hostIn = s.hostIn)
    ∧ (i ≠ .poll → i ≠ .init → t.setup = s.setup)

/-- No step changes the configuration, and every step keeps one record per entry of `EPS`, in its order
(spec/00_scope.md R5, spec/10_state.md R37). -/
def Obligations.ConfigurationAndTableNeverChange : Prop :=
  ∀ s t : State, TableShape s → step s = .next t → t.cfg = s.cfg ∧ t.deps.map DataEp.desc = s.deps.map DataEp.desc

/-- Two invocations clear every latch, from any state (spec/70_reset_and_hazards.md R384). -/
def Obligations.TwoInvocationsClearEveryLatch : Prop :=
  ∀ s : State, s.cfg.legal = true → TableShape s → ∃ t, execAll [.poll, .poll] s = .next t ∧ latchPending t = false

/-- An invocation never overflows an empty queue of `8 + len(EPS)` records (spec/70_reset_and_hazards.md R380). -/
def Obligations.InvocationNeverOverflowsAnEmptyQueue : Prop :=
  ∀ s : State, Inv s → s.nq = [] → 8 + s.cfg.eps.length ≤ s.cfg.nqDepth →
    ∃ t, exec .poll s = .next t ∧ t.faults = s.faults ∧ t.nqOvf = s.nqOvf ∧ t.nq.length ≤ 8 + s.cfg.eps.length

/-- An invocation writes no byte of memory that no transfer owns: not beyond `rem`, and not outside SERIAL_BUF
(spec/41_fifo_transport.md R158, spec/20_memory.md R65). -/
def Obligations.InvocationWritesOnlyOwnedMemory : Prop :=
  ∀ (s : State) (a : Nat), Inv s → s.cfg.legal = true → a < 2 ^ s.cfg.addrW → owned s a = false →
    ∃ t, exec .poll s = .next t ∧ t.mem.read a = s.mem.read a

/-- An EP0 IN data stage of length L reaches the host as `floor(L / MPS0)` full packets and one final packet of
`L mod MPS0` bytes, which is the zero-length packet when that is 0; they hold the bytes of the buffer in order, and the
stage ends with DataEnd (spec/42_control_transfer.md R182, R183). -/
def Obligations.EndpointZeroDataStageReachesTheHost : Prop :=
  ∀ (s : State) (L : Nat), s.cfg.legal = true → OnlyLatches { Latches.none with ep0In := true } s →
    busLive s = true → s.ep0Stall = false → s.ep0.state = .transmitting → s.tx0 = none → s.tx0stage = [] →
    L = s.ep0.rem.toNat →
    ∃ t, execAll (hostReads 0x80 (L / s.cfg.mps0 + 1)) s = .next t
      ∧ t.hostIn = s.hostIn ++ (List.range (L / s.cfg.mps0 + 1)).map (fun i =>
          (0x80, memReadBytes s (s.ep0.buf.toNat + i * s.cfg.mps0) (min s.cfg.mps0 (L - i * s.cfg.mps0))))
      ∧ t.ep0.state = .idle ∧ t.ep0.rem = 0 ∧ t.ctlOpen = false ∧ t.mem = s.mem ∧ t.acts.getLast? = some .dataEnd

/-- A data IN transfer of length L reaches the host as `ceil(L / mps)` packets that hold the bytes of the buffer in
order, none of them empty; the next invocation returns the endpoint to Idle (spec/44_data_endpoints.md R251 to R253). -/
def Obligations.DataInTransferReachesTheHost : Prop :=
  ∀ (s : State) (k : Nat) (d : DataEp) (L n : Nat),
    s.cfg.legal = true → TableShape s → OnlyDataLatch k s → busLive s = true →
    s.deps[k]? = some d → d.desc.dir = .in → d.active = true → d.ep.state = .transmitting → d.pkt = none →
    L = d.ep.rem.toNat → n = (L + (d.desc.mps - 1)) / d.desc.mps →
    ∃ t e, execAll (hostReads (epaOf d.desc) n ++ [.poll]) s = .next t
      ∧ t.hostIn = s.hostIn ++ (List.range n).map (fun i =>
          (epaOf d.desc, memReadBytes s (d.ep.buf.toNat + i * d.desc.mps) (min d.desc.mps (L - i * d.desc.mps))))
      ∧ t.deps[k]? = some e ∧ e.ep.state = .idle ∧ e.ep.rem = 0 ∧ e.pkt = none ∧ t.mem = s.mem

end
end

