-- ==== Sys2Proof/Laws/Encoding.lean ====
section
/-! SUPPORT. The fields of the words that the encoder builds (spec/30_encoding.md R91, R97). -/

namespace Sys2Proof

/-- The fields of a command word are what it was built from, and its reserved bits are 0 (R91). -/
theorem commandWord_fields (opc epa : Byte) (cb : Bool) :
    codeField (commandWord opc epa cb) = opc ∧ epaField (commandWord opc epa cb) = epa
    ∧ cbField (commandWord opc epa cb) = cb ∧ (commandWord opc epa cb).extractLsb' 9 7 = 0
    ∧ (commandWord opc epa cb).extractLsb' 0 8 = 0 := by
  unfold codeField epaField cbField commandWord
  refine ⟨?_, ?_, ?_, ?_, ?_⟩
  · apply BitVec.eq_of_getLsbD_eq
    intro i hi
    rw [BitVec.getLsbD_extractLsb', BitVec.getLsbD_append]
    simp only [hi, show ¬(24 + i < 16) by omega, if_false, decide_true, Bool.true_and]
    rw [BitVec.getLsbD_append]
    simp [show ¬(24 + i - 16 < 8) by omega, show 24 + i - 16 - 8 = i by omega]
  · apply BitVec.eq_of_getLsbD_eq
    intro i hi
    rw [BitVec.getLsbD_extractLsb', BitVec.getLsbD_append]
    simp only [hi, show ¬(16 + i < 16) by omega, if_false, decide_true, Bool.true_and]
    rw [BitVec.getLsbD_append]
    simp [hi, show 16 + i - 16 = i by omega]
  · rw [BitVec.getLsbD_append, BitVec.getLsbD_append, BitVec.getLsbD_append]
    simp
  · apply BitVec.eq_of_getLsbD_eq
    intro i hi
    rw [BitVec.getLsbD_extractLsb', BitVec.getLsbD_append, BitVec.getLsbD_append, BitVec.getLsbD_append]
    simp [show 9 + i < 16 by omega]
    omega
  · apply BitVec.eq_of_getLsbD_eq
    intro i hi
    rw [BitVec.getLsbD_extractLsb', BitVec.getLsbD_append, BitVec.getLsbD_append, BitVec.getLsbD_append]
    simp [show i < 16 by omega]
    omega

/-- The fields of an event word are what it was built from, and its reserved bits are 0 (R97). -/
theorem eventWord_fields (evc epa : Byte) (cnt : BitVec 11) :
    codeField (eventWord evc epa cnt) = evc ∧ epaField (eventWord evc epa cnt) = epa
    ∧ cntField (eventWord evc epa cnt) = cnt ∧ (eventWord evc epa cnt).extractLsb' 11 5 = 0 := by
  unfold codeField epaField cntField eventWord
  refine ⟨?_, ?_, ?_, ?_⟩
  · apply BitVec.eq_of_getLsbD_eq
    intro i hi
    rw [BitVec.getLsbD_extractLsb', BitVec.getLsbD_append]
    simp only [hi, show ¬(24 + i < 16) by omega, if_false, decide_true, Bool.true_and]
    rw [BitVec.getLsbD_append]
    simp [show ¬(24 + i - 16 < 8) by omega, show 24 + i - 16 - 8 = i by omega]
  · apply BitVec.eq_of_getLsbD_eq
    intro i hi
    rw [BitVec.getLsbD_extractLsb', BitVec.getLsbD_append]
    simp only [hi, show ¬(16 + i < 16) by omega, if_false, decide_true, Bool.true_and]
    rw [BitVec.getLsbD_append]
    simp [hi, show 16 + i - 16 = i by omega]
  · apply BitVec.eq_of_getLsbD_eq
    intro i hi
    rw [BitVec.getLsbD_extractLsb', BitVec.getLsbD_append, BitVec.getLsbD_append]
    simp [hi, show i < 16 by omega]
  · apply BitVec.eq_of_getLsbD_eq
    intro i hi
    rw [BitVec.getLsbD_extractLsb', BitVec.getLsbD_append, BitVec.getLsbD_append]
    simp [show 11 + i < 16 by omega]

/-- A command word is determined by its fields (R91). -/
theorem eq_commandWord {w : Word} (h9 : w.extractLsb' 9 7 = 0) (h0 : w.extractLsb' 0 8 = 0) :
    w = commandWord (codeField w) (epaField w) (cbField w) := by
  apply BitVec.eq_of_getLsbD_eq
  intro i hi
  unfold commandWord codeField epaField cbField
  rw [BitVec.getLsbD_append, BitVec.getLsbD_append, BitVec.getLsbD_append, BitVec.getLsbD_append,
    BitVec.getLsbD_extractLsb', BitVec.getLsbD_extractLsb']
  have h9' : ∀ j, j < 7 → w.getLsbD (9 + j) = false := fun j hj => by
    have := congrArg (fun v => v.getLsbD j) h9
    simpa [BitVec.getLsbD_extractLsb', hj] using this
  have h0' : ∀ j, j < 8 → w.getLsbD j = false := fun j hj => by
    have := congrArg (fun v => v.getLsbD j) h0
    simpa [BitVec.getLsbD_extractLsb', hj] using this
  by_cases h16 : i < 16
  · by_cases h8 : i < 8
    · simp [h16, h8, h0' i h8]
    · by_cases h : i = 8
      · subst h; simp
      · have := h9' (i - 9) (by omega)
        rw [show 9 + (i - 9) = i by omega] at this
        simp [h16, h8, this, show ¬(i - 8 = 0) by omega]
  · by_cases h24 : i - 16 < 8
    · simp [h16, h24, show 16 + (i - 16) = i by omega]
    · simp [h16, h24, show 24 + (i - 16 - 8) = i by omega, show i - 16 - 8 < 8 by omega]

/-- An event word is determined by its fields (R97). -/
theorem eq_eventWord {w : Word} (h : w.extractLsb' 11 5 = 0) :
    w = eventWord (codeField w) (epaField w) (cntField w) := by
  apply BitVec.eq_of_getLsbD_eq
  intro i hi
  unfold eventWord codeField epaField cntField
  rw [BitVec.getLsbD_append, BitVec.getLsbD_append, BitVec.getLsbD_append,
    BitVec.getLsbD_extractLsb', BitVec.getLsbD_extractLsb', BitVec.getLsbD_extractLsb']
  by_cases h16 : i < 16
  · by_cases h11 : i < 11
    · simp [h16, h11]
    · have := congrArg (fun v => v.getLsbD (i - 11)) h
      rw [BitVec.getLsbD_extractLsb'] at this
      simp [show i - 11 < 5 by omega, show 11 + (i - 11) = i by omega] at this
      simp [h16, h11, this]
  · by_cases h24 : i - 16 < 8
    · simp [h16, h24, show 16 + (i - 16) = i by omega]
    · simp [h16, h24, show 24 + (i - 16 - 8) = i by omega, show i - 16 - 8 < 8 by omega]

end Sys2Proof
end

