-- ==== Sys2Proof/Laws/State.lean ====
section
/-! SUPPORT. One lemma per field per update: what each named update of the state leaves of every field it does not
write, and what it writes where that is one expression. A later proof rewrites with these and unfolds no update. -/

namespace Sys2Proof.Machine

open Sys2Proof

/-! ### setResult -/

@[simp] theorem setResult_result (s : State) (st : Status) (v : Half) : (s.setResult st v).result = resultWord st v := rfl
@[simp] theorem setResult_cfg (s : State) (st : Status) (v : Half) : (s.setResult st v).cfg = s.cfg := rfl
@[simp] theorem setResult_argAddr (s : State) (st : Status) (v : Half) : (s.setResult st v).argAddr = s.argAddr := rfl
@[simp] theorem setResult_argLen (s : State) (st : Status) (v : Half) : (s.setResult st v).argLen = s.argLen := rfl
@[simp] theorem setResult_nie (s : State) (st : Status) (v : Half) : (s.setResult st v).nie = s.nie := rfl
@[simp] theorem setResult_dev (s : State) (st : Status) (v : Half) : (s.setResult st v).dev = s.dev := rfl
@[simp] theorem setResult_ep0 (s : State) (st : Status) (v : Half) : (s.setResult st v).ep0 = s.ep0 := rfl
@[simp] theorem setResult_ctlOpen (s : State) (st : Status) (v : Half) : (s.setResult st v).ctlOpen = s.ctlOpen := rfl
@[simp] theorem setResult_setup (s : State) (st : Status) (v : Half) : (s.setResult st v).setup = s.setup := rfl
@[simp] theorem setResult_ep0Stall (s : State) (st : Status) (v : Half) : (s.setResult st v).ep0Stall = s.ep0Stall := rfl
@[simp] theorem setResult_rx0 (s : State) (st : Status) (v : Half) : (s.setResult st v).rx0 = s.rx0 := rfl
@[simp] theorem setResult_tx0 (s : State) (st : Status) (v : Half) : (s.setResult st v).tx0 = s.tx0 := rfl
@[simp] theorem setResult_tx0stage (s : State) (st : Status) (v : Half) : (s.setResult st v).tx0stage = s.tx0stage := rfl
@[simp] theorem setResult_deps (s : State) (st : Status) (v : Half) : (s.setResult st v).deps = s.deps := rfl
@[simp] theorem setResult_lat (s : State) (st : Status) (v : Half) : (s.setResult st v).lat = s.lat := rfl
@[simp] theorem setResult_sofFrame (s : State) (st : Status) (v : Half) : (s.setResult st v).sofFrame = s.sofFrame := rfl
@[simp] theorem setResult_nq (s : State) (st : Status) (v : Half) : (s.setResult st v).nq = s.nq := rfl
@[simp] theorem setResult_nqOvf (s : State) (st : Status) (v : Half) : (s.setResult st v).nqOvf = s.nqOvf := rfl
@[simp] theorem setResult_faults (s : State) (st : Status) (v : Half) : (s.setResult st v).faults = s.faults := rfl
@[simp] theorem setResult_acts (s : State) (st : Status) (v : Half) : (s.setResult st v).acts = s.acts := rfl
@[simp] theorem setResult_hostIn (s : State) (st : Status) (v : Half) : (s.setResult st v).hostIn = s.hostIn := rfl
@[simp] theorem setResult_mem (s : State) (st : Status) (v : Half) : (s.setResult st v).mem = s.mem := rfl
@[simp] theorem setResult_readData (s : State) (st : Status) (v : Half) : (s.setResult st v).readData = s.readData := rfl
@[simp] theorem setResult_inputs (s : State) (st : Status) (v : Half) : (s.setResult st v).inputs = s.inputs := rfl
@[simp] theorem setResult_hookIn (s : State) (st : Status) (v : Half) : (s.setResult st v).hookIn = s.hookIn := rfl
@[simp] theorem setResult_productIn (s : State) (st : Status) (v : Half) : (s.setResult st v).productIn = s.productIn := rfl
@[simp] theorem setResult_draws (s : State) (st : Status) (v : Half) : (s.setResult st v).draws = s.draws := rfl

/-! ### modifyEp -/

@[simp] theorem modifyEp_deps (s : State) (k : Nat) (f : DataEp → DataEp) : (s.modifyEp k f).deps = s.deps.modify k f := rfl
@[simp] theorem modifyEp_cfg (s : State) (k : Nat) (f : DataEp → DataEp) : (s.modifyEp k f).cfg = s.cfg := rfl
@[simp] theorem modifyEp_argAddr (s : State) (k : Nat) (f : DataEp → DataEp) : (s.modifyEp k f).argAddr = s.argAddr := rfl
@[simp] theorem modifyEp_argLen (s : State) (k : Nat) (f : DataEp → DataEp) : (s.modifyEp k f).argLen = s.argLen := rfl
@[simp] theorem modifyEp_result (s : State) (k : Nat) (f : DataEp → DataEp) : (s.modifyEp k f).result = s.result := rfl
@[simp] theorem modifyEp_nie (s : State) (k : Nat) (f : DataEp → DataEp) : (s.modifyEp k f).nie = s.nie := rfl
@[simp] theorem modifyEp_dev (s : State) (k : Nat) (f : DataEp → DataEp) : (s.modifyEp k f).dev = s.dev := rfl
@[simp] theorem modifyEp_ep0 (s : State) (k : Nat) (f : DataEp → DataEp) : (s.modifyEp k f).ep0 = s.ep0 := rfl
@[simp] theorem modifyEp_ctlOpen (s : State) (k : Nat) (f : DataEp → DataEp) : (s.modifyEp k f).ctlOpen = s.ctlOpen := rfl
@[simp] theorem modifyEp_setup (s : State) (k : Nat) (f : DataEp → DataEp) : (s.modifyEp k f).setup = s.setup := rfl
@[simp] theorem modifyEp_ep0Stall (s : State) (k : Nat) (f : DataEp → DataEp) : (s.modifyEp k f).ep0Stall = s.ep0Stall := rfl
@[simp] theorem modifyEp_rx0 (s : State) (k : Nat) (f : DataEp → DataEp) : (s.modifyEp k f).rx0 = s.rx0 := rfl
@[simp] theorem modifyEp_tx0 (s : State) (k : Nat) (f : DataEp → DataEp) : (s.modifyEp k f).tx0 = s.tx0 := rfl
@[simp] theorem modifyEp_tx0stage (s : State) (k : Nat) (f : DataEp → DataEp) : (s.modifyEp k f).tx0stage = s.tx0stage := rfl
@[simp] theorem modifyEp_lat (s : State) (k : Nat) (f : DataEp → DataEp) : (s.modifyEp k f).lat = s.lat := rfl
@[simp] theorem modifyEp_sofFrame (s : State) (k : Nat) (f : DataEp → DataEp) : (s.modifyEp k f).sofFrame = s.sofFrame := rfl
@[simp] theorem modifyEp_nq (s : State) (k : Nat) (f : DataEp → DataEp) : (s.modifyEp k f).nq = s.nq := rfl
@[simp] theorem modifyEp_nqOvf (s : State) (k : Nat) (f : DataEp → DataEp) : (s.modifyEp k f).nqOvf = s.nqOvf := rfl
@[simp] theorem modifyEp_faults (s : State) (k : Nat) (f : DataEp → DataEp) : (s.modifyEp k f).faults = s.faults := rfl
@[simp] theorem modifyEp_acts (s : State) (k : Nat) (f : DataEp → DataEp) : (s.modifyEp k f).acts = s.acts := rfl
@[simp] theorem modifyEp_hostIn (s : State) (k : Nat) (f : DataEp → DataEp) : (s.modifyEp k f).hostIn = s.hostIn := rfl
@[simp] theorem modifyEp_mem (s : State) (k : Nat) (f : DataEp → DataEp) : (s.modifyEp k f).mem = s.mem := rfl
@[simp] theorem modifyEp_readData (s : State) (k : Nat) (f : DataEp → DataEp) : (s.modifyEp k f).readData = s.readData := rfl
@[simp] theorem modifyEp_inputs (s : State) (k : Nat) (f : DataEp → DataEp) : (s.modifyEp k f).inputs = s.inputs := rfl
@[simp] theorem modifyEp_hookIn (s : State) (k : Nat) (f : DataEp → DataEp) : (s.modifyEp k f).hookIn = s.hookIn := rfl
@[simp] theorem modifyEp_productIn (s : State) (k : Nat) (f : DataEp → DataEp) : (s.modifyEp k f).productIn = s.productIn := rfl
@[simp] theorem modifyEp_draws (s : State) (k : Nat) (f : DataEp → DataEp) : (s.modifyEp k f).draws = s.draws := rfl

/-! ### modifyRec -/

@[simp] theorem modifyRec_deps (s : State) (k : Nat) (f : EpRec → EpRec) : (s.modifyRec k f).deps = s.deps.modify k (fun d => { d with ep := f d.ep }) := rfl
@[simp] theorem modifyRec_cfg (s : State) (k : Nat) (f : EpRec → EpRec) : (s.modifyRec k f).cfg = s.cfg := rfl
@[simp] theorem modifyRec_argAddr (s : State) (k : Nat) (f : EpRec → EpRec) : (s.modifyRec k f).argAddr = s.argAddr := rfl
@[simp] theorem modifyRec_argLen (s : State) (k : Nat) (f : EpRec → EpRec) : (s.modifyRec k f).argLen = s.argLen := rfl
@[simp] theorem modifyRec_result (s : State) (k : Nat) (f : EpRec → EpRec) : (s.modifyRec k f).result = s.result := rfl
@[simp] theorem modifyRec_nie (s : State) (k : Nat) (f : EpRec → EpRec) : (s.modifyRec k f).nie = s.nie := rfl
@[simp] theorem modifyRec_dev (s : State) (k : Nat) (f : EpRec → EpRec) : (s.modifyRec k f).dev = s.dev := rfl
@[simp] theorem modifyRec_ep0 (s : State) (k : Nat) (f : EpRec → EpRec) : (s.modifyRec k f).ep0 = s.ep0 := rfl
@[simp] theorem modifyRec_ctlOpen (s : State) (k : Nat) (f : EpRec → EpRec) : (s.modifyRec k f).ctlOpen = s.ctlOpen := rfl
@[simp] theorem modifyRec_setup (s : State) (k : Nat) (f : EpRec → EpRec) : (s.modifyRec k f).setup = s.setup := rfl
@[simp] theorem modifyRec_ep0Stall (s : State) (k : Nat) (f : EpRec → EpRec) : (s.modifyRec k f).ep0Stall = s.ep0Stall := rfl
@[simp] theorem modifyRec_rx0 (s : State) (k : Nat) (f : EpRec → EpRec) : (s.modifyRec k f).rx0 = s.rx0 := rfl
@[simp] theorem modifyRec_tx0 (s : State) (k : Nat) (f : EpRec → EpRec) : (s.modifyRec k f).tx0 = s.tx0 := rfl
@[simp] theorem modifyRec_tx0stage (s : State) (k : Nat) (f : EpRec → EpRec) : (s.modifyRec k f).tx0stage = s.tx0stage := rfl
@[simp] theorem modifyRec_lat (s : State) (k : Nat) (f : EpRec → EpRec) : (s.modifyRec k f).lat = s.lat := rfl
@[simp] theorem modifyRec_sofFrame (s : State) (k : Nat) (f : EpRec → EpRec) : (s.modifyRec k f).sofFrame = s.sofFrame := rfl
@[simp] theorem modifyRec_nq (s : State) (k : Nat) (f : EpRec → EpRec) : (s.modifyRec k f).nq = s.nq := rfl
@[simp] theorem modifyRec_nqOvf (s : State) (k : Nat) (f : EpRec → EpRec) : (s.modifyRec k f).nqOvf = s.nqOvf := rfl
@[simp] theorem modifyRec_faults (s : State) (k : Nat) (f : EpRec → EpRec) : (s.modifyRec k f).faults = s.faults := rfl
@[simp] theorem modifyRec_acts (s : State) (k : Nat) (f : EpRec → EpRec) : (s.modifyRec k f).acts = s.acts := rfl
@[simp] theorem modifyRec_hostIn (s : State) (k : Nat) (f : EpRec → EpRec) : (s.modifyRec k f).hostIn = s.hostIn := rfl
@[simp] theorem modifyRec_mem (s : State) (k : Nat) (f : EpRec → EpRec) : (s.modifyRec k f).mem = s.mem := rfl
@[simp] theorem modifyRec_readData (s : State) (k : Nat) (f : EpRec → EpRec) : (s.modifyRec k f).readData = s.readData := rfl
@[simp] theorem modifyRec_inputs (s : State) (k : Nat) (f : EpRec → EpRec) : (s.modifyRec k f).inputs = s.inputs := rfl
@[simp] theorem modifyRec_hookIn (s : State) (k : Nat) (f : EpRec → EpRec) : (s.modifyRec k f).hookIn = s.hookIn := rfl
@[simp] theorem modifyRec_productIn (s : State) (k : Nat) (f : EpRec → EpRec) : (s.modifyRec k f).productIn = s.productIn := rfl
@[simp] theorem modifyRec_draws (s : State) (k : Nat) (f : EpRec → EpRec) : (s.modifyRec k f).draws = s.draws := rfl

/-! ### raise -/

@[simp] theorem raise_faults (r : FaultReason) (s : State) : (raise r s).faults = s.faults ++ [r] := rfl
@[simp] theorem raise_cfg (r : FaultReason) (s : State) : (raise r s).cfg = s.cfg := rfl
@[simp] theorem raise_argAddr (r : FaultReason) (s : State) : (raise r s).argAddr = s.argAddr := rfl
@[simp] theorem raise_argLen (r : FaultReason) (s : State) : (raise r s).argLen = s.argLen := rfl
@[simp] theorem raise_result (r : FaultReason) (s : State) : (raise r s).result = s.result := rfl
@[simp] theorem raise_nie (r : FaultReason) (s : State) : (raise r s).nie = s.nie := rfl
@[simp] theorem raise_dev (r : FaultReason) (s : State) : (raise r s).dev = s.dev := rfl
@[simp] theorem raise_ep0 (r : FaultReason) (s : State) : (raise r s).ep0 = s.ep0 := rfl
@[simp] theorem raise_ctlOpen (r : FaultReason) (s : State) : (raise r s).ctlOpen = s.ctlOpen := rfl
@[simp] theorem raise_setup (r : FaultReason) (s : State) : (raise r s).setup = s.setup := rfl
@[simp] theorem raise_ep0Stall (r : FaultReason) (s : State) : (raise r s).ep0Stall = s.ep0Stall := rfl
@[simp] theorem raise_rx0 (r : FaultReason) (s : State) : (raise r s).rx0 = s.rx0 := rfl
@[simp] theorem raise_tx0 (r : FaultReason) (s : State) : (raise r s).tx0 = s.tx0 := rfl
@[simp] theorem raise_tx0stage (r : FaultReason) (s : State) : (raise r s).tx0stage = s.tx0stage := rfl
@[simp] theorem raise_deps (r : FaultReason) (s : State) : (raise r s).deps = s.deps := rfl
@[simp] theorem raise_lat (r : FaultReason) (s : State) : (raise r s).lat = s.lat := rfl
@[simp] theorem raise_sofFrame (r : FaultReason) (s : State) : (raise r s).sofFrame = s.sofFrame := rfl
@[simp] theorem raise_nq (r : FaultReason) (s : State) : (raise r s).nq = s.nq := rfl
@[simp] theorem raise_nqOvf (r : FaultReason) (s : State) : (raise r s).nqOvf = s.nqOvf := rfl
@[simp] theorem raise_acts (r : FaultReason) (s : State) : (raise r s).acts = s.acts := rfl
@[simp] theorem raise_hostIn (r : FaultReason) (s : State) : (raise r s).hostIn = s.hostIn := rfl
@[simp] theorem raise_mem (r : FaultReason) (s : State) : (raise r s).mem = s.mem := rfl
@[simp] theorem raise_readData (r : FaultReason) (s : State) : (raise r s).readData = s.readData := rfl
@[simp] theorem raise_inputs (r : FaultReason) (s : State) : (raise r s).inputs = s.inputs := rfl
@[simp] theorem raise_hookIn (r : FaultReason) (s : State) : (raise r s).hookIn = s.hookIn := rfl
@[simp] theorem raise_productIn (r : FaultReason) (s : State) : (raise r s).productIn = s.productIn := rfl
@[simp] theorem raise_draws (r : FaultReason) (s : State) : (raise r s).draws = s.draws := rfl

/-! ### act -/

@[simp] theorem act_acts (a : Action) (s : State) : (act a s).acts = s.acts ++ [a] := rfl
@[simp] theorem act_cfg (a : Action) (s : State) : (act a s).cfg = s.cfg := rfl
@[simp] theorem act_argAddr (a : Action) (s : State) : (act a s).argAddr = s.argAddr := rfl
@[simp] theorem act_argLen (a : Action) (s : State) : (act a s).argLen = s.argLen := rfl
@[simp] theorem act_result (a : Action) (s : State) : (act a s).result = s.result := rfl
@[simp] theorem act_nie (a : Action) (s : State) : (act a s).nie = s.nie := rfl
@[simp] theorem act_dev (a : Action) (s : State) : (act a s).dev = s.dev := rfl
@[simp] theorem act_ep0 (a : Action) (s : State) : (act a s).ep0 = s.ep0 := rfl
@[simp] theorem act_ctlOpen (a : Action) (s : State) : (act a s).ctlOpen = s.ctlOpen := rfl
@[simp] theorem act_setup (a : Action) (s : State) : (act a s).setup = s.setup := rfl
@[simp] theorem act_ep0Stall (a : Action) (s : State) : (act a s).ep0Stall = s.ep0Stall := rfl
@[simp] theorem act_rx0 (a : Action) (s : State) : (act a s).rx0 = s.rx0 := rfl
@[simp] theorem act_tx0 (a : Action) (s : State) : (act a s).tx0 = s.tx0 := rfl
@[simp] theorem act_tx0stage (a : Action) (s : State) : (act a s).tx0stage = s.tx0stage := rfl
@[simp] theorem act_deps (a : Action) (s : State) : (act a s).deps = s.deps := rfl
@[simp] theorem act_lat (a : Action) (s : State) : (act a s).lat = s.lat := rfl
@[simp] theorem act_sofFrame (a : Action) (s : State) : (act a s).sofFrame = s.sofFrame := rfl
@[simp] theorem act_nq (a : Action) (s : State) : (act a s).nq = s.nq := rfl
@[simp] theorem act_nqOvf (a : Action) (s : State) : (act a s).nqOvf = s.nqOvf := rfl
@[simp] theorem act_faults (a : Action) (s : State) : (act a s).faults = s.faults := rfl
@[simp] theorem act_hostIn (a : Action) (s : State) : (act a s).hostIn = s.hostIn := rfl
@[simp] theorem act_mem (a : Action) (s : State) : (act a s).mem = s.mem := rfl
@[simp] theorem act_readData (a : Action) (s : State) : (act a s).readData = s.readData := rfl
@[simp] theorem act_inputs (a : Action) (s : State) : (act a s).inputs = s.inputs := rfl
@[simp] theorem act_hookIn (a : Action) (s : State) : (act a s).hookIn = s.hookIn := rfl
@[simp] theorem act_productIn (a : Action) (s : State) : (act a s).productIn = s.productIn := rfl
@[simp] theorem act_draws (a : Action) (s : State) : (act a s).draws = s.draws := rfl

/-! ### memWrite -/

@[simp] theorem memWrite_mem (s : State) (a : Nat) (v : Byte) : (memWrite s a v).mem = s.mem.write (a % 2 ^ s.cfg.addrW) v := rfl
@[simp] theorem memWrite_cfg (s : State) (a : Nat) (v : Byte) : (memWrite s a v).cfg = s.cfg := rfl
@[simp] theorem memWrite_argAddr (s : State) (a : Nat) (v : Byte) : (memWrite s a v).argAddr = s.argAddr := rfl
@[simp] theorem memWrite_argLen (s : State) (a : Nat) (v : Byte) : (memWrite s a v).argLen = s.argLen := rfl
@[simp] theorem memWrite_result (s : State) (a : Nat) (v : Byte) : (memWrite s a v).result = s.result := rfl
@[simp] theorem memWrite_nie (s : State) (a : Nat) (v : Byte) : (memWrite s a v).nie = s.nie := rfl
@[simp] theorem memWrite_dev (s : State) (a : Nat) (v : Byte) : (memWrite s a v).dev = s.dev := rfl
@[simp] theorem memWrite_ep0 (s : State) (a : Nat) (v : Byte) : (memWrite s a v).ep0 = s.ep0 := rfl
@[simp] theorem memWrite_ctlOpen (s : State) (a : Nat) (v : Byte) : (memWrite s a v).ctlOpen = s.ctlOpen := rfl
@[simp] theorem memWrite_setup (s : State) (a : Nat) (v : Byte) : (memWrite s a v).setup = s.setup := rfl
@[simp] theorem memWrite_ep0Stall (s : State) (a : Nat) (v : Byte) : (memWrite s a v).ep0Stall = s.ep0Stall := rfl
@[simp] theorem memWrite_rx0 (s : State) (a : Nat) (v : Byte) : (memWrite s a v).rx0 = s.rx0 := rfl
@[simp] theorem memWrite_tx0 (s : State) (a : Nat) (v : Byte) : (memWrite s a v).tx0 = s.tx0 := rfl
@[simp] theorem memWrite_tx0stage (s : State) (a : Nat) (v : Byte) : (memWrite s a v).tx0stage = s.tx0stage := rfl
@[simp] theorem memWrite_deps (s : State) (a : Nat) (v : Byte) : (memWrite s a v).deps = s.deps := rfl
@[simp] theorem memWrite_lat (s : State) (a : Nat) (v : Byte) : (memWrite s a v).lat = s.lat := rfl
@[simp] theorem memWrite_sofFrame (s : State) (a : Nat) (v : Byte) : (memWrite s a v).sofFrame = s.sofFrame := rfl
@[simp] theorem memWrite_nq (s : State) (a : Nat) (v : Byte) : (memWrite s a v).nq = s.nq := rfl
@[simp] theorem memWrite_nqOvf (s : State) (a : Nat) (v : Byte) : (memWrite s a v).nqOvf = s.nqOvf := rfl
@[simp] theorem memWrite_faults (s : State) (a : Nat) (v : Byte) : (memWrite s a v).faults = s.faults := rfl
@[simp] theorem memWrite_acts (s : State) (a : Nat) (v : Byte) : (memWrite s a v).acts = s.acts := rfl
@[simp] theorem memWrite_hostIn (s : State) (a : Nat) (v : Byte) : (memWrite s a v).hostIn = s.hostIn := rfl
@[simp] theorem memWrite_readData (s : State) (a : Nat) (v : Byte) : (memWrite s a v).readData = s.readData := rfl
@[simp] theorem memWrite_inputs (s : State) (a : Nat) (v : Byte) : (memWrite s a v).inputs = s.inputs := rfl
@[simp] theorem memWrite_hookIn (s : State) (a : Nat) (v : Byte) : (memWrite s a v).hookIn = s.hookIn := rfl
@[simp] theorem memWrite_productIn (s : State) (a : Nat) (v : Byte) : (memWrite s a v).productIn = s.productIn := rfl
@[simp] theorem memWrite_draws (s : State) (a : Nat) (v : Byte) : (memWrite s a v).draws = s.draws := rfl

/-! ### ep0SoftReset -/

@[simp] theorem ep0SoftReset_ep0 (s : State) : (ep0SoftReset s).ep0 = EpRec.reset := rfl
@[simp] theorem ep0SoftReset_lat (s : State) : (ep0SoftReset s).lat = { s.lat with ep0Out := false, ep0In := false } := rfl
@[simp] theorem ep0SoftReset_cfg (s : State) : (ep0SoftReset s).cfg = s.cfg := rfl
@[simp] theorem ep0SoftReset_argAddr (s : State) : (ep0SoftReset s).argAddr = s.argAddr := rfl
@[simp] theorem ep0SoftReset_argLen (s : State) : (ep0SoftReset s).argLen = s.argLen := rfl
@[simp] theorem ep0SoftReset_result (s : State) : (ep0SoftReset s).result = s.result := rfl
@[simp] theorem ep0SoftReset_nie (s : State) : (ep0SoftReset s).nie = s.nie := rfl
@[simp] theorem ep0SoftReset_dev (s : State) : (ep0SoftReset s).dev = s.dev := rfl
@[simp] theorem ep0SoftReset_ctlOpen (s : State) : (ep0SoftReset s).ctlOpen = s.ctlOpen := rfl
@[simp] theorem ep0SoftReset_setup (s : State) : (ep0SoftReset s).setup = s.setup := rfl
@[simp] theorem ep0SoftReset_ep0Stall (s : State) : (ep0SoftReset s).ep0Stall = s.ep0Stall := rfl
@[simp] theorem ep0SoftReset_rx0 (s : State) : (ep0SoftReset s).rx0 = s.rx0 := rfl
@[simp] theorem ep0SoftReset_tx0 (s : State) : (ep0SoftReset s).tx0 = s.tx0 := rfl
@[simp] theorem ep0SoftReset_tx0stage (s : State) : (ep0SoftReset s).tx0stage = s.tx0stage := rfl
@[simp] theorem ep0SoftReset_deps (s : State) : (ep0SoftReset s).deps = s.deps := rfl
@[simp] theorem ep0SoftReset_sofFrame (s : State) : (ep0SoftReset s).sofFrame = s.sofFrame := rfl
@[simp] theorem ep0SoftReset_nq (s : State) : (ep0SoftReset s).nq = s.nq := rfl
@[simp] theorem ep0SoftReset_nqOvf (s : State) : (ep0SoftReset s).nqOvf = s.nqOvf := rfl
@[simp] theorem ep0SoftReset_faults (s : State) : (ep0SoftReset s).faults = s.faults := rfl
@[simp] theorem ep0SoftReset_acts (s : State) : (ep0SoftReset s).acts = s.acts := rfl
@[simp] theorem ep0SoftReset_hostIn (s : State) : (ep0SoftReset s).hostIn = s.hostIn := rfl
@[simp] theorem ep0SoftReset_mem (s : State) : (ep0SoftReset s).mem = s.mem := rfl
@[simp] theorem ep0SoftReset_readData (s : State) : (ep0SoftReset s).readData = s.readData := rfl
@[simp] theorem ep0SoftReset_inputs (s : State) : (ep0SoftReset s).inputs = s.inputs := rfl
@[simp] theorem ep0SoftReset_hookIn (s : State) : (ep0SoftReset s).hookIn = s.hookIn := rfl
@[simp] theorem ep0SoftReset_productIn (s : State) : (ep0SoftReset s).productIn = s.productIn := rfl
@[simp] theorem ep0SoftReset_draws (s : State) : (ep0SoftReset s).draws = s.draws := rfl

/-! ### abortAll -/

@[simp] theorem abortAll_deps (s : State) : (abortAll s).deps = s.deps.map DataEp.aborted := rfl
@[simp] theorem abortAll_acts (s : State) : (abortAll s).acts = s.acts ++ s.deps.flatMap DataEp.abortActs := rfl
@[simp] theorem abortAll_cfg (s : State) : (abortAll s).cfg = s.cfg := rfl
@[simp] theorem abortAll_argAddr (s : State) : (abortAll s).argAddr = s.argAddr := rfl
@[simp] theorem abortAll_argLen (s : State) : (abortAll s).argLen = s.argLen := rfl
@[simp] theorem abortAll_result (s : State) : (abortAll s).result = s.result := rfl
@[simp] theorem abortAll_nie (s : State) : (abortAll s).nie = s.nie := rfl
@[simp] theorem abortAll_dev (s : State) : (abortAll s).dev = s.dev := rfl
@[simp] theorem abortAll_ep0 (s : State) : (abortAll s).ep0 = s.ep0 := rfl
@[simp] theorem abortAll_ctlOpen (s : State) : (abortAll s).ctlOpen = s.ctlOpen := rfl
@[simp] theorem abortAll_setup (s : State) : (abortAll s).setup = s.setup := rfl
@[simp] theorem abortAll_ep0Stall (s : State) : (abortAll s).ep0Stall = s.ep0Stall := rfl
@[simp] theorem abortAll_rx0 (s : State) : (abortAll s).rx0 = s.rx0 := rfl
@[simp] theorem abortAll_tx0 (s : State) : (abortAll s).tx0 = s.tx0 := rfl
@[simp] theorem abortAll_tx0stage (s : State) : (abortAll s).tx0stage = s.tx0stage := rfl
@[simp] theorem abortAll_lat (s : State) : (abortAll s).lat = s.lat := rfl
@[simp] theorem abortAll_sofFrame (s : State) : (abortAll s).sofFrame = s.sofFrame := rfl
@[simp] theorem abortAll_nq (s : State) : (abortAll s).nq = s.nq := rfl
@[simp] theorem abortAll_nqOvf (s : State) : (abortAll s).nqOvf = s.nqOvf := rfl
@[simp] theorem abortAll_faults (s : State) : (abortAll s).faults = s.faults := rfl
@[simp] theorem abortAll_hostIn (s : State) : (abortAll s).hostIn = s.hostIn := rfl
@[simp] theorem abortAll_mem (s : State) : (abortAll s).mem = s.mem := rfl
@[simp] theorem abortAll_readData (s : State) : (abortAll s).readData = s.readData := rfl
@[simp] theorem abortAll_inputs (s : State) : (abortAll s).inputs = s.inputs := rfl
@[simp] theorem abortAll_hookIn (s : State) : (abortAll s).hookIn = s.hookIn := rfl
@[simp] theorem abortAll_productIn (s : State) : (abortAll s).productIn = s.productIn := rfl
@[simp] theorem abortAll_draws (s : State) : (abortAll s).draws = s.draws := rfl

/-! ### activateAll -/

@[simp] theorem activateAll_deps (s : State) : (activateAll s).deps = s.deps.map DataEp.activated := rfl
@[simp] theorem activateAll_acts (s : State) : (activateAll s).acts = s.acts ++ s.deps.flatMap DataEp.activateActs := rfl
@[simp] theorem activateAll_cfg (s : State) : (activateAll s).cfg = s.cfg := rfl
@[simp] theorem activateAll_argAddr (s : State) : (activateAll s).argAddr = s.argAddr := rfl
@[simp] theorem activateAll_argLen (s : State) : (activateAll s).argLen = s.argLen := rfl
@[simp] theorem activateAll_result (s : State) : (activateAll s).result = s.result := rfl
@[simp] theorem activateAll_nie (s : State) : (activateAll s).nie = s.nie := rfl
@[simp] theorem activateAll_dev (s : State) : (activateAll s).dev = s.dev := rfl
@[simp] theorem activateAll_ep0 (s : State) : (activateAll s).ep0 = s.ep0 := rfl
@[simp] theorem activateAll_ctlOpen (s : State) : (activateAll s).ctlOpen = s.ctlOpen := rfl
@[simp] theorem activateAll_setup (s : State) : (activateAll s).setup = s.setup := rfl
@[simp] theorem activateAll_ep0Stall (s : State) : (activateAll s).ep0Stall = s.ep0Stall := rfl
@[simp] theorem activateAll_rx0 (s : State) : (activateAll s).rx0 = s.rx0 := rfl
@[simp] theorem activateAll_tx0 (s : State) : (activateAll s).tx0 = s.tx0 := rfl
@[simp] theorem activateAll_tx0stage (s : State) : (activateAll s).tx0stage = s.tx0stage := rfl
@[simp] theorem activateAll_lat (s : State) : (activateAll s).lat = s.lat := rfl
@[simp] theorem activateAll_sofFrame (s : State) : (activateAll s).sofFrame = s.sofFrame := rfl
@[simp] theorem activateAll_nq (s : State) : (activateAll s).nq = s.nq := rfl
@[simp] theorem activateAll_nqOvf (s : State) : (activateAll s).nqOvf = s.nqOvf := rfl
@[simp] theorem activateAll_faults (s : State) : (activateAll s).faults = s.faults := rfl
@[simp] theorem activateAll_hostIn (s : State) : (activateAll s).hostIn = s.hostIn := rfl
@[simp] theorem activateAll_mem (s : State) : (activateAll s).mem = s.mem := rfl
@[simp] theorem activateAll_readData (s : State) : (activateAll s).readData = s.readData := rfl
@[simp] theorem activateAll_inputs (s : State) : (activateAll s).inputs = s.inputs := rfl
@[simp] theorem activateAll_hookIn (s : State) : (activateAll s).hookIn = s.hookIn := rfl
@[simp] theorem activateAll_productIn (s : State) : (activateAll s).productIn = s.productIn := rfl
@[simp] theorem activateAll_draws (s : State) : (activateAll s).draws = s.draws := rfl

/-! ### deactivateAll -/

@[simp] theorem deactivateAll_deps (s : State) : (deactivateAll s).deps = s.deps.map DataEp.deactivated := rfl
@[simp] theorem deactivateAll_acts (s : State) : (deactivateAll s).acts = s.acts ++ s.deps.flatMap DataEp.deactivateActs := rfl
@[simp] theorem deactivateAll_cfg (s : State) : (deactivateAll s).cfg = s.cfg := rfl
@[simp] theorem deactivateAll_argAddr (s : State) : (deactivateAll s).argAddr = s.argAddr := rfl
@[simp] theorem deactivateAll_argLen (s : State) : (deactivateAll s).argLen = s.argLen := rfl
@[simp] theorem deactivateAll_result (s : State) : (deactivateAll s).result = s.result := rfl
@[simp] theorem deactivateAll_nie (s : State) : (deactivateAll s).nie = s.nie := rfl
@[simp] theorem deactivateAll_dev (s : State) : (deactivateAll s).dev = s.dev := rfl
@[simp] theorem deactivateAll_ep0 (s : State) : (deactivateAll s).ep0 = s.ep0 := rfl
@[simp] theorem deactivateAll_ctlOpen (s : State) : (deactivateAll s).ctlOpen = s.ctlOpen := rfl
@[simp] theorem deactivateAll_setup (s : State) : (deactivateAll s).setup = s.setup := rfl
@[simp] theorem deactivateAll_ep0Stall (s : State) : (deactivateAll s).ep0Stall = s.ep0Stall := rfl
@[simp] theorem deactivateAll_rx0 (s : State) : (deactivateAll s).rx0 = s.rx0 := rfl
@[simp] theorem deactivateAll_tx0 (s : State) : (deactivateAll s).tx0 = s.tx0 := rfl
@[simp] theorem deactivateAll_tx0stage (s : State) : (deactivateAll s).tx0stage = s.tx0stage := rfl
@[simp] theorem deactivateAll_lat (s : State) : (deactivateAll s).lat = s.lat := rfl
@[simp] theorem deactivateAll_sofFrame (s : State) : (deactivateAll s).sofFrame = s.sofFrame := rfl
@[simp] theorem deactivateAll_nq (s : State) : (deactivateAll s).nq = s.nq := rfl
@[simp] theorem deactivateAll_nqOvf (s : State) : (deactivateAll s).nqOvf = s.nqOvf := rfl
@[simp] theorem deactivateAll_faults (s : State) : (deactivateAll s).faults = s.faults := rfl
@[simp] theorem deactivateAll_hostIn (s : State) : (deactivateAll s).hostIn = s.hostIn := rfl
@[simp] theorem deactivateAll_mem (s : State) : (deactivateAll s).mem = s.mem := rfl
@[simp] theorem deactivateAll_readData (s : State) : (deactivateAll s).readData = s.readData := rfl
@[simp] theorem deactivateAll_inputs (s : State) : (deactivateAll s).inputs = s.inputs := rfl
@[simp] theorem deactivateAll_hookIn (s : State) : (deactivateAll s).hookIn = s.hookIn := rfl
@[simp] theorem deactivateAll_productIn (s : State) : (deactivateAll s).productIn = s.productIn := rfl
@[simp] theorem deactivateAll_draws (s : State) : (deactivateAll s).draws = s.draws := rfl

/-! ### fifoWrite -/

@[simp] theorem fifoWrite_deps (k : Nat) (d : DataEp) (p : Packet) (s : State) : (fifoWrite k d p s).deps = s.deps.modify k (fun d => { d with pkt := some p }) := rfl
@[simp] theorem fifoWrite_acts (k : Nat) (d : DataEp) (p : Packet) (s : State) : (fifoWrite k d p s).acts = s.acts ++ [.commit (epaOf d.desc) p] := rfl
@[simp] theorem fifoWrite_cfg (k : Nat) (d : DataEp) (p : Packet) (s : State) : (fifoWrite k d p s).cfg = s.cfg := rfl
@[simp] theorem fifoWrite_argAddr (k : Nat) (d : DataEp) (p : Packet) (s : State) : (fifoWrite k d p s).argAddr = s.argAddr := rfl
@[simp] theorem fifoWrite_argLen (k : Nat) (d : DataEp) (p : Packet) (s : State) : (fifoWrite k d p s).argLen = s.argLen := rfl
@[simp] theorem fifoWrite_result (k : Nat) (d : DataEp) (p : Packet) (s : State) : (fifoWrite k d p s).result = s.result := rfl
@[simp] theorem fifoWrite_nie (k : Nat) (d : DataEp) (p : Packet) (s : State) : (fifoWrite k d p s).nie = s.nie := rfl
@[simp] theorem fifoWrite_dev (k : Nat) (d : DataEp) (p : Packet) (s : State) : (fifoWrite k d p s).dev = s.dev := rfl
@[simp] theorem fifoWrite_ep0 (k : Nat) (d : DataEp) (p : Packet) (s : State) : (fifoWrite k d p s).ep0 = s.ep0 := rfl
@[simp] theorem fifoWrite_ctlOpen (k : Nat) (d : DataEp) (p : Packet) (s : State) : (fifoWrite k d p s).ctlOpen = s.ctlOpen := rfl
@[simp] theorem fifoWrite_setup (k : Nat) (d : DataEp) (p : Packet) (s : State) : (fifoWrite k d p s).setup = s.setup := rfl
@[simp] theorem fifoWrite_ep0Stall (k : Nat) (d : DataEp) (p : Packet) (s : State) : (fifoWrite k d p s).ep0Stall = s.ep0Stall := rfl
@[simp] theorem fifoWrite_rx0 (k : Nat) (d : DataEp) (p : Packet) (s : State) : (fifoWrite k d p s).rx0 = s.rx0 := rfl
@[simp] theorem fifoWrite_tx0 (k : Nat) (d : DataEp) (p : Packet) (s : State) : (fifoWrite k d p s).tx0 = s.tx0 := rfl
@[simp] theorem fifoWrite_tx0stage (k : Nat) (d : DataEp) (p : Packet) (s : State) : (fifoWrite k d p s).tx0stage = s.tx0stage := rfl
@[simp] theorem fifoWrite_lat (k : Nat) (d : DataEp) (p : Packet) (s : State) : (fifoWrite k d p s).lat = s.lat := rfl
@[simp] theorem fifoWrite_sofFrame (k : Nat) (d : DataEp) (p : Packet) (s : State) : (fifoWrite k d p s).sofFrame = s.sofFrame := rfl
@[simp] theorem fifoWrite_nq (k : Nat) (d : DataEp) (p : Packet) (s : State) : (fifoWrite k d p s).nq = s.nq := rfl
@[simp] theorem fifoWrite_nqOvf (k : Nat) (d : DataEp) (p : Packet) (s : State) : (fifoWrite k d p s).nqOvf = s.nqOvf := rfl
@[simp] theorem fifoWrite_faults (k : Nat) (d : DataEp) (p : Packet) (s : State) : (fifoWrite k d p s).faults = s.faults := rfl
@[simp] theorem fifoWrite_hostIn (k : Nat) (d : DataEp) (p : Packet) (s : State) : (fifoWrite k d p s).hostIn = s.hostIn := rfl
@[simp] theorem fifoWrite_mem (k : Nat) (d : DataEp) (p : Packet) (s : State) : (fifoWrite k d p s).mem = s.mem := rfl
@[simp] theorem fifoWrite_readData (k : Nat) (d : DataEp) (p : Packet) (s : State) : (fifoWrite k d p s).readData = s.readData := rfl
@[simp] theorem fifoWrite_inputs (k : Nat) (d : DataEp) (p : Packet) (s : State) : (fifoWrite k d p s).inputs = s.inputs := rfl
@[simp] theorem fifoWrite_hookIn (k : Nat) (d : DataEp) (p : Packet) (s : State) : (fifoWrite k d p s).hookIn = s.hookIn := rfl
@[simp] theorem fifoWrite_productIn (k : Nat) (d : DataEp) (p : Packet) (s : State) : (fifoWrite k d p s).productIn = s.productIn := rfl
@[simp] theorem fifoWrite_draws (k : Nat) (d : DataEp) (p : Packet) (s : State) : (fifoWrite k d p s).draws = s.draws := rfl

/-! ### fifoWrite0 -/

@[simp] theorem fifoWrite0_tx0stage (p : Packet) (s : State) : (fifoWrite0 p s).tx0stage = s.tx0stage ++ p := rfl
@[simp] theorem fifoWrite0_cfg (p : Packet) (s : State) : (fifoWrite0 p s).cfg = s.cfg := rfl
@[simp] theorem fifoWrite0_argAddr (p : Packet) (s : State) : (fifoWrite0 p s).argAddr = s.argAddr := rfl
@[simp] theorem fifoWrite0_argLen (p : Packet) (s : State) : (fifoWrite0 p s).argLen = s.argLen := rfl
@[simp] theorem fifoWrite0_result (p : Packet) (s : State) : (fifoWrite0 p s).result = s.result := rfl
@[simp] theorem fifoWrite0_nie (p : Packet) (s : State) : (fifoWrite0 p s).nie = s.nie := rfl
@[simp] theorem fifoWrite0_dev (p : Packet) (s : State) : (fifoWrite0 p s).dev = s.dev := rfl
@[simp] theorem fifoWrite0_ep0 (p : Packet) (s : State) : (fifoWrite0 p s).ep0 = s.ep0 := rfl
@[simp] theorem fifoWrite0_ctlOpen (p : Packet) (s : State) : (fifoWrite0 p s).ctlOpen = s.ctlOpen := rfl
@[simp] theorem fifoWrite0_setup (p : Packet) (s : State) : (fifoWrite0 p s).setup = s.setup := rfl
@[simp] theorem fifoWrite0_ep0Stall (p : Packet) (s : State) : (fifoWrite0 p s).ep0Stall = s.ep0Stall := rfl
@[simp] theorem fifoWrite0_rx0 (p : Packet) (s : State) : (fifoWrite0 p s).rx0 = s.rx0 := rfl
@[simp] theorem fifoWrite0_tx0 (p : Packet) (s : State) : (fifoWrite0 p s).tx0 = s.tx0 := rfl
@[simp] theorem fifoWrite0_deps (p : Packet) (s : State) : (fifoWrite0 p s).deps = s.deps := rfl
@[simp] theorem fifoWrite0_lat (p : Packet) (s : State) : (fifoWrite0 p s).lat = s.lat := rfl
@[simp] theorem fifoWrite0_sofFrame (p : Packet) (s : State) : (fifoWrite0 p s).sofFrame = s.sofFrame := rfl
@[simp] theorem fifoWrite0_nq (p : Packet) (s : State) : (fifoWrite0 p s).nq = s.nq := rfl
@[simp] theorem fifoWrite0_nqOvf (p : Packet) (s : State) : (fifoWrite0 p s).nqOvf = s.nqOvf := rfl
@[simp] theorem fifoWrite0_faults (p : Packet) (s : State) : (fifoWrite0 p s).faults = s.faults := rfl
@[simp] theorem fifoWrite0_acts (p : Packet) (s : State) : (fifoWrite0 p s).acts = s.acts := rfl
@[simp] theorem fifoWrite0_hostIn (p : Packet) (s : State) : (fifoWrite0 p s).hostIn = s.hostIn := rfl
@[simp] theorem fifoWrite0_mem (p : Packet) (s : State) : (fifoWrite0 p s).mem = s.mem := rfl
@[simp] theorem fifoWrite0_readData (p : Packet) (s : State) : (fifoWrite0 p s).readData = s.readData := rfl
@[simp] theorem fifoWrite0_inputs (p : Packet) (s : State) : (fifoWrite0 p s).inputs = s.inputs := rfl
@[simp] theorem fifoWrite0_hookIn (p : Packet) (s : State) : (fifoWrite0 p s).hookIn = s.hookIn := rfl
@[simp] theorem fifoWrite0_productIn (p : Packet) (s : State) : (fifoWrite0 p s).productIn = s.productIn := rfl
@[simp] theorem fifoWrite0_draws (p : Packet) (s : State) : (fifoWrite0 p s).draws = s.draws := rfl

/-! ### releaseRx -/

@[simp] theorem releaseRx_deps (k : Nat) (d : DataEp) (s : State) : (releaseRx k d s).deps = s.deps.modify k (fun d => { d with pkt := none }) := rfl
@[simp] theorem releaseRx_acts (k : Nat) (d : DataEp) (s : State) : (releaseRx k d s).acts = s.acts ++ [.rxRelease (epaOf d.desc)] := rfl
@[simp] theorem releaseRx_cfg (k : Nat) (d : DataEp) (s : State) : (releaseRx k d s).cfg = s.cfg := rfl
@[simp] theorem releaseRx_argAddr (k : Nat) (d : DataEp) (s : State) : (releaseRx k d s).argAddr = s.argAddr := rfl
@[simp] theorem releaseRx_argLen (k : Nat) (d : DataEp) (s : State) : (releaseRx k d s).argLen = s.argLen := rfl
@[simp] theorem releaseRx_result (k : Nat) (d : DataEp) (s : State) : (releaseRx k d s).result = s.result := rfl
@[simp] theorem releaseRx_nie (k : Nat) (d : DataEp) (s : State) : (releaseRx k d s).nie = s.nie := rfl
@[simp] theorem releaseRx_dev (k : Nat) (d : DataEp) (s : State) : (releaseRx k d s).dev = s.dev := rfl
@[simp] theorem releaseRx_ep0 (k : Nat) (d : DataEp) (s : State) : (releaseRx k d s).ep0 = s.ep0 := rfl
@[simp] theorem releaseRx_ctlOpen (k : Nat) (d : DataEp) (s : State) : (releaseRx k d s).ctlOpen = s.ctlOpen := rfl
@[simp] theorem releaseRx_setup (k : Nat) (d : DataEp) (s : State) : (releaseRx k d s).setup = s.setup := rfl
@[simp] theorem releaseRx_ep0Stall (k : Nat) (d : DataEp) (s : State) : (releaseRx k d s).ep0Stall = s.ep0Stall := rfl
@[simp] theorem releaseRx_rx0 (k : Nat) (d : DataEp) (s : State) : (releaseRx k d s).rx0 = s.rx0 := rfl
@[simp] theorem releaseRx_tx0 (k : Nat) (d : DataEp) (s : State) : (releaseRx k d s).tx0 = s.tx0 := rfl
@[simp] theorem releaseRx_tx0stage (k : Nat) (d : DataEp) (s : State) : (releaseRx k d s).tx0stage = s.tx0stage := rfl
@[simp] theorem releaseRx_lat (k : Nat) (d : DataEp) (s : State) : (releaseRx k d s).lat = s.lat := rfl
@[simp] theorem releaseRx_sofFrame (k : Nat) (d : DataEp) (s : State) : (releaseRx k d s).sofFrame = s.sofFrame := rfl
@[simp] theorem releaseRx_nq (k : Nat) (d : DataEp) (s : State) : (releaseRx k d s).nq = s.nq := rfl
@[simp] theorem releaseRx_nqOvf (k : Nat) (d : DataEp) (s : State) : (releaseRx k d s).nqOvf = s.nqOvf := rfl
@[simp] theorem releaseRx_faults (k : Nat) (d : DataEp) (s : State) : (releaseRx k d s).faults = s.faults := rfl
@[simp] theorem releaseRx_hostIn (k : Nat) (d : DataEp) (s : State) : (releaseRx k d s).hostIn = s.hostIn := rfl
@[simp] theorem releaseRx_mem (k : Nat) (d : DataEp) (s : State) : (releaseRx k d s).mem = s.mem := rfl
@[simp] theorem releaseRx_readData (k : Nat) (d : DataEp) (s : State) : (releaseRx k d s).readData = s.readData := rfl
@[simp] theorem releaseRx_inputs (k : Nat) (d : DataEp) (s : State) : (releaseRx k d s).inputs = s.inputs := rfl
@[simp] theorem releaseRx_hookIn (k : Nat) (d : DataEp) (s : State) : (releaseRx k d s).hookIn = s.hookIn := rfl
@[simp] theorem releaseRx_productIn (k : Nat) (d : DataEp) (s : State) : (releaseRx k d s).productIn = s.productIn := rfl
@[simp] theorem releaseRx_draws (k : Nat) (d : DataEp) (s : State) : (releaseRx k d s).draws = s.draws := rfl

/-! ### releaseRx0 -/

@[simp] theorem releaseRx0_rx0 (s : State) : (releaseRx0 s).rx0 = none := rfl
@[simp] theorem releaseRx0_acts (s : State) : (releaseRx0 s).acts = s.acts ++ [.rxRelease 0x00] := rfl
@[simp] theorem releaseRx0_cfg (s : State) : (releaseRx0 s).cfg = s.cfg := rfl
@[simp] theorem releaseRx0_argAddr (s : State) : (releaseRx0 s).argAddr = s.argAddr := rfl
@[simp] theorem releaseRx0_argLen (s : State) : (releaseRx0 s).argLen = s.argLen := rfl
@[simp] theorem releaseRx0_result (s : State) : (releaseRx0 s).result = s.result := rfl
@[simp] theorem releaseRx0_nie (s : State) : (releaseRx0 s).nie = s.nie := rfl
@[simp] theorem releaseRx0_dev (s : State) : (releaseRx0 s).dev = s.dev := rfl
@[simp] theorem releaseRx0_ep0 (s : State) : (releaseRx0 s).ep0 = s.ep0 := rfl
@[simp] theorem releaseRx0_ctlOpen (s : State) : (releaseRx0 s).ctlOpen = s.ctlOpen := rfl
@[simp] theorem releaseRx0_setup (s : State) : (releaseRx0 s).setup = s.setup := rfl
@[simp] theorem releaseRx0_ep0Stall (s : State) : (releaseRx0 s).ep0Stall = s.ep0Stall := rfl
@[simp] theorem releaseRx0_tx0 (s : State) : (releaseRx0 s).tx0 = s.tx0 := rfl
@[simp] theorem releaseRx0_tx0stage (s : State) : (releaseRx0 s).tx0stage = s.tx0stage := rfl
@[simp] theorem releaseRx0_deps (s : State) : (releaseRx0 s).deps = s.deps := rfl
@[simp] theorem releaseRx0_lat (s : State) : (releaseRx0 s).lat = s.lat := rfl
@[simp] theorem releaseRx0_sofFrame (s : State) : (releaseRx0 s).sofFrame = s.sofFrame := rfl
@[simp] theorem releaseRx0_nq (s : State) : (releaseRx0 s).nq = s.nq := rfl
@[simp] theorem releaseRx0_nqOvf (s : State) : (releaseRx0 s).nqOvf = s.nqOvf := rfl
@[simp] theorem releaseRx0_faults (s : State) : (releaseRx0 s).faults = s.faults := rfl
@[simp] theorem releaseRx0_hostIn (s : State) : (releaseRx0 s).hostIn = s.hostIn := rfl
@[simp] theorem releaseRx0_mem (s : State) : (releaseRx0 s).mem = s.mem := rfl
@[simp] theorem releaseRx0_readData (s : State) : (releaseRx0 s).readData = s.readData := rfl
@[simp] theorem releaseRx0_inputs (s : State) : (releaseRx0 s).inputs = s.inputs := rfl
@[simp] theorem releaseRx0_hookIn (s : State) : (releaseRx0 s).hookIn = s.hookIn := rfl
@[simp] theorem releaseRx0_productIn (s : State) : (releaseRx0 s).productIn = s.productIn := rfl
@[simp] theorem releaseRx0_draws (s : State) : (releaseRx0 s).draws = s.draws := rfl

/-! ### notify -/

@[simp] theorem notify_cfg (r : Record) (s : State) : (notify r s).cfg = s.cfg := by unfold notify; split <;> rfl
@[simp] theorem notify_argAddr (r : Record) (s : State) : (notify r s).argAddr = s.argAddr := by unfold notify; split <;> rfl
@[simp] theorem notify_argLen (r : Record) (s : State) : (notify r s).argLen = s.argLen := by unfold notify; split <;> rfl
@[simp] theorem notify_result (r : Record) (s : State) : (notify r s).result = s.result := by unfold notify; split <;> rfl
@[simp] theorem notify_nie (r : Record) (s : State) : (notify r s).nie = s.nie := by unfold notify; split <;> rfl
@[simp] theorem notify_dev (r : Record) (s : State) : (notify r s).dev = s.dev := by unfold notify; split <;> rfl
@[simp] theorem notify_ep0 (r : Record) (s : State) : (notify r s).ep0 = s.ep0 := by unfold notify; split <;> rfl
@[simp] theorem notify_ctlOpen (r : Record) (s : State) : (notify r s).ctlOpen = s.ctlOpen := by unfold notify; split <;> rfl
@[simp] theorem notify_setup (r : Record) (s : State) : (notify r s).setup = s.setup := by unfold notify; split <;> rfl
@[simp] theorem notify_ep0Stall (r : Record) (s : State) : (notify r s).ep0Stall = s.ep0Stall := by unfold notify; split <;> rfl
@[simp] theorem notify_rx0 (r : Record) (s : State) : (notify r s).rx0 = s.rx0 := by unfold notify; split <;> rfl
@[simp] theorem notify_tx0 (r : Record) (s : State) : (notify r s).tx0 = s.tx0 := by unfold notify; split <;> rfl
@[simp] theorem notify_tx0stage (r : Record) (s : State) : (notify r s).tx0stage = s.tx0stage := by unfold notify; split <;> rfl
@[simp] theorem notify_deps (r : Record) (s : State) : (notify r s).deps = s.deps := by unfold notify; split <;> rfl
@[simp] theorem notify_lat (r : Record) (s : State) : (notify r s).lat = s.lat := by unfold notify; split <;> rfl
@[simp] theorem notify_sofFrame (r : Record) (s : State) : (notify r s).sofFrame = s.sofFrame := by unfold notify; split <;> rfl
@[simp] theorem notify_acts (r : Record) (s : State) : (notify r s).acts = s.acts := by unfold notify; split <;> rfl
@[simp] theorem notify_hostIn (r : Record) (s : State) : (notify r s).hostIn = s.hostIn := by unfold notify; split <;> rfl
@[simp] theorem notify_mem (r : Record) (s : State) : (notify r s).mem = s.mem := by unfold notify; split <;> rfl
@[simp] theorem notify_readData (r : Record) (s : State) : (notify r s).readData = s.readData := by unfold notify; split <;> rfl
@[simp] theorem notify_inputs (r : Record) (s : State) : (notify r s).inputs = s.inputs := by unfold notify; split <;> rfl
@[simp] theorem notify_hookIn (r : Record) (s : State) : (notify r s).hookIn = s.hookIn := by unfold notify; split <;> rfl
@[simp] theorem notify_productIn (r : Record) (s : State) : (notify r s).productIn = s.productIn := by unfold notify; split <;> rfl
@[simp] theorem notify_draws (r : Record) (s : State) : (notify r s).draws = s.draws := by unfold notify; split <;> rfl

/-! ### notifyIf -/

@[simp] theorem notifyIf_cfg (b : Bool) (r : Record) (s : State) : (notifyIf b r s).cfg = s.cfg := by unfold notifyIf; split <;> simp
@[simp] theorem notifyIf_argAddr (b : Bool) (r : Record) (s : State) : (notifyIf b r s).argAddr = s.argAddr := by unfold notifyIf; split <;> simp
@[simp] theorem notifyIf_argLen (b : Bool) (r : Record) (s : State) : (notifyIf b r s).argLen = s.argLen := by unfold notifyIf; split <;> simp
@[simp] theorem notifyIf_result (b : Bool) (r : Record) (s : State) : (notifyIf b r s).result = s.result := by unfold notifyIf; split <;> simp
@[simp] theorem notifyIf_nie (b : Bool) (r : Record) (s : State) : (notifyIf b r s).nie = s.nie := by unfold notifyIf; split <;> simp
@[simp] theorem notifyIf_dev (b : Bool) (r : Record) (s : State) : (notifyIf b r s).dev = s.dev := by unfold notifyIf; split <;> simp
@[simp] theorem notifyIf_ep0 (b : Bool) (r : Record) (s : State) : (notifyIf b r s).ep0 = s.ep0 := by unfold notifyIf; split <;> simp
@[simp] theorem notifyIf_ctlOpen (b : Bool) (r : Record) (s : State) : (notifyIf b r s).ctlOpen = s.ctlOpen := by unfold notifyIf; split <;> simp
@[simp] theorem notifyIf_setup (b : Bool) (r : Record) (s : State) : (notifyIf b r s).setup = s.setup := by unfold notifyIf; split <;> simp
@[simp] theorem notifyIf_ep0Stall (b : Bool) (r : Record) (s : State) : (notifyIf b r s).ep0Stall = s.ep0Stall := by unfold notifyIf; split <;> simp
@[simp] theorem notifyIf_rx0 (b : Bool) (r : Record) (s : State) : (notifyIf b r s).rx0 = s.rx0 := by unfold notifyIf; split <;> simp
@[simp] theorem notifyIf_tx0 (b : Bool) (r : Record) (s : State) : (notifyIf b r s).tx0 = s.tx0 := by unfold notifyIf; split <;> simp
@[simp] theorem notifyIf_tx0stage (b : Bool) (r : Record) (s : State) : (notifyIf b r s).tx0stage = s.tx0stage := by unfold notifyIf; split <;> simp
@[simp] theorem notifyIf_deps (b : Bool) (r : Record) (s : State) : (notifyIf b r s).deps = s.deps := by unfold notifyIf; split <;> simp
@[simp] theorem notifyIf_lat (b : Bool) (r : Record) (s : State) : (notifyIf b r s).lat = s.lat := by unfold notifyIf; split <;> simp
@[simp] theorem notifyIf_sofFrame (b : Bool) (r : Record) (s : State) : (notifyIf b r s).sofFrame = s.sofFrame := by unfold notifyIf; split <;> simp
@[simp] theorem notifyIf_acts (b : Bool) (r : Record) (s : State) : (notifyIf b r s).acts = s.acts := by unfold notifyIf; split <;> simp
@[simp] theorem notifyIf_hostIn (b : Bool) (r : Record) (s : State) : (notifyIf b r s).hostIn = s.hostIn := by unfold notifyIf; split <;> simp
@[simp] theorem notifyIf_mem (b : Bool) (r : Record) (s : State) : (notifyIf b r s).mem = s.mem := by unfold notifyIf; split <;> simp
@[simp] theorem notifyIf_readData (b : Bool) (r : Record) (s : State) : (notifyIf b r s).readData = s.readData := by unfold notifyIf; split <;> simp
@[simp] theorem notifyIf_inputs (b : Bool) (r : Record) (s : State) : (notifyIf b r s).inputs = s.inputs := by unfold notifyIf; split <;> simp
@[simp] theorem notifyIf_hookIn (b : Bool) (r : Record) (s : State) : (notifyIf b r s).hookIn = s.hookIn := by unfold notifyIf; split <;> simp
@[simp] theorem notifyIf_productIn (b : Bool) (r : Record) (s : State) : (notifyIf b r s).productIn = s.productIn := by unfold notifyIf; split <;> simp
@[simp] theorem notifyIf_draws (b : Bool) (r : Record) (s : State) : (notifyIf b r s).draws = s.draws := by unfold notifyIf; split <;> simp

/-! ### memWriteBytes -/

@[simp] theorem memWriteBytes_cfg (p : Packet) (s : State) (a : Nat) : (memWriteBytes s a p).cfg = s.cfg := by
  induction p generalizing s a with
  | nil => rfl
  | cons b p ih => exact ih _ _
@[simp] theorem memWriteBytes_argAddr (p : Packet) (s : State) (a : Nat) : (memWriteBytes s a p).argAddr = s.argAddr := by
  induction p generalizing s a with
  | nil => rfl
  | cons b p ih => exact ih _ _
@[simp] theorem memWriteBytes_argLen (p : Packet) (s : State) (a : Nat) : (memWriteBytes s a p).argLen = s.argLen := by
  induction p generalizing s a with
  | nil => rfl
  | cons b p ih => exact ih _ _
@[simp] theorem memWriteBytes_result (p : Packet) (s : State) (a : Nat) : (memWriteBytes s a p).result = s.result := by
  induction p generalizing s a with
  | nil => rfl
  | cons b p ih => exact ih _ _
@[simp] theorem memWriteBytes_nie (p : Packet) (s : State) (a : Nat) : (memWriteBytes s a p).nie = s.nie := by
  induction p generalizing s a with
  | nil => rfl
  | cons b p ih => exact ih _ _
@[simp] theorem memWriteBytes_dev (p : Packet) (s : State) (a : Nat) : (memWriteBytes s a p).dev = s.dev := by
  induction p generalizing s a with
  | nil => rfl
  | cons b p ih => exact ih _ _
@[simp] theorem memWriteBytes_ep0 (p : Packet) (s : State) (a : Nat) : (memWriteBytes s a p).ep0 = s.ep0 := by
  induction p generalizing s a with
  | nil => rfl
  | cons b p ih => exact ih _ _
@[simp] theorem memWriteBytes_ctlOpen (p : Packet) (s : State) (a : Nat) : (memWriteBytes s a p).ctlOpen = s.ctlOpen := by
  induction p generalizing s a with
  | nil => rfl
  | cons b p ih => exact ih _ _
@[simp] theorem memWriteBytes_setup (p : Packet) (s : State) (a : Nat) : (memWriteBytes s a p).setup = s.setup := by
  induction p generalizing s a with
  | nil => rfl
  | cons b p ih => exact ih _ _
@[simp] theorem memWriteBytes_ep0Stall (p : Packet) (s : State) (a : Nat) : (memWriteBytes s a p).ep0Stall = s.ep0Stall := by
  induction p generalizing s a with
  | nil => rfl
  | cons b p ih => exact ih _ _
@[simp] theorem memWriteBytes_rx0 (p : Packet) (s : State) (a : Nat) : (memWriteBytes s a p).rx0 = s.rx0 := by
  induction p generalizing s a with
  | nil => rfl
  | cons b p ih => exact ih _ _
@[simp] theorem memWriteBytes_tx0 (p : Packet) (s : State) (a : Nat) : (memWriteBytes s a p).tx0 = s.tx0 := by
  induction p generalizing s a with
  | nil => rfl
  | cons b p ih => exact ih _ _
@[simp] theorem memWriteBytes_tx0stage (p : Packet) (s : State) (a : Nat) : (memWriteBytes s a p).tx0stage = s.tx0stage := by
  induction p generalizing s a with
  | nil => rfl
  | cons b p ih => exact ih _ _
@[simp] theorem memWriteBytes_deps (p : Packet) (s : State) (a : Nat) : (memWriteBytes s a p).deps = s.deps := by
  induction p generalizing s a with
  | nil => rfl
  | cons b p ih => exact ih _ _
@[simp] theorem memWriteBytes_lat (p : Packet) (s : State) (a : Nat) : (memWriteBytes s a p).lat = s.lat := by
  induction p generalizing s a with
  | nil => rfl
  | cons b p ih => exact ih _ _
@[simp] theorem memWriteBytes_sofFrame (p : Packet) (s : State) (a : Nat) : (memWriteBytes s a p).sofFrame = s.sofFrame := by
  induction p generalizing s a with
  | nil => rfl
  | cons b p ih => exact ih _ _
@[simp] theorem memWriteBytes_nq (p : Packet) (s : State) (a : Nat) : (memWriteBytes s a p).nq = s.nq := by
  induction p generalizing s a with
  | nil => rfl
  | cons b p ih => exact ih _ _
@[simp] theorem memWriteBytes_nqOvf (p : Packet) (s : State) (a : Nat) : (memWriteBytes s a p).nqOvf = s.nqOvf := by
  induction p generalizing s a with
  | nil => rfl
  | cons b p ih => exact ih _ _
@[simp] theorem memWriteBytes_faults (p : Packet) (s : State) (a : Nat) : (memWriteBytes s a p).faults = s.faults := by
  induction p generalizing s a with
  | nil => rfl
  | cons b p ih => exact ih _ _
@[simp] theorem memWriteBytes_acts (p : Packet) (s : State) (a : Nat) : (memWriteBytes s a p).acts = s.acts := by
  induction p generalizing s a with
  | nil => rfl
  | cons b p ih => exact ih _ _
@[simp] theorem memWriteBytes_hostIn (p : Packet) (s : State) (a : Nat) : (memWriteBytes s a p).hostIn = s.hostIn := by
  induction p generalizing s a with
  | nil => rfl
  | cons b p ih => exact ih _ _
@[simp] theorem memWriteBytes_readData (p : Packet) (s : State) (a : Nat) : (memWriteBytes s a p).readData = s.readData := by
  induction p generalizing s a with
  | nil => rfl
  | cons b p ih => exact ih _ _
@[simp] theorem memWriteBytes_inputs (p : Packet) (s : State) (a : Nat) : (memWriteBytes s a p).inputs = s.inputs := by
  induction p generalizing s a with
  | nil => rfl
  | cons b p ih => exact ih _ _
@[simp] theorem memWriteBytes_hookIn (p : Packet) (s : State) (a : Nat) : (memWriteBytes s a p).hookIn = s.hookIn := by
  induction p generalizing s a with
  | nil => rfl
  | cons b p ih => exact ih _ _
@[simp] theorem memWriteBytes_productIn (p : Packet) (s : State) (a : Nat) : (memWriteBytes s a p).productIn = s.productIn := by
  induction p generalizing s a with
  | nil => rfl
  | cons b p ih => exact ih _ _
@[simp] theorem memWriteBytes_draws (p : Packet) (s : State) (a : Nat) : (memWriteBytes s a p).draws = s.draws := by
  induction p generalizing s a with
  | nil => rfl
  | cons b p ih => exact ih _ _

/-! ### copyOut -/

@[simp] theorem copyOut_cfg (r : EpRec) (p : Packet) (s : State) : (copyOut r p s).cfg = s.cfg := by simp [copyOut]
@[simp] theorem copyOut_argAddr (r : EpRec) (p : Packet) (s : State) : (copyOut r p s).argAddr = s.argAddr := by simp [copyOut]
@[simp] theorem copyOut_argLen (r : EpRec) (p : Packet) (s : State) : (copyOut r p s).argLen = s.argLen := by simp [copyOut]
@[simp] theorem copyOut_result (r : EpRec) (p : Packet) (s : State) : (copyOut r p s).result = s.result := by simp [copyOut]
@[simp] theorem copyOut_nie (r : EpRec) (p : Packet) (s : State) : (copyOut r p s).nie = s.nie := by simp [copyOut]
@[simp] theorem copyOut_dev (r : EpRec) (p : Packet) (s : State) : (copyOut r p s).dev = s.dev := by simp [copyOut]
@[simp] theorem copyOut_ep0 (r : EpRec) (p : Packet) (s : State) : (copyOut r p s).ep0 = s.ep0 := by simp [copyOut]
@[simp] theorem copyOut_ctlOpen (r : EpRec) (p : Packet) (s : State) : (copyOut r p s).ctlOpen = s.ctlOpen := by simp [copyOut]
@[simp] theorem copyOut_setup (r : EpRec) (p : Packet) (s : State) : (copyOut r p s).setup = s.setup := by simp [copyOut]
@[simp] theorem copyOut_ep0Stall (r : EpRec) (p : Packet) (s : State) : (copyOut r p s).ep0Stall = s.ep0Stall := by simp [copyOut]
@[simp] theorem copyOut_rx0 (r : EpRec) (p : Packet) (s : State) : (copyOut r p s).rx0 = s.rx0 := by simp [copyOut]
@[simp] theorem copyOut_tx0 (r : EpRec) (p : Packet) (s : State) : (copyOut r p s).tx0 = s.tx0 := by simp [copyOut]
@[simp] theorem copyOut_tx0stage (r : EpRec) (p : Packet) (s : State) : (copyOut r p s).tx0stage = s.tx0stage := by simp [copyOut]
@[simp] theorem copyOut_deps (r : EpRec) (p : Packet) (s : State) : (copyOut r p s).deps = s.deps := by simp [copyOut]
@[simp] theorem copyOut_lat (r : EpRec) (p : Packet) (s : State) : (copyOut r p s).lat = s.lat := by simp [copyOut]
@[simp] theorem copyOut_sofFrame (r : EpRec) (p : Packet) (s : State) : (copyOut r p s).sofFrame = s.sofFrame := by simp [copyOut]
@[simp] theorem copyOut_nq (r : EpRec) (p : Packet) (s : State) : (copyOut r p s).nq = s.nq := by simp [copyOut]
@[simp] theorem copyOut_nqOvf (r : EpRec) (p : Packet) (s : State) : (copyOut r p s).nqOvf = s.nqOvf := by simp [copyOut]
@[simp] theorem copyOut_faults (r : EpRec) (p : Packet) (s : State) : (copyOut r p s).faults = s.faults := by simp [copyOut]
@[simp] theorem copyOut_acts (r : EpRec) (p : Packet) (s : State) : (copyOut r p s).acts = s.acts := by simp [copyOut]
@[simp] theorem copyOut_hostIn (r : EpRec) (p : Packet) (s : State) : (copyOut r p s).hostIn = s.hostIn := by simp [copyOut]
@[simp] theorem copyOut_readData (r : EpRec) (p : Packet) (s : State) : (copyOut r p s).readData = s.readData := by simp [copyOut]
@[simp] theorem copyOut_inputs (r : EpRec) (p : Packet) (s : State) : (copyOut r p s).inputs = s.inputs := by simp [copyOut]
@[simp] theorem copyOut_hookIn (r : EpRec) (p : Packet) (s : State) : (copyOut r p s).hookIn = s.hookIn := by simp [copyOut]
@[simp] theorem copyOut_productIn (r : EpRec) (p : Packet) (s : State) : (copyOut r p s).productIn = s.productIn := by simp [copyOut]
@[simp] theorem copyOut_draws (r : EpRec) (p : Packet) (s : State) : (copyOut r p s).draws = s.draws := by simp [copyOut]

/-! ### ep0Commit -/

@[simp] theorem ep0Commit_tx0 (b : Bool) (s : State) : (ep0Commit b s).tx0 = some s.tx0stage := by cases b <;> rfl
@[simp] theorem ep0Commit_tx0stage (b : Bool) (s : State) : (ep0Commit b s).tx0stage = [] := by cases b <;> rfl
@[simp] theorem ep0Commit_cfg (b : Bool) (s : State) : (ep0Commit b s).cfg = s.cfg := by cases b <;> rfl
@[simp] theorem ep0Commit_argAddr (b : Bool) (s : State) : (ep0Commit b s).argAddr = s.argAddr := by cases b <;> rfl
@[simp] theorem ep0Commit_argLen (b : Bool) (s : State) : (ep0Commit b s).argLen = s.argLen := by cases b <;> rfl
@[simp] theorem ep0Commit_result (b : Bool) (s : State) : (ep0Commit b s).result = s.result := by cases b <;> rfl
@[simp] theorem ep0Commit_nie (b : Bool) (s : State) : (ep0Commit b s).nie = s.nie := by cases b <;> rfl
@[simp] theorem ep0Commit_dev (b : Bool) (s : State) : (ep0Commit b s).dev = s.dev := by cases b <;> rfl
@[simp] theorem ep0Commit_ep0 (b : Bool) (s : State) : (ep0Commit b s).ep0 = s.ep0 := by cases b <;> rfl
@[simp] theorem ep0Commit_ctlOpen (b : Bool) (s : State) : (ep0Commit b s).ctlOpen = s.ctlOpen := by cases b <;> rfl
@[simp] theorem ep0Commit_setup (b : Bool) (s : State) : (ep0Commit b s).setup = s.setup := by cases b <;> rfl
@[simp] theorem ep0Commit_ep0Stall (b : Bool) (s : State) : (ep0Commit b s).ep0Stall = s.ep0Stall := by cases b <;> rfl
@[simp] theorem ep0Commit_rx0 (b : Bool) (s : State) : (ep0Commit b s).rx0 = s.rx0 := by cases b <;> rfl
@[simp] theorem ep0Commit_deps (b : Bool) (s : State) : (ep0Commit b s).deps = s.deps := by cases b <;> rfl
@[simp] theorem ep0Commit_lat (b : Bool) (s : State) : (ep0Commit b s).lat = s.lat := by cases b <;> rfl
@[simp] theorem ep0Commit_sofFrame (b : Bool) (s : State) : (ep0Commit b s).sofFrame = s.sofFrame := by cases b <;> rfl
@[simp] theorem ep0Commit_nq (b : Bool) (s : State) : (ep0Commit b s).nq = s.nq := by cases b <;> rfl
@[simp] theorem ep0Commit_nqOvf (b : Bool) (s : State) : (ep0Commit b s).nqOvf = s.nqOvf := by cases b <;> rfl
@[simp] theorem ep0Commit_faults (b : Bool) (s : State) : (ep0Commit b s).faults = s.faults := by cases b <;> rfl
@[simp] theorem ep0Commit_hostIn (b : Bool) (s : State) : (ep0Commit b s).hostIn = s.hostIn := by cases b <;> rfl
@[simp] theorem ep0Commit_mem (b : Bool) (s : State) : (ep0Commit b s).mem = s.mem := by cases b <;> rfl
@[simp] theorem ep0Commit_readData (b : Bool) (s : State) : (ep0Commit b s).readData = s.readData := by cases b <;> rfl
@[simp] theorem ep0Commit_inputs (b : Bool) (s : State) : (ep0Commit b s).inputs = s.inputs := by cases b <;> rfl
@[simp] theorem ep0Commit_hookIn (b : Bool) (s : State) : (ep0Commit b s).hookIn = s.hookIn := by cases b <;> rfl
@[simp] theorem ep0Commit_productIn (b : Bool) (s : State) : (ep0Commit b s).productIn = s.productIn := by cases b <;> rfl
@[simp] theorem ep0Commit_draws (b : Bool) (s : State) : (ep0Commit b s).draws = s.draws := by cases b <;> rfl

/-! ### leaveConfigured -/

@[simp] theorem leaveConfigured_cfg (n : DevState) (s : State) : (leaveConfigured n s).cfg = s.cfg := by unfold leaveConfigured; split <;> rfl
@[simp] theorem leaveConfigured_argAddr (n : DevState) (s : State) : (leaveConfigured n s).argAddr = s.argAddr := by unfold leaveConfigured; split <;> rfl
@[simp] theorem leaveConfigured_argLen (n : DevState) (s : State) : (leaveConfigured n s).argLen = s.argLen := by unfold leaveConfigured; split <;> rfl
@[simp] theorem leaveConfigured_result (n : DevState) (s : State) : (leaveConfigured n s).result = s.result := by unfold leaveConfigured; split <;> rfl
@[simp] theorem leaveConfigured_nie (n : DevState) (s : State) : (leaveConfigured n s).nie = s.nie := by unfold leaveConfigured; split <;> rfl
@[simp] theorem leaveConfigured_ep0 (n : DevState) (s : State) : (leaveConfigured n s).ep0 = s.ep0 := by unfold leaveConfigured; split <;> rfl
@[simp] theorem leaveConfigured_ctlOpen (n : DevState) (s : State) : (leaveConfigured n s).ctlOpen = s.ctlOpen := by unfold leaveConfigured; split <;> rfl
@[simp] theorem leaveConfigured_setup (n : DevState) (s : State) : (leaveConfigured n s).setup = s.setup := by unfold leaveConfigured; split <;> rfl
@[simp] theorem leaveConfigured_ep0Stall (n : DevState) (s : State) : (leaveConfigured n s).ep0Stall = s.ep0Stall := by unfold leaveConfigured; split <;> rfl
@[simp] theorem leaveConfigured_rx0 (n : DevState) (s : State) : (leaveConfigured n s).rx0 = s.rx0 := by unfold leaveConfigured; split <;> rfl
@[simp] theorem leaveConfigured_tx0 (n : DevState) (s : State) : (leaveConfigured n s).tx0 = s.tx0 := by unfold leaveConfigured; split <;> rfl
@[simp] theorem leaveConfigured_tx0stage (n : DevState) (s : State) : (leaveConfigured n s).tx0stage = s.tx0stage := by unfold leaveConfigured; split <;> rfl
@[simp] theorem leaveConfigured_lat (n : DevState) (s : State) : (leaveConfigured n s).lat = s.lat := by unfold leaveConfigured; split <;> rfl
@[simp] theorem leaveConfigured_sofFrame (n : DevState) (s : State) : (leaveConfigured n s).sofFrame = s.sofFrame := by unfold leaveConfigured; split <;> rfl
@[simp] theorem leaveConfigured_nq (n : DevState) (s : State) : (leaveConfigured n s).nq = s.nq := by unfold leaveConfigured; split <;> rfl
@[simp] theorem leaveConfigured_nqOvf (n : DevState) (s : State) : (leaveConfigured n s).nqOvf = s.nqOvf := by unfold leaveConfigured; split <;> rfl
@[simp] theorem leaveConfigured_faults (n : DevState) (s : State) : (leaveConfigured n s).faults = s.faults := by unfold leaveConfigured; split <;> rfl
@[simp] theorem leaveConfigured_hostIn (n : DevState) (s : State) : (leaveConfigured n s).hostIn = s.hostIn := by unfold leaveConfigured; split <;> rfl
@[simp] theorem leaveConfigured_mem (n : DevState) (s : State) : (leaveConfigured n s).mem = s.mem := by unfold leaveConfigured; split <;> rfl
@[simp] theorem leaveConfigured_readData (n : DevState) (s : State) : (leaveConfigured n s).readData = s.readData := by unfold leaveConfigured; split <;> rfl
@[simp] theorem leaveConfigured_inputs (n : DevState) (s : State) : (leaveConfigured n s).inputs = s.inputs := by unfold leaveConfigured; split <;> rfl
@[simp] theorem leaveConfigured_hookIn (n : DevState) (s : State) : (leaveConfigured n s).hookIn = s.hookIn := by unfold leaveConfigured; split <;> rfl
@[simp] theorem leaveConfigured_productIn (n : DevState) (s : State) : (leaveConfigured n s).productIn = s.productIn := by unfold leaveConfigured; split <;> rfl
@[simp] theorem leaveConfigured_draws (n : DevState) (s : State) : (leaveConfigured n s).draws = s.draws := by unfold leaveConfigured; split <;> rfl

/-! ### enterBelowSuspended -/

@[simp] theorem enterBelowSuspended_cfg (n : DevState) (s : State) : (enterBelowSuspended n s).cfg = s.cfg := by unfold enterBelowSuspended; split <;> rfl
@[simp] theorem enterBelowSuspended_argAddr (n : DevState) (s : State) : (enterBelowSuspended n s).argAddr = s.argAddr := by unfold enterBelowSuspended; split <;> rfl
@[simp] theorem enterBelowSuspended_argLen (n : DevState) (s : State) : (enterBelowSuspended n s).argLen = s.argLen := by unfold enterBelowSuspended; split <;> rfl
@[simp] theorem enterBelowSuspended_result (n : DevState) (s : State) : (enterBelowSuspended n s).result = s.result := by unfold enterBelowSuspended; split <;> rfl
@[simp] theorem enterBelowSuspended_nie (n : DevState) (s : State) : (enterBelowSuspended n s).nie = s.nie := by unfold enterBelowSuspended; split <;> rfl
@[simp] theorem enterBelowSuspended_dev (n : DevState) (s : State) : (enterBelowSuspended n s).dev = s.dev := by unfold enterBelowSuspended; split <;> rfl
@[simp] theorem enterBelowSuspended_ep0 (n : DevState) (s : State) : (enterBelowSuspended n s).ep0 = s.ep0 := by unfold enterBelowSuspended; split <;> rfl
@[simp] theorem enterBelowSuspended_ctlOpen (n : DevState) (s : State) : (enterBelowSuspended n s).ctlOpen = s.ctlOpen := by unfold enterBelowSuspended; split <;> rfl
@[simp] theorem enterBelowSuspended_setup (n : DevState) (s : State) : (enterBelowSuspended n s).setup = s.setup := by unfold enterBelowSuspended; split <;> rfl
@[simp] theorem enterBelowSuspended_ep0Stall (n : DevState) (s : State) : (enterBelowSuspended n s).ep0Stall = s.ep0Stall := by unfold enterBelowSuspended; split <;> rfl
@[simp] theorem enterBelowSuspended_rx0 (n : DevState) (s : State) : (enterBelowSuspended n s).rx0 = s.rx0 := by unfold enterBelowSuspended; split <;> rfl
@[simp] theorem enterBelowSuspended_tx0 (n : DevState) (s : State) : (enterBelowSuspended n s).tx0 = s.tx0 := by unfold enterBelowSuspended; split <;> rfl
@[simp] theorem enterBelowSuspended_tx0stage (n : DevState) (s : State) : (enterBelowSuspended n s).tx0stage = s.tx0stage := by unfold enterBelowSuspended; split <;> rfl
@[simp] theorem enterBelowSuspended_lat (n : DevState) (s : State) : (enterBelowSuspended n s).lat = s.lat := by unfold enterBelowSuspended; split <;> rfl
@[simp] theorem enterBelowSuspended_sofFrame (n : DevState) (s : State) : (enterBelowSuspended n s).sofFrame = s.sofFrame := by unfold enterBelowSuspended; split <;> rfl
@[simp] theorem enterBelowSuspended_nq (n : DevState) (s : State) : (enterBelowSuspended n s).nq = s.nq := by unfold enterBelowSuspended; split <;> rfl
@[simp] theorem enterBelowSuspended_nqOvf (n : DevState) (s : State) : (enterBelowSuspended n s).nqOvf = s.nqOvf := by unfold enterBelowSuspended; split <;> rfl
@[simp] theorem enterBelowSuspended_faults (n : DevState) (s : State) : (enterBelowSuspended n s).faults = s.faults := by unfold enterBelowSuspended; split <;> rfl
@[simp] theorem enterBelowSuspended_hostIn (n : DevState) (s : State) : (enterBelowSuspended n s).hostIn = s.hostIn := by unfold enterBelowSuspended; split <;> rfl
@[simp] theorem enterBelowSuspended_mem (n : DevState) (s : State) : (enterBelowSuspended n s).mem = s.mem := by unfold enterBelowSuspended; split <;> rfl
@[simp] theorem enterBelowSuspended_readData (n : DevState) (s : State) : (enterBelowSuspended n s).readData = s.readData := by unfold enterBelowSuspended; split <;> rfl
@[simp] theorem enterBelowSuspended_inputs (n : DevState) (s : State) : (enterBelowSuspended n s).inputs = s.inputs := by unfold enterBelowSuspended; split <;> rfl
@[simp] theorem enterBelowSuspended_hookIn (n : DevState) (s : State) : (enterBelowSuspended n s).hookIn = s.hookIn := by unfold enterBelowSuspended; split <;> rfl
@[simp] theorem enterBelowSuspended_productIn (n : DevState) (s : State) : (enterBelowSuspended n s).productIn = s.productIn := by unfold enterBelowSuspended; split <;> rfl
@[simp] theorem enterBelowSuspended_draws (n : DevState) (s : State) : (enterBelowSuspended n s).draws = s.draws := by unfold enterBelowSuspended; split <;> rfl

/-! ### setState -/

@[simp] theorem setState_cfg (n : DevState) (s : State) : (setState n s).cfg = s.cfg := by simp [setState]
@[simp] theorem setState_argAddr (n : DevState) (s : State) : (setState n s).argAddr = s.argAddr := by simp [setState]
@[simp] theorem setState_argLen (n : DevState) (s : State) : (setState n s).argLen = s.argLen := by simp [setState]
@[simp] theorem setState_result (n : DevState) (s : State) : (setState n s).result = s.result := by simp [setState]
@[simp] theorem setState_nie (n : DevState) (s : State) : (setState n s).nie = s.nie := by simp [setState]
@[simp] theorem setState_ep0 (n : DevState) (s : State) : (setState n s).ep0 = s.ep0 := by simp [setState]
@[simp] theorem setState_ctlOpen (n : DevState) (s : State) : (setState n s).ctlOpen = s.ctlOpen := by simp [setState]
@[simp] theorem setState_setup (n : DevState) (s : State) : (setState n s).setup = s.setup := by simp [setState]
@[simp] theorem setState_ep0Stall (n : DevState) (s : State) : (setState n s).ep0Stall = s.ep0Stall := by simp [setState]
@[simp] theorem setState_rx0 (n : DevState) (s : State) : (setState n s).rx0 = s.rx0 := by simp [setState]
@[simp] theorem setState_tx0 (n : DevState) (s : State) : (setState n s).tx0 = s.tx0 := by simp [setState]
@[simp] theorem setState_tx0stage (n : DevState) (s : State) : (setState n s).tx0stage = s.tx0stage := by simp [setState]
@[simp] theorem setState_lat (n : DevState) (s : State) : (setState n s).lat = s.lat := by simp [setState]
@[simp] theorem setState_sofFrame (n : DevState) (s : State) : (setState n s).sofFrame = s.sofFrame := by simp [setState]
@[simp] theorem setState_hostIn (n : DevState) (s : State) : (setState n s).hostIn = s.hostIn := by simp [setState]
@[simp] theorem setState_mem (n : DevState) (s : State) : (setState n s).mem = s.mem := by simp [setState]
@[simp] theorem setState_readData (n : DevState) (s : State) : (setState n s).readData = s.readData := by simp [setState]
@[simp] theorem setState_inputs (n : DevState) (s : State) : (setState n s).inputs = s.inputs := by simp [setState]
@[simp] theorem setState_hookIn (n : DevState) (s : State) : (setState n s).hookIn = s.hookIn := by simp [setState]
@[simp] theorem setState_productIn (n : DevState) (s : State) : (setState n s).productIn = s.productIn := by simp [setState]
@[simp] theorem setState_draws (n : DevState) (s : State) : (setState n s).draws = s.draws := by simp [setState]

end Sys2Proof.Machine
end

