-- ==== Sys2Proof/Laws/Memory.lean ====
section
/-! SUPPORT. The laws of memory: every memory operation keeps the canonical form, a read after a write, and what a write
of several bytes leaves alone (spec/10_state.md R48, spec/20_memory.md R60, R70). -/

namespace Sys2Proof.Machine

open Sys2Proof

/-- The canonical form, entry by entry: the first address is below all others. -/
theorem Memory.wf_cons {a : Nat} {v : Byte} {m : Memory} :
    Memory.wf ((a, v) :: m) ↔ (∀ c ∈ m, a < c.1) ∧ v ≠ Memory.background ∧ Memory.wf m := by
  simp only [Memory.wf, List.pairwise_cons, List.mem_cons, forall_eq_or_imp]
  tauto

theorem Memory.wf_nil : Memory.wf [] := ⟨List.Pairwise.nil, by simp⟩

/-- A byte put in front of a canonical memory whose addresses are all higher keeps the form. -/
theorem Memory.wf_put {a : Nat} {v : Byte} {m : Memory} (h : Memory.wf m) (hlt : ∀ c ∈ m, a < c.1) :
    Memory.wf (Memory.put a v m) := by
  unfold Memory.put
  split
  · exact h
  · exact Memory.wf_cons.2 ⟨hlt, ‹_›, h⟩

theorem Memory.mem_put {c : Host.Cell} {a : Nat} {v : Byte} {m : Memory} (h : c ∈ Memory.put a v m) :
    c = (a, v) ∨ c ∈ m := by
  unfold Memory.put at h
  split at h
  · exact .inr h
  · exact List.mem_cons.1 h

/-- What a write lists was written, or was listed. -/
theorem Memory.mem_write {c : Host.Cell} {a : Nat} {v : Byte} {m : Memory} (h : c ∈ Memory.write m a v) :
    c = (a, v) ∨ c ∈ m := by
  induction m with
  | nil => simpa using Memory.mem_put h
  | cons e m ih =>
    obtain ⟨b, w⟩ := e
    simp only [Memory.write] at h
    split at h
    · exact Memory.mem_put h
    · split at h
      · exact (Memory.mem_put h).imp_right (List.mem_cons_of_mem _)
      · rcases List.mem_cons.1 h with h | h
        · exact .inr (h ▸ List.mem_cons_self)
        · exact (ih h).imp_right (List.mem_cons_of_mem _)

/-- A write keeps the canonical form. -/
theorem Memory.wf_write {m : Memory} (h : Memory.wf m) (a : Nat) (v : Byte) : Memory.wf (Memory.write m a v) := by
  induction m with
  | nil => exact Memory.wf_put Memory.wf_nil (by simp)
  | cons e m ih =>
    obtain ⟨b, w⟩ := e
    obtain ⟨hlt, hne, hm⟩ := Memory.wf_cons.1 h
    simp only [Memory.write]
    split
    · rename_i hab
      refine Memory.wf_put h fun c hc => ?_
      rcases List.mem_cons.1 hc with rfl | hc
      · exact hab
      · exact hab.trans (hlt c hc)
    · split
      · rename_i hab
        exact Memory.wf_put hm fun c hc => hab ▸ hlt c hc
      · rename_i hba hab
        refine Memory.wf_cons.2 ⟨fun c hc => ?_, hne, ih hm⟩
        rcases Memory.mem_write hc with rfl | hc
        · simp only; omega
        · exact hlt c hc

/-- An address below every listed one reads as an unlisted one. -/
theorem Memory.read_of_lt {m : Memory} {a : Nat} (h : ∀ c ∈ m, a < c.1) : Memory.read m a = Memory.background := by
  induction m with
  | nil => rfl
  | cons e m ih =>
    obtain ⟨b, w⟩ := e
    have hb : a < b := h (b, w) List.mem_cons_self
    simp only [Memory.read, if_neg (Nat.ne_of_lt hb)]
    exact ih fun c hc => h c (List.mem_cons_of_mem _ hc)

theorem Memory.read_put_same {m : Memory} {a : Nat} {v : Byte} (h : ∀ c ∈ m, a < c.1) :
    Memory.read (Memory.put a v m) a = v := by
  unfold Memory.put
  split
  · rename_i hv
    rw [Memory.read_of_lt h, hv]
  · simp [Memory.read]

theorem Memory.read_put_other {m : Memory} {a b : Nat} {v : Byte} (h : b ≠ a) :
    Memory.read (Memory.put a v m) b = Memory.read m b := by
  unfold Memory.put
  split
  · rfl
  · simp [Memory.read, h]

/-- A read after a write to the same address gives the byte written. -/
theorem Memory.read_write_same {m : Memory} (h : Memory.wf m) (a : Nat) (v : Byte) :
    Memory.read (Memory.write m a v) a = v := by
  induction m with
  | nil => exact Memory.read_put_same (by simp)
  | cons e m ih =>
    obtain ⟨b, w⟩ := e
    obtain ⟨hlt, -, hm⟩ := Memory.wf_cons.1 h
    simp only [Memory.write]
    split
    · rename_i hab
      refine Memory.read_put_same fun c hc => ?_
      rcases List.mem_cons.1 hc with rfl | hc
      · exact hab
      · exact hab.trans (hlt c hc)
    · split
      · rename_i hab
        exact Memory.read_put_same fun c hc => hab ▸ hlt c hc
      · rename_i hab
        simp only [Memory.read, if_neg hab]
        exact ih hm

/-- A write leaves every other address alone. -/
theorem Memory.read_write_other {m : Memory} {a b : Nat} (v : Byte) (h : b ≠ a) :
    Memory.read (Memory.write m a v) b = Memory.read m b := by
  induction m with
  | nil => exact Memory.read_put_other h
  | cons e m ih =>
    obtain ⟨c, w⟩ := e
    simp only [Memory.write]
    split
    · exact Memory.read_put_other h
    · split
      · rename_i hac
        rw [Memory.read_put_other h]
        simp [Memory.read, h, ← hac]
      · simp only [Memory.read, ih]

/-- The canonical form and the range of listed addresses, kept by a write through the memory port. -/
theorem memWrite_ok {s : State} (h : Memory.wf s.mem ∧ ∀ c ∈ s.mem, c.1 < 2 ^ s.cfg.addrW) (a : Nat) (v : Byte) :
    Memory.wf (memWrite s a v).mem ∧ ∀ c ∈ (memWrite s a v).mem, c.1 < 2 ^ s.cfg.addrW := by
  refine ⟨Memory.wf_write h.1 _ _, fun c hc => ?_⟩
  rcases Memory.mem_write hc with rfl | hc
  · exact Nat.mod_lt _ (Nat.two_pow_pos _)
  · exact h.2 c hc

/-- The same for a write of several bytes. -/
theorem memWriteBytes_ok {s : State} (h : Memory.wf s.mem ∧ ∀ c ∈ s.mem, c.1 < 2 ^ s.cfg.addrW) (a : Nat) (p : Packet) :
    Memory.wf (memWriteBytes s a p).mem ∧ ∀ c ∈ (memWriteBytes s a p).mem, c.1 < 2 ^ s.cfg.addrW := by
  induction p generalizing s a with
  | nil => exact h
  | cons b p ih => exact ih (s := memWrite s a b) (memWrite_ok h a b) (a + 1)

/-- A write of several bytes leaves alone every address it does not reach. -/
theorem memWriteBytes_read_other {s : State} {p : Packet} {a x : Nat}
    (h : ∀ i < p.length, x ≠ (a + i) % 2 ^ s.cfg.addrW) : (memWriteBytes s a p).mem.read x = s.mem.read x := by
  induction p generalizing s a with
  | nil => rfl
  | cons b p ih =>
    have h0 : x ≠ a % 2 ^ s.cfg.addrW := by simpa using h 0 (by simp)
    have hs : ∀ i < p.length, x ≠ (a + 1 + i) % 2 ^ (memWrite s a b).cfg.addrW := fun i hi => by
      have := h (i + 1) (by simpa using hi)
      rwa [Nat.add_assoc, Nat.add_comm 1 i]
    exact (ih hs).trans (Memory.read_write_other b h0)

/-- A write of at most `2^ADDR_W` bytes is read back byte by byte. -/
theorem memWriteBytes_read_same {s : State} (hm : Memory.wf s.mem) {p : Packet} {a i : Nat} (hi : i < p.length)
    (hlen : p.length ≤ 2 ^ s.cfg.addrW) : (memWriteBytes s a p).mem.read ((a + i) % 2 ^ s.cfg.addrW) = p[i] := by
  induction p generalizing s a i with
  | nil => exact absurd hi (by simp)
  | cons b p ih =>
    have hm' : Memory.wf (memWrite s a b).mem := Memory.wf_write hm _ _
    have hlen' : p.length + 1 ≤ 2 ^ s.cfg.addrW := by simpa using hlen
    cases i with
    | zero =>
      have key : (memWriteBytes (memWrite s a b) (a + 1) p).mem.read (a % 2 ^ s.cfg.addrW)
          = (memWrite s a b).mem.read (a % 2 ^ s.cfg.addrW) := by
        refine memWriteBytes_read_other fun j hj => ?_
        simp only [memWrite_cfg]
        intro h
        have h1 : (a + 1 + j - a) % 2 ^ s.cfg.addrW = 0 := Nat.sub_mod_eq_zero_of_mod_eq h.symm
        rw [Nat.mod_eq_of_lt (by omega)] at h1
        omega
      exact key.trans (Memory.read_write_same hm _ _)
    | succ j =>
      have := ih (s := memWrite s a b) hm' (a := a + 1) (i := j) (by simpa using hi) (by simp only [memWrite_cfg]; omega)
      rw [memWrite_cfg, Nat.add_assoc, Nat.add_comm 1 j] at this
      exact this

/-- The bytes read are as many as asked for. -/
@[simp] theorem memReadBytes_length (s : State) (a n : Nat) : (memReadBytes s a n).length = n := by
  induction n generalizing a with
  | zero => rfl
  | succ n ih => simp [memReadBytes, ih]

/-- Byte `i` of what is read is the byte at `a + i`, modulo `2^ADDR_W`. -/
theorem memReadBytes_getElem (s : State) (a n i : Nat) (h : i < n) :
    (memReadBytes s a n)[i]'(by simpa using h) = s.mem.read ((a + i) % 2 ^ s.cfg.addrW) := by
  induction n generalizing a i with
  | zero => omega
  | succ n ih =>
    cases i with
    | zero => rfl
    | succ j =>
      simp only [memReadBytes, List.getElem_cons_succ]
      rw [ih (a + 1) j (by omega), Nat.add_assoc, Nat.add_comm 1 j]

end Sys2Proof.Machine
end

