-- ==== Sys2Proof/Laws/Table.lean ====
section
/-! SUPPORT. The laws of the endpoint table: what `lookup` finds (spec/10_state.md R37), what changing one place of the
table leaves alone, and that no update changes an endpoint's entry of `EPS`. -/

namespace Sys2Proof.Machine

open Sys2Proof

/-! ### No update changes the entry of EPS -/

@[simp] theorem DataEp.aborted_desc (d : DataEp) : d.aborted.desc = d.desc := by unfold DataEp.aborted; split <;> rfl
@[simp] theorem DataEp.deactivated_desc (d : DataEp) : d.deactivated.desc = d.desc := rfl
@[simp] theorem DataEp.activated_desc (d : DataEp) : d.activated.desc = d.desc := rfl
@[simp] theorem DataEp.busReset_desc (d : DataEp) : d.busReset.desc = d.desc := rfl
@[simp] theorem DataEp.rearmed_desc (d : DataEp) : d.rearmed.desc = d.desc := by unfold DataEp.rearmed; split <;> rfl
@[simp] theorem DataEp.clearLatch_desc (d : DataEp) : d.clearLatch.desc = d.desc := rfl
@[simp] theorem DataEp.reset_desc (d : EpDesc) : (DataEp.reset d).desc = d := rfl

/-! ### What an abort leaves -/

@[simp] theorem DataEp.aborted_state (d : DataEp) : d.aborted.ep.state = .idle := by
  unfold DataEp.aborted; split
  · assumption
  · rfl

/-- After an abort an endpoint that was not Idle has `rem = 0` (spec/40_endpoint_table.md R130). -/
theorem DataEp.aborted_rem {d : DataEp} (h : d.ep.state ≠ .idle) : d.aborted.ep.rem = 0 := by
  simp [DataEp.aborted, h, EpRec.aborted]

/-! ### Places of the table -/

theorem findEp_some {num : BitVec 4} {dir : Dir} {ds : List DataEp} {p : Nat × DataEp} (h : findEp num dir ds = some p) :
    ds[p.1]? = some p.2 ∧ p.2.desc.num = num ∧ p.2.desc.dir = dir := by
  induction ds generalizing p with
  | nil => simp [findEp] at h
  | cons d ds ih =>
    unfold findEp at h
    split at h
    · rename_i hd
      obtain rfl := Option.some.inj h
      exact ⟨rfl, hd⟩
    · obtain ⟨q, hq, rfl⟩ := Option.map_eq_some_iff.1 h
      simpa using ih hq

/-- An endpoint is found at its place, when no two entries share number and direction. -/
theorem findEp_of_getElem {ds : List DataEp} (hnd : (ds.map (fun d => (d.desc.num, d.desc.dir))).Nodup) {k : Nat}
    {d : DataEp} (h : ds[k]? = some d) : findEp d.desc.num d.desc.dir ds = some (k, d) := by
  induction ds generalizing k with
  | nil => simp at h
  | cons e ds ih =>
    rw [List.map_cons, List.nodup_cons] at hnd
    obtain ⟨hne, hnd⟩ := hnd
    cases k with
    | zero =>
      obtain rfl : e = d := by simpa using h
      simp [findEp]
    | succ k =>
      have h : ds[k]? = some d := by simpa using h
      have hd : d ∈ ds := List.mem_of_getElem? h
      have : ¬(e.desc.num = d.desc.num ∧ e.desc.dir = d.desc.dir) := fun ⟨h1, h2⟩ =>
        hne (List.mem_map.2 ⟨d, hd, by rw [h1, h2]⟩)
      simp [findEp, this, ih hnd h]

/-- `lookup` finds EP0 under its two addresses only (spec/10_state.md R37). -/
theorem lookup_ep0_iff {s : State} {a : Byte} : lookup s a = some .ep0 ↔ a = 0x00 ∨ a = 0x80 := by
  have hz : ∀ a : Byte, (a.extractLsb' 4 3 = 0 ∧ epaNum a = 0) ↔ (a = 0x00 ∨ a = 0x80) := by decide
  rw [← hz a]
  unfold lookup
  split
  · rename_i h
    exact ⟨fun h' => by simp at h', fun h' => absurd h'.1 h⟩
  · split
    · simp_all
    · simp_all

/-- What `lookup` finds in the table is an endpoint with the address's number and direction (spec/10_state.md R37). -/
theorem lookup_data {s : State} {a : Byte} {k : Nat} {d : DataEp} (h : lookup s a = some (.data k d)) :
    s.deps[k]? = some d ∧ d.desc.num = epaNum a ∧ d.desc.dir = epaDir a ∧ a.extractLsb' 4 3 = 0 ∧ epaNum a ≠ 0 := by
  unfold lookup at h
  split at h
  · simp at h
  · split at h
    · simp at h
    · obtain ⟨p, hp, hq⟩ := Option.map_eq_some_iff.1 h
      obtain ⟨rfl, rfl⟩ := EpRef.data.inj hq
      obtain ⟨h1, h2, h3⟩ := findEp_some hp
      exact ⟨h1, h2, h3, by simp_all, by assumption⟩

/-- The address of an endpoint of the table names it (spec/10_state.md R37, spec/40_endpoint_table.md R120). -/
theorem lookup_epaOf {s : State} (hnd : (s.deps.map (fun d => (d.desc.num, d.desc.dir))).Nodup) {k : Nat} {d : DataEp}
    (h : s.deps[k]? = some d) (hn : d.desc.num ≠ 0) : lookup s (epaOf d.desc) = some (.data k d) := by
  have hz : ∀ (n : BitVec 4),
      (0x80#8 ||| n.zeroExtend 8).extractLsb' 4 3 = 0 ∧ epaNum (0x80#8 ||| n.zeroExtend 8) = n
      ∧ epaDir (0x80#8 ||| n.zeroExtend 8) = .in ∧ (0x00#8 ||| n.zeroExtend 8).extractLsb' 4 3 = 0
      ∧ epaNum (0x00#8 ||| n.zeroExtend 8) = n ∧ epaDir (0x00#8 ||| n.zeroExtend 8) = .out := by decide
  obtain ⟨h1, h2, h3, h4, h5, h6⟩ := hz d.desc.num
  have hf := findEp_of_getElem hnd h
  unfold lookup epaOf
  cases hd : d.desc.dir
  · rw [hd] at hf
    simp only [h1, h2, h3, hn, hf, ne_eq, not_true_eq_false, ↓reduceIte, Option.map_some]
  · rw [hd] at hf
    simp only [h4, h5, h6, hn, hf, ne_eq, not_true_eq_false, ↓reduceIte, Option.map_some]

/-! ### Changing one place -/

/-- An endpoint of a changed table is an old one, or the changed one. -/
theorem mem_modify {f : DataEp → DataEp} {ds : List DataEp} {k : Nat} {e : DataEp} (h : e ∈ ds.modify k f) :
    e ∈ ds ∨ ∃ d, ds[k]? = some d ∧ e = f d := by
  obtain ⟨i, hi, rfl⟩ := List.mem_iff_getElem.1 h
  rw [List.getElem_modify]
  have hi' : i < ds.length := by simpa using hi
  split
  · rename_i hki
    exact .inr ⟨ds[i], by rw [hki]; exact List.getElem?_eq_getElem hi', rfl⟩
  · exact .inl (List.getElem_mem hi')

/-- A property of every endpoint is kept when the changed endpoint still has it. -/
theorem forall_modify {P : DataEp → Prop} {f : DataEp → DataEp} {ds : List DataEp} {k : Nat} (h : ∀ d ∈ ds, P d)
    (hf : ∀ d, ds[k]? = some d → P (f d)) : ∀ d ∈ ds.modify k f, P d := fun e he => by
  rcases mem_modify he with he | ⟨d, hd, rfl⟩
  · exact h e he
  · exact hf d hd

/-- A change that keeps the entry of EPS keeps the table's shape (spec/10_state.md R37). -/
theorem map_desc_modify {f : DataEp → DataEp} (hf : ∀ d, (f d).desc = d.desc) (ds : List DataEp) (k : Nat) :
    (ds.modify k f).map DataEp.desc = ds.map DataEp.desc := by
  apply List.ext_getElem?
  intro i
  rw [List.getElem?_map, List.getElem?_map, List.getElem?_modify]
  split <;> cases ds[i]? <;> simp [hf]

/-- Number and direction are read from the entries of EPS, so the searches of a table with the same entries find the
same places. -/
theorem epOrder_congr {dir : Dir} {ds es : List DataEp} (h : ds.map DataEp.desc = es.map DataEp.desc) :
    epOrder dir ds = epOrder dir es := by
  have key : ∀ (num : BitVec 4) (ds es : List DataEp), ds.map DataEp.desc = es.map DataEp.desc →
      (findEp num dir ds).map Prod.fst = (findEp num dir es).map Prod.fst := by
    intro num ds
    induction ds with
    | nil => intro es h; cases es <;> simp_all [findEp]
    | cons d ds ih =>
      intro es h
      cases es with
      | nil => simp at h
      | cons e es =>
        obtain ⟨hde, hes⟩ : d.desc = e.desc ∧ ds.map DataEp.desc = es.map DataEp.desc := by simpa using h
        unfold findEp
        rw [hde]
        split
        · rfl
        · have := ih es hes
          simp only [Option.map_map]
          simpa [Function.comp_def] using congrArg (Option.map (· + 1)) this
  unfold epOrder
  congr 1
  funext n
  exact key _ _ _ h

/-- Every place the sequencer serves for a direction holds an endpoint of that direction. -/
theorem mem_epOrder {dir : Dir} {ds : List DataEp} {k : Nat} (h : k ∈ epOrder dir ds) :
    ∃ d, ds[k]? = some d ∧ d.desc.dir = dir := by
  obtain ⟨n, -, hn⟩ := List.mem_filterMap.1 h
  obtain ⟨p, hp, rfl⟩ := Option.map_eq_some_iff.1 hn
  obtain ⟨h1, -, h3⟩ := findEp_some hp
  exact ⟨p.2, h1, h3⟩

end Sys2Proof.Machine
end

