-- ==== Sys2Proof/Laws/Transfer.lean ====
section
/-! SUPPORT. The laws of `begin_transfer` and `abort` (spec/40_endpoint_table.md R122 to R132): what each answers and
leaves, as one equation for each kind of endpoint, and the SIE actions of the operations over the whole table. -/

namespace Sys2Proof.Machine

open Sys2Proof

/-- Changing a place of the table is setting it to the changed endpoint. -/
theorem modify_eq_set {ds : List DataEp} {k : Nat} {d : DataEp} (h : ds[k]? = some d) (f : DataEp → DataEp) :
    ds.modify k f = ds.set k (f d) := by
  obtain ⟨h1, h2⟩ := List.getElem?_eq_some_iff.1 h
  apply List.ext_getElem?
  intro i
  rw [List.getElem?_modify, List.getElem?_set]
  by_cases hi : k = i
  · subst hi; simp [h1, h2]
  · simp [hi]

/-- A transfer on an Idle EP0 towards the host (R122, R124). -/
theorem beginTransfer_in0 {s : State} (hi : s.ep0.state = .idle) (addr : Addr) (n : Half) (cb : Bool) :
    beginTransfer 0x80#8 .in addr n cb s
      = if ep0DataLegal s .in then (.ok, armEp .ep0 .in addr n cb s) else (.illegal, s) := by
  have hl : lookup s 0x80#8 = some .ep0 := lookup_ep0_iff.2 (.inr rfl)
  have hd : epaDir 0x80#8 = .in := by decide
  unfold beginTransfer beginCheck
  simp only [hl, hd, EpRef.rec0, hi]
  by_cases h : ep0DataLegal s .in <;> simp [h]

/-- A transfer on an Idle EP0 from the host (R122, R124). -/
theorem beginTransfer_out0 {s : State} (hi : s.ep0.state = .idle) (addr : Addr) (n : Half) (cb : Bool) :
    beginTransfer 0x00#8 .out addr n cb s
      = if ep0DataLegal s .out then (.ok, armEp .ep0 .out addr n cb s) else (.illegal, s) := by
  have hl : lookup s 0x00#8 = some .ep0 := lookup_ep0_iff.2 (.inl rfl)
  have hd : epaDir 0x00#8 = .out := by decide
  unfold beginTransfer beginCheck
  simp only [hl, hd, EpRef.rec0, hi]
  by_cases h : ep0DataLegal s .out <;> simp [h]

/-- A transfer on an Idle data endpoint, in the endpoint's direction (R122). -/
theorem beginTransfer_data {s : State} {a : Byte} {k : Nat} {d : DataEp} {dir : Dir}
    (hl : lookup s a = some (.data k d)) (hd : epaDir a = dir) (hi : d.ep.state = .idle) (addr : Addr) (n : Half)
    (cb : Bool) :
    beginTransfer a dir addr n cb s
      = if s.dev.state = .configured then (.ok, armEp (.data k d) dir addr n cb s) else (.deviceUnconfigured, s) := by
  unfold beginTransfer beginCheck
  simp only [hl, hd, EpRef.rec0, hi]
  by_cases h : s.dev.state = .configured <;> simp [h]

/-- A transfer start either answers Ok and arms an Idle endpoint in its direction, or changes nothing (R122, R125). -/
theorem beginTransfer_cases (a : Byte) (d : Dir) (addr : Addr) (n : Half) (cb : Bool) (s : State) :
    (∃ st, beginTransfer a d addr n cb s = (st, s))
    ∨ ∃ e, lookup s a = some e ∧ epaDir a = d ∧ (e.rec0 s).state = .idle
        ∧ (e = .ep0 → ep0DataLegal s d = true) ∧ (e ≠ .ep0 → s.dev.state = .configured)
        ∧ beginTransfer a d addr n cb s = (.ok, armEp e d addr n cb s) := by
  unfold beginTransfer beginCheck
  cases hl : lookup s a with
  | none => exact .inl ⟨_, rfl⟩
  | some e =>
    simp only
    by_cases h1 : epaDir a = d
    · by_cases h2 : (e.rec0 s).state = .idle
      · cases e with
        | ep0 =>
          by_cases h3 : ep0DataLegal s d
          · exact .inr ⟨.ep0, rfl, h1, h2, fun _ => h3, by simp, by simp [h1, h2, h3]⟩
          · exact .inl ⟨.illegal, by simp [h1, h2, h3]⟩
        | data k x =>
          by_cases h3 : s.dev.state = .configured
          · exact .inr ⟨.data k x, rfl, h1, h2, by simp, fun _ => h3, by simp [h1, h2, h3]⟩
          · exact .inl ⟨.deviceUnconfigured, by simp [h1, h2, h3]⟩
      · by_cases h3 : (e.rec0 s).state = .stalled
        · exact .inl ⟨.endpointStalled, by simp [h1, h3]⟩
        · exact .inl ⟨.endpointBusy, by simp [h1, h2, h3]⟩
    · exact .inl ⟨.illegal, by simp [h1]⟩

/-! ### Actions over the whole table -/

/-- An action of some endpoints, in table order. -/
theorem flatMap_if {α β : Type} (l : List α) (p : α → Bool) (f : α → β) :
    l.flatMap (fun d => if p d then [f d] else []) = (l.filter p).map f := by
  induction l with
  | nil => rfl
  | cons a l ih => simp only [List.flatMap_cons, ih]; by_cases h : p a <;> simp [h]

/-- `abort_all` flushes the endpoints that are not Idle (R132). -/
theorem flatMap_abortActs (ds : List DataEp) :
    ds.flatMap DataEp.abortActs = (ds.filter (fun d => d.ep.state != .idle)).map (fun d => .flush (epaOf d.desc)) := by
  rw [← flatMap_if]
  congr 1
  funext d
  unfold DataEp.abortActs
  by_cases h : d.ep.state = .idle <;> simp [h]

/-- `deactivate_all` disables the active endpoints (spec/45_device_state.md R283). -/
theorem flatMap_deactivateActs (ds : List DataEp) :
    ds.flatMap DataEp.deactivateActs = (ds.filter (fun d => d.active)).map (fun d => .epEnable (epaOf d.desc) false) := by
  rw [← flatMap_if]
  rfl

/-- An abort does not change which endpoints are active. -/
theorem flatMap_deactivateActs_aborted (ds : List DataEp) :
    (ds.map DataEp.aborted).flatMap DataEp.deactivateActs = ds.flatMap DataEp.deactivateActs := by
  rw [List.flatMap_map]
  congr 1
  funext d
  unfold DataEp.deactivateActs DataEp.aborted
  by_cases h : d.ep.state = .idle <;> simp [h]

end Sys2Proof.Machine
end

