-- ==== Sys2Proof/Laws/Service.lean ====
section
/-! SUPPORT. The laws of one service invocation (spec/46_events_and_service.md R315, R316): a step whose latch is not set
does nothing, so an invocation with one pending latch is that latch's service step. -/

namespace Sys2Proof.Machine

open Sys2Proof

theorem serviceWhen_false {latch : State → Bool} {s : State} (f : State → State) (h : latch s = false) :
    serviceWhen latch f s = s := by simp [serviceWhen, h]

theorem serviceWhen_true {latch : State → Bool} {s : State} (f : State → State) (h : latch s = true) :
    serviceWhen latch f s = f s := by simp [serviceWhen, h]

theorem latchOf_eq {s : State} {k : Nat} {d : DataEp} (h : s.deps[k]? = some d) : latchOf k s = d.latch := by
  simp [latchOf, h]

theorem latchOf_false {s : State} (h : ∀ d ∈ s.deps, d.latch = false) (k : Nat) : latchOf k s = false := by
  unfold latchOf
  cases hk : s.deps[k]? with
  | none => rfl
  | some d => exact h d (List.mem_of_getElem? hk)

/-- No place of the list has its latch set: nothing is served. -/
theorem serviceEach_noop {f : Nat → State → State} {ks : List Nat} {s : State} (h : ∀ k ∈ ks, latchOf k s = false) :
    serviceEach f ks s = s := by
  induction ks with
  | nil => rfl
  | cons k ks ih =>
    rw [serviceEach, serviceWhen_false _ (h k (by simp))]
    exact ih (fun j hj => h j (by simp [hj]))

/-- One place of the list has its latch set, and only that one: it is served, and nothing else. -/
theorem serviceEach_single {f : Nat → State → State} {ks : List Nat} {s : State} {k : Nat} (hk : k ∈ ks)
    (hnd : ks.Nodup) (h : ∀ j, latchOf j s = true ↔ j = k) (h' : ∀ j ∈ ks, j ≠ k → latchOf j (f k s) = false) :
    serviceEach f ks s = f k s := by
  induction ks with
  | nil => simp at hk
  | cons j ks ih =>
    rw [List.nodup_cons] at hnd
    rw [serviceEach]
    by_cases hj : j = k
    · subst hj
      rw [serviceWhen_true _ ((h j).2 rfl)]
      exact serviceEach_noop (fun i hi => h' i (by simp [hi]) (fun e => hnd.1 (e ▸ hi)))
    · rw [serviceWhen_false _ (by simpa using fun e => hj ((h j).1 e))]
      exact ih (by simpa [Ne.symm hj] using hk) hnd.2 (fun i hi => h' i (by simp [hi]))

/-- With no data endpoint latch set, the data endpoints' service steps change nothing. -/
theorem serviceData_noop {s : State} (h : ∀ d ∈ s.deps, d.latch = false ∧ d.stall = false) : serviceData s = s := by
  have hl := latchOf_false (fun d hd => (h d hd).1)
  unfold serviceData
  simp only [serviceEach_noop (fun k _ => hl k)]
  unfold serviceDataStalls
  have : s.deps.map (fun d => { d with stall := false }) = s.deps := by
    conv_rhs => rw [← List.map_id s.deps]
    refine List.map_congr_left fun d hd => ?_
    have := (h d hd).2
    cases d
    simp_all
  rw [this]

/-- An invocation of which no step after the control ones has its latch set. -/
theorem service_of_control {s t : State} (h : serviceControl s = t) (hi : s.cfg.hookIsr = false) (hc : t.cfg = s.cfg)
    (hs : t.lat.sof = false) (hd : ∀ d ∈ t.deps, d.latch = false ∧ d.stall = false) : service s = t := by
  unfold service
  simp only [hi, notifyIf, Bool.false_eq_true, if_false, h, serviceData_noop hd]
  rw [serviceWhen_false _ hs]
  simp [hc, hi]

/-- POLL runs one invocation and answers Ok (R319). -/
theorem execPoll_eq {s u : State} (h : service s = { u with result := s.result }) (h0 : u.result = 0) :
    exec .poll s = .next u := by
  have hr : resultWord .ok 0 = 0 := by decide
  unfold exec execPoll State.setResult
  rw [h, hr, ← h0]

/-- No latch of a data endpoint appears in a table operation of `set_state` (spec/45_device_state.md R270). -/
theorem setState_quiet {new : DevState} {s : State} (h : ∀ d ∈ s.deps, d.latch = false ∧ d.stall = false) :
    ∀ d ∈ (setState new s).deps, d.latch = false ∧ d.stall = false := by
  have h1 : ∀ d ∈ (leaveConfigured new s).deps, d.latch = false ∧ d.stall = false := by
    unfold leaveConfigured
    split
    · intro d hd
      obtain ⟨e, he, rfl⟩ := List.mem_map.1 hd
      unfold DataEp.aborted
      split
      · exact h e he
      · exact ⟨rfl, (h e he).2⟩
    · exact h
  unfold setState
  simp only [notify_deps]
  unfold enterBelowSuspended
  split
  · intro d hd
    obtain ⟨e, he, rfl⟩ := List.mem_map.1 hd
    exact ⟨rfl, rfl⟩
  · exact h1

/-! ### What is pending when a step's turn comes (spec/46_events_and_service.md R315, R316) -/

/-- Two states that the control services bring to one state are alike for POLL. -/
theorem exec_poll_congr {s t : State} (h : serviceControl s = serviceControl t) (hs : s.cfg.hookIsr = false)
    (ht : t.cfg.hookIsr = false) : exec .poll s = exec .poll t := by
  simp only [exec, execPoll, service, notifyIf, hs, ht, Bool.false_eq_true, if_false, h]

/-- With no device-wide latch, stall-sent or SetupEnd pending, the control services are SETUP, EP0 OUT and EP0 IN. -/
theorem serviceControl_ep0 {s : State} (h1 : s.lat.reset = false) (h2 : s.lat.suspend = false)
    (h3 : s.lat.resume = false) (h4 : s.lat.ep0SentStall = false) (h5 : s.lat.ep0SetupEnd = false) :
    serviceControl s = serviceWhen (fun s => s.lat.ep0In) serviceEp0In
      (serviceWhen (fun s => s.lat.ep0Out) serviceEp0Out (serviceWhen (fun s => s.lat.ep0Setup) serviceEp0Setup s)) := by
  simp only [serviceControl]
  rw [serviceWhen_false (s := s) serviceReset h1, serviceWhen_false (s := s) serviceSuspend h2,
    serviceWhen_false (s := s) serviceResume h3, serviceWhen_false (s := s) serviceEp0SentStall h4,
    serviceWhen_false (s := s) serviceEp0SetupEnd h5]

/-- The places before `k` have no latch set, before and after `k` is served: `k` is served first. -/
theorem serviceEach_first {f : Nat → State → State} {pre post : List Nat} {s : State} {k : Nat}
    (h : ∀ j ∈ pre, latchOf j s = false) (hk : latchOf k s = true) (h' : ∀ j ∈ pre, latchOf j (f k s) = false)
    (hk' : latchOf k (f k s) = false) : serviceEach f (pre ++ k :: post) s = serviceEach f (pre ++ k :: post) (f k s) := by
  induction pre with
  | nil =>
    simp only [List.nil_append, serviceEach]
    rw [serviceWhen_true (s := s) (f k) hk, serviceWhen_false (s := f k s) (f k) hk']
  | cons j pre ih =>
    simp only [List.cons_append, serviceEach]
    rw [serviceWhen_false (s := s) (f j) (h j (by simp)), serviceWhen_false (s := f k s) (f j) (h' j (by simp))]
    exact ih (fun i hi => h i (by simp [hi])) (fun i hi => h' i (by simp [hi]))

/-! ### Which latches the control services can change -/

/-- The configuration is the same, and no latch but `L0_OUT` and `L0_IN` differs. -/
def KeepsLatches (s t : State) : Prop :=
  t.cfg = s.cfg ∧ t.lat = { s.lat with ep0Out := t.lat.ep0Out, ep0In := t.lat.ep0In }

theorem KeepsLatches.refl (s : State) : KeepsLatches s s := ⟨rfl, rfl⟩

theorem KeepsLatches.trans {s t u : State} (h : KeepsLatches s t) (k : KeepsLatches t u) : KeepsLatches s u :=
  ⟨k.1.trans h.1, by rw [k.2, h.2]⟩

theorem KeepsLatches.of_eq {s t : State} (hc : t.cfg = s.cfg) (hl : t.lat = s.lat) : KeepsLatches s t :=
  ⟨hc, by rw [hl]⟩

theorem beginTransfer_keeps (a : Byte) (d : Dir) (addr : Addr) (n : Half) (cb : Bool) (s : State) :
    KeepsLatches s (beginTransfer a d addr n cb s).2 := by
  unfold beginTransfer
  split
  · exact .refl s
  · rename_i e _
    cases e
    · exact ⟨rfl, rfl⟩
    · exact .of_eq (by simp [armEp]) (by simp [armEp])

theorem setAddress_keeps (p : Setup) (s : State) : KeepsLatches s (setAddress p s).2 := by
  unfold setAddress loadAddress
  split
  · exact .refl s
  · dsimp only
    split
    · exact .of_eq (by simp only [act_cfg]; split <;> simp) (by simp only [act_lat]; split <;> simp)
    · exact .of_eq (by simp only [act_cfg]; split <;> simp) (by simp only [act_lat]; split <;> simp)
    all_goals exact .refl s

theorem select_keeps (t i : Byte) (s : State) : KeepsLatches s (select t i s).2 := by
  unfold select
  repeat' split
  all_goals first
    | exact .refl s
    | skip
  unfold selectString drawProduct serial
  repeat' split
  all_goals exact .of_eq (by simp) (by simp)

theorem getDescriptor_keeps (p : Setup) (s : State) : KeepsLatches s (getDescriptor p s).2 := by
  have h := select_keeps (p.wValue.extractLsb' 8 8) (p.wValue.extractLsb' 0 8) s
  unfold getDescriptor
  split
  · exact .refl s
  · dsimp only
    split
    · exact h
    · split
      · exact h.trans (beginTransfer_keeps _ _ _ _ _ _)
      · exact h

theorem setConfiguration_keeps (p : Setup) (s : State) : KeepsLatches s (setConfiguration p s).2 := by
  unfold setConfiguration
  repeat' split
  all_goals first
    | exact .refl s
    | exact .of_eq (by simp) (by simp)

theorem stdDispatch_keeps (p : Setup) (s : State) : KeepsLatches s (stdDispatch p s).2 := by
  unfold stdDispatch
  repeat' split
  all_goals first
    | exact .refl s
    | exact setAddress_keeps p s
    | exact getDescriptor_keeps p s
    | exact setConfiguration_keeps p s

theorem dispatch_keeps (p : Setup) (s : State) : KeepsLatches s (dispatch p s).2 := by
  have hd : KeepsLatches s (drawHook s).2 := by unfold drawHook; split <;> exact ⟨rfl, rfl⟩
  unfold dispatch
  split
  · dsimp only
    split
    · refine hd.trans ?_
      unfold applyArm
      dsimp only
      split
      · exact .refl _
      · exact beginTransfer_keeps _ _ _ _ _ _
    · exact hd
    · exact hd.trans (stdDispatch_keeps p _)
  · exact stdDispatch_keeps p s

/-- The SETUP service clears its latch, and may change `L0_OUT` and `L0_IN` but no other (R175). -/
theorem serviceEp0Setup_keeps (s : State) :
    KeepsLatches { s with lat := { s.lat with ep0Setup := false } } (serviceEp0Setup s) := by
  unfold serviceEp0Setup
  dsimp only
  split
  · exact .refl _
  · split
    · exact .refl _
    · rename_i p _
      refine KeepsLatches.trans (t := acceptSetup p { s with lat := { s.lat with ep0Setup := false } })
        ⟨by simp [acceptSetup], by simp [acceptSetup, ep0SoftReset]⟩ ?_
      refine (dispatch_keeps p _).trans ?_
      unfold afterDispatch
      repeat' split
      all_goals exact .of_eq (by simp [noDataPhase, stall0]) (by simp [noDataPhase, stall0])

/-- The EP0 OUT service clears its latch and no other (R184 to R186). -/
theorem serviceEp0Out_lat (s : State) :
    (serviceEp0Out s).cfg = s.cfg ∧ (serviceEp0Out s).lat = { s.lat with ep0Out := false } := by
  unfold serviceEp0Out ep0Receive complete0
  dsimp only
  repeat' split
  all_goals exact ⟨by simp, by simp⟩

/-- The EP0 IN service clears its latch and no other (R182). -/
theorem serviceEp0In_lat (s : State) :
    (serviceEp0In s).cfg = s.cfg ∧ (serviceEp0In s).lat = { s.lat with ep0In := false } := by
  unfold serviceEp0In complete0
  dsimp only
  repeat' split
  all_goals exact ⟨by simp, by simp⟩

end Sys2Proof.Machine
end

