-- ==== Sys2Proof/Laws/Observer.lean ====
section
/-! SUPPORT. The enter/exit observer around an invocation (spec/46_events_and_service.md R320): `service_off` and
`service_on` say what an invocation is without it and with it, `serviceBody_unobserved` that the service steps between
the two records do the same either way. `Blind f` says that of one step `f`, `KeepsCfg f` that `f` leaves the
configuration as it is; one lemma of each per service step. -/

namespace Sys2Proof.Machine

open Sys2Proof

/-! ### No service step reads `HOOK_ISR` -/

/-- The same state with the enter/exit observer off. -/
def State.unobserved (s : State) : State := { s with cfg := { s.cfg with hookIsr := false } }

/-- Turning the observer back on. -/
theorem State.observed_again {s : State} {c : Config} (h : s.cfg = c) : { s.unobserved with cfg := c } = s := by
  subst h
  rfl

/-- A step that the enter/exit observer does not reach. -/
def Blind (f : State → State) : Prop := ∀ s : State, f s.unobserved = (f s).unobserved

theorem notify_blind (r : Record) : Blind (notify r) := fun s => by
  unfold notify State.unobserved raise; dsimp only; split <;> rfl

theorem notifyIf_blind (b : Bool) (r : Record) : Blind (notifyIf b r) := by
  cases b
  · exact fun _ => rfl
  · exact notify_blind r

theorem enter_blind (n : DevState) : Blind (fun s => enterBelowSuspended n (leaveConfigured n s)) := fun s => by
  unfold enterBelowSuspended leaveConfigured State.unobserved; dsimp only
  repeat' split
  all_goals rfl

theorem setState_blind (n : DevState) : Blind (setState n) := fun s => by
  have h := enter_blind n s
  dsimp only at h
  unfold setState
  rw [h]
  generalize enterBelowSuspended n (leaveConfigured n s) = t
  exact notify_blind (stateChange s.dev.state n)
    { t with dev := { t.dev with saved := if n = .suspended then s.dev.state else t.dev.saved, state := n } }

theorem serviceReset_blind : Blind serviceReset := fun s => by
  have h := setState_blind .default { s with lat := { s.lat with reset := false } }
  unfold serviceReset
  rw [show ({ s.unobserved with lat := { s.unobserved.lat with reset := false } } : State)
    = ({ s with lat := { s.lat with reset := false } } : State).unobserved from rfl, h]
  generalize setState .default { s with lat := { s.lat with reset := false } } = t
  exact notifyIf_blind s.cfg.hookReset (observer .resetHook) { t with
    ep0 := EpRec.reset, deps := t.deps.map (fun d => { d with ep := EpRec.reset }), ctlOpen := false
    dev := { t.dev with config := 0, alt := 0 } }

theorem serviceSuspend_blind : Blind serviceSuspend := fun s => by
  have h := setState_blind .suspended { s with lat := { s.lat with suspend := false } }
  by_cases hd : s.dev.state = .suspended
  · unfold serviceSuspend
    dsimp only
    rw [if_neg (not_not.2 hd), if_neg (not_not.2 (show s.unobserved.dev.state = .suspended from hd))]
    rfl
  · unfold serviceSuspend
    dsimp only
    rw [if_pos hd, if_pos (show s.unobserved.dev.state ≠ .suspended from hd)]
    exact h

theorem serviceResume_blind : Blind serviceResume := fun s => by
  have h := setState_blind s.dev.saved { s with lat := { s.lat with resume := false } }
  by_cases hd : s.dev.state = .suspended
  · unfold serviceResume
    dsimp only
    rw [if_pos hd, if_pos (show s.unobserved.dev.state = .suspended from hd)]
    exact h
  · unfold serviceResume
    dsimp only
    rw [if_neg hd, if_neg (show ¬s.unobserved.dev.state = .suspended from hd)]
    rfl

theorem sentStall_blind : Blind serviceEp0SentStall := fun _ => rfl
theorem setupEnd_blind : Blind serviceEp0SetupEnd := fun _ => rfl

theorem memReadBytes_unobserved (s : State) (a n : Nat) : memReadBytes s.unobserved a n = memReadBytes s a n := by
  induction n generalizing a with
  | zero => rfl
  | succ n ih => simp only [memReadBytes, ih]; rfl

theorem memWriteBytes_blind (p : Packet) : ∀ a, Blind (fun s => memWriteBytes s a p) := by
  induction p with
  | nil => exact fun _ _ => rfl
  | cons b p ih => exact fun a s => ih (a + 1) (memWrite s a b)

/-- The same of a step that gives an answer too. -/
def BlindAnswer {α : Type} (f : State → α × State) : Prop := ∀ s : State, f s.unobserved = ((f s).1, (f s).2.unobserved)

theorem beginTransfer_blind (a : Byte) (d : Dir) (addr : Addr) (n : Half) (cb : Bool) :
    BlindAnswer (beginTransfer a d addr n cb) := fun s => by
  have h : beginCheck s.unobserved a d = beginCheck s a d := by
    unfold beginCheck
    rw [show lookup s.unobserved a = lookup s a from rfl]
    cases lookup s a with
    | none => rfl
    | some e => cases e <;> rfl
  unfold beginTransfer
  rw [h]
  cases beginCheck s a d with
  | error => rfl
  | ok e => cases e <;> rfl

theorem setAddress_blind (p : Setup) : BlindAnswer (setAddress p) := fun s => by
  unfold setAddress
  dsimp only [State.unobserved]
  split
  · rfl
  · cases s.dev.state with
    | default =>
      dsimp only
      split
      · exact congrArg (fun t => (Answer.ok, loadAddress (p.wValue.setWidth 7) t)) (setState_blind .addressed s)
      · rfl
    | addressed =>
      dsimp only
      split
      · exact congrArg (fun t => (Answer.ok, loadAddress (p.wValue.setWidth 7) t)) (setState_blind .default s)
      · rfl
    | _ => rfl

theorem select_blind (t i : Byte) : BlindAnswer (select t i) := fun s => by
  unfold select selectString drawProduct
  dsimp only [State.unobserved]
  repeat' split
  all_goals first
    | rfl
    | skip
  all_goals exact Prod.ext rfl (memWriteBytes_blind _ _ s)

theorem getDescriptor_blind (p : Setup) : BlindAnswer (getDescriptor p) := fun s => by
  unfold getDescriptor
  split
  · rfl
  · dsimp only
    rw [select_blind]
    dsimp only
    cases (select (p.wValue.extractLsb' 8 8) (p.wValue.extractLsb' 0 8) s).1 with
    | none => rfl
    | some l =>
      dsimp only
      split
      · rw [beginTransfer_blind]
      · rfl

theorem setConfiguration_blind (p : Setup) : BlindAnswer (setConfiguration p) := fun s => by
  have h1 := setState_blind .configured { s with dev := { s.dev with config := Config.configValue } }
  have h0 := setState_blind .addressed { s with dev := { s.dev with config := 0 } }
  unfold setConfiguration
  rw [show s.unobserved.dev = s.dev from rfl]
  split
  · rfl
  · cases s.dev.state with
    | addressed =>
      dsimp only
      split
      · exact congrArg (fun t => (Answer.ok, activateAll t)) h1
      · rfl
    | configured =>
      dsimp only
      split
      · exact congrArg (Prod.mk Answer.ok) h0
      · split <;> rfl
    | _ => rfl

theorem stdDispatch_blind (p : Setup) : BlindAnswer (stdDispatch p) := fun s => by
  unfold stdDispatch
  repeat' split
  all_goals first
    | rfl
    | exact setAddress_blind p s
    | exact getDescriptor_blind p s
    | exact setConfiguration_blind p s

theorem dispatch_blind (p : Setup) : BlindAnswer (dispatch p) := fun s => by
  unfold dispatch
  rw [show s.unobserved.cfg.hook = s.cfg.hook from rfl]
  split
  · have hd : drawHook s.unobserved = ((drawHook s).1, (drawHook s).2.unobserved) := by
      unfold drawHook
      dsimp only [State.unobserved]
      split <;> rfl
    rw [hd]
    dsimp only
    cases (drawHook s).1.outcome with
    | ok =>
      dsimp only
      unfold applyArm
      cases (drawHook s).1.arm with
      | none => rfl
      | some a =>
        dsimp only
        rw [beginTransfer_blind]
        rfl
    | requestError => rfl
    | unhandled => exact stdDispatch_blind p _
  · exact stdDispatch_blind p s

theorem afterDispatch_blind (p : Setup) (a : Answer) : Blind (fun s => afterDispatch p (a, s)) := fun s => by
  cases a with
  | ok =>
    unfold afterDispatch
    dsimp only
    rw [show s.unobserved.ep0 = s.ep0 from rfl]
    repeat' split
    all_goals rfl
  | requestError => rfl
  | unhandled => rfl

theorem serviceEp0Setup_blind : Blind serviceEp0Setup := fun s => by
  unfold serviceEp0Setup
  dsimp only
  rw [show s.unobserved.rx0 = s.rx0 from rfl]
  cases s.rx0 with
  | none => rfl
  | some q =>
    dsimp only
    cases Setup.ofBytes (fifoRead q q.length) with
    | none => rfl
    | some p =>
      exact (congrArg (afterDispatch p) (dispatch_blind p (acceptSetup p
        { s with lat := { s.lat with ep0Setup := false } }))).trans (afterDispatch_blind p _ _)

theorem complete0_blind (x : Byte) : Blind (complete0 x) := fun s => by
  unfold complete0
  have h := notifyIf_blind s.ep0.cb ⟨.xferDone, x, 0, 0, s.ep0.moved, s.ep0.rem⟩ { s with
    ep0 := { s.ep0 with state := .idle }, ctlOpen := false }
  exact congrArg (fun t : State => { t with ep0 := { t.ep0 with cb := false } }) h

theorem ep0Commit_blind (b : Bool) : Blind (ep0Commit b) := fun s => by
  cases b <;> rfl

theorem ep0Send_blind (bytes : Packet) (chunk : Nat) : Blind (fun t =>
    if chunk < t.cfg.mps0 then
      complete0 0x80 (ep0Commit true { fifoWrite0 bytes t with ep0 := t.ep0.advance t.cfg chunk })
    else ep0Commit false { fifoWrite0 bytes t with ep0 := t.ep0.advance t.cfg chunk }) := fun t => by
  dsimp only
  rw [show t.unobserved.cfg.mps0 = t.cfg.mps0 from rfl]
  split
  · exact (congrArg (complete0 0x80)
      (ep0Commit_blind true { fifoWrite0 bytes t with ep0 := t.ep0.advance t.cfg chunk })).trans
      (complete0_blind 0x80 (ep0Commit true { fifoWrite0 bytes t with ep0 := t.ep0.advance t.cfg chunk }))
  · exact ep0Commit_blind false { fifoWrite0 bytes t with ep0 := t.ep0.advance t.cfg chunk }

theorem serviceEp0In_blind : Blind serviceEp0In := fun s => by
  let t : State := { s with lat := { s.lat with ep0In := false } }
  let chunk := min s.ep0.rem.toNat s.cfg.mps0
  by_cases h : s.ep0.state ≠ .transmitting ∨ s.tx0 ≠ none
  · have e : serviceEp0In s = t := if_pos h
    have e' : serviceEp0In s.unobserved = t.unobserved := if_pos h
    rw [e, e']
  · have hm : copyIn t.unobserved s.ep0 chunk = copyIn t s.ep0 chunk :=
      memReadBytes_unobserved t s.ep0.buf.toNat chunk
    have e : serviceEp0In s = (if chunk < t.cfg.mps0 then
        complete0 0x80 (ep0Commit true { fifoWrite0 (copyIn t s.ep0 chunk) t with ep0 := t.ep0.advance t.cfg chunk })
      else ep0Commit false { fifoWrite0 (copyIn t s.ep0 chunk) t with ep0 := t.ep0.advance t.cfg chunk }) := if_neg h
    have e' : serviceEp0In s.unobserved = (if chunk < t.cfg.mps0 then
        complete0 0x80 (ep0Commit true { fifoWrite0 (copyIn t.unobserved s.ep0 chunk) t.unobserved with
          ep0 := t.ep0.advance t.cfg chunk })
      else ep0Commit false { fifoWrite0 (copyIn t.unobserved s.ep0 chunk) t.unobserved with
          ep0 := t.ep0.advance t.cfg chunk }) := if_neg h
    rw [e, e', hm]
    exact ep0Send_blind (copyIn t s.ep0 chunk) chunk t

theorem copyOut_blind (r : EpRec) (p : Packet) : Blind (copyOut r p) := memWriteBytes_blind p _

theorem ep0Receive_blind (q : Packet) : Blind (ep0Receive q) := fun s => by
  unfold ep0Receive
  rw [show s.unobserved.ep0 = s.ep0 from rfl, copyOut_blind]
  generalize copyOut s.ep0 (fifoRead q q.length) s = t
  dsimp only
  rw [show s.unobserved.cfg.mps0 = s.cfg.mps0 from rfl]
  split
  · exact complete0_blind 0x00
      (act .dataEnd { releaseRx0 t with ep0 := (releaseRx0 t).ep0.advance (releaseRx0 t).cfg q.length })
  · rfl

theorem serviceEp0Out_blind : Blind serviceEp0Out := fun s => by
  unfold serviceEp0Out
  dsimp only [State.unobserved]
  cases s.rx0 with
  | none => rfl
  | some q =>
    dsimp only
    repeat' split
    · exact notifyIf_blind (!s.ep0.wr) (xferError 0x00 .endpointError 0 q.length)
        { s with lat := { s.lat with ep0Out := false }, ep0 := s.ep0.hold, rx0 := some q }
    · exact notify_blind (xferError 0x00 .rxBufferOverrun s.ep0.moved q.length)
        { s with lat := { s.lat with ep0Out := false }, ep0 := s.ep0.overrun, rx0 := some q }
    · exact ep0Receive_blind q { s with lat := { s.lat with ep0Out := false }, rx0 := some q }

theorem serviceWhen_blind {latch : State → Bool} {f : State → State} (hl : ∀ s : State, latch s.unobserved = latch s)
    (hf : Blind f) : Blind (serviceWhen latch f) := fun s => by
  unfold serviceWhen
  rw [hl s]
  split
  · exact hf s
  · rfl

theorem serviceControl_blind : Blind serviceControl := fun s => by
  unfold serviceControl
  dsimp only
  rw [serviceWhen_blind (fun _ => rfl) serviceReset_blind, serviceWhen_blind (fun _ => rfl) serviceSuspend_blind,
    serviceWhen_blind (fun _ => rfl) serviceResume_blind, serviceWhen_blind (fun _ => rfl) sentStall_blind,
    serviceWhen_blind (fun _ => rfl) setupEnd_blind, serviceWhen_blind (fun _ => rfl) serviceEp0Setup_blind,
    serviceWhen_blind (fun _ => rfl) serviceEp0Out_blind, serviceWhen_blind (fun _ => rfl) serviceEp0In_blind]

theorem withEp_blind (k : Nat) {f : DataEp → State → State} (hf : ∀ d, Blind (f d)) : Blind (withEp k f) := fun s => by
  unfold withEp
  rw [show s.unobserved.deps = s.deps from rfl]
  cases s.deps[k]? with
  | none => rfl
  | some d => exact hf d s

theorem completeData_blind (k : Nat) : Blind (completeData k) := withEp_blind k fun d s =>
  congrArg (fun t : State => t.modifyRec k EpRec.completed)
    (notifyIf_blind d.ep.cb ⟨.xferDone, epaOf d.desc, 0, 0, d.ep.moved, d.ep.rem⟩ s)

theorem serviceDataIn_blind (k : Nat) : Blind (serviceDataIn k) := withEp_blind k fun d s => by
  dsimp only
  repeat' split
  · rfl
  · rw [show copyIn (s.unobserved.modifyEp k DataEp.clearLatch) = copyIn (s.modifyEp k DataEp.clearLatch) from by
      funext r n; exact memReadBytes_unobserved (s.modifyEp k DataEp.clearLatch) r.buf.toNat n]
    rfl
  · exact completeData_blind k (s.modifyEp k DataEp.clearLatch)

theorem dataReceive_blind (k : Nat) (d : DataEp) (q : Packet) : Blind (dataReceive k d q) := fun s => by
  unfold dataReceive
  rw [copyOut_blind]
  generalize copyOut d.ep (fifoRead q q.length) s = t
  dsimp only
  split
  · exact completeData_blind k
      ((releaseRx k d t).modifyRec k (fun r => r.advance (releaseRx k d t).cfg q.length))
  · rfl

theorem serviceDataOut_blind (k : Nat) : Blind (serviceDataOut k) := withEp_blind k fun d s => by
  dsimp only
  cases d.pkt with
  | none => rfl
  | some q =>
    dsimp only
    repeat' split
    · exact notify_blind (xferError (epaOf d.desc) .endpointError 0 q.length)
        ((s.modifyEp k DataEp.clearLatch).modifyRec k EpRec.hold)
    · exact notify_blind (xferError (epaOf d.desc) .rxBufferOverrun d.ep.moved q.length)
        ((s.modifyEp k DataEp.clearLatch).modifyRec k EpRec.overrun)
    · exact dataReceive_blind k d q (s.modifyEp k DataEp.clearLatch)

theorem serviceEach_blind {f : Nat → State → State} (hf : ∀ k, Blind (f k)) (ks : List Nat) :
    Blind (serviceEach f ks) := by
  induction ks with
  | nil => exact fun _ => rfl
  | cons k ks ih => exact fun s => by rw [serviceEach, serviceWhen_blind (fun _ => rfl) (hf k), ih, serviceEach]

theorem serviceData_blind : Blind serviceData := fun s => by
  unfold serviceData
  dsimp only
  rw [show s.unobserved.deps = s.deps from rfl, serviceEach_blind serviceDataOut_blind]
  rw [show (serviceEach serviceDataOut (epOrder .out s.deps) s).unobserved.deps
    = (serviceEach serviceDataOut (epOrder .out s.deps) s).deps from rfl, serviceEach_blind serviceDataIn_blind]
  rfl

theorem rearm0_blind : Blind rearm0 := fun s => by
  by_cases h : s.ep0.pp = true ∧ s.ep0.state = .receiving ∧ s.rx0 ≠ none
  · have e : rearm0 s = { s with lat := { s.lat with ep0Out := true }, ep0 := { s.ep0 with pp := false } } := if_pos h
    have e' : rearm0 s.unobserved
      = { s.unobserved with lat := { s.lat with ep0Out := true }, ep0 := { s.ep0 with pp := false } } := if_pos h
    rw [e, e']
    rfl
  · have e : rearm0 s = s := if_neg h
    have e' : rearm0 s.unobserved = s.unobserved := if_neg h
    rw [e, e']

theorem serviceSof_blind : Blind serviceSof := fun s => by
  let t : State := { s with lat := { s.lat with sof := false } }
  have h : rearm0 t.unobserved = (rearm0 t).unobserved := rearm0_blind t
  unfold serviceSof
  dsimp only
  rw [show ({ s.unobserved with lat := { s.unobserved.lat with sof := false } } : State) = t.unobserved from rfl, h]
  exact notifyIf_blind (rearm0 t).cfg.hookSof { observer .sofHook with rm := (rearm0 t).sofFrame.zeroExtend 16 }
    { rearm0 t with deps := (rearm0 t).deps.map DataEp.rearmed }

/-- Everything between the two observer records (spec/46_events_and_service.md R315). -/
def serviceBody (s : State) : State :=
  serviceWhen (fun s => s.lat.sof) serviceSof (serviceData (serviceControl s))

theorem serviceBody_blind : Blind serviceBody := fun s => by
  unfold serviceBody
  rw [serviceControl_blind, serviceData_blind, serviceWhen_blind (fun _ => rfl) serviceSof_blind]

/-! ### No service changes the configuration -/

/-- A step that leaves the configuration as it is. -/
def KeepsCfg (f : State → State) : Prop := ∀ s : State, (f s).cfg = s.cfg

theorem serviceReset_cfg : KeepsCfg serviceReset := fun s =>
  (notifyIf_cfg _ _ _).trans (setState_cfg .default { s with lat := { s.lat with reset := false } })

theorem serviceSuspend_cfg : KeepsCfg serviceSuspend := fun s => by
  unfold serviceSuspend
  dsimp only
  split
  · exact setState_cfg .suspended { s with lat := { s.lat with suspend := false } }
  · rfl

theorem serviceResume_cfg : KeepsCfg serviceResume := fun s => by
  unfold serviceResume
  dsimp only
  split
  · exact setState_cfg s.dev.saved { s with lat := { s.lat with resume := false } }
  · rfl

theorem completeData_cfg (k : Nat) : KeepsCfg (completeData k) := fun s => by
  unfold completeData withEp
  split
  · rfl
  · exact notifyIf_cfg _ _ s

theorem serviceDataIn_cfg (k : Nat) : KeepsCfg (serviceDataIn k) := fun s => by
  unfold serviceDataIn withEp
  split
  · rfl
  · dsimp only
    repeat' split
    · rfl
    · rfl
    · exact completeData_cfg k (s.modifyEp k DataEp.clearLatch)

theorem dataReceive_cfg (k : Nat) (d : DataEp) (q : Packet) : KeepsCfg (dataReceive k d q) := fun s => by
  have h : (copyOut d.ep (fifoRead q q.length) s).cfg = s.cfg := by unfold copyOut; simp
  unfold dataReceive
  dsimp only
  split
  · exact (completeData_cfg k _).trans h
  · exact h

theorem serviceDataOut_cfg (k : Nat) : KeepsCfg (serviceDataOut k) := fun s => by
  unfold serviceDataOut withEp
  split
  · rfl
  · dsimp only
    repeat' split
    · rfl
    · exact notify_cfg _ _
    · exact notify_cfg _ _
    · exact dataReceive_cfg k _ _ _

theorem serviceWhen_cfg {latch : State → Bool} {f : State → State} (hf : KeepsCfg f) :
    KeepsCfg (serviceWhen latch f) := fun s => by
  unfold serviceWhen
  split
  · exact hf s
  · rfl

theorem serviceEach_cfg {f : Nat → State → State} (hf : ∀ k, KeepsCfg (f k)) (ks : List Nat) :
    KeepsCfg (serviceEach f ks) := by
  induction ks with
  | nil => exact fun _ => rfl
  | cons k ks ih => exact fun s => (ih _).trans (serviceWhen_cfg (hf k) s)

theorem serviceData_cfg : KeepsCfg serviceData := fun s =>
  (serviceEach_cfg serviceDataIn_cfg _ _).trans (serviceEach_cfg serviceDataOut_cfg _ s)

theorem serviceControl_cfg : KeepsCfg serviceControl := fun s => by
  unfold serviceControl
  dsimp only
  rw [serviceWhen_cfg (fun s => (serviceEp0In_lat s).1), serviceWhen_cfg (fun s => (serviceEp0Out_lat s).1),
    serviceWhen_cfg (fun s => (serviceEp0Setup_keeps s).1), serviceWhen_cfg (f := serviceEp0SetupEnd) (fun _ => rfl),
    serviceWhen_cfg (f := serviceEp0SentStall) (fun _ => rfl), serviceWhen_cfg serviceResume_cfg,
    serviceWhen_cfg serviceSuspend_cfg,
    serviceWhen_cfg serviceReset_cfg]

theorem serviceSof_cfg : KeepsCfg serviceSof := fun s => by
  refine (notifyIf_cfg _ _ _).trans ?_
  unfold rearm0
  dsimp only
  split <;> rfl

theorem serviceBody_cfg : KeepsCfg serviceBody := fun s => by
  unfold serviceBody
  rw [serviceWhen_cfg serviceSof_cfg, serviceData_cfg, serviceControl_cfg]

/-! ### The invocation and its two records (spec/46_events_and_service.md R320) -/

/-- With the observer off, an invocation is its service steps. -/
theorem service_off {s : State} (h : s.cfg.hookIsr = false) : service s = serviceBody s := by
  have hc := serviceBody_cfg s
  unfold service
  rw [h]
  change notifyIf (serviceBody s).cfg.hookIsr _ (serviceBody s) = _
  rw [hc, h]
  rfl

/-- With the observer on, they stand between the two records. -/
theorem service_on {s : State} (h : s.cfg.hookIsr = true) :
    service s = notify (observer .serviceExit) (serviceBody (notify (observer .serviceEnter) s)) := by
  have hc := serviceBody_cfg (notify (observer .serviceEnter) s)
  unfold service
  rw [h]
  change notifyIf (serviceBody (notify (observer .serviceEnter) s)).cfg.hookIsr _
    (serviceBody (notify (observer .serviceEnter) s)) = _
  rw [hc, notify_cfg, h]
  rfl

/-- The service steps of a state, read off those of the same state with the observer off. -/
theorem serviceBody_unobserved (s : State) : serviceBody s = { serviceBody s.unobserved with cfg := s.cfg } := by
  rw [serviceBody_blind, State.observed_again (serviceBody_cfg s)]

end Sys2Proof.Machine
end

