-- ==== Sys2Proof/Laws/PerInstr.lean ====
section
/-! SUPPORT. One lemma per instruction about its word: the code field is the OPC or EVC of the opcode table, EPA is the
endpoint address named or 0, and the reserved bits of its format are 0 (spec/30_encoding.md R91, R94, R97, R98). -/

namespace Sys2Proof.Laws.WordFields

/-- The code of an instruction in bits 31:24 of its word: the OPC of R94 or the EVC of R98. -/
def code : Instr → Byte
  | .init => 0x01
  | .connect => 0x02
  | .disconnect => 0x03
  | .write _ _ => 0x10
  | .read _ _ => 0x11
  | .abort _ => 0x20
  | .abortAll => 0x21
  | .isBusy _ => 0x30
  | .remaining _ => 0x31
  | .poll => 0x40
  | .evBusReset => 0x01
  | .evSuspend => 0x02
  | .evResume => 0x03
  | .evSof _ => 0x04
  | .evSetup _ => 0x10
  | .evSetupEnd => 0x11
  | .evOut _ _ => 0x12
  | .evInTaken _ => 0x13
  | .evSentStall _ => 0x14

/-- The endpoint address an instruction names, 0 if it names none (R95, R99). -/
def epa : Instr → Byte
  | .write e _ | .read e _ | .abort e | .isBusy e | .remaining e | .evOut e _ | .evInTaken e | .evSentStall e => e
  | .init | .connect | .disconnect | .abortAll | .poll
  | .evBusReset | .evSuspend | .evResume | .evSof _ | .evSetup _ | .evSetupEnd => 0

/-- The bits of a word that its port's format reserves: 15:9 and 7:0 of a command (R91), 15:11 of an event (R97). -/
def reservedZero (x : Encoded) : Prop :=
  match x.port with
  | .cmd => x.word.extractLsb' 9 7 = 0 ∧ x.word.extractLsb' 0 8 = 0
  | .bus => x.word.extractLsb' 11 5 = 0

/-- The word of an instruction has its code, its endpoint address and zeros in its reserved bits. -/
def Statement (i : Instr) : Prop :=
  codeField (encode i).word = code i ∧ epaField (encode i).word = epa i ∧ reservedZero (encode i)

/-- A command word built from its fields. -/
theorem of_command {i : Instr} {c e : Byte} {b : Bool} (h : encode i = ⟨.cmd, commandWord c e b, []⟩)
    (hc : code i = c) (he : epa i = e) : Statement i := by
  obtain ⟨f1, f2, -, f4, f5⟩ := commandWord_fields c e b
  simp only [Statement, h, hc, he]
  exact ⟨f1, f2, f4, f5⟩

/-- An event word built from its fields. -/
theorem of_event {i : Instr} {c e : Byte} {n : BitVec 11} {pay : Packet} (h : encode i = ⟨.bus, eventWord c e n, pay⟩)
    (hc : code i = c) (he : epa i = e) : Statement i := by
  obtain ⟨f1, f2, -, f4⟩ := eventWord_fields c e n
  simp only [Statement, h, hc, he]
  exact ⟨f1, f2, f4⟩

theorem init : Statement .init := of_command rfl rfl rfl

theorem connect : Statement .connect := of_command rfl rfl rfl

theorem disconnect : Statement .disconnect := of_command rfl rfl rfl

theorem write (e : Byte) (b : Bool) : Statement (.write e b) := of_command rfl rfl rfl

theorem read (e : Byte) (b : Bool) : Statement (.read e b) := of_command rfl rfl rfl

theorem abort (e : Byte) : Statement (.abort e) := of_command rfl rfl rfl

theorem abortAll : Statement .abortAll := of_command rfl rfl rfl

theorem isBusy (e : Byte) : Statement (.isBusy e) := of_command rfl rfl rfl

theorem remaining (e : Byte) : Statement (.remaining e) := of_command rfl rfl rfl

theorem poll : Statement .poll := of_command rfl rfl rfl

theorem evBusReset : Statement .evBusReset := of_event rfl rfl rfl

theorem evSuspend : Statement .evSuspend := of_event rfl rfl rfl

theorem evResume : Statement .evResume := of_event rfl rfl rfl

theorem evSof (f : BitVec 11) : Statement (.evSof f) := of_event rfl rfl rfl

theorem evSetup (pay : Packet) : Statement (.evSetup pay) := of_event rfl rfl rfl

theorem evSetupEnd : Statement .evSetupEnd := of_event rfl rfl rfl

theorem evOut (e : Byte) (pay : Packet) : Statement (.evOut e pay) := of_event rfl rfl rfl

theorem evInTaken (e : Byte) : Statement (.evInTaken e) := of_event rfl rfl rfl

theorem evSentStall (e : Byte) : Statement (.evSentStall e) := of_event rfl rfl rfl

end Sys2Proof.Laws.WordFields
end

