-- ==== Sys2Proof/Tests/Slice0.lean ====
section
/-! SUPPORT. The author's own tests: ill-formed terms that WellFormed refuses, the words of spec/30_encoding.md written
out, one step per instruction on small states with the outcomes of spec/95_test_vectors.md, and, for every statement with
hypotheses, a state and operands that meet them. -/

namespace Sys2Proof.Tests

open Sys2Proof Sys2Proof.Machine

/-! ### WellFormed -/

theorem test_wellFormed_setup_needs_8_bytes : (Instr.evSetup [1, 2, 3, 4, 5, 6, 7]).wellFormed = false := by decide
theorem test_wellFormed_out_needs_an_out_address : (Instr.evOut 0x82 []).wellFormed = false := by decide
theorem test_wellFormed_out_needs_an_11_bit_count : (Instr.evOut 0x02 (List.replicate 2048 0)).wellFormed = false := by
  show (!(0x02#8).msb && decide ((List.replicate 2048 (0#8)).length < 2048)) = false
  rw [List.length_replicate]
  decide
theorem test_wellFormed_inTaken_needs_an_in_address : (Instr.evInTaken 0x01).wellFormed = false := by decide
theorem test_ill_formed_word_does_not_decode :
    decode .bus (encode (.evInTaken 0x01)).word [] = .error .wrongDirection := by decide

/-! ### Decoding: one word per constructor, written out from spec/30_encoding.md R94, R95, R98, R99 -/

theorem test_decode_init : decode .cmd 0x01000000 [] = .ok .init := by decide
theorem test_decode_connect : decode .cmd 0x02000000 [] = .ok .connect := by decide
theorem test_decode_disconnect : decode .cmd 0x03000000 [] = .ok .disconnect := by decide
theorem test_decode_write : decode .cmd 0b00010000100000010000000100000000 [] = .ok (.write 0x81 true) := by decide
theorem test_decode_read : decode .cmd 0b00010001000000100000000000000000 [] = .ok (.read 0x02 false) := by decide
theorem test_decode_abort : decode .cmd 0x20810000 [] = .ok (.abort 0x81) := by decide
theorem test_decode_abortAll : decode .cmd 0x21000000 [] = .ok .abortAll := by decide
theorem test_decode_isBusy : decode .cmd 0x30810000 [] = .ok (.isBusy 0x81) := by decide
theorem test_decode_remaining : decode .cmd 0x31840000 [] = .ok (.remaining 0x84) := by decide
theorem test_decode_poll : decode .cmd 0x40000000 [] = .ok .poll := by decide
theorem test_decode_evBusReset : decode .bus 0x01000000 [] = .ok .evBusReset := by decide
theorem test_decode_evSuspend : decode .bus 0x02000000 [] = .ok .evSuspend := by decide
theorem test_decode_evResume : decode .bus 0x03000000 [] = .ok .evResume := by decide
theorem test_decode_evSof : decode .bus 0b00000100000000000000000100100011 [] = .ok (.evSof 0x123) := by decide
theorem test_decode_evSetup :
    decode .bus 0x10000008 [0, 5, 7, 0, 0, 0, 0, 0] = .ok (.evSetup [0, 5, 7, 0, 0, 0, 0, 0]) := by decide
theorem test_decode_evSetupEnd : decode .bus 0x11000000 [] = .ok .evSetupEnd := by decide
theorem test_decode_evOut : decode .bus 0b00010010000000100000000000000010 [9, 8] = .ok (.evOut 0x02 [9, 8]) := by decide
theorem test_decode_evInTaken : decode .bus 0b00010011100000010000000000000000 [] = .ok (.evInTaken 0x81) := by decide
theorem test_decode_evSentStall : decode .bus 0x14800000 [] = .ok (.evSentStall 0x80) := by decide

/-- V-ENC-2 to V-ENC-5 and V-ENC-9 to V-ENC-11, each rejected by name. -/
theorem test_decode_rejects :
    decode .cmd 0x10810001 [] = .error .reservedBits ∧ decode .cmd 0x20810100 [] = .error .cbNotUsed
    ∧ decode .cmd 0x01010000 [] = .error .epaNotUsed ∧ decode .cmd 0x50000000 [] = .error .unknownOpcode
    ∧ decode .bus 0x12820000 [] = .error .wrongDirection ∧ decode .bus 0x04000800 [] = .error .reservedBits
    ∧ decode .bus 0x10000007 [1, 2, 3, 4, 5, 6, 7] = .error .wrongCount
    ∧ decode .bus 0x10000008 [1, 2, 3, 4, 5, 6, 7] = .error .wrongPayload
    ∧ decode .bus 0x05000000 [] = .error .unknownEvent := by decide

/-- No two rows of a table match one word (R95): they differ in a bit that both masks cover. -/
theorem test_tables_do_not_overlap :
    commandTable.Pairwise (fun x y => x.1 &&& y.2 ≠ y.1 &&& x.2)
    ∧ eventTable.Pairwise (fun x y => x.1 &&& y.2 ≠ y.1 &&& x.2) := by decide

/-- The opcode table's words, on the port the model reads them on (log entries 6 and 7). -/
theorem test_table_words :
    decodeTableWord 32 0x10000000 = some (.write 0x00 false) ∧ decodeTableWord 32 0x01000000 = some .init
    ∧ decodeTableWord 32 0x04000000 = some (.evSof 0)
    ∧ decodeTableWord 32 0x10000008 = some (.evSetup [0, 0, 0, 0, 0, 0, 0, 0])
    ∧ decodeTableWord 48 0x0908_12020002 = some (.evOut 0x02 [8, 9])
    ∧ decodeTableWord 32 0x12800000 = none := by decide

/-! ### Small states -/

/-- The result of an instruction, if it answers a next state. -/
def after (i : Instr) (s : State) : Option State :=
  match exec i s with
  | .next t => some t
  | .fault _ | .refused _ => none

/-- The base configuration in Configured with every data endpoint active and Idle: S_cfg of spec/95_test_vectors.md. -/
def ready : State :=
  { State.reset with
    dev := ⟨.configured, .attached, 5, 1, 0, true⟩
    deps := State.reset.deps.map (fun d => { d with active := true }) }

/-- S_cfg with the endpoint at one place changed. -/
def readyWith (k : Nat) (f : DataEp → DataEp) : State := ready.modifyEp k f

/-- A record of a transfer in flight. -/
def running (st : EpState) (buf : Addr) (len rem : Half) (cb : Bool) : EpRec := ⟨st, buf, len, rem, cb, false, false⟩

/-- IN1 is Transmitting 10 bytes from 0x0200, as after V-BT-1. -/
def sending : State :=
  readyWith 0 (fun d => { d with ep := running .transmitting 0x0200 10 10 true, latch := true })

/-- OUT2 is Receiving 64 bytes at 0x0300. -/
def receiving : State := readyWith 1 (fun d => { d with ep := running .receiving 0x0300 64 64 true })

/-- An open OUT control transfer with `wLength = 16`, EP0 in a state. -/
def outStage (r : EpRec) : State := { ready with ctlOpen := true, setup := ⟨0x21, 9, 0, 2, 0, 0, 16, 0⟩, ep0 := r }

/-- An open IN control transfer with `wLength = 20`, EP0 in a state. -/
def inStage (r : EpRec) : State := { ready with ctlOpen := true, setup := ⟨0xC1, 1, 0, 0, 0, 0, 20, 0⟩, ep0 := r }

/-- A SETUP packet has arrived at a state. -/
def withSetup (p : Packet) (s : State) : State := { s with rx0 := some p, lat := { s.lat with ep0Setup := true } }

/-- The device is in a state of the device state machine, on the bus, unconfigured. -/
def onBus (d : DevState) : State := { State.reset with dev := ⟨d, .attached, 0, 0, 0, true⟩ }

/-! ### One step per instruction, at most two tests each -/

/-- spec/45_device_state.md R278, example. -/
theorem test_init :
    (after .init State.reset).map (fun t => (t.nq, t.result, t.acts))
      = some ([⟨.stateChange, 0, 0, 0, 0, 0⟩], 0, [.pullup false]) := by decide

/-- INIT drops a transfer in flight and keeps the histories (R278). -/
theorem test_init_keeps_histories :
    (after .init { sending with acts := [.dataEnd], faults := [.notifyOverflow] }).map
      (fun t => (t.deps.map (fun d => d.ep.state), t.acts, t.faults, t.nq))
      = some ([.idle, .idle, .idle, .idle], [.dataEnd, .pullup false], [.notifyOverflow],
        [⟨.stateChange, 0, 4, 0, 0, 0⟩]) := by decide

/-- spec/45_device_state.md R279, example: DEVSTATE bit 24. -/
theorem test_connect : (after .connect State.reset).map (fun t => regValue t 0x20) = some 0x01000000 := by decide

/-- spec/45_device_state.md R280, example. -/
theorem test_disconnect :
    (after .disconnect sending).map (fun t => (t.acts, t.nq, t.dev))
      = some ([.pullup false, .flush 0x81, .epEnable 0x81 false, .epEnable 0x02 false, .epEnable 0x83 false,
          .epEnable 0x84 false, .addrLoad 0],
        [⟨.stateChange, 0, 4, 0, 0, 0⟩], ⟨.attached, .attached, 0, 0, 0, false⟩) := by decide

/-- V-BT-1. -/
theorem test_write :
    (after (.write 0x81 true) { ready with argAddr := 0x0200, argLen := 10 }).map
      (fun t => (t.result, (t.deps[0]?).map (fun d => (d.ep, d.latch))))
      = some (0, some (⟨.transmitting, 0x0200, 10, 10, true, false, false⟩, true)) := by decide

/-- V-BT-2: Busy, and nothing else changes. -/
theorem test_write_busy :
    after (.write 0x81 false) { sending with argLen := 3 } = some { sending with argLen := 3, result := 0x03000000 } := by
  decide

/-- spec/40_endpoint_table.md R123, example. -/
theorem test_read :
    (after (.read 0x02 false) { ready with argAddr := 0x0300, argLen := 64 }).map
      (fun t => (t.result, (t.deps[1]?).map (fun d => (d.ep, d.latch))))
      = some (0, some (⟨.receiving, 0x0300, 64, 64, false, false, false⟩, false)) := by decide

/-- V-ENC-8: EP0 named with the wrong direction. -/
theorem test_read_wrong_direction :
    after (.read 0x80 false) (outStage EpRec.reset) = some { outStage EpRec.reset with result := 0x01000000 } := by decide

/-- spec/40_endpoint_table.md R131, example. -/
theorem test_abort :
    (after (.abort 0x81)
      (readyWith 0 (fun d => { d with ep := running .transmitting 0x0240 69 5 true, pkt := some [1], latch := true })))
      = some { ready with
          acts := [.flush 0x81]
          deps := ready.deps.modify 0 (fun d => { d with ep := running .idle 0x0240 69 0 false }) } := by decide

/-- V-AB-5: a SETUP not yet serviced is kept. -/
theorem test_abort_keeps_setup :
    (after (.abort 0x80) (withSetup [0, 5, 9, 0, 0, 0, 0, 0] (inStage (running .transmitting 0x1008 18 10 false)))).map
      (fun t => (t.ep0.state, t.rx0, t.ctlOpen)) = some (.idle, some [0, 5, 9, 0, 0, 0, 0, 0], true) := by decide

/-- spec/40_endpoint_table.md R133: a busy endpoint is aborted, in `EPS` order; EP0 is not touched. -/
theorem test_abortAll :
    (after .abortAll
      { sending with
        ep0 := running .receiving 0x400 8 8 false
        deps := sending.deps.modify 2 (fun d => { d with ep := running .transmitting 0x700 10 10 false }) }).map
      (fun t => (t.acts, t.deps.map (fun d => (d.ep.state, d.ep.rem)), t.ep0.state))
      = some ([.flush 0x81, .flush 0x83], [(.idle, 0), (.idle, 0), (.idle, 0), (.idle, 0)], .receiving) := by decide

/-- V-AB-6 and V-AB-7. -/
theorem test_isBusy :
    (after (.isBusy 0x81) ready).map State.result = some 0
    ∧ (after (.isBusy 0x81) sending).map State.result = some 1 := by decide

/-- V-AB-10 and V-AB-3. -/
theorem test_remaining :
    (after (.remaining 0x84) (readyWith 3 (fun d => { d with ep := running .transmitting 0x508 20 12 false }))).map
        State.result = some 0x0000000C
    ∧ (after (.remaining 0x85) ready).map State.result = some 0x01000000 := by decide

/-- V-REQ-1: SET_ADDRESS 5 in Default. -/
theorem test_poll_setAddress :
    (after .poll (withSetup [0, 5, 5, 0, 0, 0, 0, 0] (onBus .default))).map (fun t => (t.dev, t.acts, t.nq, t.ctlOpen))
      = some (⟨.addressed, .attached, 5, 0, 0, true⟩, [.rxRelease 0, .addrLoad 5, .dataEnd],
        [⟨.stateChange, 0, 1, 2, 0, 0⟩], false) := by decide

/-- V-REQ-7: the serial number, clamped to 6 bytes. -/
theorem test_poll_serial :
    (after .poll (withSetup [0x80, 6, 3, 3, 9, 4, 6, 0] (onBus .default))).map
      (fun t => (t.acts, memReadBytes t 0x1300 18))
      = some ([.rxRelease 0, .commit 0x80 [0x12, 0x03, 0x33, 0x00, 0x63, 0x00], .dataEnd],
        [0x12, 0x03, 0x33, 0x00, 0x63, 0x00, 0x61, 0x00, 0x62, 0x00, 0x30, 0x00, 0x35, 0x00, 0x66, 0x00, 0x30,
          0x00]) := by decide

/-- V-DEV-3, the event. -/
theorem test_evBusReset :
    (after .evBusReset { sending with lat := { Latches.none with sof := true, suspend := true } }).map
      (fun t => (t.lat, t.dev.addr, t.deps.map (fun d => (d.active, d.latch))))
      = some ({ Latches.none with sof := true, reset := true }, 0,
        [(false, false), (false, false), (false, false), (false, false)]) := by decide

/-- spec/46_events_and_service.md R303: not while a resume is pending. -/
theorem test_evSuspend :
    (after .evSuspend ready).map (fun t => t.lat.suspend) = some true
    ∧ after .evSuspend { ready with lat := { Latches.none with resume := true } } = none := by decide

/-- spec/46_events_and_service.md R304: only when suspended or about to be. -/
theorem test_evResume :
    (after .evResume (onBus .suspended)).map (fun t => t.lat.resume) = some true ∧ after .evResume ready = none := by
  decide

/-- spec/46_events_and_service.md R305; while suspended there is no SOF (R300). -/
theorem test_evSof :
    (after (.evSof 0x123) ready).map (fun t => (t.sofFrame, t.lat.sof)) = some (0x123, true)
    ∧ after (.evSof 0x123) (onBus .suspended) = none := by decide

/-- V-EP0-8, the event. -/
theorem test_evSetup :
    (after (.evSetup [0, 5, 9, 0, 0, 0, 0, 0])
      { inStage (running .transmitting 0x1008 18 10 false) with tx0 := some [1, 2], ep0Stall := true }).map
      (fun t => (t.lat, t.tx0, t.rx0, t.ep0Stall))
      = some ({ Latches.none with ep0SetupEnd := true, ep0Setup := true }, none, some [0, 5, 9, 0, 0, 0, 0, 0],
        false) := by decide

/-- V-EP0-10, the event; it needs an open control transfer (R307). -/
theorem test_evSetupEnd :
    (after .evSetupEnd (outStage (running .receiving 0x410 16 0 true))).map (fun t => t.lat)
      = some { Latches.none with ep0SetupEnd := true } ∧ after .evSetupEnd ready = none := by decide

/-- V-DATA-8, the first event, and V-DATA-12: no step for an inactive endpoint or a packet longer than `mps`. -/
theorem test_evOut :
    (after (.evOut 0x02 [7, 8]) ready).map (fun t => (t.deps[1]?).map (fun d => (d.pkt, d.latch)))
      = some (some (some [7, 8], true))
    ∧ after (.evOut 0x02 [7]) (onBus .addressed) = none
    ∧ after (.evOut 0x02 (List.replicate 65 0)) ready = none := by decide

/-- V-DATA-1, the event; and no step when nothing is committed. -/
theorem test_evInTaken :
    (after (.evInTaken 0x81) (readyWith 0 (fun d => { d with pkt := some [1, 2, 3] }))).map
      (fun t => (t.hostIn, (t.deps[0]?).map (fun d => (d.pkt, d.latch))))
      = some ([(0x81, [1, 2, 3])], some (none, true))
    ∧ after (.evInTaken 0x81) ready = none := by decide

/-- V-EP0-7 step 2 and V-ENC-13: both addresses of EP0; and not without a stall. -/
theorem test_evSentStall :
    (after (.evSentStall 0x80) { ready with ep0Stall := true }).map (fun t => t.lat.ep0SentStall) = some true
    ∧ after (.evSentStall 0x00) ready = none := by decide

/-! ### The register window and the schedule -/

/-- V-REG-8. -/
theorem test_devState_word : regValue ready 0x20 = 0x01010504 := by decide

/-- V-REG-3: ARG_ADDR keeps `ADDR_W` bits. -/
theorem test_argAddr : (regStore 0x04 0xFFFF1234 ready).argAddr = 0x1234 := by decide

/-- V-REG-10. -/
theorem test_notify_words :
    (fun s : State => (regValue s 0x14, regValue s 0x18, regValue s 0x10))
      { ready with nq := [⟨.stateChange, 0, 1, 2, 0, 0⟩] } = (0x03000102, 0, 0x00000101) := by decide

/-- V-REG-6: a byte store to CMD records a fault and runs nothing. -/
theorem test_bad_access :
    step { ready with inputs := [.regWrite 0 8 0x01000000] }
      = .next { ready with faults := [.badRegisterAccess] } := rfl

/-- V-DATA-11: a load of an owned byte after the wrap of a buffer. -/
theorem test_owned_wraps :
    owned (readyWith 0 (fun d => { d with ep := running .transmitting 0x0004 8 0 false })) 0x0001 = true
    ∧ owned (readyWith 0 (fun d => { d with ep := running .transmitting 0x0004 8 0 false })) 0x0004 = false := by decide

/-- A word placed for the next step is run by it, from reset (log entry 5); and nothing placed is no step. -/
theorem test_withFetchWord :
    step (State.reset.withFetchWord 32 0x02000000) = exec .connect State.reset
    ∧ step (State.reset.withFetchWord 32 0x04000000) = exec (.evSof 0) State.reset
    ∧ step State.reset = .fault .noAgentEnabled := ⟨rfl, rfl, rfl⟩

/-- spec/70_reset_and_hazards.md R384: CPU accesses to come leave a run quiescent; a latch or a bus event to come does
not. -/
theorem test_quiescent :
    Quiescent { ready with inputs := [.regRead 0x0C 32, .regWrite 0x1C 32 0, .memRead 7, .memWrite 7 1] }
    ∧ ¬Quiescent { ready with inputs := [.regRead 0x0C 32, .event 0x04000000 []] }
    ∧ ¬Quiescent { ready with lat := { Latches.none with sof := true } } := by
  unfold Quiescent
  decide

/-- Log entry 15: EV_SETUPEND empties `rxbuf[0]` under `pp`, so spec/10_state.md R44.8 has a second exception. -/
theorem test_setupEnd_empties_a_held_packet :
    (after .evSetupEnd { outStage { EpRec.reset with pp := true } with rx0 := some [1] }).map
      (fun t => (t.ep0.pp, t.rx0, t.lat.reset)) = some (true, none, false) := by decide

/-! ### Witnesses: a state and operands that meet the hypotheses of each statement, clause by clause -/

/-- S_cfg with every data endpoint latch clear and the other latches as given. -/
def pending (l : Latches) (s : State) : State := { s with lat := l }

/-- A table of which only the endpoint at place `k` has its packet latch set. -/
theorem onlyDataLatch_of {k : Nat} {s : State}
    (h : decide (s.lat = Latches.none) && !s.cfg.hookIsr && s.deps.all (fun d => !d.stall)
      && s.deps.zipIdx.all (fun p => p.1.latch == (p.2 == k)) = true) : OnlyDataLatch k s := by
  simp only [Bool.and_eq_true, decide_eq_true_eq, List.all_eq_true, Bool.not_eq_true'] at h
  obtain ⟨⟨⟨h1, h2⟩, h3⟩, h4⟩ := h
  refine ⟨h1, h2, h3, fun j d hj => ?_⟩
  have := h4 (d, j) (List.mem_zipIdx_iff_getElem?.2 hj)
  simp only [beq_iff_eq] at this
  simp [this]

theorem legal_base : Config.base.legal = true := by decide

theorem ready_table : TableShape ready := by unfold TableShape; decide

theorem witness_DecodeOfEncodeGivesInstruction :
    (Instr.evOut 0x02 [1, 2]).wellFormed = true ∧ (Instr.evSetup [0, 1, 2, 3, 4, 5, 6, 7]).wellFormed = true
    ∧ (Instr.evInTaken 0xFF).wellFormed = true ∧ (Instr.evSof 0x7FF).wellFormed = true
    ∧ (Instr.write 0xFF true).wellFormed = true := by decide

theorem witness_EncodeOfDecodeGivesWord :
    decode .cmd 0x10FF0100 [] = .ok (.write 0xFF true) ∧ decode .bus 0x040007FF [] = .ok (.evSof 0x7FF) := by decide

theorem witness_StepRunsTheDecodedInstruction :
    (∃ (s : State) (rest : List Stimulus) (w : Word) (i : Instr), s.inputs = .regWrite s.cfg.usbBase 32 w :: rest ∧ decode .cmd w [] = .ok i)
    ∧ (∃ (s : State) (rest : List Stimulus) (w : Word) (pay : List Byte) (i : Instr), s.inputs = .event w pay :: rest ∧ decode .bus w pay = .ok i)
    ∧ decodeTableWord 32 0x21000000 = some .abortAll :=
  ⟨⟨{ ready with inputs := [.regWrite 0 32 0x40000000] }, [], 0x40000000, .poll, rfl, by decide⟩,
    ⟨{ ready with inputs := [.event 0x04000001 []] }, [], 0x04000001, [], .evSof 1, rfl, by decide⟩, by decide⟩

theorem witness_MalformedWordOnlyWritesIllegal :
    (∃ (s : State) (rest : List Stimulus) (w : Word) (e : DecodeError), s.inputs = .regWrite s.cfg.usbBase 32 w :: rest ∧ decode .cmd w [] = .error e)
    ∧ lookup ready 0x85 = none ∧ lookup ready 0x90 = none
    ∧ ∃ (s : State) (rest : List Stimulus) (w : Word) (pay : List Byte) (e : DecodeError), s.inputs = .event w pay :: rest ∧ decode .bus w pay = .error e :=
  ⟨⟨{ ready with inputs := [.regWrite 0 32 0x10810001] }, [], 0x10810001, .reservedBits, rfl, by decide⟩,
    by decide, by decide,
    ⟨{ ready with inputs := [.event 0x04000800 []] }, [], 0x04000800, [], .reservedBits, rfl, by decide⟩⟩

theorem witness_SequencerStepsExactlyWhenEnabled :
    (sending.inputs = [] ∧ sending.cfg.mode = .interrupt ∧ latchPending sending = true)
    ∧ (ready.inputs = [] ∧ latchPending ready = false)
    ∧ ∃ s : State, s.inputs = [.service] ∧ s.cfg.mode = .polled :=
  ⟨by decide, by decide, { ready with inputs := [.service], cfg := { Config.base with mode := .polled } }, rfl, rfl⟩

theorem witness_InitGivesTheResetState : 0 < ready.cfg.nqDepth ∧ ∃ s : State, s.cfg.nqDepth = 1 ∧ 0 < s.cfg.nqDepth :=
  ⟨by decide, { ready with cfg := { Config.base with nqDepth := 1 } }, rfl, by decide⟩

theorem witness_DisconnectLeavesTheBus :
    ∃ t, t = setState .attached { ready with dev := { ready.dev with pullup := false }
                                             acts := ready.acts ++ [.pullup false] } := ⟨_, rfl⟩

theorem witness_LookupNamesTheTable : ready.cfg.legal = true ∧ TableShape ready := ⟨by decide, ready_table⟩

theorem witness_TransferArmsAnIdleDataEndpoint :
    (∃ k d, lookup ready 0x84 = some (.data k d) ∧ d.ep.state = .idle ∧ ready.dev.state = .configured
      ∧ (0x84 : Byte).msb = true)
    ∧ ∃ k d, lookup ready 0x02 = some (.data k d) ∧ d.ep.state = .idle ∧ (0x02 : Byte).msb = false :=
  ⟨⟨3, _, rfl, rfl, rfl, rfl⟩, ⟨1, _, rfl, rfl, rfl⟩⟩

theorem witness_EndpointZeroAcceptsOnlyItsDataStage :
    ((inStage EpRec.reset).ep0.state = .idle ∧ (inStage EpRec.reset).ctlOpen = true
      ∧ (inStage EpRec.reset).setup.wLength ≠ 0 ∧ (inStage EpRec.reset).setup.dir = .in)
    ∧ ((outStage EpRec.reset).ep0.state = .idle ∧ (outStage EpRec.reset).ctlOpen = true
      ∧ (outStage EpRec.reset).setup.wLength ≠ 0 ∧ (outStage EpRec.reset).setup.dir = .out)
    ∧ (ready.ep0.state = .idle ∧ ready.ctlOpen = false ∧ ready.setup.wLength = 0) := by decide

theorem witness_RefusedTransferChangesOnlyResult :
    lookup ready 0x02 = some (.data 1 ((ready.deps[1]?).getD (DataEp.reset default))) ∧ (0x02 : Byte).msb = false
    ∧ lookup sending 0x81 = some (.data 0 ((sending.deps[0]?).getD (DataEp.reset default)))
    ∧ ((sending.deps[0]?).map (fun d => d.ep.state)) = some .transmitting
    ∧ lookup (onBus .addressed) 0x81 = some (.data 0 (DataEp.reset ⟨1, .in, 64, .interrupt⟩))
    ∧ (onBus .addressed).dev.state ≠ .configured
    ∧ ∃ s : State, lookup s 0x80 = some .ep0 ∧ (EpRef.ep0.rec0 s).state = .stalled :=
  ⟨by decide, by decide, by decide, by decide, by decide, by decide,
    { ready with ep0 := EpRec.reset.stall }, by decide, by decide⟩

theorem witness_AbortReturnsTheEndpointToIdle :
    (lookup ready 0x00 = some .ep0 ∧ ready.ep0.state = .idle)
    ∧ (∃ s : State, lookup s 0x80 = some .ep0 ∧ s.ep0.state ≠ .idle ∧ s.lat.ep0Setup = true)
    ∧ (∃ s : State, lookup s 0x80 = some .ep0 ∧ s.ep0.state ≠ .idle ∧ s.lat.ep0Setup = false)
    ∧ ∃ k d, lookup receiving 0x02 = some (.data k d) ∧ d.ep.state ≠ .idle :=
  ⟨by decide,
    ⟨withSetup [0, 5, 9, 0, 0, 0, 0, 0] (inStage (running .transmitting 0x1008 18 10 false)), by decide, by decide, rfl⟩,
    ⟨inStage (running .transmitting 0x1008 18 10 false), by decide, by decide, rfl⟩, 1, _, rfl, by decide⟩

theorem witness_QueriesOnlyReadTheEndpoint :
    (∃ e, lookup sending 0x81 = some e ∧ (e.rec0 sending).state ≠ .idle)
    ∧ ∃ e, lookup ready 0x81 = some e ∧ (e.rec0 ready).state = .idle :=
  ⟨⟨_, rfl, by decide⟩, ⟨_, rfl, by decide⟩⟩

theorem witness_PollRunsOneInvocation :
    (latchPending ready = false ∧ ready.cfg.hookIsr = false)
    ∧ (∃ s : State, latchPending s = false ∧ s.cfg.hookIsr = true)
    ∧ ∃ s : State, latchPending s = true ∧ s.cfg.hookIsr = true :=
  ⟨by decide, ⟨{ ready with cfg := { Config.base with hookIsr := true } }, by decide, rfl⟩,
    pending { Latches.none with reset := true } { ready with cfg := { Config.base with hookIsr := true } }, by decide, rfl⟩

theorem witness_BusResetFlushesTheBuffers : sending.dev.pullup = true ∧ State.reset.dev.pullup = false := by decide

theorem witness_BusSignalsAreLatched :
    (ready.dev.pullup = true ∧ ready.lat.resume = false) ∧ State.reset.dev.pullup = false
    ∧ (pending { Latches.none with resume := true } ready).lat.resume = true
    ∧ ((onBus .suspended).dev.pullup = true ∧ (onBus .suspended).dev.state = .suspended)
    ∧ ((pending { Latches.none with suspend := true } ready).dev.pullup = true
      ∧ (pending { Latches.none with suspend := true } ready).lat.suspend = true)
    ∧ (ready.dev.state ≠ .suspended ∧ ready.lat.suspend = false)
    ∧ busLive ready = true ∧ busLive (onBus .suspended) = false := by decide

theorem witness_SetupReplacesThePacket :
    (ready.dev.pullup = true ∧ ready.lat.suspend = false ∧ ready.dev.state = .configured)
    ∧ ((pending { Latches.none with reset := true } (onBus .attached)).dev.pullup = true
      ∧ (pending { Latches.none with reset := true } (onBus .attached)).lat.reset = true)
    ∧ State.reset.dev.pullup = false
    ∧ ((onBus .attached).lat.reset = false ∧ (onBus .attached).dev.state = .attached) := by decide

theorem witness_SetupEndFlushesEndpointZero :
    (busLive (outStage EpRec.reset) = true ∧ (outStage EpRec.reset).lat.reset = false
      ∧ (outStage EpRec.reset).ctlOpen = true ∧ (outStage EpRec.reset).lat.ep0Setup = false)
    ∧ busLive State.reset = false ∧ ready.ctlOpen = false := by decide

theorem witness_OutPacketFillsTheFreeBuffer :
    ((0x00 : Byte).msb = false ∧ lookup (outStage EpRec.reset) 0x00 = some .ep0 ∧ busLive (outStage EpRec.reset) = true
      ∧ (outStage EpRec.reset).rx0 = none ∧ (outStage EpRec.reset).lat.reset = false
      ∧ (outStage EpRec.reset).ctlOpen = true ∧ (outStage EpRec.reset).setup.dir = .out
      ∧ (outStage EpRec.reset).ep0Stall = false ∧ (outStage EpRec.reset).lat.ep0Setup = false
      ∧ (List.replicate 64 (0 : Byte)).length ≤ (outStage EpRec.reset).cfg.mps0)
    ∧ ∃ k d, lookup ready 0x02 = some (.data k d) ∧ busLive ready = true ∧ d.pkt = none ∧ d.active = true
        ∧ (List.replicate 64 (0 : Byte)).length ≤ d.desc.mps :=
  ⟨by decide, 1, _, rfl, by decide, rfl, rfl, by decide⟩

theorem witness_HostTakesTheCommittedPacket :
    (∃ s : State, (0x80 : Byte).msb = true ∧ lookup s 0x80 = some .ep0 ∧ busLive s = true ∧ s.tx0 = some []
      ∧ s.ep0Stall = false)
    ∧ ∃ (s : State) (k : Nat) (d : DataEp), lookup s 0x81 = some (.data k d) ∧ busLive s = true ∧ d.pkt = some [1] ∧ d.active = true :=
  ⟨⟨{ ready with tx0 := some [] }, by decide, by decide, by decide, rfl, rfl⟩,
    ⟨readyWith 0 (fun d => { d with pkt := some [1] }), 0, _, rfl, by decide, rfl, rfl⟩⟩

theorem witness_SentStallIsLatched :
    (∃ s : State, s.lat = Latches.none ∧ s.cfg.hookIsr = false ∧ (∀ d ∈ s.deps, d.latch = false)
      ∧ ∃ d ∈ s.deps, d.stall = true)
    ∧ (∃ s : State, lookup s 0x80 = some .ep0 ∧ busLive s = true ∧ s.ep0Stall = true)
    ∧ ∃ k d, lookup ready 0x81 = some (.data k d) ∧ busLive ready = true ∧ d.active = true
        ∧ d.desc.type ≠ .isochronous :=
  ⟨⟨readyWith 0 (fun d => { d with stall := true }), rfl, rfl, by decide, by decide⟩,
    ⟨{ ready with ep0Stall := true }, by decide, by decide, rfl⟩, ⟨0, _, rfl, by decide, rfl, by decide⟩⟩

theorem witness_SetStateFollowsTheContract :
    ((true = true ↔ ready.dev.state = .suspended ∨ ready.dev.state = .configured)
      ∧ (true = true ↔ DevState.default = .attached ∨ DevState.default = .default ∨ DevState.default = .addressed))
    ∧ ((false = true ↔ (onBus .default).dev.state = .suspended ∨ (onBus .default).dev.state = .configured)
      ∧ (false = true ↔ DevState.suspended = .attached ∨ DevState.suspended = .default
          ∨ DevState.suspended = .addressed)) := by decide

theorem witness_PollServesTheBusSignals :
    OnlyLatches { Latches.none with reset := true } (pending { Latches.none with reset := true } ready)
    ∧ OnlyLatches { Latches.none with suspend := true } (pending { Latches.none with suspend := true } ready)
    ∧ OnlyLatches { Latches.none with resume := true } (pending { Latches.none with resume := true } (onBus .suspended))
    ∧ OnlyLatches { Latches.none with reset := true, suspend := true }
        (pending { Latches.none with reset := true, suspend := true } ready)
    ∧ OnlyLatches { Latches.none with suspend := true, resume := true }
        (pending { Latches.none with suspend := true, resume := true } ready)
    ∧ ready.dev.state ≠ .suspended ∧ ready.cfg.hookIsr = false := by
  unfold OnlyLatches; decide

/-- V-DEV-5: a reset and a suspend pending together end Suspended, saved Default. -/
theorem test_reset_then_suspend :
    (after .poll (pending { Latches.none with reset := true, suspend := true } ready)).map
      (fun t => (t.dev.state, t.dev.saved, t.nq))
      = some (.suspended, .default, [⟨.stateChange, 0, 4, 1, 0, 0⟩, ⟨.stateChange, 0, 1, 3, 0, 0⟩]) := by decide

/-- V-EP0-8, the service: SetupEnd first, then the new SETUP is dispatched. -/
theorem test_setupEnd_then_setup :
    (after .poll { withSetup [0, 5, 9, 0, 0, 0, 0, 0] (onBus .default) with
      ep0 := running .transmitting 0x1008 18 10 false, ctlOpen := true
      lat := { Latches.none with ep0SetupEnd := true, ep0Setup := true } }).map
      (fun t => (t.dev.state, t.acts, t.nq))
      = some (.addressed, [.rxRelease 0, .addrLoad 9, .dataEnd], [⟨.stateChange, 0, 1, 2, 0, 0⟩]) := by decide

theorem witness_SuspendThenResumeKeepsTransfers :
    ∃ s : State, OnlyLatches Latches.none s ∧ s.dev.pullup = true ∧ s.dev.state = .configured
      ∧ s.nq.length + 2 ≤ s.cfg.nqDepth ∧ ∃ d ∈ s.deps, d.ep.state = .receiving := by
  refine ⟨receiving, ?_, rfl, rfl, by decide, by decide⟩
  unfold OnlyLatches; decide

theorem witness_PollServesStallAndSetupEndFirst :
    OnlyLatches { Latches.none with ep0SentStall := true, ep0SetupEnd := false, ep0Out := true, ep0In := true }
      (pending { Latches.none with ep0SentStall := true, ep0Out := true, ep0In := true } ready)
    ∧ ∀ l ∈ [{ Latches.none with ep0SetupEnd := true, ep0Setup := true, sof := true },
        { Latches.none with ep0Setup := true, ep0Out := true }, { Latches.none with ep0Out := true, ep0In := true },
        { Latches.none with ep0In := true }],
      (pending l ready).cfg.hookIsr = false ∧ l.reset = false ∧ l.suspend = false ∧ l.resume = false
      ∧ l.ep0SentStall = false := by
  unfold OnlyLatches; decide

/-- A SETUP of 8 bytes has arrived, and nothing else is pending. -/
theorem setupArrived_of (p : Setup) (s : State) (h : s.lat = Latches.none ∧ s.cfg.hookIsr = false
    ∧ (∀ d ∈ s.deps, d.latch = false ∧ d.stall = false) ∧ s.tx0 = none ∧ s.tx0stage = []) :
    SetupArrived p (withSetup [p.b0, p.b1, p.b2, p.b3, p.b4, p.b5, p.b6, p.b7] s) := by
  obtain ⟨h1, h2, h3, h4, h5⟩ := h
  exact ⟨⟨by simp [withSetup, h1], h2, h3⟩, rfl, h4, h5⟩

/-- Each device state of the requests below is reached with a SETUP and nothing else pending. -/
theorem setupArrived_states (p : Setup) (d : DevState) :
    SetupArrived p (withSetup [p.b0, p.b1, p.b2, p.b3, p.b4, p.b5, p.b6, p.b7] (onBus d)) :=
  setupArrived_of p (onBus d) (by cases d <;> decide)

theorem witness_PollStallsRejectedRequests :
    (∃ (s : State) (p : Setup), s.cfg.hook = false ∧ SetupArrived p s ∧ p.type = 0 ∧ p.request = 5
      ∧ p.wValue.toNat = 128)
    ∧ ∃ (s : State) (p : Setup), s.cfg.hook = false ∧ SetupArrived p s ∧ p.type = 0 ∧ p.request = 6 ∧ p.dir = .in
      ∧ p.recipient = 0 ∧ p.wValue = 0x0302 ∧ ProductDraw none [] 0 s ∧ ∀ e ∈ s.cfg.str, e.1 ≠ 2 :=
  ⟨⟨_, ⟨0, 5, 0x80, 0, 0, 0, 0, 0⟩, rfl, setupArrived_states _ .default, by decide, rfl, by decide⟩,
    _, ⟨0x80, 6, 2, 3, 0, 0, 8, 0⟩, rfl,
    setupArrived_of _ { onBus .default with productIn := [none], cfg := { Config.base with str := [(0, ⟨0, 4⟩)] } }
      (by decide),
    by decide, rfl, by decide, by decide, by decide, .inl ⟨rfl, rfl⟩, by decide⟩

theorem witness_PollServesSetAddress :
    ∃ (s : State) (p : Setup), s.cfg.hook = false ∧ SetupArrived p s ∧ p.type = 0 ∧ p.request = 5
      ∧ p.wValue.toNat = 127 ∧ p.wLength = 0 ∧ p.recipient = 0 ∧ p.wIndex = 0 ∧ s.dev.state = .default :=
  ⟨_, ⟨0, 5, 0x7F, 0, 0, 0, 0, 0⟩, rfl, setupArrived_states _ .default, by decide, rfl, by decide, by decide, by decide,
    by decide, rfl⟩

theorem witness_PollServesSetConfiguration :
    (∃ (s : State) (p : Setup), s.cfg.hook = false ∧ SetupArrived p s ∧ p.type = 0 ∧ p.request = 9 ∧ p.wLength = 0
      ∧ p.recipient = 0 ∧ p.wIndex = 0 ∧ s.dev.state = .addressed ∧ p.wValue = 1)
    ∧ (∃ (s : State) (p : Setup), s.cfg.hook = false ∧ SetupArrived p s ∧ s.dev.state = .configured ∧ p.wValue = 0)
    ∧ ∃ (s : State) (p : Setup), s.cfg.hook = false ∧ SetupArrived p s ∧ s.dev.state = .configured ∧ p.wValue = 1 :=
  ⟨⟨_, ⟨0, 9, 1, 0, 0, 0, 0, 0⟩, rfl, setupArrived_states _ .addressed, by decide, rfl, by decide, by decide, by decide,
      rfl, by decide⟩,
    ⟨_, ⟨0, 9, 0, 0, 0, 0, 0, 0⟩, rfl, setupArrived_of _ receiving (by decide), rfl, by decide⟩,
    ⟨_, ⟨0, 9, 1, 0, 0, 0, 0, 0⟩, rfl, setupArrived_of _ receiving (by decide), rfl, by decide⟩⟩

theorem witness_PollAnswersGetDescriptor :
    (∃ (s : State) (p : Setup), s.cfg.legal = true ∧ s.cfg.hook = false ∧ SetupArrived p s ∧ p.type = 0 ∧ p.request = 6
      ∧ p.dir = .in ∧ p.recipient = 0 ∧ p.wValue = 0x0100 ∧ min s.cfg.devDesc.len.toNat p.wLength.toNat < s.cfg.mps0)
    ∧ (∃ (s : State) (p : Setup), s.cfg.legal = true ∧ s.cfg.hook = false ∧ SetupArrived p s ∧ p.dir = .in
      ∧ p.wValue = 0x0200 ∧ s.cfg.mps0 < min s.cfg.cfgDesc.len.toNat p.wLength.toNat)
    ∧ (∃ (s : State) (p : Setup), s.cfg.hook = false ∧ SetupArrived p s ∧ p.b3 = 3 ∧ p.b2 = 1
      ∧ strEntry s.cfg p.b2 = some ⟨0x1210, 10⟩ ∧ p.wLength = 0)
    ∧ (∃ (s : State) (p : Setup), s.cfg.hook = false ∧ SetupArrived p s ∧ p.wValue = 0x0302
      ∧ ProductDraw none [] 0 s ∧ strEntry s.cfg 2 = some ⟨0x1220, 12⟩)
    ∧ ∃ (s : State) (p : Setup) (a : Option DescLoc) (src : DescLoc), SetupArrived p s ∧ p.wValue = 0x0302
      ∧ s.productIn = [] ∧ ProductDraw a [] 1 s ∧ (a = some src ∨ (a = none ∧ strEntry s.cfg 2 = some src)) :=
  ⟨⟨_, ⟨0x80, 6, 0, 1, 0, 0, 0x40, 0⟩, by decide, rfl, setupArrived_states _ .default, by decide, rfl, by decide,
      by decide, by decide, by decide⟩,
    ⟨_, ⟨0x80, 6, 0, 2, 0, 0, 0xFF, 0⟩, by decide, rfl,
      setupArrived_of _ { onBus .default with cfg := { Config.base with mps0 := 8 } } (by decide), by decide, by decide,
      by decide⟩,
    ⟨_, ⟨0x80, 6, 1, 3, 0, 0, 0, 0⟩, rfl, setupArrived_states _ .default, rfl, rfl, by decide, by decide⟩,
    ⟨_, ⟨0x80, 6, 2, 3, 0, 0, 0xFF, 0⟩, rfl, setupArrived_of _ { onBus .default with productIn := [none] } (by decide),
      by decide, .inl ⟨rfl, rfl⟩, by decide⟩,
    ⟨_, ⟨0x80, 6, 2, 3, 0, 0, 0xFF, 0⟩, Config.productDraw 0, (Config.productDraw 0).getD ⟨0x1220, 12⟩,
      setupArrived_states _ .default, by decide, rfl, .inr ⟨rfl, rfl, rfl, rfl⟩, by
        cases Config.productDraw 0 with
        | none => exact .inr ⟨rfl, rfl⟩
        | some l => exact .inl rfl⟩⟩

theorem witness_PollSynthesizesTheSerialNumber :
    (∃ (s : State) (p : Setup), s.cfg.legal = true ∧ s.cfg.hook = false ∧ Memory.wf s.mem ∧ SetupArrived p s
      ∧ p.type = 0 ∧ p.request = 6 ∧ p.dir = .in ∧ p.recipient = 0 ∧ p.wValue = 0x0303 ∧ p.wLength ≠ 0
      ∧ min (min (4 * s.cfg.uid.length + 2) p.wLength.toNat) s.cfg.mps0 < s.cfg.mps0)
    ∧ (∃ (s : State) (p : Setup), s.cfg.legal = true ∧ s.cfg.hook = false ∧ Memory.wf s.mem ∧ SetupArrived p s
      ∧ p.type = 0 ∧ p.request = 6 ∧ p.dir = .in ∧ p.recipient = 0 ∧ p.wValue = 0x0303 ∧ p.wLength ≠ 0
      ∧ min (min (4 * s.cfg.uid.length + 2) p.wLength.toNat) s.cfg.mps0 = s.cfg.mps0)
    ∧ ∃ (s : State) (p : Setup), s.cfg.legal = true ∧ s.cfg.hook = false ∧ Memory.wf s.mem ∧ SetupArrived p s
      ∧ p.type = 0 ∧ p.request = 6 ∧ p.dir = .in ∧ p.recipient = 0 ∧ p.wValue = 0x0303 ∧ p.wLength = 0 :=
  ⟨⟨_, ⟨0x80, 6, 3, 3, 9, 4, 6, 0⟩, by decide, rfl, by decide, setupArrived_states _ .default, by decide, rfl, by decide,
      by decide, by decide, by decide, by decide⟩,
    ⟨_, ⟨0x80, 6, 3, 3, 9, 4, 0xFF, 0⟩, by decide, rfl, by decide,
      setupArrived_of _ { onBus .default with cfg := { Config.base with mps0 := 8 } } (by decide), by decide, rfl,
      by decide, by decide, by decide, by decide, by decide⟩,
    _, ⟨0x80, 6, 3, 3, 9, 4, 0, 0⟩, by decide, rfl, by decide, setupArrived_states _ .default, by decide, rfl, by decide,
    by decide, by decide, by decide⟩

/-- The base configuration with the override hook, and one answer drawn. -/
def hooked (a : HookAnswer) : State := { onBus .default with cfg := { Config.base with hook := true }, hookIn := [a] }

theorem witness_HookIsConsultedFirst (a : HookAnswer) :
    (hooked a).cfg.hook = true ∧ HookDraw a [] 0 (hooked a)
    ∧ HookDraw (Config.hookDraw 0) [] 1 { hooked a with hookIn := [] }
    ∧ (∃ p : Setup, p.wLength = 0 ∧ ∃ s, s.cfg.hook = true ∧ HookDraw a [] 0 s ∧ SetupArrived p s)
    ∧ (∃ p : Setup, p.wLength ≠ 0 ∧ p.dir = .in ∧ ∃ s, s.cfg.hook = true ∧ HookDraw a [] 0 s ∧ SetupArrived p s)
    ∧ ∃ p : Setup, p.wLength ≠ 0 ∧ p.dir = .out ∧ ∃ s, s.cfg.hook = true ∧ HookDraw a [] 0 s ∧ SetupArrived p s :=
  have h (p : Setup) : SetupArrived p (withSetup [p.b0, p.b1, p.b2, p.b3, p.b4, p.b5, p.b6, p.b7] (hooked a)) :=
    setupArrived_of p (hooked a) ⟨rfl, rfl, by simp [hooked, onBus, State.reset, State.resetWith, DataEp.reset], rfl, rfl⟩
  ⟨rfl, .inl ⟨rfl, rfl⟩, .inr ⟨rfl, rfl, rfl, rfl⟩, ⟨⟨0x21, 9, 0, 0, 0, 0, 0, 0⟩, by decide, _, rfl, .inl ⟨rfl, rfl⟩, h _⟩,
    ⟨⟨0xA1, 1, 0, 0, 0, 0, 16, 0⟩, by decide, by decide, _, rfl, .inl ⟨rfl, rfl⟩, h _⟩,
    ⟨⟨0x21, 9, 0, 0, 0, 0, 16, 0⟩, by decide, by decide, _, rfl, .inl ⟨rfl, rfl⟩, h _⟩⟩

theorem witness_NoDataRequestsUseNoDataFifo : ∃ (s : State) (p : Setup), SetupArrived p s ∧ p.wLength = 0 :=
  ⟨_, ⟨0, 5, 7, 0, 0, 0, 0, 0⟩, setupArrived_states _ .default, by decide⟩

/-- An EP0 IN data stage of `n` bytes from 0x1000, its next packet pending, with MPS0 = 8. -/
def in0 (n : Half) : State :=
  { inStage (running .transmitting 0x1000 n n false) with
    cfg := { Config.base with mps0 := 8 }, lat := { Latches.none with ep0In := true } }

theorem witness_PollSendsTheNextEndpointZeroPacket :
    (∀ n, OnlyLatches { Latches.none with ep0In := true } (in0 n))
    ∧ ((in0 8).ep0.state = .transmitting ∧ (in0 8).tx0 = none ∧ (in0 8).tx0stage = []
      ∧ min (in0 8).ep0.rem.toNat (in0 8).cfg.mps0 = (in0 8).cfg.mps0)
    ∧ ((in0 7).ep0.state = .transmitting ∧ min (in0 7).ep0.rem.toNat (in0 7).cfg.mps0 < (in0 7).cfg.mps0)
    ∧ ∃ s : State, OnlyLatches { Latches.none with ep0In := true } s ∧ s.ep0.state ≠ .transmitting := by
  have h : ∀ d ∈ ready.deps, d.latch = false ∧ d.stall = false := by decide
  refine ⟨fun n => ⟨rfl, rfl, h⟩, by decide, by decide, pending { Latches.none with ep0In := true } ready, ⟨rfl, rfl, h⟩,
    by decide⟩

/-- An EP0 OUT data stage with `rem` left and a packet pending. -/
def out0 (st : EpState) (rem : Half) (q : Option Packet) : State :=
  { outStage (running st 0x0400 16 rem true) with rx0 := q, lat := { Latches.none with ep0Out := true } }

theorem out0_latches (st : EpState) (rem : Half) (q : Option Packet) :
    OnlyLatches { Latches.none with ep0Out := true } (out0 st rem q) :=
  ⟨rfl, rfl, show ∀ d ∈ ready.deps, d.latch = false ∧ d.stall = false by decide⟩

theorem witness_PollHoldsAnUnexpectedEndpointZeroPacket :
    (∀ st rem q, OnlyLatches { Latches.none with ep0Out := true } (out0 st rem q))
    ∧ (out0 .idle 0 none).rx0 = none
    ∧ ((out0 .idle 0 (some [1])).rx0 = some [1] ∧ (out0 .idle 0 (some [1])).ep0.state ≠ .receiving)
    ∧ ((out0 .receiving 1 (some [1, 2])).ep0.state = .receiving
      ∧ (out0 .receiving 1 (some [1, 2])).ep0.rem.toNat < [1, 2].length) :=
  ⟨out0_latches, rfl, ⟨rfl, by decide⟩, rfl, by decide⟩

theorem witness_PollReceivesAnEndpointZeroPacket :
    OnlyLatches { Latches.none with ep0Out := true } (out0 .receiving 2 (some [1, 2]))
    ∧ Memory.wf (out0 .receiving 2 (some [1, 2])).mem ∧ (out0 .receiving 2 (some [1, 2])).ep0.state = .receiving
    ∧ (out0 .receiving 2 (some [1, 2])).rx0 = some [1, 2]
    ∧ [1, 2].length ≤ (out0 .receiving 2 (some [1, 2])).ep0.rem.toNat
    ∧ [1, 2].length < (out0 .receiving 2 (some [1, 2])).cfg.mps0
    ∧ (List.replicate 64 (0 : Byte)).length = (out0 .receiving 64 (some (List.replicate 64 0))).cfg.mps0 :=
  ⟨out0_latches _ _ _, by decide, rfl, rfl, by decide, by decide, by decide⟩

/-- IN4 (`mps` 8) Transmitting with `rem` left and its latch set. -/
def dataIn (rem : Half) : State :=
  readyWith 3 (fun d => { d with ep := running .transmitting 0x0500 16 rem true, latch := true })

theorem dataIn_latch (rem : Half) : OnlyDataLatch 3 (dataIn rem) := onlyDataLatch_of (k := 3) rfl

theorem witness_PollSendsTheNextDataPacket :
    (dataIn 16).cfg.legal = true ∧ TableShape (dataIn 16) ∧ (∀ rem, OnlyDataLatch 3 (dataIn rem))
    ∧ (∃ d, (dataIn 16).deps[3]? = some d ∧ d.desc.dir = .in ∧ d.ep.state = .transmitting ∧ d.pkt = none ∧ d.ep.rem ≠ 0)
    ∧ (∃ d, (dataIn 0).deps[3]? = some d ∧ d.desc.dir = .in ∧ d.ep.state = .transmitting ∧ d.pkt = none ∧ d.ep.rem = 0)
    ∧ ∃ (s : State) (d : DataEp), OnlyDataLatch 3 s ∧ s.deps[3]? = some d ∧ d.desc.dir = .in ∧ d.ep.state ≠ .transmitting :=
  ⟨by decide, by unfold TableShape; decide, dataIn_latch, ⟨_, rfl, rfl, rfl, rfl, by decide⟩,
    ⟨_, rfl, rfl, rfl, rfl, rfl⟩,
    ⟨readyWith 3 (fun d => { d with latch := true }), _, onlyDataLatch_of (k := 3) rfl, rfl, rfl, by decide⟩⟩

/-- OUT2 (`mps` 64) in a state, with `rem` left, a packet and its latch set. -/
def dataOut (st : EpState) (rem : Half) (q : Option Packet) : State :=
  readyWith 1 (fun d => { d with ep := running st 0x0300 64 rem true, pkt := q, latch := true })

theorem dataOut_latch (st : EpState) (rem : Half) (q : Option Packet) : OnlyDataLatch 1 (dataOut st rem q) :=
  onlyDataLatch_of (k := 1) rfl

theorem witness_PollHoldsAnUnexpectedDataPacket :
    (dataOut .idle 0 none).cfg.legal = true ∧ TableShape (dataOut .idle 0 none)
    ∧ (∀ st rem q, OnlyDataLatch 1 (dataOut st rem q))
    ∧ (∃ d, (dataOut .idle 0 none).deps[1]? = some d ∧ d.desc.dir = .out ∧ d.pkt = none)
    ∧ (∃ d, (dataOut .idle 0 (some [1])).deps[1]? = some d ∧ d.pkt = some [1] ∧ d.ep.state ≠ .receiving)
    ∧ ∃ d, (dataOut .receiving 1 (some [1, 2])).deps[1]? = some d ∧ d.pkt = some [1, 2] ∧ d.ep.state = .receiving
        ∧ d.ep.rem.toNat < [1, 2].length :=
  ⟨by decide, by unfold TableShape; decide, dataOut_latch, ⟨_, rfl, rfl, rfl⟩, ⟨_, rfl, rfl, by decide⟩,
    ⟨_, rfl, rfl, rfl, by decide⟩⟩

theorem witness_PollReceivesADataPacket :
    Memory.wf (dataOut .receiving 64 (some [])).mem ∧ OnlyDataLatch 1 (dataOut .receiving 64 (some []))
    ∧ (∃ d, (dataOut .receiving 64 (some [])).deps[1]? = some d ∧ d.desc.dir = .out ∧ d.pkt = some []
      ∧ d.ep.state = .receiving ∧ ([] : Packet).length ≤ d.ep.rem.toNat ∧ ([] : Packet).length < d.desc.mps)
    ∧ ∃ d, (dataOut .receiving 65 (some (List.replicate 64 0))).deps[1]? = some d
      ∧ d.pkt = some (List.replicate 64 0) ∧ d.ep.state = .receiving
      ∧ BitVec.ofNat 16 (d.ep.rem.toNat - (List.replicate 64 (0 : Byte)).length) ≠ 0
      ∧ d.desc.mps ≤ (List.replicate 64 (0 : Byte)).length :=
  ⟨by decide, dataOut_latch _ _ _, ⟨_, rfl, rfl, rfl, rfl, by decide, by decide⟩, ⟨_, rfl, rfl, rfl, by decide, by decide⟩⟩

/-- Two IN endpoints and the OUT endpoint latched, and a SOF pending. -/
def busyTable : State :=
  { ready with
    lat := { Latches.none with sof := true }
    deps := ready.deps.map (fun d => { d with latch := d.desc.num != 1 }) }

theorem witness_PollOnSofRearmsHeldPackets :
    (busyTable.cfg.legal = true ∧ TableShape busyTable ∧ busyTable.cfg.hookIsr = false
      ∧ ∃ d, busyTable.deps[1]? = some d ∧ d.latch = true ∧ d.desc.dir = .out
        ∧ ∀ e ∈ busyTable.deps, e.desc.dir = d.desc.dir → e.latch = true → d.desc.num.toNat ≤ e.desc.num.toNat)
    ∧ (∃ s : State, s.lat = { Latches.none with sof := true } ∧ TableShape s
      ∧ (∀ e ∈ s.deps, e.desc.dir = .out → e.latch = false)
      ∧ ∃ d, s.deps[2]? = some d ∧ d.latch = true ∧ d.desc.dir = .in
        ∧ ∀ e ∈ s.deps, e.desc.dir = d.desc.dir → e.latch = true → d.desc.num.toNat ≤ e.desc.num.toNat)
    ∧ ∃ s : State, OnlyLatches { Latches.none with sof := true } s
      ∧ (s.ep0.pp = true ∧ s.ep0.state = .receiving ∧ s.rx0 ≠ none)
      ∧ ∃ d ∈ s.deps, d.desc.dir = .out ∧ d.ep.pp = true ∧ d.ep.state = .receiving ∧ d.pkt ≠ none := by
  refine ⟨⟨by decide, by unfold TableShape; decide, rfl, _, rfl, by decide, by decide, by decide⟩,
    ⟨busyTable.modifyEp 1 DataEp.clearLatch, rfl, by unfold TableShape; decide, by decide, _, rfl, by decide, by decide,
      by decide⟩,
    { outStage { running .receiving 0x0400 16 16 true with pp := true } with
      rx0 := some [1], lat := { Latches.none with sof := true }
      deps := ready.deps.modify 1
        (fun d => { d with ep := { running .receiving 0x0300 64 64 true with pp := true }, pkt := some [1] }) }, ?_,
    by decide, by decide⟩
  unfold OnlyLatches; decide

theorem witness_RegisterReadsShowTheState :
    (∃ (s : State) (rest : List Stimulus) (off : Nat), s.inputs = .regRead (s.cfg.usbBase + off) 32 :: rest ∧ off < 256 ∧ off % 4 = 0)
    ∧ ready.nq = [] ∧ ∃ (s : State) (r : Record) (l : List Record), s.nq = r :: l :=
  ⟨⟨{ ready with inputs := [.regRead 0xFC 32] }, [], 0xFC, rfl, by decide, by decide⟩, rfl,
    { ready with nq := [⟨.stateChange, 0, 1, 2, 0, 0⟩] }, _, _, rfl⟩

theorem witness_RegisterWritesStoreTheirFields :
    ∀ off, off ∈ [0x04, 0x08, 0x1C, 0x24, 0xFC] → ∃ (s : State) (rest : List Stimulus) (w : Word),
      s.inputs = .regWrite (s.cfg.usbBase + off) 32 w :: rest ∧ off < 256 ∧ off % 4 = 0 ∧ off ≠ 0 := by
  intro off h
  refine ⟨{ ready with inputs := [.regWrite (0 + off) 32 3] }, [], 3, rfl, ?_⟩
  revert h off
  decide

theorem witness_NotifyAppendsOrOverflows :
    ready.nq.length < ready.cfg.nqDepth
    ∧ ∃ s : State, s.cfg.nqDepth ≤ s.nq.length :=
  ⟨by decide, { ready with cfg := { Config.base with nqDepth := 1 }, nq := [⟨.stateChange, 0, 1, 2, 0, 0⟩] }, by decide⟩

theorem witness_BadRegisterAccessOnlyRecordsAFault :
    (∃ (s : State) (rest : List Stimulus), s.inputs = .regWrite (s.cfg.usbBase + 0) 8 1 :: rest ∧ (8 ≠ 32 ∨ 0 % 4 ≠ 0))
    ∧ ∃ (s : State) (rest : List Stimulus), s.inputs = .regRead (s.cfg.usbBase + 255) 32 :: rest ∧ (32 ≠ 32 ∨ 255 % 4 ≠ 0) :=
  ⟨⟨{ ready with inputs := [.regWrite 0 8 1] }, [], rfl, by decide⟩,
    ⟨{ ready with inputs := [.regRead 255 32] }, [], rfl, by decide⟩⟩

theorem witness_OwnedMemoryIsTheTransferBuffers :
    0xFFFF < 2 ^ receiving.cfg.addrW ∧ CountsOk receiving ∧ owned receiving 0x0300 = true
    ∧ owned receiving 0x033F = true ∧ owned receiving 0x0340 = false ∧ owned receiving 0x1300 = true
    ∧ owned receiving 0x1311 = true ∧ owned receiving 0x1312 = false := by
  unfold CountsOk RecordOk; decide

theorem witness_CpuMemoryAccessesMoveOneByte :
    (∃ (s : State) (rest : List Stimulus), s.inputs = .memRead 0xFFFF :: rest ∧ 0xFFFF < 2 ^ s.cfg.addrW ∧ owned s 0xFFFF = false)
    ∧ ∃ (s : State) (rest : List Stimulus), s.inputs = .memWrite 0x1300 7 :: rest ∧ Memory.wf s.mem ∧ owned s 0x1300 = true :=
  ⟨⟨{ ready with inputs := [.memRead 0xFFFF] }, [], rfl, by decide, by decide⟩,
    ⟨{ ready with inputs := [.memWrite 0x1300 7] }, [], rfl, by decide, by decide⟩⟩

/-- S_cfg meets the invariant, and so does a state with transfers in flight and something to do. -/
theorem ready_inv (rem : Half) (h : rem = 16 ∨ rem = 8) : Inv (dataIn rem) where
  table := by unfold TableShape; rfl
  memory := ⟨show Memory.wf [] by decide, fun _ h => nomatch h⟩
  counts := by unfold CountsOk RecordOk; rcases h with rfl | rfl <;> decide
  states := by unfold StatesOk; rcases h with rfl | rfl <;> decide
  ep0 := by unfold Ep0Ok; rcases h with rfl | rfl <;> decide
  idleIn := by unfold IdleInOk; rcases h with rfl | rfl <;> decide
  device := by unfold DeviceOk; rcases h with rfl | rfl <;> decide
  held := by unfold HeldOk; rcases h with rfl | rfl <;> decide
  queue := by unfold QueueOk; exact Nat.zero_le _
  accounts := by unfold AccountsOk; rcases h with rfl | rfl <;> decide

theorem witness_StepKeepsInvariant : ∃ s t, Inv s ∧ step s = .next t :=
  ⟨dataIn 16, service (dataIn 16), ready_inv 16 (.inl rfl), rfl⟩

theorem witness_PowerOnResetMeetsInvariant : Starts State.reset ∧ MemoryOk State.reset :=
  ⟨⟨Config.base, [], [], [], [], rfl⟩, by decide, fun _ h => by simp [State.reset, State.resetWith] at h⟩

theorem witness_HistoriesOnlyGrow : ∃ t, step sending = .next t := ⟨service sending, rfl⟩

theorem witness_RegistersChangeOnlyByTheCpu :
    ∃ (s t : State), step s = .next t ∧ t.result ≠ s.result ∧ t.nie ≠ s.nie ∧ t.argLen ≠ s.argLen
      ∧ t.argAddr ≠ s.argAddr ∧ s.nqOvf = true ∧ t.nqOvf = false :=
  ⟨{ ready with
      inputs := [.regWrite 0 32 0x01000000], result := 1, nie := true, argLen := 1, argAddr := 1, nqOvf := true },
    _, rfl, by decide, by decide, by decide, by decide, rfl, by decide⟩

theorem witness_InstructionsKeepWhatTheyDoNotReach :
    (∃ t, exec .abortAll sending = .next t) ∧ (∃ t, exec .init sending = .next t)
    ∧ (∃ t, exec .poll sending = .next t) ∧ ∃ t, exec .evBusReset sending = .next t :=
  ⟨⟨_, rfl⟩, ⟨_, rfl⟩, ⟨_, rfl⟩, ⟨_, rfl⟩⟩

theorem witness_ConfigurationAndTableNeverChange : TableShape (dataIn 16) ∧ ∃ t, step (dataIn 16) = .next t :=
  ⟨by unfold TableShape; decide, _, rfl⟩

theorem witness_TwoInvocationsClearEveryLatch :
    sending.cfg.legal = true ∧ TableShape sending ∧ latchPending sending = true := by unfold TableShape; decide

theorem witness_InvocationNeverOverflowsAnEmptyQueue :
    Inv (dataIn 16) ∧ (dataIn 16).nq = [] ∧ 8 + (dataIn 16).cfg.eps.length ≤ (dataIn 16).cfg.nqDepth :=
  ⟨ready_inv 16 (.inl rfl), rfl, by decide⟩

theorem witness_InvocationWritesOnlyOwnedMemory :
    Inv (dataIn 8) ∧ (dataIn 8).cfg.legal = true ∧ 0x0400 < 2 ^ (dataIn 8).cfg.addrW ∧ owned (dataIn 8) 0x0400 = false :=
  ⟨ready_inv 8 (.inr rfl), by decide, by decide, by decide⟩

theorem witness_EndpointZeroDataStageReachesTheHost :
    ∀ n : Half, OnlyLatches { Latches.none with ep0In := true } (in0 n) ∧ (in0 n).cfg.legal = true
      ∧ busLive (in0 n) = true ∧ (in0 n).ep0Stall = false ∧ (in0 n).ep0.state = .transmitting ∧ (in0 n).tx0 = none
      ∧ (in0 n).tx0stage = [] :=
  fun n => ⟨witness_PollSendsTheNextEndpointZeroPacket.1 n,
    show Config.legal { Config.base with mps0 := 8 } = true by decide, rfl, rfl, rfl, rfl, rfl⟩

theorem witness_DataInTransferReachesTheHost :
    (dataIn 16).cfg.legal = true ∧ TableShape (dataIn 16) ∧ OnlyDataLatch 3 (dataIn 16) ∧ busLive (dataIn 16) = true
    ∧ ∃ d, (dataIn 16).deps[3]? = some d ∧ d.desc.dir = .in ∧ d.active = true ∧ d.ep.state = .transmitting
        ∧ d.pkt = none :=
  ⟨by decide, by unfold TableShape; decide, dataIn_latch _, by decide, _, rfl, rfl, rfl, rfl, rfl⟩

end Sys2Proof.Tests
end

section
/-! PROOFS. The endpoint table through every step (spec/00_scope.md R5, spec/10_state.md R37): `KeepsDescs f` says that a
step `f` leaves each place of the table its entry of `EPS`, one lemma for each operation of the model; `SameTable` adds
the configuration, and `exec_sameTable` and `step_sameTable` say that every instruction and every agent's step keeps
both. Only INIT needs the shape of the table: it builds the table anew from the configuration. -/

namespace Sys2Proof.Machine

open Sys2Proof

/-! ### Table operations -/

/-- A step that leaves every place of the table its entry of `EPS`. -/
def KeepsDescs (f : State → State) : Prop := ∀ s : State, (f s).deps.map DataEp.desc = s.deps.map DataEp.desc

/-- Changing every endpoint, each keeping its entry of EPS, keeps the list of entries. -/
theorem map_desc_map {f : DataEp → DataEp} (hf : ∀ d, (f d).desc = d.desc) (ds : List DataEp) :
    (ds.map f).map DataEp.desc = ds.map DataEp.desc := by
  rw [List.map_map]
  exact List.map_congr_left fun d _ => hf d

/-- A step that does not touch the table at all. -/
theorem KeepsDescs.of_deps {f : State → State} (h : ∀ s, (f s).deps = s.deps) : KeepsDescs f :=
  fun s => congrArg (List.map DataEp.desc) (h s)

theorem modifyEp_descs {f : DataEp → DataEp} (hf : ∀ d, (f d).desc = d.desc) (k : Nat) :
    KeepsDescs (fun s => s.modifyEp k f) := fun s => map_desc_modify hf s.deps k

theorem modifyRec_descs (k : Nat) (f : EpRec → EpRec) : KeepsDescs (fun s => s.modifyRec k f) :=
  modifyEp_descs (f := fun d => { d with ep := f d.ep }) (fun _ => rfl) k

theorem fifoWrite_descs (k : Nat) (d : DataEp) (bytes : Packet) : KeepsDescs (fifoWrite k d bytes) :=
  modifyEp_descs (f := fun d => { d with pkt := some bytes }) (fun _ => rfl) k

theorem releaseRx_descs (k : Nat) (d : DataEp) : KeepsDescs (releaseRx k d) :=
  modifyEp_descs (f := fun d => { d with pkt := none }) (fun _ => rfl) k

theorem abort_descs (e : EpRef) : KeepsDescs (abort e) := fun s => by
  cases e with
  | ep0 => unfold abort abort0; dsimp only; split <;> rfl
  | data k d => exact modifyEp_descs DataEp.aborted_desc k s

theorem abortAll_descs : KeepsDescs abortAll := fun s => map_desc_map DataEp.aborted_desc s.deps

theorem activateAll_descs : KeepsDescs activateAll := fun s => map_desc_map DataEp.activated_desc s.deps

theorem deactivateAll_descs : KeepsDescs deactivateAll := fun s => map_desc_map DataEp.deactivated_desc s.deps

theorem armEp_descs (e : EpRef) (d : Dir) (addr : Addr) (n : Half) (cb : Bool) : KeepsDescs (armEp e d addr n cb) :=
  fun s => by
  cases e with
  | ep0 => rfl
  | data k x =>
    exact modifyEp_descs (f := fun x => { x with ep := x.ep.arm d addr n cb, latch := x.latch || d == .in })
      (fun _ => rfl) k s

theorem beginTransfer_descs (a : Byte) (d : Dir) (addr : Addr) (n : Half) (cb : Bool) :
    KeepsDescs (fun s => (beginTransfer a d addr n cb s).2) := fun s => by
  dsimp only
  obtain ⟨st, h⟩ | ⟨e, -, -, -, -, -, h⟩ := beginTransfer_cases a d addr n cb s
  · rw [h]
  · rw [h]
    exact armEp_descs e d addr n cb s

/-! ### The device state machine -/

theorem leaveConfigured_descs (new : DevState) : KeepsDescs (leaveConfigured new) := fun s => by
  unfold leaveConfigured
  split
  · exact abortAll_descs s
  · rfl

theorem enterBelowSuspended_descs (new : DevState) : KeepsDescs (enterBelowSuspended new) := fun s => by
  unfold enterBelowSuspended
  split
  · exact deactivateAll_descs s
  · rfl

theorem setState_descs (new : DevState) : KeepsDescs (setState new) := fun s => by
  unfold setState
  rw [notify_deps]
  exact (enterBelowSuspended_descs new _).trans (leaveConfigured_descs new s)

theorem clearStall_cfg : KeepsCfg clearStall := fun s => by unfold clearStall; split <;> rfl

theorem clearStall_deps (s : State) : (clearStall s).deps = s.deps := by unfold clearStall; split <;> rfl

theorem disconnectState_cfg : KeepsCfg disconnectState := fun _ =>
  (clearStall_cfg _).trans (setState_cfg .attached _)

theorem disconnectState_descs : KeepsDescs disconnectState := fun s => by
  unfold disconnectState
  simp only [act_deps, clearStall_deps, ep0SoftReset_deps]
  exact (map_desc_map (f := fun d => { d with latch := false, stall := false }) (fun _ => rfl) _).trans
    (setState_descs .attached _)

theorem serviceReset_descs : KeepsDescs serviceReset := fun s => by
  unfold serviceReset
  rw [notifyIf_deps]
  exact (map_desc_map (f := fun d => { d with ep := EpRec.reset }) (fun _ => rfl) _).trans (setState_descs .default _)

theorem serviceSuspend_descs : KeepsDescs serviceSuspend := fun s => by
  unfold serviceSuspend
  dsimp only
  split
  · exact setState_descs .suspended _
  · rfl

theorem serviceResume_descs : KeepsDescs serviceResume := fun s => by
  unfold serviceResume
  dsimp only
  split
  · exact setState_descs s.dev.saved _
  · rfl

/-! ### Requests and the control transfer -/

theorem setAddress_descs (p : Setup) : KeepsDescs (fun s => (setAddress p s).2) := fun s => by
  unfold setAddress loadAddress
  dsimp only
  split
  · rfl
  · split
    · rw [act_deps]
      split
      · exact setState_descs .addressed s
      · rfl
    · rw [act_deps]
      split
      · exact setState_descs .default s
      · rfl
    all_goals rfl

/-- Choosing a descriptor writes memory and draws at most. -/
theorem select_deps (t i : Byte) (s : State) : (select t i s).2.deps = s.deps := by
  unfold select selectString drawProduct serial
  repeat' split
  all_goals simp

theorem getDescriptor_descs (p : Setup) : KeepsDescs (fun s => (getDescriptor p s).2) := fun s => by
  have h := KeepsDescs.of_deps (select_deps (p.wValue.extractLsb' 8 8) (p.wValue.extractLsb' 0 8)) s
  unfold getDescriptor
  dsimp only
  split
  · rfl
  · split
    · exact h
    · split
      · exact (beginTransfer_descs _ _ _ _ _ _).trans h
      · exact h

theorem setConfiguration_descs (p : Setup) : KeepsDescs (fun s => (setConfiguration p s).2) := fun s => by
  unfold setConfiguration
  dsimp only
  split
  · rfl
  · split
    · split
      · exact (activateAll_descs _).trans (setState_descs .configured _)
      · rfl
    · split
      · exact setState_descs .addressed _
      · split
        · exact activateAll_descs s
        · rfl
    all_goals rfl

theorem stdDispatch_descs (p : Setup) : KeepsDescs (fun s => (stdDispatch p s).2) := fun s => by
  unfold stdDispatch
  dsimp only
  split
  · rfl
  · split
    · exact setAddress_descs p s
    · split
      · exact getDescriptor_descs p s
      · split
        · exact setConfiguration_descs p s
        · split <;> rfl

theorem applyArm_descs (p : Setup) (arm : Option Arm) : KeepsDescs (applyArm p arm) := fun s => by
  cases arm with
  | none => rfl
  | some a => exact beginTransfer_descs _ _ _ _ _ s

theorem drawHook_deps (s : State) : (drawHook s).2.deps = s.deps := by unfold drawHook; split <;> rfl

theorem dispatch_descs (p : Setup) : KeepsDescs (fun s => (dispatch p s).2) := fun s => by
  have hd := KeepsDescs.of_deps drawHook_deps s
  unfold dispatch
  dsimp only
  split
  · split
    · exact (applyArm_descs p _ _).trans hd
    · exact hd
    · exact (stdDispatch_descs p _).trans hd
  · exact stdDispatch_descs p s

theorem afterDispatch_deps (p : Setup) (r : Answer × State) : (afterDispatch p r).deps = r.2.deps := by
  unfold afterDispatch
  repeat' split
  all_goals rfl

theorem serviceEp0Setup_descs : KeepsDescs serviceEp0Setup := fun s => by
  unfold serviceEp0Setup
  dsimp only
  split
  · rfl
  · split
    · rfl
    · rw [afterDispatch_deps]
      exact dispatch_descs _ (acceptSetup _ _)

@[simp] theorem complete0_deps (x : Byte) (s : State) : (complete0 x s).deps = s.deps := notifyIf_deps _ _ _

theorem serviceEp0Out_deps (s : State) : (serviceEp0Out s).deps = s.deps := by
  unfold serviceEp0Out ep0Receive
  dsimp only
  repeat' split
  all_goals simp

theorem serviceEp0In_deps (s : State) : (serviceEp0In s).deps = s.deps := by
  unfold serviceEp0In
  dsimp only
  repeat' split
  all_goals simp

/-! ### Data endpoints -/

theorem withEp_descs (k : Nat) {f : DataEp → State → State} (hf : ∀ d, KeepsDescs (f d)) : KeepsDescs (withEp k f) :=
  fun s => by
  unfold withEp
  split
  · rfl
  · exact hf _ s

theorem completeData_descs (k : Nat) : KeepsDescs (completeData k) := withEp_descs k fun _ s =>
  (modifyRec_descs k EpRec.completed _).trans (congrArg (List.map DataEp.desc) (notifyIf_deps _ _ s))

theorem serviceDataIn_descs (k : Nat) : KeepsDescs (serviceDataIn k) := withEp_descs k fun d s => by
  have h := modifyEp_descs DataEp.clearLatch_desc k s
  dsimp only
  split
  · exact h
  · split
    · exact ((modifyRec_descs k _ _).trans (fifoWrite_descs k d _ _)).trans h
    · exact (completeData_descs k _).trans h

theorem dataReceive_descs (k : Nat) (d : DataEp) (q : Packet) : KeepsDescs (dataReceive k d q) := fun s => by
  have h := ((modifyRec_descs k (fun r => r.advance s.cfg q.length) _).trans (releaseRx_descs k d _)).trans
    (congrArg (List.map DataEp.desc) (copyOut_deps d.ep (fifoRead q q.length) s))
  unfold dataReceive
  simp only [releaseRx_cfg, copyOut_cfg]
  split
  · exact (completeData_descs k _).trans h
  · exact h

theorem serviceDataOut_descs (k : Nat) : KeepsDescs (serviceDataOut k) := withEp_descs k fun d s => by
  have h := modifyEp_descs DataEp.clearLatch_desc k s
  dsimp only
  split
  · exact h
  · split
    · rw [notify_deps]
      exact (modifyRec_descs k EpRec.hold _).trans h
    · split
      · rw [notify_deps]
        exact (modifyRec_descs k EpRec.overrun _).trans h
      · exact (dataReceive_descs k d _ _).trans h

/-! ### The service invocation -/

theorem serviceWhen_descs {latch : State → Bool} {f : State → State} (hf : KeepsDescs f) :
    KeepsDescs (serviceWhen latch f) := fun s => by
  unfold serviceWhen
  split
  · exact hf s
  · rfl

theorem serviceEach_descs {f : Nat → State → State} (hf : ∀ k, KeepsDescs (f k)) (ks : List Nat) :
    KeepsDescs (serviceEach f ks) := by
  induction ks with
  | nil => exact fun _ => rfl
  | cons k ks ih => exact fun s => (ih _).trans (serviceWhen_descs (hf k) s)

theorem serviceData_descs : KeepsDescs serviceData := fun s =>
  (map_desc_map (f := fun d => { d with stall := false }) (fun _ => rfl) _).trans
    ((serviceEach_descs serviceDataIn_descs _ _).trans (serviceEach_descs serviceDataOut_descs _ s))

theorem serviceControl_descs : KeepsDescs serviceControl := fun s => by
  unfold serviceControl
  dsimp only
  rw [serviceWhen_descs (.of_deps serviceEp0In_deps), serviceWhen_descs (.of_deps serviceEp0Out_deps),
    serviceWhen_descs serviceEp0Setup_descs, serviceWhen_descs (f := serviceEp0SetupEnd) (fun _ => rfl),
    serviceWhen_descs (f := serviceEp0SentStall) (fun _ => rfl), serviceWhen_descs serviceResume_descs,
    serviceWhen_descs serviceSuspend_descs, serviceWhen_descs serviceReset_descs]

theorem rearm0_deps (s : State) : (rearm0 s).deps = s.deps := by unfold rearm0; split <;> rfl

theorem serviceSof_descs : KeepsDescs serviceSof := fun s => by
  unfold serviceSof
  rw [notifyIf_deps]
  exact (map_desc_map DataEp.rearmed_desc _).trans (KeepsDescs.of_deps rearm0_deps _)

theorem serviceBody_descs : KeepsDescs serviceBody := fun s => by
  unfold serviceBody
  rw [serviceWhen_descs serviceSof_descs, serviceData_descs, serviceControl_descs]

/-- An invocation keeps the configuration, observed or not. -/
theorem service_cfg : KeepsCfg service := fun s => by
  cases h : s.cfg.hookIsr with
  | false => rw [service_off h, serviceBody_cfg]
  | true => rw [service_on h, notify_cfg, serviceBody_cfg, notify_cfg]

theorem service_descs : KeepsDescs service := fun s => by
  cases h : s.cfg.hookIsr with
  | false => rw [service_off h, serviceBody_descs]
  | true => rw [service_on h, notify_deps, serviceBody_descs, notify_deps]

/-! ### Instructions -/

/-- The configuration is the same, and so is the entry of `EPS` at every place of the table. -/
def SameTable (s t : State) : Prop := t.cfg = s.cfg ∧ t.deps.map DataEp.desc = s.deps.map DataEp.desc

/-- If the step has a next state, it has the same configuration and entries as `s`; a fault or refusal leaves none. -/
def AnswersSameTable (s : State) : StepResult → Prop
  | .next t => SameTable s t
  | .fault _ | .refused _ => True

theorem SameTable.refl (s : State) : SameTable s s := ⟨rfl, rfl⟩

theorem deliver_sameTable {s t : State} (admitted : Bool) (h : SameTable s t) :
    AnswersSameTable s (deliver admitted t) := by
  cases admitted
  · trivial
  · exact h

theorem service_sameTable (s : State) : SameTable s (service s) := ⟨service_cfg s, service_descs s⟩

theorem transferCommand_sameTable (epa : Byte) (d : Dir) (cb : Bool) (s : State) :
    SameTable s (transferCommand epa d cb s) :=
  ⟨(beginTransfer_keeps epa d s.argAddr s.argLen cb s).1, beginTransfer_descs epa d s.argAddr s.argLen cb s⟩

theorem onEndpoint_sameTable (epa : Byte) {f : EpRef → State → State} {s : State} (hf : ∀ e, SameTable s (f e s)) :
    SameTable s (onEndpoint epa f s) := by
  unfold onEndpoint
  split
  · exact .refl s
  · exact hf _

theorem abort_cfg (e : EpRef) : KeepsCfg (abort e) := fun s => by
  cases e with
  | ep0 => unfold abort abort0; dsimp only; split <;> rfl
  | data k d => rfl

theorem initState_deps (s : State) : (initState s).deps = s.cfg.eps.map DataEp.reset := rfl

/-- INIT builds the table from the configuration, so it finds the entries it had if the table has the right shape. -/
theorem execInit_sameTable {s : State} (hs : TableShape s) : AnswersSameTable s (execInit s) := by
  refine ⟨notify_cfg _ _, ?_⟩
  rw [setResult_deps, notify_deps, act_deps, initState_deps, hs, List.map_map]
  exact List.map_id'' DataEp.reset_desc _

theorem execEvOut_sameTable (epa : Byte) (pay : Packet) (s : State) : AnswersSameTable s (execEvOut epa pay s) := by
  unfold execEvOut
  split
  · trivial
  · exact deliver_sameTable _ (.refl s)
  · exact deliver_sameTable _ ⟨rfl, modifyEp_descs (f := DataEp.receive pay) (fun _ => rfl) _ s⟩

theorem execEvInTaken_sameTable (epa : Byte) (s : State) : AnswersSameTable s (execEvInTaken epa s) := by
  unfold execEvInTaken
  split
  · trivial
  · exact deliver_sameTable _ (.refl s)
  · exact deliver_sameTable _ ⟨rfl, modifyEp_descs (f := DataEp.taken) (fun _ => rfl) _ s⟩

theorem execEvSentStall_sameTable (epa : Byte) (s : State) : AnswersSameTable s (execEvSentStall epa s) := by
  unfold execEvSentStall
  split
  · trivial
  · exact deliver_sameTable _ (.refl s)
  · exact deliver_sameTable _ ⟨rfl, modifyEp_descs (f := fun d => { d with stall := true }) (fun _ => rfl) _ s⟩

/-- Every instruction keeps the configuration and the entries of the table. -/
theorem exec_sameTable (i : Instr) {s : State} (hs : TableShape s) : AnswersSameTable s (exec i s) := by
  cases i with
  | init => exact execInit_sameTable hs
  | connect => exact SameTable.refl s
  | disconnect => exact ⟨disconnectState_cfg s, disconnectState_descs s⟩
  | write epa cb => exact transferCommand_sameTable epa .in cb s
  | read epa cb => exact transferCommand_sameTable epa .out cb s
  | abort epa => exact onEndpoint_sameTable epa fun e => ⟨abort_cfg e s, abort_descs e s⟩
  | abortAll => exact ⟨rfl, abortAll_descs s⟩
  | isBusy epa => exact onEndpoint_sameTable epa fun _ => .refl s
  | remaining epa => exact onEndpoint_sameTable epa fun _ => .refl s
  | poll => exact service_sameTable s
  | evBusReset => exact deliver_sameTable _ ⟨rfl, map_desc_map DataEp.busReset_desc s.deps⟩
  | evSuspend | evResume | evSof frame | evSetup pay | evSetupEnd => exact deliver_sameTable _ (.refl s)
  | evOut epa pay => exact execEvOut_sameTable epa pay s
  | evInTaken epa => exact execEvInTaken_sameTable epa s
  | evSentStall epa => exact execEvSentStall_sameTable epa s

/-! ### Steps -/

theorem regStore_sameTable (off : Nat) (w : Word) (s : State) : SameTable s (regStore off w s) := by
  unfold regStore notifyPop
  repeat' split
  all_goals exact .refl s

theorem checkOwned_sameTable (addr : Nat) (s : State) : SameTable s (checkOwned addr s) := by
  unfold checkOwned
  split <;> exact .refl s

theorem runCommand_sameTable (w : Word) {s : State} (hs : TableShape s) : AnswersSameTable s (runCommand w s) := by
  unfold runCommand
  split
  · exact exec_sameTable _ hs
  · exact SameTable.refl s

theorem runEvent_sameTable (w : Word) (pay : Packet) {s : State} (hs : TableShape s) :
    AnswersSameTable s (runEvent w pay s) := by
  unfold runEvent
  split
  · exact exec_sameTable _ hs
  · trivial

theorem cpuRegRead_sameTable (addr bits : Nat) (s : State) : AnswersSameTable s (cpuRegRead addr bits s) := by
  unfold cpuRegRead
  split
  · trivial
  · split <;> exact SameTable.refl s

theorem cpuRegWrite_sameTable (addr bits : Nat) (w : Word) {s : State} (hs : TableShape s) :
    AnswersSameTable s (cpuRegWrite addr bits w s) := by
  unfold cpuRegWrite
  split
  · trivial
  · split
    · exact SameTable.refl s
    · split
      · exact runCommand_sameTable w hs
      · exact regStore_sameTable _ w s

theorem cpuMemRead_sameTable (addr : Nat) (s : State) : AnswersSameTable s (cpuMemRead addr s) := by
  unfold cpuMemRead
  split
  · exact checkOwned_sameTable addr _
  · trivial

theorem cpuMemWrite_sameTable (addr : Nat) (v : Byte) (s : State) : AnswersSameTable s (cpuMemWrite addr v s) := by
  unfold cpuMemWrite
  split
  · exact checkOwned_sameTable addr _
  · trivial

theorem runService_sameTable (s : State) : AnswersSameTable s (runService s) := by
  unfold runService
  split
  · exact service_sameTable s
  · trivial

theorem idleStep_sameTable (s : State) : AnswersSameTable s (idleStep s) := by
  unfold idleStep
  split
  · exact service_sameTable s
  · trivial

theorem deliverStimulus_sameTable (x : Stimulus) {s : State} (hs : TableShape s) :
    AnswersSameTable s (deliverStimulus x s) := by
  cases x with
  | regRead addr bits => exact cpuRegRead_sameTable addr bits s
  | regWrite addr bits w => exact cpuRegWrite_sameTable addr bits w hs
  | memRead addr => exact cpuMemRead_sameTable addr s
  | memWrite addr v => exact cpuMemWrite_sameTable addr v s
  | event w pay => exact runEvent_sameTable w pay hs
  | service => exact runService_sameTable s

/-- Every step keeps the configuration and the entries of the table. -/
theorem step_sameTable {s : State} (hs : TableShape s) : AnswersSameTable s (step s) := by
  unfold step
  split
  · exact idleStep_sameTable s
  · exact deliverStimulus_sameTable _ (s := { s with inputs := _ }) hs

end Sys2Proof.Machine

namespace Sys2Proof.Proofs

open Sys2Proof.Machine

/-- Settles O55: no step writes the configuration, every operation keeps each endpoint's entry of `EPS`, and INIT, which
builds the table anew, takes the entries from the configuration. -/
theorem configurationAndTableNeverChange : Obligations.ConfigurationAndTableNeverChange := by
  unfold Obligations.ConfigurationAndTableNeverChange
  intro s t hs ht
  have h := step_sameTable hs
  rw [ht] at h
  exact h

end Sys2Proof.Proofs
end

section
/-! PROOFS. The invariant of spec/10_state.md R44 taken apart: `EpOk` is what it asks of one data endpoint, `ControlOk`
of EP0, `DevOk` of the device-wide fields, `BaseOk` of the fields outside those and the table. `Sound` puts them together;
with the shape of the table it is `Inv` (`Inv.sound`, `Sound.inv`). Then one lemma of `EpOk` for each change that the model
makes to a data endpoint. -/

namespace Sys2Proof.Machine

open Sys2Proof

/-! ### The parts of the invariant -/

/-- What `Inv` asks of one data endpoint, given the configuration, `dev.config` and whether a bus reset is pending. -/
structure EpOk (c : Config) (config : Byte) (resetPending : Bool) (d : DataEp) : Prop where
  record   : RecordOk c d.ep
  state    : d.ep.state = .idle ∨ d.ep.state = Dir.running d.desc.dir
  wr       : d.ep.wr = false
  idleIn   : d.desc.dir = .in → d.ep.state = .idle → d.pkt = none ∧ d.latch = false
  used     : d.active = true ∨ d.ep.state ≠ .idle → config = Config.configValue
  inactive : resetPending = true → d.active = false
  held     : d.ep.pp = true → d.desc.dir = .out ∧ d.latch = false ∧ (d.pkt ≠ none ∨ resetPending = true)
  accounts : d.ep.state = .transmitting → d.desc.mps ∣ d.ep.len.toNat - d.ep.rem.toNat ∨ d.ep.rem = 0

/-- What `Inv` asks of EP0 and the control transfer. -/
def ControlOk (s : State) : Prop :=
  RecordOk s.cfg s.ep0
  ∧ (s.ep0.state ≠ .halted ∧ s.ep0.state ≠ .status)
  ∧ Ep0Ok s
  ∧ (s.ep0.pp = true → s.rx0 ≠ none ∨ s.lat.reset = true ∨ s.lat.ep0SetupEnd = true)
  ∧ (s.ep0.pp = true → s.lat.ep0Out = true → s.lat.ep0SetupEnd = true)

/-- What `Inv` asks of the device-wide fields. -/
def DevOk (v : Dev) : Prop :=
  v.alt = 0
  ∧ v.saved ≠ .suspended
  ∧ (v.config = 0 ∨ v.config = Config.configValue)
  ∧ (v.config = Config.configValue ↔ v.state = .configured ∨ (v.state = .suspended ∧ v.saved = .configured))

/-- What `Inv` asks of the fields outside the device-wide ones and the table. -/
structure BaseOk (s : State) : Prop where
  memory  : MemoryOk s
  argAddr : s.argAddr.toNat < 2 ^ s.cfg.addrW
  queue   : QueueOk s
  control : ControlOk s

/-- The invariant without the shape of the table. -/
structure Sound (s : State) : Prop where
  base   : BaseOk s
  device : DevOk s.dev
  eps    : ∀ d ∈ s.deps, EpOk s.cfg s.dev.config s.lat.reset d

theorem Inv.sound {s : State} (h : Inv s) : Sound s := by
  obtain ⟨hArg, hRec0, hRecs⟩ := h.counts
  obtain ⟨hSt0, hSts⟩ := h.states
  obtain ⟨hAlt, hSaved, hCfg, hIff, hUsed⟩ := h.device
  obtain ⟨hIn0, hLatch0, hInactive, hHeld⟩ := h.held
  exact ⟨⟨h.memory, hArg, h.queue, hRec0, hSt0, h.ep0, hIn0, hLatch0⟩, ⟨hAlt, hSaved, hCfg, hIff⟩, fun d hd =>
    ⟨hRecs d hd, (hSts d hd).1, (hSts d hd).2, h.idleIn d hd, hUsed d hd, hInactive d hd, hHeld d hd,
      fun ht => (h.accounts d hd ht).2⟩⟩

theorem Sound.inv {s : State} (h : Sound s) (ht : TableShape s) : Inv s := by
  obtain ⟨hRec0, hSt0, hEp0, hIn0, hLatch0⟩ := h.base.control
  obtain ⟨hAlt, hSaved, hCfg, hIff⟩ := h.device
  exact {
    table := ht
    memory := h.base.memory
    counts := ⟨h.base.argAddr, hRec0, fun d hd => (h.eps d hd).record⟩
    states := ⟨hSt0, fun d hd => ⟨(h.eps d hd).state, (h.eps d hd).wr⟩⟩
    ep0 := hEp0
    idleIn := fun d hd => (h.eps d hd).idleIn
    device := ⟨hAlt, hSaved, hCfg, hIff, fun d hd => (h.eps d hd).used⟩
    held := ⟨hIn0, hLatch0, fun d hd => (h.eps d hd).inactive, fun d hd => (h.eps d hd).held⟩
    queue := h.base.queue
    accounts := fun d hd hs => ⟨(h.eps d hd).record.1, (h.eps d hd).accounts hs⟩ }

/-! ### Records -/

theorem Dir.running_ne_idle (d : Dir) : Dir.running d ≠ .idle := by cases d <;> decide

theorem wrapAddr_lt (c : Config) (a : Nat) : (wrapAddr c a).toNat < 2 ^ c.addrW := by
  rw [wrapAddr, BitVec.toNat_ofNat]
  exact (Nat.mod_le _ _).trans_lt (Nat.mod_lt _ (Nat.two_pow_pos _))

theorem RecordOk.zero {c : Config} {r : EpRec} (hr : r.rem = 0) (hb : r.buf.toNat < 2 ^ c.addrW) : RecordOk c r :=
  ⟨by simp [hr], hb⟩

theorem RecordOk.reset (c : Config) : RecordOk c EpRec.reset := .zero rfl (Nat.two_pow_pos _)

theorem RecordOk.arm {c : Config} {addr : Addr} (ha : addr.toNat < 2 ^ c.addrW) (r : EpRec) (d : Dir) (n : Half)
    (cb : Bool) : RecordOk c (r.arm d addr n cb) := ⟨Nat.le_refl _, ha⟩

/-- Moving `n` of the bytes left counts `rem` down by `n`. -/
theorem EpRec.advance_rem {r : EpRec} {c : Config} {n : Nat} (h : n ≤ r.rem.toNat) :
    (r.advance c n).rem.toNat = r.rem.toNat - n := by
  have := r.rem.isLt
  simp only [EpRec.advance, BitVec.toNat_sub, BitVec.toNat_ofNat]
  omega

theorem RecordOk.advance {c : Config} {r : EpRec} {n : Nat} (h : RecordOk c r) (hn : n ≤ r.rem.toNat) :
    RecordOk c (r.advance c n) :=
  ⟨by rw [EpRec.advance_rem hn]; exact (Nat.sub_le _ _).trans h.1, wrapAddr_lt c _⟩

/-! ### Data endpoints -/

section

variable {c : Config} {config : Byte} {resetPending : Bool} {d : DataEp}

/-- An Idle endpoint that is not active and holds nothing meets the invariant, whatever `dev.config` is. -/
theorem EpOk.at_rest (hr : RecordOk c d.ep) (hs : d.ep.state = .idle) (hw : d.ep.wr = false) (hp : d.ep.pp = false)
    (ha : d.active = false) (hin : d.desc.dir = .in → d.pkt = none ∧ d.latch = false) :
    EpOk c config resetPending d where
  record := hr
  state := .inl hs
  wr := hw
  idleIn := fun hd _ => hin hd
  used := by simp [ha, hs]
  inactive := fun _ => ha
  held := by simp [hp]
  accounts := by simp [hs]

theorem EpOk.reset (e : EpDesc) : EpOk c config resetPending (DataEp.reset e) :=
  .at_rest (.reset c) rfl rfl rfl rfl fun _ => ⟨rfl, rfl⟩

/-- Out of Configured, an endpoint is Idle and not active. -/
theorem EpOk.at_rest_of_config (h : EpOk c config resetPending d) (hc : config ≠ Config.configValue) :
    d.ep.state = .idle ∧ d.active = false :=
  ⟨by_contra fun hs => hc (h.used (.inr hs)), by simpa using fun ha => hc (h.used (.inl ha))⟩

theorem EpOk.aborted (h : EpOk c config resetPending d) : EpOk c config resetPending d.aborted := by
  unfold DataEp.aborted
  split
  · exact h
  · exact {
      record := .zero rfl h.record.2
      state := .inl rfl
      wr := rfl
      idleIn := fun _ _ => ⟨rfl, rfl⟩
      used := fun hu => h.used (hu.imp_right fun hs => absurd rfl hs)
      inactive := h.inactive
      held := nofun
      accounts := nofun }

/-- An Idle endpoint that is deactivated is at rest, so it meets the invariant of any device state. -/
theorem EpOk.deactivated {config' : Byte} {pending' : Bool} (h : EpOk c config resetPending d)
    (hs : d.ep.state = .idle) : EpOk c config' pending' d.deactivated :=
  .at_rest h.record hs h.wr rfl rfl fun _ => ⟨rfl, rfl⟩

/-- Entering Configured takes nothing from an endpoint. -/
theorem EpOk.configured (h : EpOk c config resetPending d) : EpOk c Config.configValue resetPending d :=
  ⟨h.record, h.state, h.wr, h.idleIn, fun _ => rfl, h.inactive, h.held, h.accounts⟩

theorem EpOk.activated (h : EpOk c Config.configValue false d) : EpOk c Config.configValue false d.activated :=
  ⟨h.record, h.state, h.wr, h.idleIn, fun _ => rfl, nofun, h.held, h.accounts⟩

/-- The endpoint reset of `service_reset`, which finds every endpoint deactivated (spec/45_device_state.md R275). -/
theorem EpOk.record_reset (h : EpOk c 0 resetPending d) : EpOk c 0 resetPending { d with ep := EpRec.reset } := by
  obtain ⟨hs, ha⟩ := h.at_rest_of_config (by decide)
  exact .at_rest (.reset c) rfl rfl rfl ha fun hd => h.idleIn hd hs

theorem EpOk.busReset (h : EpOk c config resetPending d) : EpOk c config true d.busReset where
  record := h.record
  state := h.state
  wr := h.wr
  idleIn := fun _ _ => ⟨rfl, rfl⟩
  used := fun hu => h.used (.inr (hu.resolve_left Bool.false_ne_true))
  inactive := fun _ => rfl
  held := fun hp => ⟨(h.held hp).1, rfl, .inr rfl⟩
  accounts := h.accounts

theorem EpOk.clearLatch (h : EpOk c config resetPending d) : EpOk c config resetPending d.clearLatch where
  record := h.record
  state := h.state
  wr := h.wr
  idleIn := fun hd hs => ⟨(h.idleIn hd hs).1, rfl⟩
  used := h.used
  inactive := h.inactive
  held := fun hp => ⟨(h.held hp).1, rfl, (h.held hp).2.2⟩
  accounts := h.accounts

theorem EpOk.setStall (h : EpOk c config resetPending d) (b : Bool) :
    EpOk c config resetPending { d with stall := b } :=
  ⟨h.record, h.state, h.wr, h.idleIn, h.used, h.inactive, h.held, h.accounts⟩

/-- A transfer start in the endpoint's direction (spec/40_endpoint_table.md R122). -/
theorem EpOk.arm (h : EpOk c Config.configValue resetPending d) {addr : Addr} (ha : addr.toNat < 2 ^ c.addrW) (n : Half)
    (cb : Bool) : EpOk c Config.configValue resetPending
      { d with ep := d.ep.arm d.desc.dir addr n cb, latch := d.latch || d.desc.dir == .in } where
  record := .arm ha _ _ _ _
  state := .inr rfl
  wr := rfl
  idleIn := fun _ hs => absurd hs (Dir.running_ne_idle _)
  used := fun _ => rfl
  inactive := h.inactive
  held := fun hp => by
    obtain ⟨hd, hl, hk⟩ := h.held hp
    exact ⟨hd, by simp [hl, hd], hk⟩
  accounts := fun _ => .inl (by simp [EpRec.arm])

/-- A packet arrives at an active OUT endpoint whose buffer is empty (spec/46_events_and_service.md R308). -/
theorem EpOk.receive (h : EpOk c config resetPending d) (hd : d.desc.dir = .out) (ha : d.active = true)
    (hk : d.pkt = none) (pay : Packet) : EpOk c config resetPending (d.receive pay) where
  record := h.record
  state := h.state
  wr := h.wr
  idleIn := fun hd' => by simp [DataEp.receive, hd] at hd'
  used := h.used
  inactive := h.inactive
  held := fun hp => by
    obtain ⟨-, -, hp'⟩ := h.held hp
    have := h.inactive (hp'.resolve_left (not_not.2 hk))
    simp [ha] at this
  accounts := h.accounts

/-- The host takes the packet of an IN endpoint (spec/46_events_and_service.md R309). -/
theorem EpOk.taken (h : EpOk c config resetPending d) (hd : d.desc.dir = .in) (hk : d.pkt ≠ none) :
    EpOk c config resetPending d.taken where
  record := h.record
  state := h.state
  wr := h.wr
  idleIn := fun _ hs => absurd (h.idleIn hd hs).1 hk
  used := h.used
  inactive := h.inactive
  held := fun hp => nomatch hd.symm.trans (h.held hp).1
  accounts := h.accounts

/-- An OUT endpoint holds the packet in its buffer (spec/44_data_endpoints.md R254). -/
theorem EpOk.hold (h : EpOk c config resetPending d) (hd : d.desc.dir = .out) (hl : d.latch = false)
    (hk : d.pkt ≠ none) : EpOk c config resetPending { d with ep := d.ep.hold } where
  record := h.record
  state := h.state
  wr := h.wr
  idleIn := h.idleIn
  used := h.used
  inactive := h.inactive
  held := fun _ => ⟨hd, hl, .inl hk⟩
  accounts := h.accounts

/-- A packet that does not fit ends the transfer of an OUT endpoint and is held (spec/44_data_endpoints.md R255). -/
theorem EpOk.overrun (h : EpOk c config resetPending d) (hd : d.desc.dir = .out) (hl : d.latch = false)
    (hk : d.pkt ≠ none) : EpOk c config resetPending { d with ep := d.ep.overrun } where
  record := .zero rfl h.record.2
  state := .inl rfl
  wr := h.wr
  idleIn := fun hd' => by simp [hd] at hd'
  used := fun hu => h.used (hu.imp_right fun hs => absurd rfl hs)
  inactive := h.inactive
  held := fun _ => ⟨hd, hl, .inl hk⟩
  accounts := nofun

/-- A transfer of an endpoint with an empty buffer and no latch completes (spec/44_data_endpoints.md R257). -/
theorem EpOk.completed (h : EpOk c config resetPending d) (hl : d.latch = false) (hk : d.pkt = none) :
    EpOk c config resetPending { d with ep := d.ep.completed } where
  record := h.record
  state := .inl rfl
  wr := h.wr
  idleIn := fun _ _ => ⟨hk, hl⟩
  used := fun hu => h.used (hu.imp_right fun hs => absurd rfl hs)
  inactive := h.inactive
  held := h.held
  accounts := nofun

/-- An IN endpoint commits its next packet (spec/44_data_endpoints.md R251, R261). -/
theorem EpOk.send (h : EpOk c config resetPending d) (hs : d.ep.state = .transmitting) (hr : d.ep.rem ≠ 0)
    (bytes : Packet) : EpOk c config resetPending
      { d with pkt := some bytes, ep := d.ep.advance c (min d.desc.mps d.ep.rem.toNat) } := by
  have hn : min d.desc.mps d.ep.rem.toNat ≤ d.ep.rem.toNat := Nat.min_le_right _ _
  exact {
    record := h.record.advance hn
    state := h.state
    wr := h.wr
    idleIn := fun _ hi => by simp [EpRec.advance, hs] at hi
    used := h.used
    inactive := h.inactive
    held := fun hp => ⟨(h.held hp).1, (h.held hp).2.1, .inl (Option.some_ne_none _)⟩
    accounts := fun _ => by
      have hlen := h.record.1
      have hdvd := (h.accounts hs).resolve_right hr
      rcases Nat.le_total d.desc.mps d.ep.rem.toNat with hm | hm
      · left
        have hlen' : d.ep.len.toNat - (d.ep.rem.toNat - d.desc.mps) = d.ep.len.toNat - d.ep.rem.toNat + d.desc.mps := by
          omega
        rw [EpRec.advance_rem hn, Nat.min_eq_left hm]
        exact hlen' ▸ Nat.dvd_add hdvd (Nat.dvd_refl _)
      · right
        apply BitVec.eq_of_toNat_eq
        rw [EpRec.advance_rem hn, Nat.min_eq_right hm]
        simp }

/-- An OUT endpoint drains a packet that fits (spec/44_data_endpoints.md R256). -/
theorem EpOk.drain (h : EpOk c config resetPending d) (hd : d.desc.dir = .out) (hp : d.ep.pp = false) {n : Nat}
    (hn : n ≤ d.ep.rem.toNat) : EpOk c config resetPending { d with pkt := none, ep := d.ep.advance c n } where
  record := h.record.advance hn
  state := h.state
  wr := h.wr
  idleIn := fun hd' => by simp [hd] at hd'
  used := h.used
  inactive := h.inactive
  held := fun hp' => by simp [EpRec.advance, hp] at hp'
  accounts := fun ht => by
    have hs := h.state
    rw [hd] at hs
    simp_all [EpRec.advance, Dir.running]

theorem EpOk.rearmed (h : EpOk c config resetPending d) : EpOk c config resetPending d.rearmed := by
  unfold DataEp.rearmed
  split
  · rename_i hr
    exact {
      record := h.record
      state := h.state
      wr := h.wr
      idleIn := fun hd => by simp [hr.1] at hd
      used := h.used
      inactive := h.inactive
      held := nofun
      accounts := h.accounts }
  · exact h

end

end Sys2Proof.Machine
end

section
/-! PROOFS. The invariant through the shared operations: memory and the queue, transfer starts and aborts, `set_state` and
the services of the device state machine (spec/40_endpoint_table.md, spec/45_device_state.md). -/

namespace Sys2Proof.Machine

open Sys2Proof

/-! ### Frames -/

/-- The state with the fields that the invariant does not read set to fixed values. -/
def State.guarded (s : State) : State :=
  { s with
    argLen := 0, result := 0, nie := false, ep0Stall := false, tx0 := none, sofFrame := 0, nqOvf := false, faults := []
    acts := [], hostIn := [], readData := none, inputs := [], hookIn := [], productIn := [], draws := 0
    dev := { s.dev with addr := 0, pullup := false }
    lat := { Latches.none with
      reset := s.lat.reset, ep0SetupEnd := s.lat.ep0SetupEnd, ep0Out := s.lat.ep0Out } }

/-- What the invariant reads outside the table and the device-wide fields. -/
def State.outsideTable (s : State) : State := { s.guarded with deps := [], dev := Dev.reset }

/-- What the invariant reads outside EP0 and the control transfer. -/
def State.outsideControl (s : State) : State :=
  { s.guarded with
    ep0 := EpRec.reset, ctlOpen := false, setup := Setup.reset, rx0 := none, tx0stage := []
    lat := { Latches.none with reset := s.lat.reset } }

/-- A change of the table and the device-wide fields only. -/
theorem BaseOk.frame {s t : State} (h : BaseOk s) (e : t.outsideTable = s.outsideTable) : BaseOk t := by
  have hs : BaseOk s.outsideTable := ⟨h.memory, h.argAddr, h.queue, h.control⟩
  rw [← e] at hs
  exact ⟨hs.memory, hs.argAddr, hs.queue, hs.control⟩

/-- A change of fields that the invariant does not read. -/
theorem Sound.frame {s t : State} (h : Sound s) (e : t.guarded = s.guarded) : Sound t := by
  have hs : Sound s.guarded := ⟨⟨h.base.memory, h.base.argAddr, h.base.queue, h.base.control⟩, h.device, h.eps⟩
  rw [← e] at hs
  exact ⟨⟨hs.base.memory, hs.base.argAddr, hs.base.queue, hs.base.control⟩, hs.device, hs.eps⟩

/-- A change of EP0 and the control transfer only, after which they meet the invariant. -/
theorem Sound.of_control {s t : State} (h : Sound s) (hc : ControlOk t) (e : t.outsideControl = s.outsideControl) :
    Sound t := by
  have hControl : ControlOk s.outsideControl :=
    ⟨⟨Nat.le_refl _, Nat.two_pow_pos _⟩, ⟨nofun, nofun⟩, ⟨nofun, nofun, nofun, nofun, rfl⟩, nofun, nofun⟩
  have hs : Sound s.outsideControl := ⟨⟨h.base.memory, h.base.argAddr, h.base.queue, hControl⟩, h.device, h.eps⟩
  rw [← e] at hs
  exact ⟨⟨hs.base.memory, hs.base.argAddr, hs.base.queue, hc⟩, hs.device, hs.eps⟩

theorem Sound.setResult {s : State} (h : Sound s) (st : Status) (v : Half) : Sound (s.setResult st v) := h.frame rfl

/-! ### Operations on memory, the queue and the histories -/

theorem QueueOk.notify {s : State} (h : QueueOk s) (r : Record) : QueueOk (notify r s) := by
  unfold Machine.notify
  split
  · rename_i hlt
    simpa [QueueOk] using hlt
  · exact h

theorem BaseOk.notify {s : State} (h : BaseOk s) (r : Record) : BaseOk (notify r s) :=
  ⟨by simpa [MemoryOk] using h.memory, by simpa using h.argAddr, h.queue.notify r,
    by simpa [ControlOk, Ep0Ok] using h.control⟩

theorem BaseOk.notifyIf {s : State} (h : BaseOk s) (b : Bool) (r : Record) : BaseOk (notifyIf b r s) := by
  unfold Machine.notifyIf
  split
  · exact h.notify r
  · exact h

theorem Sound.notify {s : State} (h : Sound s) (r : Record) : Sound (notify r s) :=
  ⟨h.base.notify r, by simpa using h.device, by simpa using h.eps⟩

theorem Sound.notifyIf {s : State} (h : Sound s) (b : Bool) (r : Record) : Sound (notifyIf b r s) :=
  ⟨h.base.notifyIf b r, by simpa using h.device, by simpa using h.eps⟩

/-- A write of memory keeps the invariant. -/
theorem Sound.memWriteBytes {s : State} (h : Sound s) (a : Nat) (p : Packet) : Sound (memWriteBytes s a p) where
  base := ⟨by simpa [MemoryOk] using memWriteBytes_ok h.base.memory a p, by simpa using h.base.argAddr,
    by simpa [QueueOk] using h.base.queue, by simpa [ControlOk, Ep0Ok] using h.base.control⟩
  device := by simpa using h.device
  eps := by simpa using h.eps

/-! ### EP0 -/

/-- An EP0 that is Idle or Stalled and holds nothing meets the invariant, whatever the control transfer is. -/
theorem ControlOk.at_rest {s : State} (hr : RecordOk s.cfg s.ep0) (hs : s.ep0.state = .idle ∨ s.ep0.state = .stalled)
    (hw : s.ep0.wr = false) (hp : s.ep0.pp = false) (ho : s.lat.ep0Out = true → s.setup.dir = .out)
    (ht : s.tx0stage = []) : ControlOk s := by
  refine ⟨hr, ?_, ⟨?_, ?_, by simp [hw], ho, ht⟩, by simp [hp], by simp [hp]⟩
  all_goals rcases hs with hs | hs <;> simp [hs]

/-- A transfer start on EP0 inside an open control transfer, in its direction (spec/40_endpoint_table.md R122). -/
theorem Sound.armEp0 {s : State} (h : Sound s) {d : Dir} {addr : Addr} (hl : ep0DataLegal s d = true)
    (ha : addr.toNat < 2 ^ s.cfg.addrW) (n : Half) (cb : Bool) : Sound (armEp .ep0 d addr n cb s) := by
  obtain ⟨-, -, ⟨-, -, -, hOut, hStage⟩, hIn, hLatch⟩ := h.base.control
  simp only [ep0DataLegal, Bool.and_eq_true, beq_iff_eq] at hl
  obtain ⟨⟨hOpen, -⟩, rfl⟩ := hl
  refine h.of_control ⟨.arm ha _ _ _ _, ?_, ⟨?_, ?_, nofun, hOut, hStage⟩, hIn, hLatch⟩ rfl
  all_goals simp only [armEp, EpRec.arm]
  · cases s.setup.dir <;> decide
  · cases s.setup.dir <;> simp [Dir.running, hOpen]
  · cases s.setup.dir <;> simp [Dir.running, hOpen]

theorem Sound.abort0 {s : State} (h : Sound s) : Sound (abort0 s) := by
  unfold Machine.abort0
  split
  · exact h
  · obtain ⟨hRec, -, ⟨-, -, -, -, hStage⟩, -, -⟩ := h.base.control
    exact h.of_control (.at_rest (.zero rfl hRec.2) (.inl rfl) rfl rfl nofun hStage) rfl

/-! ### Table operations -/

/-- A change of one data endpoint that keeps what the invariant asks of it. -/
theorem Sound.modifyEp {s : State} (h : Sound s) {k : Nat} {f : DataEp → DataEp}
    (hf : ∀ d, s.deps[k]? = some d → EpOk s.cfg s.dev.config s.lat.reset d →
      EpOk s.cfg s.dev.config s.lat.reset (f d)) : Sound (s.modifyEp k f) :=
  ⟨h.base.frame rfl, h.device, forall_modify h.eps fun d hd => hf d hd (h.eps d (List.mem_of_getElem? hd))⟩

/-- In Configured `dev.config` is `CONFIG_VALUE`. -/
theorem DevOk.config_of_configured {v : Dev} (h : DevOk v) (hc : v.state = .configured) :
    v.config = Config.configValue := by
  obtain ⟨-, -, -, hIff⟩ := h
  exact hIff.2 (.inl hc)

/-- Whatever a transfer start answers, it keeps the invariant (spec/40_endpoint_table.md R122, R125). -/
theorem Sound.beginTransfer {s : State} (h : Sound s) {addr : Addr} (ha : addr.toNat < 2 ^ s.cfg.addrW) (a : Byte)
    (d : Dir) (n : Half) (cb : Bool) : Sound (beginTransfer a d addr n cb s).2 := by
  obtain ⟨st, hb⟩ | ⟨e, hl, hd, -, hEp0, hData, hb⟩ := beginTransfer_cases a d addr n cb s
  · rw [hb]; exact h
  · rw [hb]
    cases e with
    | ep0 => exact h.armEp0 (hEp0 rfl) ha n cb
    | data k x =>
      obtain ⟨hk, -, hdir, -⟩ := lookup_data hl
      refine h.modifyEp fun y hy hok => ?_
      obtain rfl : x = y := Option.some.inj (hk.symm.trans hy)
      obtain rfl : x.desc.dir = d := hdir.trans hd
      rw [h.device.config_of_configured (hData nofun)] at hok ⊢
      exact hok.arm ha n cb

theorem Sound.abort {s : State} (h : Sound s) (e : EpRef) : Sound (abort e s) := by
  cases e with
  | ep0 => exact h.abort0
  | data k d =>
    exact (h.modifyEp (k := k) fun x _ hx => hx.aborted).frame rfl

/-- A change of every data endpoint that keeps what the invariant asks of each. -/
theorem forall_eps_map {c : Config} {config config' : Byte} {b b' : Bool} {ds : List DataEp} {f : DataEp → DataEp}
    (h : ∀ d ∈ ds, EpOk c config b d) (hf : ∀ d ∈ ds, EpOk c config b d → EpOk c config' b' (f d)) :
    ∀ d ∈ ds.map f, EpOk c config' b' d :=
  List.forall_mem_map.2 fun d hd => hf d hd (h d hd)

theorem Sound.abortAll {s : State} (h : Sound s) : Sound (abortAll s) :=
  ⟨h.base.frame rfl, h.device, forall_eps_map h.eps fun _ _ => .aborted⟩

theorem Sound.activateAll {s : State} (h : Sound s) (hc : s.dev.state = .configured) (hr : s.lat.reset = false) :
    Sound (activateAll s) := by
  refine ⟨h.base.frame rfl, h.device, ?_⟩
  have hEps := h.eps
  simp only [activateAll_deps, activateAll_cfg, activateAll_dev, activateAll_lat]
  rw [h.device.config_of_configured hc, hr] at hEps ⊢
  exact forall_eps_map hEps fun _ _ => .activated

/-! ### The device state machine -/

theorem QueueOk.setState {s : State} (h : QueueOk s) (n : DevState) : QueueOk (setState n s) :=
  QueueOk.notify (by simpa [QueueOk] using h) _

theorem BaseOk.setState {s : State} (h : BaseOk s) (n : DevState) : BaseOk (setState n s) :=
  ⟨by simpa [MemoryOk] using h.memory, by simpa using h.argAddr, h.queue.setState n,
    by simpa [ControlOk, Ep0Ok] using h.control⟩

/-- `set_state` writes the state, and the saved state on entering Suspended; `alt` is 0 already (spec/45_device_state.md
R270). -/
theorem setState_dev {s : State} (h : s.dev.alt = 0) (n : DevState) :
    (setState n s).dev = { s.dev with saved := if n = .suspended then s.dev.state else s.dev.saved, state := n } := by
  have hl : (leaveConfigured n s).dev = s.dev := by
    unfold leaveConfigured
    split
    · rw [← h]; rfl
    · rfl
  simp only [setState, notify_dev, enterBelowSuspended_dev, hl]

/-- A change to Suspended or Configured touches no data endpoint (spec/45_device_state.md R270). -/
theorem setState_deps_above {n : DevState} (hn : n.atLeastSuspended = true) (s : State) :
    (setState n s).deps = s.deps := by
  simp [setState, enterBelowSuspended, leaveConfigured, hn]

/-- A change to a state below Suspended leaves every data endpoint Idle and not active (spec/45_device_state.md R270,
R282). -/
theorem setState_eps_below {n : DevState} (hn : n.atLeastSuspended = false) {s : State} {c : Config} {config : Byte}
    {b : Bool} (h : ∀ d ∈ s.deps, EpOk c config b d)
    (hi : s.dev.state.atLeastSuspended = false → ∀ d ∈ s.deps, d.ep.state = .idle) (config' : Byte) (b' : Bool) :
    ∀ d ∈ (setState n s).deps, EpOk c config' b' d := by
  have hd : (setState n s).deps = (leaveConfigured n s).deps.map DataEp.deactivated := by
    simp [setState, enterBelowSuspended, hn]
  rw [hd]
  unfold leaveConfigured
  split
  · exact forall_eps_map (forall_eps_map h fun _ _ => .aborted) fun d hd hok =>
      hok.deactivated (by obtain ⟨e, -, rfl⟩ := List.mem_map.1 hd; exact e.aborted_state)
  · rename_i hs
    have hs : s.dev.state.atLeastSuspended = false := by simpa [hn] using hs
    exact forall_eps_map h fun d hd hok => hok.deactivated (hi hs d hd)

/-- Below Suspended no data endpoint runs (spec/45_device_state.md R282). -/
theorem Sound.idle_below {s : State} (h : Sound s) (hs : s.dev.state.atLeastSuspended = false) :
    ∀ d ∈ s.deps, d.ep.state = .idle := fun d hd => by
  obtain ⟨-, -, -, hIff⟩ := h.device
  refine ((h.eps d hd).at_rest_of_config fun hc => ?_).1
  rcases hIff.1 hc with hc | ⟨hc, -⟩ <;> rw [hc] at hs <;> exact absurd hs (by decide)

/-- A change to a state below Suspended, with `dev.config` 0. -/
theorem Sound.setState_below {s : State} (hb : BaseOk s) (ha : s.dev.alt = 0) (hsv : s.dev.saved ≠ .suspended)
    (hc : s.dev.config = 0) {n : DevState} (hn : n.atLeastSuspended = false) {config : Byte}
    (he : ∀ d ∈ s.deps, EpOk s.cfg config s.lat.reset d)
    (hi : s.dev.state.atLeastSuspended = false → ∀ d ∈ s.deps, d.ep.state = .idle) : Sound (setState n s) := by
  have hne : n ≠ .suspended ∧ n ≠ .configured := by cases n <;> simp_all [DevState.atLeastSuspended, DevState.code]
  refine ⟨hb.setState n, ?_, ?_⟩
  · rw [setState_dev ha, if_neg hne.1]
    exact ⟨ha, hsv, .inl hc, by simp [hc, hne]⟩
  · rw [setState_cfg, setState_lat]
    exact setState_eps_below hn he hi _ _

theorem Sound.setState_below_of {s : State} (h : Sound s) (hc : s.dev.config = 0) {n : DevState}
    (hn : n.atLeastSuspended = false) : Sound (setState n s) := by
  obtain ⟨ha, hsv, -, -⟩ := h.device
  exact .setState_below h.base ha hsv hc hn h.eps h.idle_below

/-- A change to Suspended or Configured, after which the device-wide fields agree. -/
theorem Sound.setState_above {s : State} (hb : BaseOk s) (ha : s.dev.alt = 0) {n : DevState}
    (hn : n.atLeastSuspended = true) (he : ∀ d ∈ s.deps, EpOk s.cfg s.dev.config s.lat.reset d)
    (hd : DevOk { s.dev with saved := if n = .suspended then s.dev.state else s.dev.saved, state := n }) :
    Sound (setState n s) := by
  refine ⟨hb.setState n, by rwa [setState_dev ha], ?_⟩
  rw [setState_deps_above hn, setState_cfg, setState_lat, setState_dev ha]
  exact he

theorem setState_dev_state (n : DevState) (s : State) : (setState n s).dev.state = n := by simp [setState]

/-- SET_CONFIGURATION(1) enters Configured (spec/43_request_dispatch.md R226). -/
theorem Sound.configure {s : State} (h : Sound s) :
    Sound (setState .configured { s with dev := { s.dev with config := Config.configValue } }) := by
  obtain ⟨ha, hsv, -, -⟩ := h.device
  exact .setState_above (s := { s with dev := { s.dev with config := Config.configValue } }) (h.base.frame rfl) ha rfl
    (fun d hd => (h.eps d hd).configured) ⟨ha, hsv, .inr rfl, by simp⟩

/-- SET_CONFIGURATION(0) leaves Configured for Addressed (spec/43_request_dispatch.md R226). -/
theorem Sound.unconfigure {s : State} (h : Sound s) (hs : s.dev.state = .configured) :
    Sound (setState .addressed { s with dev := { s.dev with config := 0 } }) := by
  obtain ⟨ha, hsv, -, -⟩ := h.device
  refine .setState_below (s := { s with dev := { s.dev with config := 0 } }) (h.base.frame rfl) ha hsv rfl rfl h.eps
    fun hb => ?_
  have hb : s.dev.state.atLeastSuspended = false := hb
  rw [hs] at hb
  exact absurd hb (by decide)

/-! ### The bus reset, suspend and resume services -/

/-- Whatever was pending, the bus reset service leaves the invariant (spec/45_device_state.md R275). -/
theorem Sound.serviceReset {s : State} (h : Sound s) : Sound (serviceReset s) := by
  unfold Machine.serviceReset
  obtain ⟨ha, hsv, -, -⟩ := h.device
  obtain ⟨-, -, ⟨-, -, -, hOut, hStage⟩, -, -⟩ := h.base.control
  have hEps := setState_eps_below (n := .default) rfl (s := { s with lat := { s.lat with reset := false } }) h.eps
    h.idle_below 0 false
  refine Sound.notifyIf ⟨⟨?_, ?_, ?_, .at_rest (.reset _) (.inl rfl) rfl rfl ?_ ?_⟩, ?_, ?_⟩ _ _
  · simpa [MemoryOk] using h.base.memory
  · simpa using h.base.argAddr
  · exact QueueOk.setState (s := { s with lat := { s.lat with reset := false } }) h.base.queue .default
  · simpa using hOut
  · simpa using hStage
  · have hd := setState_dev (s := { s with lat := { s.lat with reset := false } }) ha .default
    simp only [hd]
    exact ⟨rfl, hsv, .inl rfl, by simp⟩
  · simp only [setState_cfg, setState_lat]
    exact forall_eps_map hEps fun _ _ => .record_reset

theorem Sound.serviceSuspend {s : State} (h : Sound s) : Sound (serviceSuspend s) := by
  have h1 : Sound { s with lat := { s.lat with suspend := false } } := h.frame rfl
  obtain ⟨ha, -, hc, hIff⟩ := h.device
  unfold Machine.serviceSuspend
  dsimp only
  split
  · rename_i hs
    refine .setState_above h1.base ha rfl h1.eps ⟨ha, hs, hc, hIff.trans ?_⟩
    have hs : s.dev.state ≠ .suspended := hs
    simp [hs]
  · exact h1

theorem Sound.serviceResume {s : State} (h : Sound s) : Sound (serviceResume s) := by
  have h1 : Sound { s with lat := { s.lat with resume := false } } := h.frame rfl
  obtain ⟨ha, hsv, hc, hIff⟩ := h.device
  unfold Machine.serviceResume
  dsimp only
  split
  · rename_i hs
    have hs : s.dev.state = .suspended := hs
    have hIff' : s.dev.config = Config.configValue ↔ s.dev.saved = .configured := by simpa [hs] using hIff
    cases hn : s.dev.saved.atLeastSuspended with
    | true =>
      refine .setState_above h1.base ha hn h1.eps ⟨ha, ?_, hc, ?_⟩
      · simp [hsv]
      · simpa [hsv] using hIff'
    | false =>
      refine h1.setState_below_of (hc.resolve_right fun hc => ?_) hn
      rw [hIff'.1 hc] at hn
      exact absurd hn (by decide)
  · exact h1

end Sys2Proof.Machine
end

section
/-! PROOFS. The invariant through the dispatch of a request (spec/43_request_dispatch.md). `RequestOpen p` holds from the
acceptance of the SETUP `p` to the answer; every handler keeps it. -/

namespace Sys2Proof.Machine

open Sys2Proof

/-! ### The request dispatcher (spec/43_request_dispatch.md) -/

/-- What holds from the acceptance of a SETUP to the end of its dispatch: the invariant, no bus reset pending, the
control transfer of `p` open, and an EP0 that is not Stalled and holds no packet and no `wr`. -/
structure RequestOpen (p : Setup) (s : State) : Prop where
  sound      : Sound s
  noReset    : s.lat.reset = false
  ctlOpen    : s.ctlOpen = true
  setup      : s.setup = p
  wr         : s.ep0.wr = false
  pp         : s.ep0.pp = false
  notStalled : s.ep0.state ≠ .stalled

section

variable {p : Setup} {s : State}

/-- An operation that keeps EP0, the control transfer and the latches. -/
theorem RequestOpen.of_sound (h : RequestOpen p s) {t : State} (ht : Sound t) (hl : t.lat = s.lat)
    (ho : t.ctlOpen = s.ctlOpen) (hp : t.setup = s.setup) (he : t.ep0 = s.ep0) : RequestOpen p t where
  sound := ht
  noReset := hl ▸ h.noReset
  ctlOpen := ho ▸ h.ctlOpen
  setup := hp ▸ h.setup
  wr := he ▸ h.wr
  pp := he ▸ h.pp
  notStalled := he ▸ h.notStalled

theorem RequestOpen.beginTransfer (h : RequestOpen p s) {addr : Addr} (ha : addr.toNat < 2 ^ s.cfg.addrW) (a : Byte)
    (d : Dir) (n : Half) (cb : Bool) : RequestOpen p (beginTransfer a d addr n cb s).2 := by
  have hs := h.sound.beginTransfer ha a d n cb
  obtain ⟨st, hb⟩ | ⟨e, -, -, -, -, -, hb⟩ := beginTransfer_cases a d addr n cb s
  · rwa [hb]
  · rw [hb] at hs ⊢
    cases e with
    | ep0 => exact ⟨hs, h.noReset, h.ctlOpen, h.setup, rfl, h.pp, by cases d <;> simp [armEp, EpRec.arm, Dir.running]⟩
    | data k x => exact h.of_sound hs rfl rfl rfl rfl

/-- In Default and in Addressed `dev.config` is 0. -/
theorem DevOk.config_of_below {v : Dev} (h : DevOk v) (hs : v.state = .default ∨ v.state = .addressed) :
    v.config = 0 := by
  obtain ⟨-, -, hc, hIff⟩ := h
  refine hc.resolve_right fun hc => ?_
  rcases hs with hs | hs <;> simp [hs, hc] at hIff

theorem RequestOpen.loadAddress (h : RequestOpen p s) (v : BitVec 7) : RequestOpen p (loadAddress v s) :=
  h.of_sound (h.sound.frame rfl) rfl rfl rfl rfl

theorem RequestOpen.setAddress (h : RequestOpen p s) : RequestOpen p (setAddress p s).2 := by
  have hMove {n : DevState} (hs : s.dev.state = .default ∨ s.dev.state = .addressed)
      (hn : n.atLeastSuspended = false) : RequestOpen p (setState n s) :=
    h.of_sound (h.sound.setState_below_of (h.sound.device.config_of_below hs) hn) (by simp) (by simp) (by simp)
      (by simp)
  unfold Machine.setAddress
  split
  · exact h
  · dsimp only
    split
    · rename_i hs
      split
      · exact (hMove (.inl hs) rfl).loadAddress _
      · exact h.loadAddress _
    · rename_i hs
      split
      · exact (hMove (.inr hs) rfl).loadAddress _
      · exact h.loadAddress _
    all_goals exact h

theorem RequestOpen.drawProduct (h : RequestOpen p s) : RequestOpen p (drawProduct s).2 := by
  unfold Machine.drawProduct
  split <;> exact h.of_sound (h.sound.frame rfl) rfl rfl rfl rfl

theorem RequestOpen.drawHook (h : RequestOpen p s) : RequestOpen p (drawHook s).2 := by
  unfold Machine.drawHook
  split <;> exact h.of_sound (h.sound.frame rfl) rfl rfl rfl rfl

theorem RequestOpen.select (h : RequestOpen p s) (t i : Byte) : RequestOpen p (select t i s).2 := by
  have hSerial : RequestOpen p (serial s).2 :=
    h.of_sound (h.sound.memWriteBytes _ _) (by simp [serial]) (by simp [serial]) (by simp [serial]) (by simp [serial])
  unfold Machine.select selectString
  split
  · exact h
  · split
    · exact h
    · split
      · split
        · exact h.drawProduct
        · split
          · exact hSerial
          · exact h
      · exact h

/-- A chosen descriptor's address has `ADDR_W` bits (spec/43_request_dispatch.md R222; log entry 14). -/
theorem select_addr_lt {t i : Byte} {s : State} {l : DescLoc} (h : (select t i s).1 = some l) :
    l.addr.toNat < 2 ^ s.cfg.addrW := by
  have hLoc (x : DescLoc) : (locate s.cfg x).addr.toNat < 2 ^ s.cfg.addrW := wrapAddr_lt _ _
  have hMap {o : Option DescLoc} (ho : o.map (locate s.cfg) = some l) : l.addr.toNat < 2 ^ s.cfg.addrW := by
    obtain ⟨x, -, rfl⟩ := Option.map_eq_some_iff.1 ho
    exact hLoc x
  have hIf {b : Prop} [Decidable b] {x : DescLoc} (ho : (if b then some (locate s.cfg x) else none) = some l) :
      l.addr.toNat < 2 ^ s.cfg.addrW := by
    obtain ⟨-, rfl⟩ : b ∧ locate s.cfg x = l := by simpa using ho
    exact hLoc x
  unfold Machine.select selectString at h
  split at h
  · exact hIf h
  · split at h
    · exact hIf h
    · split at h
      · split at h
        · exact hMap h
        · split at h
          · exact Option.some.inj h ▸ hLoc _
          · exact hMap h
      · exact nomatch h

theorem select_cfg (t i : Byte) (s : State) : (select t i s).2.cfg = s.cfg := (select_keeps t i s).1

theorem RequestOpen.getDescriptor (h : RequestOpen p s) : RequestOpen p (getDescriptor p s).2 := by
  unfold Machine.getDescriptor
  split
  · exact h
  · dsimp only
    split
    · exact h.select _ _
    · rename_i l hl
      split
      · exact (h.select _ _).beginTransfer (by rw [select_cfg]; exact select_addr_lt hl) _ _ _ _
      · exact h.select _ _

theorem RequestOpen.setConfiguration (h : RequestOpen p s) : RequestOpen p (setConfiguration p s).2 := by
  unfold Machine.setConfiguration
  split
  · exact h
  · split
    · split
      · have hAct := h.sound.configure.activateAll (setState_dev_state _ _) (by simpa using h.noReset)
        exact h.of_sound hAct (by simp) (by simp) (by simp) (by simp)
      · exact h
    · rename_i hs
      split
      · exact h.of_sound (h.sound.unconfigure hs) (by simp) (by simp) (by simp) (by simp)
      · split
        · exact h.of_sound (h.sound.activateAll hs h.noReset) rfl rfl rfl rfl
        · exact h
    all_goals exact h

theorem RequestOpen.stdDispatch (h : RequestOpen p s) : RequestOpen p (stdDispatch p s).2 := by
  unfold Machine.stdDispatch
  split
  · exact h
  · split
    · exact h.setAddress
    · split
      · exact h.getDescriptor
      · split
        · exact h.setConfiguration
        · split <;> exact h

theorem RequestOpen.applyArm (h : RequestOpen p s) (arm : Option Arm) : RequestOpen p (applyArm p arm s) := by
  cases arm with
  | none => exact h
  | some a => exact h.beginTransfer (wrapAddr_lt _ _) _ _ _ _

theorem RequestOpen.dispatch (h : RequestOpen p s) : RequestOpen p (dispatch p s).2 := by
  unfold Machine.dispatch
  split
  · dsimp only
    split
    · exact h.drawHook.applyArm _
    · exact h.drawHook
    · exact h.drawHook.stdDispatch
  · exact h.stdDispatch

end

end Sys2Proof.Machine
end

section
/-! PROOFS. The invariant through the EP0 services, the data services, the SOF service and the whole invocation
(spec/42_control_transfer.md, spec/44_data_endpoints.md, spec/46_events_and_service.md R315). -/

namespace Sys2Proof.Machine

open Sys2Proof

/-! ### The EP0 services (spec/42_control_transfer.md) -/

/-- The EP0 soft reset ends whatever ran (spec/42_control_transfer.md R172). -/
theorem Sound.ep0SoftReset {s : State} (h : Sound s) : Sound { ep0SoftReset s with ctlOpen := false } := by
  obtain ⟨-, -, ⟨-, -, -, -, hStage⟩, -, -⟩ := h.base.control
  exact h.of_control (.at_rest (.reset _) (.inl rfl) rfl rfl nofun hStage) rfl

theorem Sound.serviceEp0SentStall {s : State} (h : Sound s) : Sound (serviceEp0SentStall s) := h.ep0SoftReset.frame rfl

theorem Sound.serviceEp0SetupEnd {s : State} (h : Sound s) : Sound (serviceEp0SetupEnd s) := by
  obtain ⟨-, -, ⟨-, -, -, -, hStage⟩, -, -⟩ := h.base.control
  exact h.of_control (.at_rest (.reset _) (.inl rfl) rfl rfl nofun hStage) rfl

/-- An accepted SETUP opens its control transfer (spec/42_control_transfer.md R175, R176). -/
theorem Sound.acceptSetup {s : State} (h : Sound s) (hr : s.lat.reset = false) (p : Setup) :
    RequestOpen p (acceptSetup p s) := by
  obtain ⟨-, -, ⟨-, -, -, -, hStage⟩, -, -⟩ := h.base.control
  exact ⟨h.of_control (.at_rest (.reset _) (.inl rfl) rfl rfl nofun hStage) rfl, hr, rfl, rfl, rfl, rfl, nofun⟩

theorem RequestOpen.noDataPhase {p : Setup} {s : State} (h : RequestOpen p s) : Sound (noDataPhase s) := by
  obtain ⟨hRec, -, ⟨-, -, -, hOut, hStage⟩, -, -⟩ := h.sound.base.control
  exact h.sound.of_control (.at_rest hRec (.inl rfl) h.wr h.pp hOut hStage) rfl

theorem Sound.stall0 {s : State} (h : Sound s) : Sound (stall0 s) := by
  obtain ⟨-, -, ⟨-, -, -, hOut, hStage⟩, -, -⟩ := h.base.control
  exact h.of_control (.at_rest (.zero rfl (Nat.two_pow_pos _)) (.inr rfl) rfl rfl hOut hStage) rfl

/-- In an OUT request an EP0 that does not receive is Idle, so it may wait for a READ (spec/42_control_transfer.md
R190). -/
theorem RequestOpen.setWr {p : Setup} {s : State} (h : RequestOpen p s) (hp : p.dir ≠ .in)
    (hs : s.ep0.state ≠ .receiving) : Sound { s with ep0 := { s.ep0 with wr := true } } := by
  obtain ⟨hRec, ⟨hHalted, hStatus⟩, ⟨hTx, hRx, -, hOut, hStage⟩, hIn, hLatch⟩ := h.sound.base.control
  have hIdle : s.ep0.state = .idle := by
    cases hst : s.ep0.state with
    | idle => rfl
    | transmitting => exact absurd (h.setup ▸ (hTx hst).2) hp
    | receiving => exact absurd hst hs
    | halted => exact absurd hst hHalted
    | stalled => exact absurd hst h.notStalled
    | status => exact absurd hst hStatus
  exact h.sound.of_control ⟨hRec, ⟨hHalted, hStatus⟩, ⟨hTx, hRx, fun _ => ⟨hIdle, h.ctlOpen⟩, hOut, hStage⟩, hIn,
    hLatch⟩ rfl

theorem RequestOpen.afterDispatch {p : Setup} {r : Answer × State} (h : RequestOpen p r.2) :
    Sound (afterDispatch p r) := by
  unfold Machine.afterDispatch
  split
  · split
    · exact h.noDataPhase
    · split
      · exact h.sound
      · split
        · exact h.setWr ‹_› ‹_›
        · exact h.sound
  · exact h.sound.stall0
  · exact h.sound.stall0

theorem Sound.serviceEp0Setup {s : State} (h : Sound s) (hr : s.lat.reset = false) : Sound (serviceEp0Setup s) := by
  have h1 : Sound { s with lat := { s.lat with ep0Setup := false } } := h.frame rfl
  unfold Machine.serviceEp0Setup
  dsimp only
  split
  · exact h1
  · split
    · exact h1
    · exact (h1.acceptSetup hr _).dispatch.afterDispatch

/-- The EP0 completion is one record update and one notification (spec/42_control_transfer.md R188). -/
theorem complete0_eq (x : Byte) (s : State) :
    complete0 x s = notifyIf s.ep0.cb ⟨.xferDone, x, 0, 0, s.ep0.moved, s.ep0.rem⟩
      { s with ep0 := s.ep0.completed, ctlOpen := false } := by
  unfold complete0 notifyIf notify
  dsimp only
  split
  · split <;> rfl
  · rfl

/-- A running EP0 has `wr` 0. -/
theorem Sound.wr_of_busy {s : State} (h : Sound s) (hs : s.ep0.state ≠ .idle) : s.ep0.wr = false := by
  obtain ⟨-, -, ⟨-, -, hWr, -, -⟩, -, -⟩ := h.base.control
  exact Bool.eq_false_iff.2 fun hw => hs (hWr hw).1

theorem Sound.complete0 {s : State} (h : Sound s) (hs : s.ep0.state ≠ .idle) (x : Byte) : Sound (complete0 x s) := by
  obtain ⟨hRec, -, ⟨-, -, -, hOut, hStage⟩, hIn, hLatch⟩ := h.base.control
  have hWr := h.wr_of_busy hs
  rw [complete0_eq]
  refine Sound.notifyIf ?_ _ _
  exact h.of_control ⟨hRec, ⟨nofun, nofun⟩,
    ⟨nofun, nofun, fun hw => absurd (hWr.symm.trans hw) Bool.false_ne_true, hOut, hStage⟩, hIn, hLatch⟩ rfl

/-- A packet of EP0 is staged and committed, and its bytes are counted (spec/42_control_transfer.md R182). -/
theorem Sound.ep0Send {s : State} (h : Sound s) {n : Nat} (hn : n ≤ s.ep0.rem.toNat) (bytes : Packet) (last : Bool) :
    Sound (ep0Commit last { fifoWrite0 bytes s with ep0 := s.ep0.advance s.cfg n }) := by
  obtain ⟨hRec, hSt, ⟨hTx, hRx, hWr, hOut, -⟩, hIn, hLatch⟩ := h.base.control
  cases last <;> exact h.of_control ⟨hRec.advance hn, hSt, ⟨hTx, hRx, hWr, hOut, rfl⟩, hIn, hLatch⟩ rfl

theorem Sound.serviceEp0In {s : State} (h : Sound s) : Sound (serviceEp0In s) := by
  have h1 : Sound { s with lat := { s.lat with ep0In := false } } := h.frame rfl
  unfold Machine.serviceEp0In
  dsimp only
  split
  · exact h1
  · rename_i hs
    have hs : s.ep0.state = .transmitting := not_not.1 fun hs' => hs (.inl hs')
    have hn := Nat.min_le_left s.ep0.rem.toNat s.cfg.mps0
    split
    · refine (h1.ep0Send hn _ true).complete0 ?_ _
      simp [EpRec.advance, hs]
    · exact h1.ep0Send hn _ false

/-- EP0 drains a packet that fits, when none is held (spec/42_control_transfer.md R186). -/
theorem Sound.ep0Receive {s : State} (h : Sound s) (hs : s.ep0.state = .receiving) (hp : s.ep0.pp = false) {q : Packet}
    (hq : q.length ≤ s.ep0.rem.toNat) : Sound (ep0Receive q s) := by
  have h1 : Sound (copyOut s.ep0 (fifoRead q q.length) s) := h.memWriteBytes _ _
  obtain ⟨hRec, hSt, hEp0, -, -⟩ := h1.base.control
  unfold Machine.ep0Receive
  generalize hu : copyOut s.ep0 (fifoRead q q.length) s = u at *
  have he : u.ep0 = s.ep0 := by rw [← hu]; simp
  have hu0 : ¬u.ep0.pp = true := by simp [he, hp]
  have h2 : Sound { releaseRx0 u with ep0 := u.ep0.advance u.cfg q.length } :=
    h1.of_control ⟨hRec.advance (he ▸ hq), hSt, hEp0, fun hp => absurd hp hu0, fun hp => absurd hp hu0⟩ rfl
  dsimp only
  split
  · refine Sound.complete0 (h2.frame (t := act .dataEnd _) rfl) ?_ _
    simp [EpRec.advance, he, hs]
  · exact h2

/-- The EP0 OUT service, run when its latch is set and no SetupEnd is pending (spec/42_control_transfer.md R184 to
R186). -/
theorem Sound.serviceEp0Out {s : State} (h : Sound s) (ho : s.lat.ep0Out = true) (he : s.lat.ep0SetupEnd = false) :
    Sound (serviceEp0Out s) := by
  obtain ⟨hRec, hSt, ⟨hTx, hRx, hWr, hOut, hStage⟩, hIn, hLatch⟩ := h.base.control
  have hp : s.ep0.pp = false := Bool.eq_false_iff.2 fun hp => by simp [hLatch hp ho] at he
  have h1 : Sound { s with lat := { s.lat with ep0Out := false } } :=
    h.of_control ⟨hRec, hSt, ⟨hTx, hRx, hWr, nofun, hStage⟩, hIn, fun _ => nofun⟩ rfl
  unfold Machine.serviceEp0Out
  dsimp only
  split
  · exact h1
  · rename_i q hq
    have hq0 : s.rx0 ≠ none := hq ▸ Option.some_ne_none q
    split
    · refine Sound.notifyIf ?_ _ _
      exact h.of_control ⟨hRec, hSt, ⟨hTx, hRx, hWr, nofun, hStage⟩, fun _ => .inl hq0, fun _ => nofun⟩ rfl
    · split
      · rename_i hs _
        have hw := h.wr_of_busy (by rw [not_not.1 hs]; decide)
        refine Sound.notify ?_ _
        exact h.of_control ⟨.zero rfl hRec.2, ⟨nofun, nofun⟩,
          ⟨nofun, nofun, fun hw' => absurd (hw.symm.trans hw') Bool.false_ne_true, nofun, hStage⟩, fun _ => .inl hq0,
          fun _ => nofun⟩ rfl
      · rename_i hs hlen
        exact h1.ep0Receive (not_not.1 hs) hp (Nat.le_of_not_lt hlen)

/-! ### The data services (spec/44_data_endpoints.md) -/

/-- Two changes of one data endpoint are one. -/
theorem modifyEp_modifyEp (s : State) (k : Nat) (f g : DataEp → DataEp) :
    (s.modifyEp k f).modifyEp k g = s.modifyEp k (g ∘ f) := by
  simp [State.modifyEp, List.modify_modify_eq]

theorem Sound.clearLatch {s : State} (h : Sound s) (k : Nat) : Sound (s.modifyEp k DataEp.clearLatch) :=
  h.modifyEp fun _ _ hd => hd.clearLatch

theorem getElem?_modifyEp_same {s : State} {k : Nat} {d : DataEp} (hd : s.deps[k]? = some d) (f : DataEp → DataEp) :
    (s.modifyEp k f).deps[k]? = some (f d) := by
  simp [List.getElem?_modify_eq, hd]

/-- A data transfer completes, on an endpoint with an empty buffer and no latch (spec/44_data_endpoints.md R257). -/
theorem Sound.completeData {s : State} (h : Sound s) {k : Nat} {d : DataEp} (hd : s.deps[k]? = some d)
    (hl : d.latch = false) (hk : d.pkt = none) : Sound (completeData k s) := by
  unfold Machine.completeData withEp
  rw [hd]
  refine (h.notifyIf _ _).modifyEp fun x hx hok => ?_
  rw [notifyIf_deps, hd] at hx
  obtain rfl := Option.some.inj hx
  exact hok.completed hl hk

theorem Sound.serviceDataIn {s : State} (h : Sound s) (k : Nat) : Sound (serviceDataIn k s) := by
  unfold Machine.serviceDataIn withEp
  split
  · exact h
  · rename_i d hd
    dsimp only
    split
    · exact h.clearLatch k
    · rename_i hs
      obtain ⟨hs, hk⟩ := not_or.1 hs
      split
      · rename_i hr
        change Sound (act _ (((s.modifyEp k _).modifyEp k _).modifyEp k _))
        rw [modifyEp_modifyEp, modifyEp_modifyEp]
        refine (h.modifyEp (k := k) fun x hx hok => ?_).frame rfl
        obtain rfl := Option.some.inj (hd.symm.trans hx)
        exact hok.clearLatch.send (not_not.1 hs) hr _
      · exact (h.clearLatch k).completeData (getElem?_modifyEp_same hd _) rfl (not_not.1 hk)

theorem Sound.dataReceive {s : State} (h : Sound s) {k : Nat} {d : DataEp} (hd : s.deps[k]? = some d.clearLatch)
    (hdir : d.desc.dir = .out) (hp : d.ep.pp = false) {q : Packet} (hq : q.length ≤ d.ep.rem.toNat) :
    Sound (dataReceive k d q s) := by
  have h1 : Sound (copyOut d.ep (fifoRead q q.length) s) := h.memWriteBytes _ _
  unfold Machine.dataReceive
  generalize hu : copyOut d.ep (fifoRead q q.length) s = u at *
  have hdu : u.deps[k]? = some d.clearLatch := by rw [← hu]; simpa using hd
  have h2 : Sound ((releaseRx k d u).modifyRec k (fun r => r.advance u.cfg q.length)) := by
    change Sound (act _ ((u.modifyEp k _).modifyEp k _))
    rw [modifyEp_modifyEp]
    refine (h1.modifyEp (k := k) fun x hx hok => ?_).frame rfl
    obtain rfl := Option.some.inj (hdu.symm.trans hx)
    exact hok.drain hdir hp hq
  have hd2 := getElem?_modifyEp_same (getElem?_modifyEp_same hdu (fun d => { d with pkt := none }))
    (fun x => { x with ep := x.ep.advance u.cfg q.length })
  dsimp only
  split
  · exact h2.completeData hd2 rfl rfl
  · exact h2

theorem Sound.serviceDataOut {s : State} (h : Sound s) {k : Nat} (hdir : ∀ d, s.deps[k]? = some d → d.desc.dir = .out)
    (hl : latchOf k s = true) : Sound (serviceDataOut k s) := by
  unfold Machine.serviceDataOut withEp
  split
  · exact h
  · rename_i d hd
    have hout := hdir d hd
    have hp : d.ep.pp = false := Bool.eq_false_iff.2 fun hp => by
      obtain ⟨-, hl', -⟩ := (h.eps d (List.mem_of_getElem? hd)).held hp
      rw [latchOf_eq hd, hl'] at hl
      exact absurd hl Bool.false_ne_true
    dsimp only
    split
    · exact h.clearLatch k
    · rename_i q hq
      have hk : d.pkt ≠ none := hq ▸ Option.some_ne_none q
      have hd1 := getElem?_modifyEp_same hd DataEp.clearLatch
      split
      · refine ((h.clearLatch k).modifyEp fun x hx hok => ?_).notify _
        obtain rfl := Option.some.inj (hd1.symm.trans hx)
        exact hok.hold hout rfl hk
      · split
        · refine ((h.clearLatch k).modifyEp fun x hx hok => ?_).notify _
          obtain rfl := Option.some.inj (hd1.symm.trans hx)
          exact hok.overrun hout rfl hk
        · rename_i hlen
          exact (h.clearLatch k).dataReceive hd1 hout hp (Nat.le_of_not_lt hlen)

/-- Serving places that all have one direction, with a step that keeps the invariant there. -/
theorem Sound.serviceEach {f : Nat → State → State} {dir : Dir}
    (hf : ∀ k s, Sound s → (∀ d, s.deps[k]? = some d → d.desc.dir = dir) → latchOf k s = true → Sound (f k s))
    (hdesc : ∀ k, KeepsDescs (f k)) {ks : List Nat} {s : State} (h : Sound s)
    (hks : ∀ k ∈ ks, ∀ e, (s.deps.map DataEp.desc)[k]? = some e → e.dir = dir) : Sound (serviceEach f ks s) := by
  induction ks generalizing s with
  | nil => exact h
  | cons k ks ih =>
    rw [Machine.serviceEach]
    refine ih ?_ fun j hj => ?_
    · unfold serviceWhen
      split
      · exact hf k s h (fun d hd => hks k (by simp) d.desc (by simp [hd])) ‹_›
      · exact h
    · rw [serviceWhen_descs (hdesc k) s]
      exact hks j (by simp [hj])

theorem epOrder_dir {dir : Dir} {ds : List DataEp} : ∀ k ∈ epOrder dir ds, ∀ e, (ds.map DataEp.desc)[k]? = some e →
    e.dir = dir := fun k hk e he => by
  obtain ⟨d, hd, hdir⟩ := mem_epOrder hk
  rw [List.getElem?_map, hd] at he
  exact Option.some.inj he ▸ hdir

theorem Sound.serviceDataStalls {s : State} (h : Sound s) : Sound (serviceDataStalls s) :=
  ⟨h.base.frame rfl, h.device, forall_eps_map h.eps fun _ _ hd => hd.setStall false⟩

theorem Sound.serviceData {s : State} (h : Sound s) : Sound (serviceData s) := by
  have hOut : Sound (Machine.serviceEach Machine.serviceDataOut (epOrder .out s.deps) s) :=
    h.serviceEach (fun _ _ hs hd hl => hs.serviceDataOut hd hl) serviceDataOut_descs epOrder_dir
  exact (hOut.serviceEach (fun k _ hs _ _ => hs.serviceDataIn k) serviceDataIn_descs epOrder_dir).serviceDataStalls

/-! ### The service invocation (spec/46_events_and_service.md R315) -/

/-- A service step, whether its latch is set or not. -/
theorem serviceWhen_of {P Q : State → Prop} {latch : State → Bool} {f : State → State} {s : State}
    (hf : latch s = true → P s → Q (f s)) (hn : latch s = false → P s → Q s) (h : P s) : Q (serviceWhen latch f s) := by
  unfold serviceWhen
  split
  · exact hf ‹_› h
  · exact hn (Bool.eq_false_iff.2 ‹_›) h

theorem serviceReset_lat (s : State) : (serviceReset s).lat = { s.lat with reset := false } := by
  simp [serviceReset]

theorem serviceSuspend_lat (s : State) : (serviceSuspend s).lat = { s.lat with suspend := false } := by
  unfold serviceSuspend
  dsimp only
  split <;> simp

theorem serviceResume_lat (s : State) : (serviceResume s).lat = { s.lat with resume := false } := by
  unfold serviceResume
  dsimp only
  split <;> simp

theorem serviceEp0Setup_lat (s : State) :
    (serviceEp0Setup s).lat.reset = s.lat.reset ∧ (serviceEp0Setup s).lat.ep0SetupEnd = s.lat.ep0SetupEnd := by
  rw [(serviceEp0Setup_keeps s).2]
  exact ⟨rfl, rfl⟩

/-- The invariant with no bus reset pending. -/
def AfterReset (s : State) : Prop := Sound s ∧ s.lat.reset = false

/-- The invariant with no bus reset and no SetupEnd pending. -/
def AfterSetupEnd (s : State) : Prop := AfterReset s ∧ s.lat.ep0SetupEnd = false

/-- The device-wide and EP0 services, in the order of R315: the bus reset is served before the SETUP, which may activate
the endpoints, and the SetupEnd before the EP0 OUT packet. -/
theorem Sound.serviceControl {s : State} (h : Sound s) : Sound (serviceControl s) := by
  unfold Machine.serviceControl
  dsimp only
  refine serviceWhen_of (P := Sound) (fun _ h => h.serviceEp0In) (fun _ h => h) ?_
  refine serviceWhen_of (P := AfterSetupEnd) (fun hl h => h.1.1.serviceEp0Out hl h.2) (fun _ h => h.1.1) ?_
  refine serviceWhen_of (P := AfterSetupEnd) (Q := AfterSetupEnd) (fun _ ⟨⟨h, hr⟩, he⟩ => ?_) (fun _ h => h) ?_
  · obtain ⟨hr', he'⟩ := serviceEp0Setup_lat _
    exact ⟨⟨h.serviceEp0Setup hr, hr'.trans hr⟩, he'.trans he⟩
  refine serviceWhen_of (P := AfterReset) (Q := AfterSetupEnd) (fun _ ⟨h, hr⟩ => ⟨⟨h.serviceEp0SetupEnd, hr⟩, rfl⟩)
    (fun hl h => ⟨h, hl⟩) ?_
  refine serviceWhen_of (P := AfterReset) (Q := AfterReset) (fun _ ⟨h, hr⟩ => ⟨h.serviceEp0SentStall, hr⟩)
    (fun _ h => h) ?_
  refine serviceWhen_of (P := AfterReset) (Q := AfterReset)
    (fun _ ⟨h, hr⟩ => ⟨h.serviceResume, by rw [serviceResume_lat]; exact hr⟩) (fun _ h => h) ?_
  refine serviceWhen_of (P := AfterReset) (Q := AfterReset)
    (fun _ ⟨h, hr⟩ => ⟨h.serviceSuspend, by rw [serviceSuspend_lat]; exact hr⟩) (fun _ h => h) ?_
  exact serviceWhen_of (P := Sound) (Q := AfterReset) (fun _ h => ⟨h.serviceReset, by rw [serviceReset_lat]⟩)
    (fun hl h => ⟨h, hl⟩) h

theorem Sound.rearm0 {s : State} (h : Sound s) : Sound (rearm0 s) := by
  obtain ⟨hRec, hSt, ⟨hTx, hRx, hWr, -, hStage⟩, -, -⟩ := h.base.control
  unfold Machine.rearm0
  split
  · rename_i hr
    obtain ⟨-, hs, -⟩ := hr
    exact h.of_control ⟨hRec, hSt, ⟨hTx, hRx, hWr, fun _ => (hRx hs).2, hStage⟩, nofun, nofun⟩ rfl
  · exact h

theorem Sound.serviceSof {s : State} (h : Sound s) : Sound (serviceSof s) := by
  have h1 : Sound (Machine.rearm0 { s with lat := { s.lat with sof := false } }) :=
    Sound.rearm0 (h.frame rfl)
  refine Sound.notifyIf ?_ _ _
  exact ⟨h1.base.frame rfl, h1.device, forall_eps_map h1.eps fun _ _ hd => hd.rearmed⟩

/-- A service invocation keeps the invariant, whatever is pending (spec/46_events_and_service.md R315, R320). -/
theorem Sound.service {s : State} (h : Sound s) : Sound (service s) := by
  unfold Machine.service
  dsimp only
  exact (serviceWhen_of (fun _ h => h.serviceSof) (fun _ h => h)
    (h.notifyIf _ _).serviceControl.serviceData).notifyIf _ _

end Sys2Proof.Machine
end

section
/-! PROOFS. The invariant through every instruction and every agent's step (`exec_sound`, `step_sound`), and O50
and O51. -/

namespace Sys2Proof.Machine

open Sys2Proof

/-! ### Commands -/

/-- If the step has a next state, it meets the invariant; a fault or refusal leaves none. -/
def AnswersSound : StepResult → Prop
  | .next t => Sound t
  | .fault _ | .refused _ => True

/-- Power-on reset of a configuration, over a memory that meets the invariant (spec/10_state.md R49). -/
theorem Sound.resetWith {c : Config} {m : Memory} (h : MemoryOk (State.resetWith c m)) :
    Sound (State.resetWith c m) where
  base := ⟨h, Nat.two_pow_pos _, Nat.zero_le _, .at_rest (.reset c) (.inl rfl) rfl rfl nofun rfl⟩
  device := ⟨rfl, nofun, .inl rfl, by simp [State.resetWith, Dev.reset]⟩
  eps := List.forall_mem_map.2 fun e _ => .reset e

theorem Sound.initState {s : State} (h : Sound s) : Sound (initState s) :=
  (Sound.resetWith (c := s.cfg) (m := s.mem) h.base.memory).frame rfl

/-- What DISCONNECT leaves of the fields that the invariant reads, after its `set_state` (spec/45_device_state.md
R280). -/
def State.detached (s : State) : State :=
  { s with
    ep0 := EpRec.reset, ctlOpen := false, rx0 := none, tx0stage := [], lat := Latches.none
    deps := s.deps.map (fun d => { d with latch := false, stall := false })
    dev := { s.dev with addr := 0, config := 0, alt := 0 } }

theorem disconnectState_guarded (s : State) : (disconnectState s).guarded
    = (setState .attached (act (.pullup false) { s with dev := { s.dev with pullup := false } })).detached.guarded := by
  unfold disconnectState
  dsimp only
  generalize setState .attached (act (.pullup false) { s with dev := { s.dev with pullup := false } }) = u
  unfold clearStall
  split <;> rfl

theorem Sound.detached {s : State} (hb : BaseOk s) (hs : s.dev.state = .attached) (hsv : s.dev.saved ≠ .suspended)
    (he : ∀ d ∈ s.deps, EpOk s.cfg 0 false d) : Sound s.detached where
  base := ⟨hb.memory, hb.argAddr, hb.queue, .at_rest (.reset _) (.inl rfl) rfl rfl nofun rfl⟩
  device := ⟨rfl, hsv, .inl rfl, by simp [State.detached, hs]⟩
  eps := forall_eps_map he fun _ _ hd => hd.clearLatch.setStall false

theorem Sound.disconnectState {s : State} (h : Sound s) : Sound (disconnectState s) := by
  obtain ⟨ha, hsv, -, -⟩ := h.device
  have h1 : Sound (act (.pullup false) { s with dev := { s.dev with pullup := false } }) := h.frame rfl
  have hSet := setState_dev (s := act (.pullup false) { s with dev := { s.dev with pullup := false } }) ha .attached
  have hEps := setState_eps_below (n := .attached) rfl h1.eps h1.idle_below 0 false
  refine Sound.frame (Sound.detached (h1.base.setState _) ?_ ?_ ?_) (disconnectState_guarded s)
  · rw [hSet]
  · rw [hSet]
    exact hsv
  · rwa [setState_cfg]

theorem transferCommand_sound {s : State} (h : Sound s) (epa : Byte) (d : Dir) (cb : Bool) :
    Sound (transferCommand epa d cb s) :=
  (h.beginTransfer h.base.argAddr epa d s.argLen cb).setResult _ _

theorem onEndpoint_sound {s : State} (h : Sound s) (epa : Byte) {f : EpRef → State → State} (hf : ∀ e, Sound (f e s)) :
    Sound (onEndpoint epa f s) := by
  unfold onEndpoint
  split
  · exact h.setResult _ _
  · exact hf _

/-! ### Events (spec/46_events_and_service.md R302 to R310) -/

theorem deliver_sound {admitted : Bool} {t : State} (h : admitted = true → Sound t) :
    AnswersSound (deliver admitted t) := by
  cases admitted
  · trivial
  · exact h rfl

theorem Sound.busResetState {s : State} (h : Sound s) : Sound (busResetState s) := by
  obtain ⟨hRec, hSt, ⟨hTx, hRx, hWr, -, -⟩, -, -⟩ := h.base.control
  exact ⟨⟨h.base.memory, h.base.argAddr, h.base.queue, hRec, hSt, ⟨hTx, hRx, hWr, nofun, rfl⟩,
    fun _ => .inr (.inl rfl), fun _ => nofun⟩, h.device, forall_eps_map h.eps fun _ _ hd => hd.busReset⟩

theorem Sound.setupState {s : State} (h : Sound s) (pay : Packet) : Sound (setupState pay s) := by
  obtain ⟨hRec, hSt, ⟨hTx, hRx, hWr, hOut, -⟩, -, hLatch⟩ := h.base.control
  exact h.of_control ⟨hRec, hSt, ⟨hTx, hRx, hWr, hOut, rfl⟩, fun _ => .inl (Option.some_ne_none _),
    fun hp ho => by simp [Machine.setupState, hLatch hp ho]⟩ rfl

/-- EV_SETUPEND empties the buffer of a held packet, and its latch stands for it (spec/46_events_and_service.md R307;
log entry 15). -/
theorem Sound.setupEnd {s : State} (h : Sound s) :
    Sound { s with tx0 := none, rx0 := none, lat := { s.lat with ep0SetupEnd := true } } := by
  obtain ⟨hRec, hSt, hEp0, -, -⟩ := h.base.control
  exact h.of_control ⟨hRec, hSt, hEp0, fun _ => .inr (.inr rfl), fun _ _ => rfl⟩ rfl

/-- An OUT packet of an OUT request arrives while no packet is in the buffer and no bus reset is pending, so a packet
held then awaits its SetupEnd (spec/46_events_and_service.md R308). -/
theorem Sound.receive0 {s : State} (h : Sound s) {pay : Packet} (ha : out0Admitted pay s = true) :
    Sound { s with rx0 := some pay, lat := { s.lat with ep0Out := true } } := by
  simp only [out0Admitted, Bool.and_eq_true, Bool.not_eq_true', Option.isNone_iff_eq_none, beq_iff_eq] at ha
  obtain ⟨⟨⟨⟨⟨⟨⟨-, hRx0⟩, hReset⟩, -⟩, hDir⟩, -⟩, -⟩, -⟩ := ha
  obtain ⟨hRec, hSt, ⟨hTx, hRx, hWr, -, hStage⟩, hIn, -⟩ := h.base.control
  exact h.of_control ⟨hRec, hSt, ⟨hTx, hRx, hWr, fun _ => hDir, hStage⟩, fun _ => .inl (Option.some_ne_none _),
    fun hp _ => by simpa [hRx0, hReset] using hIn hp⟩ rfl

theorem execEvOut_sound {s : State} (h : Sound s) (epa : Byte) (pay : Packet) : AnswersSound (execEvOut epa pay s) := by
  unfold execEvOut
  split
  · trivial
  · refine deliver_sound fun ha => h.receive0 (pay := pay) ?_
    simp only [Bool.and_eq_true] at ha
    exact ha.2
  · rename_i k d hl
    refine deliver_sound fun ha => h.modifyEp fun x hx hok => ?_
    obtain ⟨hk, -, hdir, -⟩ := lookup_data hl
    obtain rfl := Option.some.inj (hk.symm.trans hx)
    simp only [outAdmitted, Bool.and_eq_true, Bool.not_eq_true', Option.isNone_iff_eq_none] at ha
    obtain ⟨hmsb, ⟨⟨-, hpkt⟩, hact⟩, -⟩ := ha
    exact hok.receive (by simp [hdir, epaDir, hmsb]) hact hpkt pay

theorem execEvInTaken_sound {s : State} (h : Sound s) (epa : Byte) : AnswersSound (execEvInTaken epa s) := by
  unfold execEvInTaken
  split
  · trivial
  · exact deliver_sound fun _ => h.frame rfl
  · rename_i k d hl
    refine deliver_sound fun ha => ?_
    have h1 : Sound (s.modifyEp k DataEp.taken) := h.modifyEp fun x hx hok => by
      obtain ⟨hk, -, hdir, -⟩ := lookup_data hl
      obtain rfl := Option.some.inj (hk.symm.trans hx)
      simp only [Bool.and_eq_true] at ha
      obtain ⟨⟨⟨hmsb, -⟩, hpkt⟩, -⟩ := ha
      exact hok.taken (by simp [hdir, epaDir, hmsb]) (Option.isSome_iff_ne_none.1 hpkt)
    exact h1.frame rfl

theorem execEvSentStall_sound {s : State} (h : Sound s) (epa : Byte) : AnswersSound (execEvSentStall epa s) := by
  unfold execEvSentStall
  split
  · trivial
  · exact deliver_sound fun _ => h.frame rfl
  · exact deliver_sound fun _ => h.modifyEp fun _ _ hok => hok.setStall true

/-- Every instruction keeps the invariant. -/
theorem exec_sound (i : Instr) {s : State} (h : Sound s) : AnswersSound (exec i s) := by
  cases i with
  | init =>
    have h1 : Sound (act (.pullup false) (initState s)) := h.initState.frame rfl
    exact (h1.notify _).setResult _ _
  | connect => exact Sound.frame h rfl
  | disconnect => exact h.disconnectState.setResult _ _
  | write epa cb => exact transferCommand_sound h epa .in cb
  | read epa cb => exact transferCommand_sound h epa .out cb
  | abort epa => exact onEndpoint_sound h epa fun e => (h.abort e).setResult _ _
  | abortAll => exact h.abortAll.setResult _ _
  | isBusy epa => exact onEndpoint_sound h epa fun _ => h.setResult _ _
  | remaining epa => exact onEndpoint_sound h epa fun _ => h.setResult _ _
  | poll => exact h.service.setResult _ _
  | evBusReset => exact deliver_sound fun _ => h.busResetState
  | evSuspend | evResume | evSof frame => exact deliver_sound fun _ => h.frame rfl
  | evSetup pay => exact deliver_sound fun _ => h.setupState pay
  | evSetupEnd => exact deliver_sound fun _ => h.setupEnd
  | evOut epa pay => exact execEvOut_sound h epa pay
  | evInTaken epa => exact execEvInTaken_sound h epa
  | evSentStall epa => exact execEvSentStall_sound h epa

/-! ### Steps -/

/-- Removing the oldest record leaves no more than there were (spec/10_state.md R29). -/
theorem Sound.dropRecord {s : State} (h : Sound s) : Sound { s with nq := s.nq.tail } := by
  refine ⟨⟨h.base.memory, h.base.argAddr, ?_, h.base.control⟩, h.device, h.eps⟩
  exact (by simp : s.nq.tail.length ≤ s.nq.length).trans h.base.queue

theorem Sound.notifyPop {s : State} (h : Sound s) (w : Word) : Sound (notifyPop w s) := by
  have h1 : Sound (if w.getLsbD 0 then { s with nq := s.nq.tail } else s) := by
    split
    · exact h.dropRecord
    · exact h
  unfold Machine.notifyPop
  dsimp only
  split
  · exact h1.frame rfl
  · exact h1

theorem Sound.regStore {s : State} (h : Sound s) (off : Nat) (w : Word) : Sound (regStore off w s) := by
  unfold Machine.regStore
  split
  · exact ⟨⟨h.base.memory, wrapAddr_lt _ _, h.base.queue, h.base.control⟩, h.device, h.eps⟩
  · split
    · exact h.frame rfl
    · split
      · exact h.notifyPop w
      · split
        · exact h.frame rfl
        · exact h

theorem Sound.checkOwned {s : State} (h : Sound s) (addr : Nat) : Sound (checkOwned addr s) := by
  unfold Machine.checkOwned
  split
  · exact h.frame rfl
  · exact h

theorem runCommand_sound {s : State} (h : Sound s) (w : Word) : AnswersSound (runCommand w s) := by
  unfold runCommand
  split
  · exact exec_sound _ h
  · exact h.setResult _ _

theorem runEvent_sound {s : State} (h : Sound s) (w : Word) (pay : Packet) : AnswersSound (runEvent w pay s) := by
  unfold runEvent
  split
  · exact exec_sound _ h
  · trivial

theorem cpuRegRead_sound {s : State} (h : Sound s) (addr bits : Nat) : AnswersSound (cpuRegRead addr bits s) := by
  unfold cpuRegRead
  split
  · trivial
  · split
    · exact h.frame rfl
    · exact h.frame rfl

theorem cpuRegWrite_sound {s : State} (h : Sound s) (addr bits : Nat) (w : Word) :
    AnswersSound (cpuRegWrite addr bits w s) := by
  unfold cpuRegWrite
  split
  · trivial
  · split
    · exact h.frame rfl
    · split
      · exact runCommand_sound h w
      · exact h.regStore _ w

theorem cpuMemRead_sound {s : State} (h : Sound s) (addr : Nat) : AnswersSound (cpuMemRead addr s) := by
  unfold cpuMemRead
  split
  · have h1 : Sound { s with readData := some ((memRead s addr).zeroExtend 32) } := h.frame rfl
    exact h1.checkOwned addr
  · trivial

theorem cpuMemWrite_sound {s : State} (h : Sound s) (addr : Nat) (v : Byte) : AnswersSound (cpuMemWrite addr v s) := by
  unfold cpuMemWrite
  split
  · exact Sound.checkOwned (h.memWriteBytes addr [v]) addr
  · trivial

theorem runService_sound {s : State} (h : Sound s) : AnswersSound (runService s) := by
  unfold runService
  split
  · exact h.service
  · trivial

theorem idleStep_sound {s : State} (h : Sound s) : AnswersSound (idleStep s) := by
  unfold idleStep
  split
  · exact h.service
  · trivial

theorem deliverStimulus_sound {s : State} (h : Sound s) (x : Stimulus) : AnswersSound (deliverStimulus x s) := by
  cases x with
  | regRead addr bits => exact cpuRegRead_sound h addr bits
  | regWrite addr bits w => exact cpuRegWrite_sound h addr bits w
  | memRead addr => exact cpuMemRead_sound h addr
  | memWrite addr v => exact cpuMemWrite_sound h addr v
  | event w pay => exact runEvent_sound h w pay
  | service => exact runService_sound h

/-- Every step keeps the invariant. -/
theorem step_sound {s : State} (h : Sound s) : AnswersSound (step s) := by
  unfold step
  split
  · exact idleStep_sound h
  · rename_i x rest _
    have h1 : Sound { s with inputs := rest } := h.frame rfl
    exact deliverStimulus_sound h1 x

end Sys2Proof.Machine

namespace Sys2Proof.Proofs

open Sys2Proof.Machine

/-- Settles O50: `step_sound` keeps the invariant but for the table's shape, by one lemma for each operation, and
`step_sameTable` the shape. -/
theorem stepKeepsInvariant : Obligations.StepKeepsInvariant := by
  unfold Obligations.StepKeepsInvariant
  intro s t hi ht
  have hSound := step_sound hi.sound
  have hTable := step_sameTable hi.table
  rw [ht] at hSound hTable
  obtain ⟨hCfg, hDescs⟩ := hTable
  have hShape : s.deps.map DataEp.desc = s.cfg.eps := hi.table
  exact Sound.inv hSound (hDescs.trans (hShape.trans (congrArg Config.eps hCfg.symm)))

/-- Settles O51: the power-on state meets the invariant (`Sound.resetWith`), which does not read the schedule and the
draws; every other clause is R49 read off `State.resetWith`. -/
theorem powerOnResetMeetsInvariant : Obligations.PowerOnResetMeetsInvariant := by
  unfold Obligations.PowerOnResetMeetsInvariant
  rintro s ⟨cfg, mem, inputs, hookIn, productIn, rfl⟩ hm
  have hReset : Sound (State.resetWith cfg mem) := Sound.resetWith hm
  have hSound : Sound { State.resetWith cfg mem with inputs := inputs, hookIn := hookIn, productIn := productIn } :=
    hReset.frame rfl
  have hShape : (cfg.eps.map DataEp.reset).map DataEp.desc = cfg.eps := by simp [Function.comp_def]
  have hDeps : ∀ d ∈ cfg.eps.map DataEp.reset, d.ep = ⟨.idle, 0, 0, 0, false, false, false⟩ ∧ d.active = false
      ∧ d.pkt = none ∧ d.latch = false ∧ d.stall = false :=
    List.forall_mem_map.2 fun _ _ => ⟨rfl, rfl, rfl, rfl, rfl⟩
  have hQuiet : (cfg.eps.map DataEp.reset).any (fun d => d.latch || d.stall) = false := by
    simp [DataEp.reset]
  exact ⟨hSound.inv hShape, rfl, rfl, rfl, hQuiet, rfl, rfl, rfl, rfl, rfl, rfl, rfl, rfl, rfl, rfl, rfl, rfl, rfl, rfl,
    rfl, rfl, rfl, hDeps⟩

end Sys2Proof.Proofs
end

section
/-! PROOFS. Which instructions a port decodes to (spec/30_encoding.md R95, R99), what an aligned access of the register
window does (spec/10_state.md R22 to R32), and O5 and O45. -/

namespace Sys2Proof

/-! ### Which instructions a port decodes to (spec/30_encoding.md R95, R99) -/

/-- Every instruction that a decoding can answer has a property. -/
def DecodesTo (P : Instr → Prop) (r : Except DecodeError Instr) : Prop := ∀ i, r = .ok i → P i

section

variable {P : Instr → Prop} {x y : Except DecodeError Instr}

theorem DecodesTo.error (e : DecodeError) : DecodesTo P (.error e) := fun _ h => nomatch h

theorem DecodesTo.ok {i : Instr} (h : P i) : DecodesTo P (.ok i) := fun _ hi => Except.ok.inj hi ▸ h

theorem DecodesTo.ite {b : Prop} [Decidable b] (hx : b → DecodesTo P x) (hy : ¬b → DecodesTo P y) :
    DecodesTo P (if b then x else y) := by
  split
  · exact hx ‹_›
  · exact hy ‹_›

/-- A check that rejects: what is answered past it. -/
theorem DecodesTo.check {b : Prop} [Decidable b] {e : DecodeError} (hx : ¬b → DecodesTo P x) :
    DecodesTo P (if b then .error e else x) := .ite (fun _ => .error e) hx

theorem DecodesTo.plainCommand {w : Word} {i : Instr} (h : cbField w = false → epaField w = 0 → P i) :
    DecodesTo P (plainCommand w i) :=
  .check fun hcb => .check fun hepa => .ok (h (by simpa using hcb) (not_not.1 hepa))

theorem DecodesTo.endpointCommand {w : Word} {f : Byte → Instr} (h : P (f (epaField w))) :
    DecodesTo P (endpointCommand w f) := .check fun _ => .ok h

theorem DecodesTo.plainEvent {w : Word} {pay : Packet} {i : Instr} (h : P i) : DecodesTo P (plainEvent w pay i) :=
  .check fun _ => .check fun _ => .check fun _ => .ok h

/-- The rows of R95, INIT apart from the others. -/
theorem DecodesTo.command {w : Word}
    (hInit : w.extractLsb' 9 7 = 0 → w.extractLsb' 0 8 = 0 → codeField w = 0x01 → cbField w = false →
      epaField w = 0 → P .init)
    (h : ∀ i, (encode i).port = .cmd → i ≠ .init → P i) : DecodesTo P (decodeCommand w) :=
  .check fun hr => .ite (fun hc => .plainCommand fun hcb hepa => by
      obtain ⟨h9, h0⟩ := not_or.1 hr
      exact hInit (not_not.1 h9) (not_not.1 h0) hc hcb hepa) fun _ =>
    .ite (fun _ => .plainCommand fun _ _ => h _ rfl nofun) fun _ =>
    .ite (fun _ => .plainCommand fun _ _ => h _ rfl nofun) fun _ =>
    .ite (fun _ => .ok (h _ rfl nofun)) fun _ =>
    .ite (fun _ => .ok (h _ rfl nofun)) fun _ =>
    .ite (fun _ => .endpointCommand (h _ rfl nofun)) fun _ =>
    .ite (fun _ => .plainCommand fun _ _ => h _ rfl nofun) fun _ =>
    .ite (fun _ => .endpointCommand (h _ rfl nofun)) fun _ =>
    .ite (fun _ => .endpointCommand (h _ rfl nofun)) fun _ =>
    .ite (fun _ => .plainCommand fun _ _ => h _ rfl nofun) fun _ => .error _

/-- The rows of R99. -/
theorem DecodesTo.event {w : Word} {pay : Packet} (h : ∀ i, (encode i).port = .bus → P i) :
    DecodesTo P (decodeEvent w pay) :=
  .check fun _ => .ite (fun _ => .plainEvent (h _ rfl)) fun _ =>
    .ite (fun _ => .plainEvent (h _ rfl)) fun _ =>
    .ite (fun _ => .plainEvent (h _ rfl)) fun _ =>
    .ite (fun _ => .check fun _ => .check fun _ => .ok (h _ rfl)) fun _ =>
    .ite (fun _ => .check fun _ => .check fun _ => .check fun _ => .ok (h _ rfl)) fun _ =>
    .ite (fun _ => .plainEvent (h _ rfl)) fun _ =>
    .ite (fun _ => .check fun _ => .check fun _ => .ok (h _ rfl)) fun _ =>
    .ite (fun _ => .check fun _ => .check fun _ => .check fun _ => .ok (h _ rfl)) fun _ =>
    .ite (fun _ => .check fun _ => .check fun _ => .ok (h _ rfl)) fun _ => .error _

end

/-- A command word decodes to a command (R95). -/
theorem decodeCommand_port {w : Word} {i : Instr} (h : decodeCommand w = .ok i) : (encode i).port = .cmd :=
  DecodesTo.command (P := fun i => (encode i).port = .cmd) (fun _ _ _ _ _ => rfl) (fun _ hp _ => hp) i h

/-- An event word decodes to an event (R99). -/
theorem decodeEvent_port {w : Word} {pay : Packet} {i : Instr} (h : decodeEvent w pay = .ok i) :
    (encode i).port = .bus :=
  DecodesTo.event (P := fun i => (encode i).port = .bus) (fun _ hp => hp) i h

/-- Only one word decodes to INIT (R95). -/
theorem decodeCommand_init {w : Word} (h : decodeCommand w = .ok .init) : w = 0x01000000 := by
  refine DecodesTo.command (P := fun i => i = .init → w = 0x01000000) (fun h9 h0 hc hcb hepa _ => ?_)
    (fun _ _ hn hi => absurd hi hn) .init h rfl
  rw [eq_commandWord h9 h0, hc, hcb, hepa]
  decide

end Sys2Proof

namespace Sys2Proof.Machine

open Sys2Proof

/-! ### Register accesses -/

/-- A store of `bits` bits at a CPU address inside the window. -/
theorem cpuRegWrite_aligned {off : Nat} (hoff : off < 256) (h4 : off % 4 = 0) (w : Word) (s : State) :
    cpuRegWrite (s.cfg.usbBase + off) 32 w s = if off = 0 then runCommand w s else .next (regStore off w s) := by
  have hw : inWindow s (s.cfg.usbBase + off) = true := by simp [inWindow, hoff]
  have ha : aligned32 s (s.cfg.usbBase + off) 32 = true := by simp [aligned32, h4]
  simp [cpuRegWrite, hw, ha]

theorem cpuRegRead_aligned {off : Nat} (hoff : off < 256) (h4 : off % 4 = 0) (s : State) :
    cpuRegRead (s.cfg.usbBase + off) 32 s = .next { s with readData := some (regValue s off) } := by
  have hw : inWindow s (s.cfg.usbBase + off) = true := by simp [inWindow, hoff]
  have ha : aligned32 s (s.cfg.usbBase + off) 32 = true := by simp [aligned32, h4]
  simp [cpuRegRead, hw, ha]

/-- The soonest stimulus is taken from the schedule and delivered. -/
theorem step_cons {s : State} {x : Stimulus} {rest : List Stimulus} (h : s.inputs = x :: rest) :
    step s = deliverStimulus x { s with inputs := rest } := by
  unfold step
  rw [h]

/-- What a store can do that answers a next state: nothing but a fault record, a command, or a register's field. -/
theorem cpuRegWrite_cases {addr bits : Nat} {w : Word} {s t : State} (h : cpuRegWrite addr bits w s = .next t) :
    t = raise .badRegisterAccess s
    ∨ ∃ off, addr = s.cfg.usbBase + off ∧ bits = 32
        ∧ (off = 0 ∧ runCommand w s = .next t ∨ off ≠ 0 ∧ t = regStore off w s) := by
  unfold cpuRegWrite at h
  split at h
  · exact nomatch h
  · rename_i hw
    split at h
    · exact .inl (Host.Outcome.next.inj h).symm
    · rename_i ha
      simp only [inWindow, Bool.not_eq_true', Bool.not_eq_false, Bool.and_eq_true, decide_eq_true_eq] at hw
      simp only [aligned32, Bool.not_eq_true', Bool.not_eq_false, Bool.and_eq_true, beq_iff_eq] at ha
      refine .inr ⟨addr - s.cfg.usbBase, by omega, ha.1, ?_⟩
      split at h
      · exact .inl ⟨by omega, h⟩
      · exact .inr ⟨by omega, (Host.Outcome.next.inj h).symm⟩

end Sys2Proof.Machine

namespace Sys2Proof.Proofs

open Sys2Proof Sys2Proof.Machine

/-- Settles O5: an aligned store at offset 0 runs the decoded command, a bus delivery the decoded event, and
`withFetchWord` places the one of the two that `decodeTableWord` reads. -/
theorem stepRunsTheDecodedInstruction : Obligations.StepRunsTheDecodedInstruction := by
  unfold Obligations.StepRunsTheDecodedInstruction
  have hCmd (s : State) (rest : List Stimulus) (w : Word) (i : Instr)
      (hi : s.inputs = .regWrite s.cfg.usbBase 32 w :: rest) (hd : decode .cmd w [] = .ok i) :
      step s = exec i { s with inputs := rest } := by
    rw [step_cons hi]
    refine (cpuRegWrite_aligned (off := 0) (by decide) rfl w { s with inputs := rest }).trans ?_
    simp only [if_true, runCommand, hd]
  have hBus (s : State) (rest : List Stimulus) (w : Word) (pay : Packet) (i : Instr)
      (hi : s.inputs = .event w pay :: rest) (hd : decode .bus w pay = .ok i) :
      step s = exec i { s with inputs := rest } := by
    rw [step_cons hi]
    simp only [deliverStimulus, runEvent, hd]
  refine ⟨hCmd, hBus, fun s nbits w i hd => ?_⟩
  unfold decodeTableWord at hd
  cases hc : decode .cmd (tableWord nbits w) [] with
  | ok j =>
    obtain rfl : j = i := by simpa [hc] using hd
    exact hCmd (s.withFetchWord nbits w) s.inputs _ _ (by simp [State.withFetchWord, tableStimulus, hc]) hc
  | error e =>
    have hb : decode .bus (tableWord nbits w) (tablePayload nbits w) = .ok i := by
      rw [hc] at hd
      dsimp only at hd
      split at hd
      · rename_i j hj
        rw [hj, Option.some.inj hd]
      · exact nomatch hd
    exact hBus (s.withFetchWord nbits w) s.inputs _ _ _ (by simp [State.withFetchWord, tableStimulus, hc]) hb

/-- Settles O45: past CMD the store is `regStore` (`cpuRegWrite_aligned`), read off register by register. -/
theorem registerWritesStoreTheirFields : Obligations.RegisterWritesStoreTheirFields := by
  unfold Obligations.RegisterWritesStoreTheirFields
  intro s rest off w hi hoff h4 h0
  have hs : step s = .next (regStore off w { s with inputs := rest }) := by
    rw [step_cons hi]
    exact (cpuRegWrite_aligned hoff h4 w { s with inputs := rest }).trans (if_neg h0)
  rw [hs]
  refine ⟨?_, ?_, ?_, ?_, fun ho => ?_⟩
  · rintro rfl
    rfl
  · rintro rfl
    rw [← BitVec.setWidth_eq_extractLsb' (by decide)]
    rfl
  · rintro rfl
    have hp : regStore 0x1C w { s with inputs := rest } = notifyPop w { s with inputs := rest } := rfl
    rw [hp]
    unfold notifyPop
    cases w.getLsbD 0 <;> cases w.getLsbD 1 <;> simp
  · rintro rfl
    rfl
  · simp only [List.mem_cons, not_or] at ho
    obtain ⟨h04, h08, h1C, h24, -⟩ := ho
    simp only [regStore, h04, h08, h1C, h24, if_false]

end Sys2Proof.Proofs
end

section
/-! PROOFS. Every operation but INIT keeps the CPU's registers, and the queue and the histories only continue
(spec/10_state.md R24 to R31, R45 to R47): `Continues f` for each operation `f` of the model, `exec_command` and
`exec_event` for the instructions. -/

namespace Sys2Proof.Machine

open Sys2Proof

/-! ### What only grows, and what only the CPU writes -/

/-- The histories of `t` continue those of `s` (spec/10_state.md R46, R47). -/
structure Histories (s t : State) : Prop where
  faults : s.faults <+: t.faults
  acts   : s.acts <+: t.acts
  hostIn : s.hostIn <+: t.hostIn

/-- The CPU's registers of `t` are those of `s`, and the histories and the queue of `t` continue those of `s`
(spec/10_state.md R24 to R31, R45 to R47). -/
structure Extends (s t : State) : Prop extends Histories s t where
  result  : t.result = s.result
  argAddr : t.argAddr = s.argAddr
  argLen  : t.argLen = s.argLen
  nie     : t.nie = s.nie
  nq      : s.nq <+: t.nq
  nqOvf   : s.nqOvf = true → t.nqOvf = true

theorem Extends.refl (s : State) : Extends s s :=
  ⟨⟨List.prefix_rfl, List.prefix_rfl, List.prefix_rfl⟩, rfl, rfl, rfl, rfl, List.prefix_rfl, id⟩

theorem Extends.trans {s t u : State} (h : Extends s t) (k : Extends t u) : Extends s u where
  faults := h.faults.trans k.faults
  acts := h.acts.trans k.acts
  hostIn := h.hostIn.trans k.hostIn
  result := k.result.trans h.result
  argAddr := k.argAddr.trans h.argAddr
  argLen := k.argLen.trans h.argLen
  nie := k.nie.trans h.nie
  nq := h.nq.trans k.nq
  nqOvf := fun ho => k.nqOvf (h.nqOvf ho)

/-- The fields that `Extends` speaks of. -/
def State.recorded (s : State) : List FaultReason × List Action × List (Byte × Packet) × Word × Addr × Half × Bool
    × List Record × Bool :=
  (s.faults, s.acts, s.hostIn, s.result, s.argAddr, s.argLen, s.nie, s.nq, s.nqOvf)

/-- A change of other fields. -/
theorem Extends.of_recorded {s t : State} (h : t.recorded = s.recorded) : Extends s t := by
  simp only [State.recorded, Prod.mk.injEq] at h
  obtain ⟨hf, ha, hh, hr, haa, hal, hn, hq, ho⟩ := h
  exact ⟨⟨hf ▸ List.prefix_rfl, ha ▸ List.prefix_rfl, hh ▸ List.prefix_rfl⟩, hr, haa, hal, hn, hq ▸ List.prefix_rfl,
    fun h => ho ▸ h⟩

/-- A change of other fields after a step that extends. -/
theorem Extends.frame {s t u : State} (h : Extends s t) (e : u.recorded = t.recorded) : Extends s u :=
  h.trans (.of_recorded e)

/-- Actions are appended. -/
theorem Extends.appendActs (s : State) (l : List Action) : Extends s { s with acts := s.acts ++ l } :=
  { Extends.refl s with acts := List.prefix_append _ _ }

/-- A step that keeps the CPU's registers, and continues the histories and the queue. -/
def Continues (f : State → State) : Prop := ∀ s : State, Extends s (f s)

/-- One more such step. -/
theorem Extends.then {s t : State} (h : Extends s t) {f : State → State} (hf : Continues f) : Extends s (f t) :=
  h.trans (hf t)

theorem raise_continues (r : FaultReason) : Continues (raise r) := fun s =>
  { Extends.refl s with faults := List.prefix_append _ _ }

theorem act_continues (a : Action) : Continues (act a) := fun s => .appendActs s [a]

theorem notify_continues (r : Record) : Continues (notify r) := fun s => by
  unfold notify
  split
  · exact { Extends.refl s with nq := List.prefix_append _ _ }
  · exact { Extends.refl s with faults := List.prefix_append _ _, nqOvf := fun _ => rfl }

theorem notifyIf_continues (b : Bool) (r : Record) : Continues (notifyIf b r) := fun s => by
  unfold notifyIf
  split
  · exact notify_continues r s
  · exact .refl s

theorem memWriteBytes_continues (a : Nat) (p : Packet) : Continues (fun s => memWriteBytes s a p) := fun s =>
  .of_recorded (by simp [State.recorded])

/-! ### Table operations and the device state machine -/

theorem armEp_continues (e : EpRef) (d : Dir) (addr : Addr) (n : Half) (cb : Bool) :
    Continues (armEp e d addr n cb) := fun s => by
  cases e <;> exact .of_recorded rfl

theorem beginTransfer_continues (a : Byte) (d : Dir) (addr : Addr) (n : Half) (cb : Bool) :
    Continues (fun s => (beginTransfer a d addr n cb s).2) := fun s => by
  dsimp only
  obtain ⟨st, h⟩ | ⟨e, -, -, -, -, -, h⟩ := beginTransfer_cases a d addr n cb s
  · rw [h]
    exact .refl s
  · rw [h]
    exact armEp_continues e d addr n cb s

theorem abort_continues (e : EpRef) : Continues (abort e) := fun s => by
  cases e with
  | ep0 =>
    unfold abort abort0
    dsimp only
    split
    · exact .refl s
    · exact (Extends.appendActs s _).frame rfl
  | data k d => exact (Extends.appendActs s d.abortActs).frame rfl

theorem abortAll_continues : Continues abortAll := fun s => (Extends.appendActs s _).frame rfl

theorem activateAll_continues : Continues activateAll := fun s => (Extends.appendActs s _).frame rfl

theorem deactivateAll_continues : Continues deactivateAll := fun s => (Extends.appendActs s _).frame rfl

theorem leaveConfigured_continues (n : DevState) : Continues (leaveConfigured n) := fun s => by
  unfold leaveConfigured
  split
  · exact (abortAll_continues s).frame rfl
  · exact .refl s

theorem enterBelowSuspended_continues (n : DevState) : Continues (enterBelowSuspended n) := fun s => by
  unfold enterBelowSuspended
  split
  · exact deactivateAll_continues s
  · exact .refl s

theorem setState_continues (n : DevState) : Continues (setState n) := fun s => by
  have h := (leaveConfigured_continues n s).then (enterBelowSuspended_continues n)
  unfold setState
  refine Extends.then ?_ (notify_continues _)
  exact h.frame rfl

theorem disconnectState_continues : Continues disconnectState := fun s => by
  have h1 : Extends s (act (.pullup false) { s with dev := { s.dev with pullup := false } }) :=
    (Extends.appendActs s _).frame rfl
  have h2 := h1.then (setState_continues .attached)
  unfold disconnectState
  dsimp only
  generalize setState .attached (act (.pullup false) { s with dev := { s.dev with pullup := false } }) = u at *
  unfold clearStall
  split
  · exact ((h2.then (act_continues (.stall0 false))).then (act_continues (.addrLoad 0))).frame rfl
  · exact (h2.then (act_continues (.addrLoad 0))).frame rfl

theorem serviceReset_continues : Continues serviceReset := fun s => by
  have h1 : Extends s { s with lat := { s.lat with reset := false } } := .of_recorded rfl
  unfold serviceReset
  refine Extends.then ?_ (notifyIf_continues _ _)
  exact (h1.then (setState_continues .default)).frame rfl

theorem serviceSuspend_continues : Continues serviceSuspend := fun s => by
  have h1 : Extends s { s with lat := { s.lat with suspend := false } } := .of_recorded rfl
  unfold serviceSuspend
  dsimp only
  split
  · exact h1.trans (setState_continues .suspended _)
  · exact h1

theorem serviceResume_continues : Continues serviceResume := fun s => by
  have h1 : Extends s { s with lat := { s.lat with resume := false } } := .of_recorded rfl
  unfold serviceResume
  dsimp only
  split
  · exact h1.trans (setState_continues s.dev.saved _)
  · exact h1

/-! ### Requests and the control transfer -/

theorem setAddress_continues (p : Setup) : Continues (fun s => (setAddress p s).2) := fun s => by
  have hLoad (v : BitVec 7) {t : State} (h : Extends s t) : Extends s (loadAddress v t) :=
    (h.trans (.appendActs t [.addrLoad v])).frame rfl
  unfold setAddress
  dsimp only
  split
  · exact .refl s
  · split
    · refine hLoad _ ?_
      split
      · exact setState_continues .addressed s
      · exact .refl s
    · refine hLoad _ ?_
      split
      · exact setState_continues .default s
      · exact .refl s
    all_goals exact .refl s

theorem drawProduct_continues : Continues (fun s => (drawProduct s).2) := fun s => by
  unfold drawProduct
  dsimp only
  split <;> exact .of_recorded rfl

theorem drawHook_continues : Continues (fun s => (drawHook s).2) := fun s => by
  unfold drawHook
  dsimp only
  split <;> exact .of_recorded rfl

theorem select_continues (t i : Byte) : Continues (fun s => (select t i s).2) := fun s => by
  unfold select selectString
  dsimp only
  split
  · exact .refl s
  · split
    · exact .refl s
    · split
      · split
        · exact drawProduct_continues s
        · split
          · exact memWriteBytes_continues _ _ s
          · exact .refl s
      · exact .refl s

theorem getDescriptor_continues (p : Setup) : Continues (fun s => (getDescriptor p s).2) := fun s => by
  have h := select_continues (p.wValue.extractLsb' 8 8) (p.wValue.extractLsb' 0 8) s
  unfold getDescriptor
  dsimp only
  split
  · exact .refl s
  · split
    · exact h
    · split
      · exact h.trans (beginTransfer_continues _ _ _ _ _ _)
      · exact h

theorem setConfiguration_continues (p : Setup) : Continues (fun s => (setConfiguration p s).2) := fun s => by
  have hSet (n : DevState) (config : Byte) : Extends s (setState n { s with dev := { s.dev with config := config } }) :=
    Extends.trans (t := { s with dev := { s.dev with config := config } }) (.of_recorded rfl) (setState_continues n _)
  unfold setConfiguration
  dsimp only
  split
  · exact .refl s
  · split
    · split
      · exact (hSet .configured Config.configValue).trans (activateAll_continues _)
      · exact .refl s
    · split
      · exact hSet .addressed 0
      · split
        · exact activateAll_continues s
        · exact .refl s
    all_goals exact .refl s

theorem stdDispatch_continues (p : Setup) : Continues (fun s => (stdDispatch p s).2) := fun s => by
  unfold stdDispatch
  dsimp only
  split
  · exact .refl s
  · split
    · exact setAddress_continues p s
    · split
      · exact getDescriptor_continues p s
      · split
        · exact setConfiguration_continues p s
        · split <;> exact .refl s

theorem applyArm_continues (p : Setup) (arm : Option Arm) : Continues (applyArm p arm) := fun s => by
  cases arm with
  | none => exact .refl s
  | some a => exact beginTransfer_continues _ _ _ _ _ s

theorem dispatch_continues (p : Setup) : Continues (fun s => (dispatch p s).2) := fun s => by
  have hd := drawHook_continues s
  unfold dispatch
  dsimp only
  split
  · split
    · exact hd.trans (applyArm_continues p _ _)
    · exact hd
    · exact hd.trans (stdDispatch_continues p _)
  · exact stdDispatch_continues p s

theorem afterDispatch_continues (p : Setup) (r : Answer × State) : Extends r.2 (afterDispatch p r) := by
  unfold afterDispatch
  split
  · split
    · exact (Extends.appendActs r.2 [.dataEnd]).frame rfl
    · split
      · exact .refl _
      · split
        · exact .of_recorded rfl
        · exact .refl _
  · exact (Extends.appendActs r.2 [.stall0 true]).frame rfl
  · exact (Extends.appendActs r.2 [.stall0 true]).frame rfl

theorem acceptSetup_continues (p : Setup) : Continues (acceptSetup p) := fun s =>
  (Extends.appendActs s [.rxRelease 0x00]).frame rfl

theorem serviceEp0Setup_continues : Continues serviceEp0Setup := fun s => by
  have h1 : Extends s { s with lat := { s.lat with ep0Setup := false } } := .of_recorded rfl
  unfold serviceEp0Setup
  dsimp only
  split
  · exact h1
  · split
    · exact h1
    · exact ((h1.trans (acceptSetup_continues _ _)).trans (dispatch_continues _ _)).trans (afterDispatch_continues _ _)

theorem complete0_continues (x : Byte) : Continues (complete0 x) := fun s => by
  rw [complete0_eq]
  refine Extends.then ?_ (notifyIf_continues _ _)
  exact .of_recorded rfl

theorem ep0Commit_continues (last : Bool) : Continues (ep0Commit last) := fun s => by
  cases last with
  | false => exact (Extends.appendActs s [.commit 0x80 s.tx0stage]).frame rfl
  | true => exact ((Extends.appendActs s [.commit 0x80 s.tx0stage]).trans (act_continues .dataEnd _)).frame rfl

theorem serviceEp0In_continues : Continues serviceEp0In := fun s => by
  unfold serviceEp0In
  dsimp only
  split
  · exact .of_recorded rfl
  · split
    · refine Extends.then (Extends.then ?_ (ep0Commit_continues true)) (complete0_continues _)
      exact .of_recorded rfl
    · refine Extends.then ?_ (ep0Commit_continues false)
      exact .of_recorded rfl

theorem copyOut_continues (r : EpRec) (p : Packet) : Continues (copyOut r p) := memWriteBytes_continues _ p

theorem ep0Receive_continues (q : Packet) : Continues (ep0Receive q) := fun s => by
  have h1 := (copyOut_continues s.ep0 (fifoRead q q.length) s).trans (act_continues (.rxRelease 0x00) _)
  unfold ep0Receive
  dsimp only
  split
  · refine Extends.then (Extends.then ?_ (act_continues .dataEnd)) (complete0_continues _)
    exact h1.frame rfl
  · exact h1.frame rfl

theorem serviceEp0Out_continues : Continues serviceEp0Out := fun s => by
  unfold serviceEp0Out
  dsimp only
  split
  · exact .of_recorded rfl
  · split
    · refine Extends.then ?_ (notifyIf_continues _ _)
      exact .of_recorded rfl
    · split
      · refine Extends.then ?_ (notify_continues _)
        exact .of_recorded rfl
      · refine Extends.then ?_ (ep0Receive_continues _)
        exact .of_recorded rfl

/-! ### Data endpoints -/

theorem withEp_continues (k : Nat) {f : DataEp → State → State} (hf : ∀ d, Continues (f d)) : Continues (withEp k f) :=
  fun s => by
  unfold withEp
  split
  · exact .refl s
  · exact hf _ s

theorem completeData_continues (k : Nat) : Continues (completeData k) := withEp_continues k fun _ s =>
  (notifyIf_continues _ _ s).frame rfl

theorem serviceDataIn_continues (k : Nat) : Continues (serviceDataIn k) := withEp_continues k fun d s => by
  have h1 : Extends s (s.modifyEp k DataEp.clearLatch) := .of_recorded rfl
  dsimp only
  split
  · exact h1
  · split
    · exact (h1.trans (act_continues (.commit (epaOf d.desc) _) _)).frame rfl
    · exact h1.trans (completeData_continues k _)

theorem dataReceive_continues (k : Nat) (d : DataEp) (q : Packet) : Continues (dataReceive k d q) := fun s => by
  have h1 := (copyOut_continues d.ep (fifoRead q q.length) s).trans (act_continues (.rxRelease (epaOf d.desc)) _)
  unfold dataReceive
  dsimp only
  split
  · refine Extends.then ?_ (completeData_continues k)
    exact h1.frame rfl
  · exact h1.frame rfl

theorem serviceDataOut_continues (k : Nat) : Continues (serviceDataOut k) := withEp_continues k fun d s => by
  have h1 : Extends s (s.modifyEp k DataEp.clearLatch) := .of_recorded rfl
  dsimp only
  split
  · exact h1
  · split
    · refine Extends.then ?_ (notify_continues _)
      exact h1.frame rfl
    · split
      · refine Extends.then ?_ (notify_continues _)
        exact h1.frame rfl
      · exact h1.trans (dataReceive_continues k d _ _)

/-! ### The service invocation -/

theorem serviceWhen_continues {latch : State → Bool} {f : State → State} (hf : Continues f) :
    Continues (serviceWhen latch f) := fun s => by
  unfold serviceWhen
  split
  · exact hf s
  · exact .refl s

theorem serviceEach_continues {f : Nat → State → State} (hf : ∀ k, Continues (f k)) (ks : List Nat) :
    Continues (serviceEach f ks) := by
  induction ks with
  | nil => exact .refl
  | cons k ks ih => exact fun s => (serviceWhen_continues (hf k) s).trans (ih _)

theorem serviceData_continues : Continues serviceData := fun s =>
  ((serviceEach_continues serviceDataOut_continues _ s).trans
    (serviceEach_continues serviceDataIn_continues _ _)).frame rfl

theorem serviceControl_continues : Continues serviceControl := fun s => by
  unfold serviceControl
  refine Extends.then ?_ (serviceWhen_continues serviceEp0In_continues)
  refine Extends.then ?_ (serviceWhen_continues serviceEp0Out_continues)
  refine Extends.then ?_ (serviceWhen_continues serviceEp0Setup_continues)
  refine Extends.then ?_ (serviceWhen_continues (f := serviceEp0SetupEnd) fun _ => .of_recorded rfl)
  refine Extends.then ?_ (serviceWhen_continues (f := serviceEp0SentStall) fun _ => .of_recorded rfl)
  refine Extends.then ?_ (serviceWhen_continues serviceResume_continues)
  refine Extends.then ?_ (serviceWhen_continues serviceSuspend_continues)
  exact serviceWhen_continues serviceReset_continues s

theorem serviceSof_continues : Continues serviceSof := fun s => by
  have h1 : Extends s (rearm0 { s with lat := { s.lat with sof := false } }) := by
    unfold rearm0
    split <;> exact .of_recorded rfl
  unfold serviceSof
  refine Extends.then ?_ (notifyIf_continues _ _)
  exact h1.frame rfl

theorem service_continues : Continues service := fun s => by
  unfold service
  refine Extends.then ?_ (notifyIf_continues _ _)
  refine Extends.then ?_ (serviceWhen_continues serviceSof_continues)
  refine Extends.then ?_ serviceData_continues
  exact (notifyIf_continues _ _ s).then serviceControl_continues

/-! ### Instructions -/

/-- If the step has a next state, it extends `s` but for RESULT; a fault or refusal leaves none. -/
def AnswersCommand (s : State) : StepResult → Prop
  | .next t => Extends s { t with result := s.result }
  | .fault _ | .refused _ => True

/-- If the step has a next state, it extends `s`; a fault or refusal leaves none. -/
def AnswersExtending (s : State) : StepResult → Prop
  | .next t => Extends s t
  | .fault _ | .refused _ => True

theorem AnswersExtending.of_next {s t : State} {r : StepResult} (h : AnswersExtending s r) (hr : r = .next t) :
    Extends s t := by
  rwa [hr] at h

/-- A command that writes RESULT after a step that extends. -/
theorem Extends.setResult {s t : State} (h : Extends s t) (st : Status) (v : Half) :
    AnswersCommand s (.next (t.setResult st v)) :=
  { h with result := rfl }

theorem onEndpoint_answers (epa : Byte) {f : EpRef → State → State} {s : State}
    (hf : ∀ e, AnswersCommand s (.next (f e s))) : AnswersCommand s (.next (onEndpoint epa f s)) := by
  unfold onEndpoint
  split
  · exact (Extends.refl s).setResult _ _
  · exact hf _

theorem transferCommand_answers (epa : Byte) (d : Dir) (cb : Bool) (s : State) :
    AnswersCommand s (.next (transferCommand epa d cb s)) :=
  (beginTransfer_continues epa d s.argAddr s.argLen cb s).setResult _ _

theorem deliver_answers {s t : State} (admitted : Bool) (h : Extends s t) :
    AnswersExtending s (deliver admitted t) := by
  cases admitted
  · trivial
  · exact h

/-- Every command but INIT keeps the CPU's registers other than RESULT, and the queue and the histories continue. -/
theorem exec_command {i : Instr} (hp : (encode i).port = .cmd) (hi : i ≠ .init) (s : State) :
    AnswersCommand s (exec i s) := by
  cases i with
  | init => exact absurd rfl hi
  | connect =>
    have h1 : Extends s (act (.pullup true) { s with dev := { s.dev with pullup := true } }) :=
      (Extends.appendActs s _).frame rfl
    exact h1.setResult .ok 0
  | disconnect => exact (disconnectState_continues s).setResult _ _
  | write epa cb => exact transferCommand_answers epa .in cb s
  | read epa cb => exact transferCommand_answers epa .out cb s
  | abort epa => exact onEndpoint_answers epa fun e => (abort_continues e s).setResult _ _
  | abortAll => exact (abortAll_continues s).setResult _ _
  | isBusy epa => exact onEndpoint_answers epa fun _ => (Extends.refl s).setResult _ _
  | remaining epa => exact onEndpoint_answers epa fun _ => (Extends.refl s).setResult _ _
  | poll => exact (service_continues s).setResult _ _
  | _ => exact nomatch hp

/-- Every event keeps the CPU's registers, and the queue and the histories continue. -/
theorem exec_event {i : Instr} (hp : (encode i).port = .bus) (s : State) : AnswersExtending s (exec i s) := by
  cases i with
  | evBusReset | evSuspend | evResume | evSof frame | evSetup pay | evSetupEnd =>
    exact deliver_answers _ (.of_recorded rfl)
  | evOut epa pay =>
    simp only [exec, execEvOut]
    split
    · trivial
    · exact deliver_answers _ (.of_recorded rfl)
    · exact deliver_answers _ (.of_recorded rfl)
  | evInTaken epa =>
    simp only [exec, execEvInTaken]
    split
    · trivial
    · exact deliver_answers _ { Extends.refl s with hostIn := List.prefix_append _ _ }
    · exact deliver_answers _ { Extends.refl s with hostIn := List.prefix_append _ _ }
  | evSentStall epa =>
    simp only [exec, execEvSentStall]
    split
    · trivial
    · exact deliver_answers _ (.of_recorded rfl)
    · exact deliver_answers _ (.of_recorded rfl)
  | _ => exact nomatch hp

/-- INIT takes no history back (spec/45_device_state.md R278). -/
theorem execInit_histories {s t : State} (h : execInit s = .next t) : Histories s t := by
  obtain rfl := Host.Outcome.next.inj h
  have h1 := notify_continues (stateChange s.dev.state .attached) (act (.pullup false) (initState s))
  exact ⟨h1.faults, (List.prefix_append _ _).trans h1.acts, h1.hostIn⟩

end Sys2Proof.Machine
end

section
/-! PROOFS. What a step can do to the CPU's registers, the queue and the histories (`step_cases`), and O52 and O53. -/

namespace Sys2Proof.Machine

open Sys2Proof

/-! ### Steps -/

theorem checkOwned_continues (addr : Nat) : Continues (checkOwned addr) := fun s => by
  unfold checkOwned
  split
  · exact raise_continues _ s
  · exact .refl s

theorem cpuRegRead_extending (addr bits : Nat) (s : State) : AnswersExtending s (cpuRegRead addr bits s) := by
  have hRead (v : Option Word) : Extends s { s with readData := v } := .of_recorded rfl
  unfold cpuRegRead
  split
  · trivial
  · split
    · exact (hRead none).then (raise_continues _)
    · exact hRead _

theorem cpuMemRead_extending (addr : Nat) (s : State) : AnswersExtending s (cpuMemRead addr s) := by
  have hRead (v : Option Word) : Extends s { s with readData := v } := .of_recorded rfl
  unfold cpuMemRead
  split
  · exact (hRead _).then (checkOwned_continues addr)
  · trivial

theorem cpuMemWrite_extending (addr : Nat) (v : Byte) (s : State) : AnswersExtending s (cpuMemWrite addr v s) := by
  have hWrite : Extends s (memWrite s addr v) := .of_recorded rfl
  unfold cpuMemWrite
  split
  · exact hWrite.then (checkOwned_continues addr)
  · trivial

theorem runEvent_extending (w : Word) (pay : Packet) (s : State) : AnswersExtending s (runEvent w pay s) := by
  unfold runEvent
  split
  · rename_i i hd
    exact exec_event (decodeEvent_port hd) s
  · trivial

theorem runService_extending (s : State) : AnswersExtending s (runService s) := by
  unfold runService
  split
  · exact service_continues s
  · trivial

theorem idleStep_extending (s : State) : AnswersExtending s (idleStep s) := by
  unfold idleStep
  split
  · exact service_continues s
  · trivial

/-- What a step can do that answers a next state: keep the CPU's registers while the queue and the histories continue,
run a command, or store a register's field. -/
theorem step_cases {s t : State} (h : step s = .next t) :
    Extends s t
    ∨ (∃ w rest, s.inputs = .regWrite s.cfg.usbBase 32 w :: rest ∧ runCommand w { s with inputs := rest } = .next t)
    ∨ ∃ off w rest, s.inputs = .regWrite (s.cfg.usbBase + off) 32 w :: rest
        ∧ t = regStore off w { s with inputs := rest } := by
  cases hi : s.inputs with
  | nil =>
    have hIdle : step s = idleStep s := by
      unfold step
      rw [hi]
    exact .inl ((idleStep_extending s).of_next (hIdle ▸ h))
  | cons x rest =>
    have h0 : Extends s { s with inputs := rest } := .of_recorded rfl
    rw [step_cons hi] at h
    cases x with
    | regRead addr bits => exact .inl (h0.trans ((cpuRegRead_extending addr bits _).of_next h))
    | regWrite addr bits w =>
      obtain rfl | ⟨off, rfl, rfl, ⟨rfl, hr⟩ | ⟨-, rfl⟩⟩ := cpuRegWrite_cases h
      · exact .inl (h0.then (raise_continues _))
      · exact .inr (.inl ⟨w, rest, rfl, hr⟩)
      · exact .inr (.inr ⟨off, w, rest, rfl, rfl⟩)
    | memRead addr => exact .inl (h0.trans ((cpuMemRead_extending addr _).of_next h))
    | memWrite addr v => exact .inl (h0.trans ((cpuMemWrite_extending addr v _).of_next h))
    | event w pay => exact .inl (h0.trans ((runEvent_extending w pay _).of_next h))
    | service => exact .inl (h0.trans ((runService_extending _).of_next h))

/-- What a store to CMD can do: run INIT, or answer in RESULT while the other registers stay and the queue and the
histories continue (spec/10_state.md R23, spec/30_encoding.md R96). -/
theorem runCommand_cases {w : Word} {s t : State} (h : runCommand w s = .next t) :
    (w = 0x01000000 ∧ execInit s = .next t) ∨ Extends s { t with result := s.result } := by
  unfold runCommand at h
  split at h
  · rename_i i hd
    have hd : decodeCommand w = .ok i := hd
    by_cases hi : i = .init
    · subst hi
      exact .inl ⟨decodeCommand_init hd, h⟩
    · have he := exec_command (decodeCommand_port hd) hi s
      rw [h] at he
      exact .inr he
  · exact .inr (Host.Outcome.next.inj h ▸ .of_recorded rfl)

/-- A store to a register other than CMD takes no history back. -/
theorem regStore_histories (off : Nat) (w : Word) (s : State) : Histories s (regStore off w s) := by
  have hr : Histories s s := (Extends.refl s).toHistories
  unfold regStore notifyPop
  dsimp only
  repeat' split
  all_goals exact ⟨hr.faults, hr.acts, hr.hostIn⟩

/-- A store to a register other than CMD changes that register only (spec/10_state.md R24, R25, R29, R31, R32). -/
theorem regStore_registers (off : Nat) (w : Word) (s : State) :
    (regStore off w s).result = s.result
    ∧ ((regStore off w s).argAddr ≠ s.argAddr → off = 0x04)
    ∧ ((regStore off w s).argLen ≠ s.argLen → off = 0x08)
    ∧ ((regStore off w s).nie ≠ s.nie → off = 0x24)
    ∧ (¬ s.nq <+: (regStore off w s).nq → off = 0x1C)
    ∧ (s.nqOvf = true → (regStore off w s).nqOvf = false → off = 0x1C) := by
  have hSame : s.nq <+: s.nq := List.prefix_rfl
  unfold regStore
  split
  · simp_all
  · split
    · simp_all
    · split
      · unfold notifyPop
        dsimp only
        split <;> split <;> simp_all
      · split
        · simp_all
        · simp_all

end Sys2Proof.Machine

namespace Sys2Proof.Proofs

open Sys2Proof.Machine

/-- Settles O52: a step extends the histories, or is a store (`step_cases`); a command extends them too, INIT keeps
them, and a store to another register does not touch them. -/
theorem historiesOnlyGrow : Obligations.HistoriesOnlyGrow := by
  unfold Obligations.HistoriesOnlyGrow
  intro s t ht
  obtain h | ⟨w, rest, -, h⟩ | ⟨off, w, rest, -, rfl⟩ := step_cases ht
  · exact ⟨h.faults, h.acts, h.hostIn⟩
  · obtain ⟨-, h⟩ | h := runCommand_cases h
    · have hInit := execInit_histories h
      exact ⟨hInit.faults, hInit.acts, hInit.hostIn⟩
    · exact ⟨h.faults, h.acts, h.hostIn⟩
  · have hStore := regStore_histories off w { s with inputs := rest }
    exact ⟨hStore.faults, hStore.acts, hStore.hostIn⟩

/-- Settles O53: a step that extends keeps every register, a command other than INIT every register but RESULT, and
another store changes its own register only; INIT has one word. -/
theorem registersChangeOnlyByTheCpu : Obligations.RegistersChangeOnlyByTheCpu := by
  unfold Obligations.RegistersChangeOnlyByTheCpu
  intro s t writes isInit ht hWrites hInit
  have hCases : (Extends s { t with result := s.result } ∧ (t.result ≠ s.result → writes 0x00))
      ∨ (writes 0x00 ∧ isInit) ∨ ∃ off w rest, writes off ∧ t = regStore off w { s with inputs := rest } := by
    obtain h | ⟨w, rest, hi, h⟩ | ⟨off, w, rest, hi, h⟩ := step_cases ht
    · exact .inl ⟨{ h with result := rfl }, fun hn => absurd h.result hn⟩
    · have hCmd : writes 0x00 := (hWrites 0x00).2 ⟨w, rest, hi⟩
      obtain ⟨rfl, -⟩ | h := runCommand_cases h
      · exact .inr (.inl ⟨hCmd, hInit.2 ⟨rest, hi⟩⟩)
      · have h0 : Extends s { s with inputs := rest } := .of_recorded rfl
        exact .inl ⟨h0.trans h, fun _ => hCmd⟩
    · exact .inr (.inr ⟨off, w, rest, (hWrites off).2 ⟨w, rest, hi⟩, h⟩)
  obtain ⟨h, hRes⟩ | ⟨hCmd, hI⟩ | ⟨off, w, rest, hReg, rfl⟩ := hCases
  · exact ⟨hRes, fun hn => absurd h.argAddr hn, fun hn => absurd h.argLen hn, fun hn => absurd h.nie hn,
      fun hn => absurd h.nq hn, fun ho hn => absurd (hn.symm.trans (h.nqOvf ho)) Bool.false_ne_true⟩
  · exact ⟨fun _ => hCmd, fun _ => .inr hI, fun _ => .inr hI, fun _ => .inr hI, fun _ => .inr hI, fun _ _ => .inr hI⟩
  · obtain ⟨hRes, hAddr, hLen, hNie, hNq, hOvf⟩ := regStore_registers off w { s with inputs := rest }
    exact ⟨fun hn => absurd hRes hn, fun hn => .inl (hAddr hn ▸ hReg), fun hn => .inl (hLen hn ▸ hReg),
      fun hn => .inl (hNie hn ▸ hReg), fun hn => .inl (hNq hn ▸ hReg), fun ho hn => .inl (hOvf ho hn ▸ hReg)⟩

end Sys2Proof.Proofs
end

section
/-! PROOFS. The table of a legal configuration and the addresses of its endpoints (spec/10_state.md R37), and O11. -/

namespace Sys2Proof.Machine

open Sys2Proof

/-- The address of an endpoint of the table has its number and direction, and its other bits are 0. -/
theorem eq_epaOf {d : EpDesc} {a : Byte} (hn : d.num = epaNum a) (hd : d.dir = epaDir a) (h0 : a.extractLsb' 4 3 = 0) :
    a = epaOf d := by
  have key : ∀ a : Byte, a.extractLsb' 4 3 = 0 →
      a = (if a.msb then 0x80#8 else 0x00#8) ||| (epaNum a).zeroExtend 8 := by decide
  unfold epaOf
  rw [hn, hd]
  unfold epaDir
  conv_lhs => rw [key a h0]
  cases a.msb <;> rfl

/-- In a legal configuration no two entries of the table share number and direction, and no number is 0. -/
theorem legal_eps {c : Config} (h : c.legal = true) :
    (c.eps.map (fun d => (d.num, d.dir))).Nodup ∧ ∀ d ∈ c.eps, d.num ≠ 0 := by
  simp only [Config.legal, Bool.and_eq_true, decide_eq_true_eq, List.all_eq_true, bne_iff_ne] at h
  obtain ⟨⟨⟨⟨⟨⟨⟨⟨⟨⟨⟨⟨-, hNum⟩, hNodup⟩, -⟩, -⟩, -⟩, -⟩, -⟩, -⟩, -⟩, -⟩, -⟩, -⟩ := h
  exact ⟨hNodup, fun d hd => (hNum d hd).1.1⟩

end Sys2Proof.Machine

namespace Sys2Proof.Proofs

open Sys2Proof Sys2Proof.Machine

/-- Settles O11: `lookup` finds what has the address's number and direction (`lookup_data`), and finds an endpoint of
the table under its address, as no two share one (`lookup_epaOf`). -/
theorem lookupNamesTheTable : Obligations.LookupNamesTheTable := by
  unfold Obligations.LookupNamesTheTable
  intro s hl ht
  obtain ⟨hnd, hnz⟩ := legal_eps hl
  have ht : s.deps.map DataEp.desc = s.cfg.eps := ht
  have hnd' : (s.deps.map (fun d => (d.desc.num, d.desc.dir))).Nodup := by
    rw [← ht, List.map_map] at hnd
    exact hnd
  refine ⟨fun a => ?_, fun a k d => ⟨fun h => ?_, fun ⟨hk, ha⟩ => ?_⟩⟩
  · have hz : ∀ a : Byte, (a.extractLsb' 4 3 = 0 ∧ a.extractLsb' 0 4 = 0) ↔ (a = 0x00 ∨ a = 0x80) := by decide
    rw [hz a]
    exact lookup_ep0_iff
  · obtain ⟨hk, hn, hd, h0, -⟩ := lookup_data h
    exact ⟨hk, eq_epaOf hn hd h0⟩
  · rw [show a = epaOf d.desc from ha]
    exact lookup_epaOf hnd' hk (hnz _ (ht ▸ List.mem_map_of_mem (List.mem_of_getElem? hk)))

end Sys2Proof.Proofs
end

section
/-! PROOFS. The registers that a load shows, field by field (spec/10_state.md R22 to R32), and O44. -/

namespace Sys2Proof.Machine

open Sys2Proof

/-- A bit above the lower part is a bit of the upper part. -/
theorem getLsbD_append_of_le {v w i : Nat} {x : BitVec v} {y : BitVec w} (h : w ≤ i) :
    (x ++ y).getLsbD i = x.getLsbD (i - w) := by
  rw [BitVec.getLsbD_append, if_neg (Nat.not_lt.2 h)]

/-- A bit inside the lower part is a bit of the lower part. -/
theorem getLsbD_append_of_lt {v w i : Nat} {x : BitVec v} {y : BitVec w} (h : i < w) :
    (x ++ y).getLsbD i = y.getLsbD i := by
  rw [BitVec.getLsbD_append, if_pos h]

/-- NOTIFY_STAT (spec/10_state.md R27). -/
theorem notifyStat_fields (s : State) :
    (notifyStat s).getLsbD 0 = !s.nq.isEmpty ∧ (notifyStat s).getLsbD 1 = s.nqOvf
    ∧ (notifyStat s).extractLsb' 2 6 = 0 ∧ (notifyStat s).extractLsb' 8 8 = BitVec.ofNat 8 s.nq.length
    ∧ (notifyStat s).extractLsb' 16 16 = 0 := by
  unfold notifyStat
  refine ⟨?_, ?_, ?_, ?_, ?_⟩
  · rw [getLsbD_append_of_lt (by decide), getLsbD_append_of_lt (by decide), BitVec.getLsbD_ofBool]
    simp
  · rw [getLsbD_append_of_lt (by decide), getLsbD_append_of_le (by decide), getLsbD_append_of_lt (by decide),
      BitVec.getLsbD_ofBool]
    simp
  · rw [BitVec.extractLsb'_append_eq_of_add_le (by decide), BitVec.extractLsb'_append_eq_of_le (by decide),
      BitVec.extractLsb'_append_eq_of_le (by decide), BitVec.extractLsb'_eq_self]
    rfl
  · rw [BitVec.extractLsb'_append_eq_of_le (by decide), BitVec.extractLsb'_append_eq_of_add_le (by decide),
      BitVec.extractLsb'_eq_self]
  · rw [BitVec.extractLsb'_append_eq_of_le (by decide), BitVec.extractLsb'_append_eq_of_le (by decide),
      BitVec.extractLsb'_eq_self]
    rfl

/-- The four bytes of NOTIFY0 (spec/30_encoding.md R105). -/
theorem word0_fields (r : Record) :
    r.word0.extractLsb' 24 8 = r.kind.code ∧ r.word0.extractLsb' 16 8 = r.epa ∧ r.word0.extractLsb' 8 8 = r.code
    ∧ r.word0.extractLsb' 0 8 = r.aux := by
  unfold Record.word0
  refine ⟨?_, ?_, ?_, ?_⟩
  · rw [BitVec.extractLsb'_append_eq_of_le (by decide), BitVec.extractLsb'_append_eq_of_le (by decide),
      BitVec.extractLsb'_eq_self]
  · rw [BitVec.extractLsb'_append_eq_of_le (by decide), BitVec.extractLsb'_append_eq_of_add_le (by decide),
      BitVec.extractLsb'_eq_self]
  · rw [BitVec.extractLsb'_append_eq_of_add_le (by decide), BitVec.extractLsb'_append_eq_of_le (by decide),
      BitVec.extractLsb'_eq_self]
  · rw [BitVec.extractLsb'_append_eq_of_add_le (by decide), BitVec.extractLsb'_append_eq_of_add_le (by decide),
      BitVec.extractLsb'_eq_self]

/-- The two halves of NOTIFY1 (spec/30_encoding.md R105). -/
theorem word1_fields (r : Record) : r.word1.extractLsb' 16 16 = r.xf ∧ r.word1.extractLsb' 0 16 = r.rm := by
  unfold Record.word1
  refine ⟨?_, ?_⟩
  · rw [BitVec.extractLsb'_append_eq_of_le (by decide), BitVec.extractLsb'_eq_self]
  · rw [BitVec.extractLsb'_append_eq_of_add_le (by decide), BitVec.extractLsb'_eq_self]

/-- The fields of DEVSTATE (spec/10_state.md R30). -/
theorem devStateWord_fields (s : State) :
    (devStateWord s).extractLsb' 0 3 = s.dev.state.code ∧ (devStateWord s).extractLsb' 4 3 = s.dev.saved.code
    ∧ (devStateWord s).extractLsb' 8 7 = s.dev.addr ∧ (devStateWord s).extractLsb' 16 8 = s.dev.config
    ∧ (devStateWord s).getLsbD 24 = s.dev.pullup ∧ (devStateWord s).getLsbD 25 = s.ctlOpen
    ∧ (devStateWord s).extractLsb' 28 3 = s.ep0.state.code := by
  unfold devStateWord
  refine ⟨?_, ?_, ?_, ?_, ?_, ?_, ?_⟩
  · rw [BitVec.extractLsb'_append_eq_of_add_le (by decide), BitVec.extractLsb'_append_eq_of_add_le (by decide),
      BitVec.extractLsb'_append_eq_of_add_le (by decide), BitVec.extractLsb'_append_eq_of_add_le (by decide),
      BitVec.extractLsb'_eq_self]
  · rw [BitVec.extractLsb'_append_eq_of_add_le (by decide), BitVec.extractLsb'_append_eq_of_add_le (by decide),
      BitVec.extractLsb'_append_eq_of_le (by decide), BitVec.extractLsb'_append_eq_of_add_le (by decide),
      BitVec.extractLsb'_eq_self]
  · rw [BitVec.extractLsb'_append_eq_of_add_le (by decide), BitVec.extractLsb'_append_eq_of_le (by decide),
      BitVec.extractLsb'_append_eq_of_add_le (by decide), BitVec.extractLsb'_eq_self]
  · rw [BitVec.extractLsb'_append_eq_of_le (by decide), BitVec.extractLsb'_append_eq_of_add_le (by decide),
      BitVec.extractLsb'_eq_self]
  · rw [getLsbD_append_of_le (by decide), getLsbD_append_of_le (by decide), getLsbD_append_of_lt (by decide),
      getLsbD_append_of_lt (by decide), BitVec.getLsbD_ofBool]
    simp
  · rw [getLsbD_append_of_le (by decide), getLsbD_append_of_le (by decide), getLsbD_append_of_lt (by decide),
      getLsbD_append_of_le (by decide), getLsbD_append_of_lt (by decide), BitVec.getLsbD_ofBool]
    simp
  · rw [BitVec.extractLsb'_append_eq_of_le (by decide), BitVec.extractLsb'_append_eq_of_le (by decide),
      BitVec.extractLsb'_append_eq_of_le (by decide), BitVec.extractLsb'_append_eq_of_add_le (by decide),
      BitVec.extractLsb'_eq_self]

/-- The reserved bits of DEVSTATE are 0 (spec/10_state.md R30). -/
theorem devStateWord_reserved (s : State) : devStateWord s &&& 0x8C008088 = 0 := by
  have hMask : ∀ i < 32, (0x8C008088#32).getLsbD i = true → i = 3 ∨ i = 7 ∨ i = 15 ∨ i = 26 ∨ i = 27 ∨ i = 31 := by
    decide
  have hBits : (devStateWord s).getLsbD 3 = false ∧ (devStateWord s).getLsbD 7 = false
      ∧ (devStateWord s).getLsbD 15 = false ∧ (devStateWord s).getLsbD 26 = false
      ∧ (devStateWord s).getLsbD 27 = false ∧ (devStateWord s).getLsbD 31 = false := by
    unfold devStateWord
    refine ⟨?_, ?_, ?_, ?_, ?_, ?_⟩
    · rw [getLsbD_append_of_lt (by decide), getLsbD_append_of_lt (by decide), getLsbD_append_of_lt (by decide),
        getLsbD_append_of_le (by decide), BitVec.getLsbD_zero]
    · rw [getLsbD_append_of_lt (by decide), getLsbD_append_of_lt (by decide), getLsbD_append_of_le (by decide),
        getLsbD_append_of_le (by decide), BitVec.getLsbD_zero]
    · rw [getLsbD_append_of_lt (by decide), getLsbD_append_of_le (by decide), getLsbD_append_of_le (by decide),
        BitVec.getLsbD_zero]
    · rw [getLsbD_append_of_le (by decide), getLsbD_append_of_le (by decide), getLsbD_append_of_lt (by decide),
        getLsbD_append_of_le (by decide), getLsbD_append_of_le (by decide), BitVec.getLsbD_zero]
    · rw [getLsbD_append_of_le (by decide), getLsbD_append_of_le (by decide), getLsbD_append_of_lt (by decide),
        getLsbD_append_of_le (by decide), getLsbD_append_of_le (by decide), BitVec.getLsbD_zero]
    · rw [getLsbD_append_of_le (by decide), getLsbD_append_of_le (by decide), getLsbD_append_of_le (by decide),
        getLsbD_append_of_le (by decide), BitVec.getLsbD_zero]
  obtain ⟨h3, h7, h15, h26, h27, h31⟩ := hBits
  apply BitVec.eq_of_getLsbD_eq
  intro i hi
  rw [BitVec.getLsbD_and, show (0 : Word).getLsbD i = false from BitVec.getLsbD_zero, Bool.and_eq_false_iff,
    or_iff_not_imp_right]
  intro hm
  rcases hMask i hi (by simpa using hm) with rfl | rfl | rfl | rfl | rfl | rfl
  all_goals assumption

end Sys2Proof.Machine

namespace Sys2Proof.Proofs

open Sys2Proof Sys2Proof.Machine

/-- Settles O44: the load is `cpuRegRead_aligned`; NOTIFY_STAT, the two words of the head record and DEVSTATE are taken
apart by their `_fields` lemmas. -/
theorem registerReadsShowTheState : Obligations.RegisterReadsShowTheState := by
  unfold Obligations.RegisterReadsShowTheState
  refine ⟨⟨rfl, rfl, rfl, rfl, rfl⟩, ⟨rfl, rfl, rfl, rfl, rfl, rfl⟩, ⟨rfl, rfl, rfl, rfl, rfl, rfl, rfl⟩, fun s => ?_⟩
  refine ⟨fun rest off hi hoff h4 => ?_, rfl, rfl, rfl, notifyStat_fields s, fun hq => ?_, fun r l hq => ?_, ?_, ?_,
    fun off ho => ?_, ?_⟩
  · rw [step_cons hi]
    exact cpuRegRead_aligned hoff h4 { s with inputs := rest }
  · have hHead (f : Record → Word) : headWord f s = 0 := by simp [headWord, hq]
    exact ⟨hHead _, hHead _⟩
  · have hHead (f : Record → Word) : headWord f s = f r := by simp [headWord, hq]
    obtain ⟨hKind, hEpa, hCode, hAux⟩ := word0_fields r
    obtain ⟨hXf, hRm⟩ := word1_fields r
    rw [show regValue s 0x14 = r.word0 from hHead _, show regValue s 0x18 = r.word1 from hHead _]
    exact ⟨hKind, hEpa, hCode, hAux, hXf, hRm⟩
  · obtain ⟨h1, h2, h3, h4, h5, h6, h7⟩ := devStateWord_fields s
    exact ⟨h1, h2, h3, h4, h5, h6, h7, devStateWord_reserved s⟩
  · have hNie : regValue s 0x24 = (BitVec.ofBool s.nie).zeroExtend 32 := rfl
    rw [hNie]
    cases s.nie <;> rfl
  · simp only [List.mem_cons, not_or] at ho
    obtain ⟨h04, h08, h0C, h10, h14, h18, h20, h24, -⟩ := ho
    simp only [regValue, h04, h08, h0C, h10, h14, h18, h20, h24, if_false]
  · simp [irqCpu]

end Sys2Proof.Proofs
end

section
/-! PROOFS. POLL with a SETUP that has arrived and no override hook, when the request is rejected or none handles it
(spec/42_control_transfer.md R181, spec/43_request_dispatch.md R213 to R228), and O30. -/

namespace Sys2Proof.Machine

open Sys2Proof

/-- The bytes of the packet are the fields of its snapshot (spec/42_control_transfer.md R176). -/
theorem serviceEp0Setup_arrived {p : Setup} {s : State} (h : SetupArrived p s) :
    serviceEp0Setup s = afterDispatch p (dispatch p (accepted p s)) := by
  obtain ⟨⟨hLat, -, -⟩, hRx, -, -⟩ := h
  have hAcc : acceptSetup p { s with lat := { s.lat with ep0Setup := false } } = accepted p s := by
    simp [acceptSetup, releaseRx0, ep0SoftReset, act, accepted, hLat, Latches.none]
  unfold serviceEp0Setup
  dsimp only
  split
  · rename_i hq
    exact nomatch hq.symm.trans hRx
  · rename_i q hq
    obtain rfl := Option.some.inj (hq.symm.trans hRx)
    exact congrArg (fun t => afterDispatch p (dispatch p t)) hAcc

/-- With a SETUP pending alone, POLL is the SETUP service, when that leaves no latch. -/
theorem exec_poll_arrived {p : Setup} {s u : State} (h : SetupArrived p s)
    (hu : afterDispatch p (dispatch p (accepted p s)) = u) (hLat : u.lat = Latches.none) (hCfg : u.cfg = s.cfg)
    (hDeps : u.deps = s.deps) : exec .poll s = .next { u with result := 0 } := by
  obtain ⟨⟨hl, hIsr, hQuiet⟩, -⟩ := id h
  have hControl : serviceControl s = u := by
    rw [serviceControl_ep0 (by rw [hl]; rfl) (by rw [hl]; rfl) (by rw [hl]; rfl) (by rw [hl]; rfl) (by rw [hl]; rfl),
      serviceWhen_true (s := s) serviceEp0Setup (by rw [hl]), serviceEp0Setup_arrived h, hu,
      serviceWhen_false serviceEp0Out (by rw [hLat]; rfl), serviceWhen_false serviceEp0In (by rw [hLat]; rfl)]
  have hService : service s = u :=
    service_of_control hControl hIsr hCfg (by rw [hLat]; rfl) (by rw [hDeps]; exact hQuiet)
  have hRes : resultWord .ok 0 = 0 := by decide
  simp only [exec, execPoll, State.setResult, hService, hRes]

/-- Without a hook, an answer that is not Ok stalls EP0 (spec/42_control_transfer.md R181). -/
theorem exec_poll_rejected {p : Setup} {s u : State} {a : Answer} (h : SetupArrived p s) (hHook : s.cfg.hook = false)
    (hd : stdDispatch p (accepted p s) = (a, u)) (ha : a ≠ .ok) (hLat : u.lat = Latches.none) (hCfg : u.cfg = s.cfg)
    (hDeps : u.deps = s.deps) : exec .poll s = .next { stall0 u with result := 0 } := by
  have hDispatch : dispatch p (accepted p s) = (a, u) := by
    unfold dispatch
    rw [show (accepted p s).cfg.hook = false from hHook, hd]
    simp
  refine exec_poll_arrived h ?_ hLat hCfg hDeps
  rw [hDispatch]
  cases a with
  | ok => exact absurd rfl ha
  | requestError => rfl
  | unhandled => rfl

/-- A request that is answered RequestError or Unhandled, with nothing changed. -/
def Rejects (p : Setup) (s : State) : Prop := ∃ a, a ≠ .ok ∧ stdDispatch p s = (a, s)

section

variable {p : Setup} {s : State}

theorem Rejects.of_type (h : p.type ≠ 0) : Rejects p s := ⟨.unhandled, nofun, if_pos h⟩

/-- A code that has no handler (spec/43_request_dispatch.md R215 to R217). -/
theorem Rejects.of_request (h5 : p.request ≠ 5) (h6 : p.request ≠ 6) (h9 : p.request ≠ 9) : Rejects p s := by
  by_cases ht : p.type = 0
  · by_cases hu : unimplemented.contains p.request = true
    · exact ⟨.requestError, nofun, by
        simp only [stdDispatch, ht, h5, h6, h9, hu, ne_eq, not_true_eq_false, if_false, if_true]⟩
    · exact ⟨.unhandled, nofun, by
        simp only [stdDispatch, ht, h5, h6, h9, ne_eq, not_true_eq_false, if_false, if_neg hu]⟩
  · exact .of_type ht

theorem stdDispatch_setAddress (ht : p.type = 0) (hr : p.request = 5) : stdDispatch p s = setAddress p s := by
  simp [stdDispatch, ht, hr]

theorem stdDispatch_getDescriptor (ht : p.type = 0) (hr : p.request = 6) : stdDispatch p s = getDescriptor p s := by
  simp [stdDispatch, ht, hr]

theorem stdDispatch_setConfiguration (ht : p.type = 0) (hr : p.request = 9) :
    stdDispatch p s = setConfiguration p s := by
  simp [stdDispatch, ht, hr]

/-- SET_ADDRESS with a field out of range, or in the wrong device state (spec/43_request_dispatch.md R218). -/
theorem Rejects.of_setAddress (hr : p.request = 5)
    (h : 128 ≤ p.wValue.toNat ∨ p.wLength ≠ 0 ∨ p.recipient ≠ 0 ∨ p.wIndex ≠ 0
      ∨ (s.dev.state ≠ .default ∧ s.dev.state ≠ .addressed)) : Rejects p s := by
  by_cases ht : p.type = 0
  · refine ⟨.requestError, nofun, ?_⟩
    rw [stdDispatch_setAddress ht hr]
    unfold setAddress
    split
    · rfl
    · rename_i hf
      simp only [addressFieldsOk, Bool.not_eq_true', Bool.not_eq_false, Bool.and_eq_true, decide_eq_true_eq,
        beq_iff_eq] at hf
      obtain ⟨⟨⟨hv, hl⟩, hrec⟩, hx⟩ := hf
      obtain ⟨hDef, hAdr⟩ : s.dev.state ≠ .default ∧ s.dev.state ≠ .addressed := by
        rcases h with h | h | h | h | h
        · omega
        · exact absurd hl h
        · exact absurd hrec h
        · exact absurd hx h
        · exact h
      cases hs : s.dev.state with
      | default => exact absurd hs hDef
      | addressed => exact absurd hs hAdr
      | _ => rfl
  · exact .of_type ht

/-- The two bytes of `wValue` (spec/10_state.md R39). -/
theorem Setup.wValue_bytes (p : Setup) : p.wValue.extractLsb' 8 8 = p.b3 ∧ p.wValue.extractLsb' 0 8 = p.b2 := by
  unfold Setup.wValue
  refine ⟨?_, ?_⟩
  · rw [BitVec.extractLsb'_append_eq_of_le (by decide), BitVec.extractLsb'_eq_self]
  · rw [BitVec.extractLsb'_append_eq_of_add_le (by decide), BitVec.extractLsb'_eq_self]

theorem strEntry_eq_none {c : Config} {i : Byte} (h : ∀ e ∈ c.str, e.1 ≠ i) : strEntry c i = none := by
  simpa [strEntry] using h

/-- GET_DESCRIPTOR that is not a device-to-host request of the device, or names no descriptor
(spec/43_request_dispatch.md R220 to R222). -/
theorem Rejects.of_getDescriptor (hr : p.request = 6)
    (h : p.dir ≠ .in ∨ p.recipient ≠ 0 ∨ (p.b3 ≠ 1 ∧ p.b3 ≠ 2 ∧ p.b3 ≠ 3) ∨ (p.b3 ≠ 3 ∧ p.b2 ≠ 0)
      ∨ (p.b3 = 3 ∧ p.b2 ≠ 2 ∧ p.b2 ≠ 3 ∧ ∀ e ∈ s.cfg.str, e.1 ≠ p.b2)) : Rejects p s := by
  by_cases ht : p.type = 0
  · unfold Rejects
    rw [stdDispatch_getDescriptor ht hr]
    unfold getDescriptor
    split
    · exact ⟨.requestError, nofun, rfl⟩
    · rename_i hc
      obtain ⟨hDir, hRec⟩ := not_or.1 hc
      obtain ⟨hb3, hb2⟩ := p.wValue_bytes
      have hNone : select p.b3 p.b2 s = (none, s) := by
        rcases h with h | h | ⟨h1, h2, h3⟩ | ⟨h3, h0⟩ | ⟨h3, h2, h3', hStr⟩
        · exact absurd h hDir
        · exact absurd h hRec
        · rw [select, if_neg h1, if_neg h2, if_neg h3]
        · by_cases h1 : p.b3 = 1
          · rw [select, if_pos h1, if_neg h0]
          · by_cases h2 : p.b3 = 2
            · rw [select, if_neg h1, if_pos h2, if_neg h0]
            · rw [select, if_neg h1, if_neg h2, if_neg h3]
        · have hString : selectString p.b2 s = (none, s) := by
            rw [selectString, if_neg h2, if_neg h3', strEntry_eq_none hStr, Option.map_none]
          rw [h3]
          exact hString
      exact ⟨.unhandled, nofun, by rw [hb3, hb2, hNone]⟩
  · exact .of_type ht

/-- SET_CONFIGURATION with a field out of range, an unknown configuration, or in the wrong device state
(spec/43_request_dispatch.md R226, R228). -/
theorem Rejects.of_setConfiguration (hr : p.request = 9)
    (h : p.wLength ≠ 0 ∨ p.recipient ≠ 0 ∨ p.wIndex ≠ 0 ∨ (s.dev.state = .addressed ∧ p.wValue ≠ 1)
      ∨ (s.dev.state = .configured ∧ p.wValue ≠ 0 ∧ p.wValue ≠ 1)
      ∨ (s.dev.state ≠ .addressed ∧ s.dev.state ≠ .configured)) : Rejects p s := by
  by_cases ht : p.type = 0
  · refine ⟨.requestError, nofun, ?_⟩
    rw [stdDispatch_setConfiguration ht hr]
    unfold setConfiguration
    split
    · rfl
    · rename_i hf
      simp only [not_or, not_not] at hf
      obtain ⟨hl, hrec, hx⟩ := hf
      have hOne : (Config.configValue.zeroExtend 16 : Half) = 1 := by decide
      rw [hOne]
      rcases h with h | h | h | ⟨hs, hv⟩ | ⟨hs, h0, h1⟩ | ⟨hA, hC⟩
      · exact absurd hl h
      · exact absurd hrec h
      · exact absurd hx h
      · simp only [hs, if_neg hv]
      · simp only [hs, if_neg h0, if_neg h1]
      · cases hs : s.dev.state with
        | addressed => exact absurd hs hA
        | configured => exact absurd hs hC
        | _ => rfl
  · exact .of_type ht

/-- The product-name string when neither the accessor nor STR has one (spec/43_request_dispatch.md R222; log entry
9). -/
theorem stdDispatch_noProduct {product : List (Option DescLoc)} {n : Nat} (ht : p.type = 0) (hr : p.request = 6)
    (hd : p.dir = .in) (hrec : p.recipient = 0) (hv : p.wValue = 0x0302) (hDraw : ProductDraw none product n s)
    (hStr : ∀ e ∈ s.cfg.str, e.1 ≠ 2) :
    stdDispatch p s = (.unhandled, { s with productIn := product, draws := n }) := by
  have hDrawn : drawProduct s = (none, { s with productIn := product, draws := n }) := by
    unfold drawProduct
    obtain ⟨hIn, hn⟩ | ⟨hIn, hRest, hNone, hn⟩ := hDraw
    · simp only [hIn, hn]
    · simp only [hIn, hn, hRest, ← hNone]
  have hType : (0x0302 : Half).extractLsb' 8 8 = 3 ∧ (0x0302 : Half).extractLsb' 0 8 = 2 := by decide
  have hSel : select 3 2 s = (none, { s with productIn := product, draws := n }) := by
    have hEntry : strEntry s.cfg Config.productIndex = none := strEntry_eq_none hStr
    have hString : select 3 2 s = selectString Config.productIndex s := rfl
    rw [hString, selectString, if_pos rfl, hDrawn, hEntry]
    rfl
  rw [stdDispatch_getDescriptor ht hr]
  unfold getDescriptor
  rw [hv, hType.1, hType.2, hSel]
  simp [hd, hrec]

end

/-- The fields of a SETUP in its bytes (spec/10_state.md R39). -/
theorem Setup.fields (p : Setup) :
    (p.dir = .in ↔ p.b0.getLsbD 7 = true) ∧ p.type.toNat = p.b0.toNat / 32 % 4 ∧ p.recipient.toNat = p.b0.toNat % 32
    ∧ p.request = p.b1 ∧ p.wValue.toNat = p.b2.toNat + 256 * p.b3.toNat
    ∧ p.wIndex.toNat = p.b4.toNat + 256 * p.b5.toNat ∧ p.wLength.toNat = p.b6.toNat + 256 * p.b7.toNat := by
  have hPair (x y : Byte) : (x ++ y).toNat = y.toNat + 256 * x.toNat := by
    rw [BitVec.toNat_append, ← Nat.shiftLeft_add_eq_or_of_lt y.isLt, Nat.shiftLeft_eq]
    omega
  refine ⟨?_, ?_, ?_, rfl, hPair _ _, hPair _ _, hPair _ _⟩
  · have hMsb : p.b0.msb = p.b0.getLsbD 7 := rfl
    unfold Setup.dir
    rw [hMsb]
    cases p.b0.getLsbD 7 <;> simp
  · simp [Setup.type, BitVec.extractLsb'_toNat, Nat.shiftRight_eq_div_pow]
  · simp [Setup.recipient, BitVec.extractLsb'_toNat]

end Sys2Proof.Machine

namespace Sys2Proof.Proofs

open Sys2Proof Sys2Proof.Machine

/-- Settles O30: each of the listed requests is answered RequestError or Unhandled with nothing changed (`Rejects`), and
that answer stalls EP0 (`exec_poll_rejected`); the product-name query changes the draws only. -/
theorem pollStallsRejectedRequests : Obligations.PollStallsRejectedRequests := by
  unfold Obligations.PollStallsRejectedRequests
  refine ⟨Setup.fields, fun s p hHook h => ⟨fun product n ht hr hd hrec hv hDraw hStr => ?_, fun hRej => ?_⟩⟩
  · have hDisp := stdDispatch_noProduct (s := accepted p s) ht hr hd hrec hv hDraw hStr
    rw [exec_poll_rejected h hHook hDisp nofun rfl rfl rfl]
    simp [stall0, act, accepted, EpRec.stall, EpRec.reset]
  · obtain ⟨a, ha, hDisp⟩ : Rejects p (accepted p s) := by
      rcases hRej with h | h | h | h | h | h | h | ⟨h5, h6, h9⟩ | ⟨hr, h⟩ | ⟨hr, h⟩ | ⟨hr, h⟩
      · exact .of_type h
      · exact .of_request (by simp [h]) (by simp [h]) (by simp [h])
      · exact .of_request (by simp [h]) (by simp [h]) (by simp [h])
      · exact .of_request (by simp [h]) (by simp [h]) (by simp [h])
      · exact .of_request (by simp [h]) (by simp [h]) (by simp [h])
      · exact .of_request (by simp [h]) (by simp [h]) (by simp [h])
      · exact .of_request (by simp [h]) (by simp [h]) (by simp [h])
      · exact .of_request h5 h6 h9
      · exact .of_setAddress hr h
      · exact .of_getDescriptor hr h
      · exact .of_setConfiguration hr h
    rw [exec_poll_rejected h hHook hDisp ha rfl rfl rfl]
    simp [stall0, act, accepted, EpRec.stall, EpRec.reset]

end Sys2Proof.Proofs
end

section
/-! PROOFS. Accesses of the CPU to the register window that are not aligned (spec/20_memory.md R63) and to one byte of
memory (R65, R70), which bytes are owned (R65), and O47, O48 and O49. -/

namespace Sys2Proof.Machine

open Sys2Proof

/-! ### Accesses of the register window -/

theorem inWindow_offset {off : Nat} (hoff : off < 256) (s : State) : inWindow s (s.cfg.usbBase + off) = true := by
  simp [inWindow, hoff]

theorem aligned32_eq_false {off bits : Nat} (h : bits ≠ 32 ∨ off % 4 ≠ 0) (s : State) :
    aligned32 s (s.cfg.usbBase + off) bits = false := by
  simp only [aligned32, Nat.add_sub_cancel_left, Bool.and_eq_false_iff, beq_eq_false_iff_ne]
  exact h

theorem cpuRegWrite_misaligned {off bits : Nat} (hoff : off < 256) (h : bits ≠ 32 ∨ off % 4 ≠ 0) (w : Word) (s : State) :
    cpuRegWrite (s.cfg.usbBase + off) bits w s = .next (raise .badRegisterAccess s) := by
  simp [cpuRegWrite, inWindow_offset hoff, aligned32_eq_false h]

theorem cpuRegRead_misaligned {off bits : Nat} (hoff : off < 256) (h : bits ≠ 32 ∨ off % 4 ≠ 0) (s : State) :
    cpuRegRead (s.cfg.usbBase + off) bits s = .next (raise .badRegisterAccess { s with readData := none }) := by
  simp [cpuRegRead, inWindow_offset hoff, aligned32_eq_false h]

/-! ### Accesses of memory -/

/-- The ownership check writes nothing but the fault list. -/
theorem checkOwned_eq (a : Nat) (s : State) :
    checkOwned a s = { s with faults := if owned s a then s.faults ++ [.ownershipViolation] else s.faults } := by
  unfold checkOwned
  split <;> rfl

/-- A load inside memory takes its byte, and the ownership check follows. -/
theorem cpuMemRead_inside {a : Nat} {s : State} (ha : a < 2 ^ s.cfg.addrW) :
    cpuMemRead a s = .next { s with
      readData := some ((s.mem.read a).zeroExtend 32)
      faults := if owned s a then s.faults ++ [.ownershipViolation] else s.faults } := by
  simp only [cpuMemRead, memRead, Nat.mod_eq_of_lt ha, if_pos ha, checkOwned_eq]
  rfl

/-- A store inside memory writes its byte, and the ownership check follows. -/
theorem cpuMemWrite_inside {a : Nat} {s : State} (ha : a < 2 ^ s.cfg.addrW) (v : Byte) :
    cpuMemWrite a v s = .next { s with
      mem := s.mem.write a v
      faults := if owned s a then s.faults ++ [.ownershipViolation] else s.faults } := by
  simp only [cpuMemWrite, memWrite, Nat.mod_eq_of_lt ha, if_pos ha, checkOwned_eq]
  rfl

/-! ### Owned bytes -/

theorem wrapSub_lt (c : Config) (a b : Nat) : wrapSub c a b < 2 ^ c.addrW := Nat.mod_lt _ (Nat.two_pow_pos _)

/-- `wrapSub` is subtraction modulo `2^ADDR_W`. -/
theorem wrapSub_cast (c : Config) (a b : Nat) :
    (wrapSub c a b : Int) = ((a : Int) - b) % (2 ^ c.addrW : Nat) := by
  have hb : b % 2 ^ c.addrW ≤ 2 ^ c.addrW := (Nat.mod_lt _ (Nat.two_pow_pos _)).le
  unfold wrapSub
  generalize 2 ^ c.addrW = M at hb ⊢
  calc ((a + (M - b % M)) % M : Nat)
      = ((a : Int) - (b : Int) % M + M) % M := by push_cast [Nat.cast_sub hb]; ring_nf
    _ = ((a : Int) - b) % M := by rw [Int.add_emod_right, Int.sub_emod_emod]

/-- The distance from `b` up to `a` is below `n` exactly when `a` is one of the `n` addresses from `b` on, modulo
`2^ADDR_W`. -/
theorem wrapSub_lt_iff {c : Config} {a : Nat} (ha : a < 2 ^ c.addrW) (b n : Nat) :
    wrapSub c a b < n ↔ ∃ i < n, (a : Int) = ((b : Int) + i) % (2 ^ c.addrW : Nat) := by
  have hmod : (a : Int) % (2 ^ c.addrW : Nat) = a := Int.emod_eq_of_lt (by omega) (by exact_mod_cast ha)
  constructor
  · intro h
    refine ⟨wrapSub c a b, h, ?_⟩
    rw [wrapSub_cast, Int.add_emod_emod, add_sub_cancel, hmod]
  · rintro ⟨i, hi, h⟩
    have hdist : (wrapSub c a b : Int) = (i % 2 ^ c.addrW : Nat) := by
      rw [wrapSub_cast, h, Int.emod_sub_emod, add_sub_cancel_left, Int.natCast_emod]
    have := Nat.mod_le i (2 ^ c.addrW)
    omega

/-- The bytes moved so far, when no more are left than the transfer has. -/
theorem RecordOk.moved_cast {c : Config} {r : EpRec} (h : RecordOk c r) :
    (r.moved.toNat : Int) = (r.len.toNat : Int) - r.rem.toNat := by
  have h1 := h.1
  have := r.len.isLt
  simp only [EpRec.moved, BitVec.toNat_sub]
  omega

/-- A record owns the `len` bytes from the start of its buffer while its transfer runs (spec/20_memory.md R65). -/
theorem EpRec.owns_iff {c : Config} {r : EpRec} (hr : RecordOk c r) {a : Nat} (ha : a < 2 ^ c.addrW) :
    r.owns c a = true ↔ (r.state = .transmitting ∨ r.state = .receiving) ∧ ∃ i : Nat, i < r.len.toNat
      ∧ (a : Int) = ((r.buf.toNat : Int) - ((r.len.toNat : Int) - r.rem.toNat) + i) % (2 ^ c.addrW : Nat) := by
  simp only [EpRec.owns, Bool.and_eq_true, Bool.or_eq_true, beq_iff_eq, decide_eq_true_eq, wrapSub_lt_iff ha,
    wrapSub_cast, Int.emod_add_emod, hr.moved_cast]

/-- The region at SERIAL_BUF that is always owned (spec/20_memory.md R65; it wraps by log entry 13). -/
theorem serialOwns_iff {c : Config} {a : Nat} (ha : a < 2 ^ c.addrW) :
    serialOwns c a = true ↔ ∃ i : Nat, i < 4 * c.uid.length + 2 ∧ a = (c.serialBuf.toNat + i) % 2 ^ c.addrW := by
  simp only [serialOwns, decide_eq_true_eq, wrapSub_lt_iff ha]
  norm_cast

/-- A byte is owned by EP0, by a data endpoint, or as part of SERIAL_BUF. -/
theorem owned_iff {s : State} {a : Nat} :
    owned s a = true ↔ (∃ r : EpRec, (r = s.ep0 ∨ ∃ d ∈ s.deps, r = d.ep) ∧ r.owns s.cfg a = true)
      ∨ serialOwns s.cfg a = true := by
  simp only [owned, Bool.or_eq_true, List.any_eq_true]
  refine or_congr_left ⟨?_, ?_⟩
  · rintro (h | ⟨d, hd, h⟩)
    · exact ⟨_, .inl rfl, h⟩
    · exact ⟨_, .inr ⟨d, hd, rfl⟩, h⟩
  · rintro ⟨r, rfl | ⟨d, hd, rfl⟩, h⟩
    · exact .inl h
    · exact .inr ⟨d, hd, h⟩

theorem CountsOk.record {s : State} (h : CountsOk s) {r : EpRec} (hr : r = s.ep0 ∨ ∃ d ∈ s.deps, r = d.ep) :
    RecordOk s.cfg r := by
  obtain ⟨-, h0, hd⟩ := h
  rcases hr with rfl | ⟨d, hmem, rfl⟩
  · exact h0
  · exact hd d hmem

end Sys2Proof.Machine

namespace Sys2Proof.Proofs

open Sys2Proof Sys2Proof.Machine

/-- Settles O48: each record owns the bytes of its buffer (`EpRec.owns_iff`), because the distance modulo `2^ADDR_W` from
the buffer's start is below `len` exactly there (`wrapSub_lt_iff`). -/
theorem ownedMemoryIsTheTransferBuffers : Obligations.OwnedMemoryIsTheTransferBuffers := by
  unfold Obligations.OwnedMemoryIsTheTransferBuffers
  intro s a ha hCounts
  rw [owned_iff, serialOwns_iff ha]
  refine or_congr_left (exists_congr fun r => and_congr_right fun hr => ?_)
  exact EpRec.owns_iff (hCounts.record hr) ha

/-- Settles O49: inside memory an access moves its byte, and the ownership check writes the fault list only
(`cpuMemRead_inside`, `cpuMemWrite_inside`); what is read back is that of `Memory.write`. -/
theorem cpuMemoryAccessesMoveOneByte : Obligations.CpuMemoryAccessesMoveOneByte := by
  unfold Obligations.CpuMemoryAccessesMoveOneByte
  rintro s rest a v f ha rfl
  refine ⟨fun hi => ?_, fun hi hm => ⟨s.mem.write a v, ?_, Memory.read_write_same hm a v,
    fun _ hb => Memory.read_write_other v hb⟩⟩
  · rw [step_cons hi]
    exact cpuMemRead_inside (s := { s with inputs := rest }) ha
  · rw [step_cons hi]
    exact cpuMemWrite_inside (s := { s with inputs := rest }) ha v

/-- Settles O47: both accesses are refused by the alignment check, which only records the fault. -/
theorem badRegisterAccessOnlyRecordsAFault : Obligations.BadRegisterAccessOnlyRecordsAFault := by
  unfold Obligations.BadRegisterAccessOnlyRecordsAFault
  intro s rest off bits w hoff hbad
  refine ⟨fun hi => ?_, fun hi => ?_⟩
  · rw [step_cons hi]
    exact cpuRegWrite_misaligned hoff hbad w { s with inputs := rest }
  · rw [step_cons hi]
    exact cpuRegRead_misaligned hoff hbad { s with inputs := rest }

end Sys2Proof.Proofs
end

section
/-! PROOFS. What no service invocation writes (spec/46_events_and_service.md R315): the configuration, the CPU's
registers, the pull-up, the frame number, `host_in`, and what the agents are to do. `KeepsUnserved f` says so for each
operation `f` of the invocation. -/

namespace Sys2Proof.Machine

open Sys2Proof

/-! ### The fields that no service writes -/

/-- The fields that no service invocation writes; the others are blanked. -/
def State.unserved (s : State) : State :=
  { State.resetWith s.cfg [] with
    argAddr := s.argAddr, argLen := s.argLen, result := s.result, nie := s.nie
    dev := { Dev.reset with pullup := s.dev.pullup }
    sofFrame := s.sofFrame, hostIn := s.hostIn, readData := s.readData, inputs := s.inputs }

/-- An operation that writes none of them. -/
def KeepsUnserved (f : State → State) : Prop := ∀ s : State, (f s).unserved = s.unserved

/-! ### Table operations and the device state machine -/

@[simp] theorem notify_unserved (r : Record) (s : State) : (notify r s).unserved = s.unserved := by
  unfold notify
  split <;> rfl

@[simp] theorem notifyIf_unserved (b : Bool) (r : Record) (s : State) : (notifyIf b r s).unserved = s.unserved := by
  unfold notifyIf
  split
  · exact notify_unserved r s
  · rfl

@[simp] theorem memWriteBytes_unserved (s : State) (a : Nat) (p : Packet) :
    (memWriteBytes s a p).unserved = s.unserved := by
  simp [State.unserved]

theorem beginTransfer_unserved (a : Byte) (d : Dir) (addr : Addr) (n : Half) (cb : Bool) :
    KeepsUnserved (fun s => (beginTransfer a d addr n cb s).2) := fun s => by
  dsimp only
  obtain ⟨st, h⟩ | ⟨e, -, -, -, -, -, h⟩ := beginTransfer_cases a d addr n cb s
  · rw [h]
  · rw [h]
    cases e <;> rfl

theorem setState_unserved (n : DevState) : KeepsUnserved (setState n) := fun s => by
  unfold setState
  rw [notify_unserved]
  unfold enterBelowSuspended leaveConfigured
  split <;> split <;> rfl

theorem serviceReset_unserved : KeepsUnserved serviceReset := fun s => by
  unfold serviceReset
  rw [notifyIf_unserved]
  exact setState_unserved .default { s with lat := { s.lat with reset := false } }

theorem serviceSuspend_unserved : KeepsUnserved serviceSuspend := fun s => by
  unfold serviceSuspend
  dsimp only
  split
  · exact setState_unserved .suspended { s with lat := { s.lat with suspend := false } }
  · rfl

theorem serviceResume_unserved : KeepsUnserved serviceResume := fun s => by
  unfold serviceResume
  dsimp only
  split
  · exact setState_unserved s.dev.saved { s with lat := { s.lat with resume := false } }
  · rfl

/-! ### Requests and the control transfer -/

theorem setAddress_unserved (p : Setup) : KeepsUnserved (fun s => (setAddress p s).2) := fun s => by
  unfold setAddress
  dsimp only
  split
  · rfl
  · split
    · split
      · exact setState_unserved .addressed s
      · rfl
    · split
      · exact setState_unserved .default s
      · rfl
    all_goals rfl

theorem drawProduct_unserved : KeepsUnserved (fun s => (drawProduct s).2) := fun s => by
  unfold drawProduct
  dsimp only
  split <;> rfl

theorem select_unserved (t i : Byte) : KeepsUnserved (fun s => (select t i s).2) := fun s => by
  unfold select selectString
  dsimp only
  split
  · rfl
  · split
    · rfl
    · split
      · split
        · exact drawProduct_unserved s
        · split
          · exact memWriteBytes_unserved s _ _
          · rfl
      · rfl

theorem getDescriptor_unserved (p : Setup) : KeepsUnserved (fun s => (getDescriptor p s).2) := fun s => by
  have h := select_unserved (p.wValue.extractLsb' 8 8) (p.wValue.extractLsb' 0 8) s
  unfold getDescriptor
  dsimp only
  split
  · rfl
  · split
    · exact h
    · split
      · exact (beginTransfer_unserved _ _ _ _ _ _).trans h
      · exact h

theorem setConfiguration_unserved (p : Setup) : KeepsUnserved (fun s => (setConfiguration p s).2) := fun s => by
  unfold setConfiguration
  dsimp only
  split
  · rfl
  · split
    · split
      · exact setState_unserved .configured { s with dev := { s.dev with config := Config.configValue } }
      · rfl
    · split
      · exact setState_unserved .addressed { s with dev := { s.dev with config := 0 } }
      · split <;> rfl
    all_goals rfl

theorem stdDispatch_unserved (p : Setup) : KeepsUnserved (fun s => (stdDispatch p s).2) := fun s => by
  unfold stdDispatch
  dsimp only
  split
  · rfl
  · split
    · exact setAddress_unserved p s
    · split
      · exact getDescriptor_unserved p s
      · split
        · exact setConfiguration_unserved p s
        · split <;> rfl

theorem applyArm_unserved (p : Setup) (arm : Option Arm) : KeepsUnserved (applyArm p arm) := fun s => by
  cases arm with
  | none => rfl
  | some a => exact beginTransfer_unserved _ _ _ _ _ s

theorem drawHook_unserved : KeepsUnserved (fun s => (drawHook s).2) := fun s => by
  unfold drawHook
  dsimp only
  split <;> rfl

theorem dispatch_unserved (p : Setup) : KeepsUnserved (fun s => (dispatch p s).2) := fun s => by
  have hd := drawHook_unserved s
  unfold dispatch
  dsimp only
  split
  · split
    · exact (applyArm_unserved p _ _).trans hd
    · exact hd
    · exact (stdDispatch_unserved p _).trans hd
  · exact stdDispatch_unserved p s

theorem afterDispatch_unserved (p : Setup) (r : Answer × State) : (afterDispatch p r).unserved = r.2.unserved := by
  unfold afterDispatch
  repeat' split
  all_goals rfl

theorem serviceEp0Setup_unserved : KeepsUnserved serviceEp0Setup := fun s => by
  unfold serviceEp0Setup
  dsimp only
  split
  · rfl
  · split
    · rfl
    · rw [afterDispatch_unserved]
      exact dispatch_unserved _ (acceptSetup _ _)

theorem complete0_unserved (x : Byte) : KeepsUnserved (complete0 x) := fun s => by
  rw [complete0_eq, notifyIf_unserved]
  rfl

theorem ep0Commit_unserved (last : Bool) : KeepsUnserved (ep0Commit last) := fun s => by
  cases last <;> rfl

theorem serviceEp0In_unserved : KeepsUnserved serviceEp0In := fun s => by
  unfold serviceEp0In
  dsimp only
  split
  · rfl
  · split
    · rw [complete0_unserved, ep0Commit_unserved]
      simp [State.unserved]
    · rw [ep0Commit_unserved]
      simp [State.unserved]

theorem ep0Receive_unserved (q : Packet) : KeepsUnserved (ep0Receive q) := fun s => by
  unfold ep0Receive
  dsimp only
  split
  · rw [complete0_unserved]
    simp [State.unserved]
  · simp [State.unserved]

theorem serviceEp0Out_unserved : KeepsUnserved serviceEp0Out := fun s => by
  unfold serviceEp0Out
  dsimp only
  split
  · rfl
  · split
    · rw [notifyIf_unserved]
      rfl
    · split
      · rw [notify_unserved]
        rfl
      · rw [ep0Receive_unserved]
        rfl

/-! ### Data endpoints -/

theorem withEp_unserved (k : Nat) {f : DataEp → State → State} (hf : ∀ d, KeepsUnserved (f d)) :
    KeepsUnserved (withEp k f) := fun s => by
  unfold withEp
  split
  · rfl
  · exact hf _ s

theorem completeData_unserved (k : Nat) : KeepsUnserved (completeData k) :=
  withEp_unserved k fun _ s => notifyIf_unserved _ _ s

theorem serviceDataIn_unserved (k : Nat) : KeepsUnserved (serviceDataIn k) := withEp_unserved k fun d s => by
  dsimp only
  split
  · rfl
  · split
    · simp [State.unserved]
    · exact completeData_unserved k (s.modifyEp k DataEp.clearLatch)

theorem dataReceive_unserved (k : Nat) (d : DataEp) (q : Packet) : KeepsUnserved (dataReceive k d q) := fun s => by
  unfold dataReceive
  dsimp only
  split
  · rw [completeData_unserved]
    simp [State.unserved]
  · simp [State.unserved]

theorem serviceDataOut_unserved (k : Nat) : KeepsUnserved (serviceDataOut k) := withEp_unserved k fun d s => by
  dsimp only
  split
  · rfl
  · split
    · rw [notify_unserved]
      rfl
    · split
      · rw [notify_unserved]
        rfl
      · exact dataReceive_unserved k d _ (s.modifyEp k DataEp.clearLatch)

/-! ### The service invocation -/

theorem serviceWhen_unserved {latch : State → Bool} {f : State → State} (hf : KeepsUnserved f) :
    KeepsUnserved (serviceWhen latch f) := fun s => by
  unfold serviceWhen
  split
  · exact hf s
  · rfl

theorem serviceEach_unserved {f : Nat → State → State} (hf : ∀ k, KeepsUnserved (f k)) (ks : List Nat) :
    KeepsUnserved (serviceEach f ks) := by
  induction ks with
  | nil => exact fun _ => rfl
  | cons k ks ih => exact fun s => (ih _).trans (serviceWhen_unserved (hf k) s)

theorem serviceData_unserved : KeepsUnserved serviceData := fun s =>
  (serviceEach_unserved serviceDataIn_unserved _ _).trans (serviceEach_unserved serviceDataOut_unserved _ s)

theorem serviceControl_unserved : KeepsUnserved serviceControl := fun s => by
  unfold serviceControl
  dsimp only
  rw [serviceWhen_unserved serviceEp0In_unserved, serviceWhen_unserved serviceEp0Out_unserved,
    serviceWhen_unserved serviceEp0Setup_unserved, serviceWhen_unserved (f := serviceEp0SetupEnd) (fun _ => rfl),
    serviceWhen_unserved (f := serviceEp0SentStall) (fun _ => rfl), serviceWhen_unserved serviceResume_unserved,
    serviceWhen_unserved serviceSuspend_unserved, serviceWhen_unserved serviceReset_unserved]

theorem serviceSof_unserved : KeepsUnserved serviceSof := fun s => by
  unfold serviceSof
  rw [notifyIf_unserved]
  unfold rearm0
  dsimp only
  split <;> rfl

/-- What an invocation does not write, whatever is pending. -/
theorem service_unserved : KeepsUnserved service := fun s => by
  unfold service
  dsimp only
  rw [notifyIf_unserved, serviceWhen_unserved serviceSof_unserved, serviceData_unserved, serviceControl_unserved,
    notifyIf_unserved]

end Sys2Proof.Machine
end

section
/-! PROOFS. What each instruction leaves unchanged of memory, the device-wide fields, `host_in` and the SETUP packet
(`execPoll_frame`, `execInit_frame`, `execDisconnect_frame`,
`exec_undisturbed`), and O54. -/

namespace Sys2Proof.Machine

open Sys2Proof

/-- An event that has a step answers the state it delivers. -/
theorem eq_of_deliver {admitted : Bool} {s t : State} (h : deliver admitted s = .next t) : t = s := by
  cases admitted
  · exact nomatch h
  · exact (Host.Outcome.next.inj h).symm

/-- POLL keeps the pull-up and `host_in` (spec/46_events_and_service.md R315, R319). -/
theorem execPoll_frame {s t : State} (h : execPoll s = .next t) : t.dev.pullup = s.dev.pullup ∧ t.hostIn = s.hostIn := by
  obtain rfl := Host.Outcome.next.inj h
  have hPullup : (service s).unserved.dev.pullup = s.unserved.dev.pullup := by rw [service_unserved]
  have hHost : (service s).unserved.hostIn = s.unserved.hostIn := by rw [service_unserved]
  exact ⟨hPullup, hHost⟩

/-- INIT ends in Attached, and keeps memory and `host_in` (spec/45_device_state.md R278). -/
theorem execInit_frame {s t : State} (h : execInit s = .next t) :
    t.dev.state = .attached ∧ t.mem = s.mem ∧ t.hostIn = s.hostIn := by
  obtain rfl := Host.Outcome.next.inj h
  simp [initState, State.resetWith, Dev.reset]

/-- DISCONNECT ends in Attached, and keeps memory, `host_in` and the SETUP packet (spec/45_device_state.md R280). -/
theorem execDisconnect_frame {s t : State} (h : execDisconnect s = .next t) :
    t.dev.state = .attached ∧ t.mem = s.mem ∧ t.hostIn = s.hostIn ∧ t.setup = s.setup := by
  obtain rfl := Host.Outcome.next.inj h
  unfold disconnectState clearStall
  dsimp only
  split <;> simp [setState_dev_state]

/-- Memory, the SETUP packet, the device-wide fields and `host_in`. -/
def State.reached (s : State) : Memory × Setup × Dev × List (Byte × Packet) := (s.mem, s.setup, s.dev, s.hostIn)

theorem beginTransfer_reached (a : Byte) (d : Dir) (addr : Addr) (n : Half) (cb : Bool) (s : State) :
    (beginTransfer a d addr n cb s).2.reached = s.reached := by
  obtain ⟨st, h⟩ | ⟨e, -, -, -, -, -, h⟩ := beginTransfer_cases a d addr n cb s
  · rw [h]
  · rw [h]
    cases e <;> rfl

theorem abort_reached (e : EpRef) (s : State) : (abort e s).reached = s.reached := by
  cases e with
  | ep0 =>
    unfold abort abort0
    dsimp only
    split <;> rfl
  | data k d => rfl

theorem onEndpoint_reached (epa : Byte) {f : EpRef → State → State} {s : State}
    (hf : ∀ e, (f e s).reached = s.reached) : (onEndpoint epa f s).reached = s.reached := by
  unfold onEndpoint
  split
  · rfl
  · exact hf _

/-- What the instructions but POLL, INIT and DISCONNECT leave unchanged. -/
structure Undisturbed (i : Instr) (s t : State) : Prop where
  mem    : t.mem = s.mem
  setup  : t.setup = s.setup
  dev    : t.dev = { s.dev with addr := t.dev.addr, pullup := t.dev.pullup }
  pullup : i ≠ .connect → t.dev.pullup = s.dev.pullup
  hostIn : (∀ epa, i ≠ .evInTaken epa) → t.hostIn = s.hostIn

theorem Undisturbed.of_reached {i : Instr} {s t : State} (h : t.reached = s.reached) : Undisturbed i s t := by
  simp only [State.reached, Prod.mk.injEq] at h
  obtain ⟨hm, hs, hd, hh⟩ := h
  exact ⟨hm, hs, by rw [hd], fun _ => by rw [hd], fun _ => hh⟩

theorem execEvOut_reached {epa : Byte} {pay : Packet} {s t : State} (h : execEvOut epa pay s = .next t) :
    t.reached = s.reached := by
  unfold execEvOut at h
  split at h
  · exact nomatch h
  · rw [eq_of_deliver h]
    rfl
  · rw [eq_of_deliver h]
    rfl

theorem execEvSentStall_reached {epa : Byte} {s t : State} (h : execEvSentStall epa s = .next t) :
    t.reached = s.reached := by
  unfold execEvSentStall at h
  split at h
  · exact nomatch h
  · rw [eq_of_deliver h]
    rfl
  · rw [eq_of_deliver h]
    rfl

theorem execEvInTaken_undisturbed {epa : Byte} {s t : State} (h : execEvInTaken epa s = .next t) :
    Undisturbed (.evInTaken epa) s t := by
  have hTakes {P : Prop} (hne : ∀ a, Instr.evInTaken epa ≠ .evInTaken a) : P := absurd rfl (hne epa)
  unfold execEvInTaken at h
  split at h
  · exact nomatch h
  · obtain rfl := eq_of_deliver h
    exact ⟨rfl, rfl, rfl, fun _ => rfl, hTakes⟩
  · obtain rfl := eq_of_deliver h
    exact ⟨rfl, rfl, rfl, fun _ => rfl, hTakes⟩

/-- No instruction but POLL, INIT and DISCONNECT reaches memory, the SETUP packet or the device state; of the others,
CONNECT alone writes the pull-up and EV_IN_TAKEN alone `host_in`. -/
theorem exec_undisturbed {i : Instr} {s t : State} (hPoll : i ≠ .poll) (hInit : i ≠ .init) (hDisc : i ≠ .disconnect)
    (h : exec i s = .next t) : Undisturbed i s t := by
  cases i with
  | poll => exact absurd rfl hPoll
  | init => exact absurd rfl hInit
  | disconnect => exact absurd rfl hDisc
  | connect =>
    obtain rfl := Host.Outcome.next.inj h
    exact ⟨rfl, rfl, rfl, fun hne => absurd rfl hne, fun _ => rfl⟩
  | write epa cb | read epa cb =>
    obtain rfl := Host.Outcome.next.inj h
    exact .of_reached (beginTransfer_reached epa _ s.argAddr s.argLen cb s)
  | abort epa =>
    obtain rfl := Host.Outcome.next.inj h
    exact .of_reached (onEndpoint_reached epa fun e => abort_reached e s)
  | abortAll =>
    obtain rfl := Host.Outcome.next.inj h
    exact .of_reached rfl
  | isBusy epa | remaining epa =>
    obtain rfl := Host.Outcome.next.inj h
    exact .of_reached (onEndpoint_reached epa fun _ => rfl)
  | evBusReset =>
    obtain rfl := eq_of_deliver h
    exact ⟨rfl, rfl, rfl, fun _ => rfl, fun _ => rfl⟩
  | evSuspend | evResume | evSof frame | evSetup pay | evSetupEnd =>
    obtain rfl := eq_of_deliver h
    exact .of_reached rfl
  | evOut epa pay => exact .of_reached (execEvOut_reached h)
  | evInTaken epa => exact execEvInTaken_undisturbed h
  | evSentStall epa => exact .of_reached (execEvSentStall_reached h)

end Sys2Proof.Machine

namespace Sys2Proof.Proofs

open Sys2Proof Sys2Proof.Machine

/-- Settles O54: POLL, INIT and DISCONNECT each by what they keep (`execPoll_frame`, `execInit_frame`,
`execDisconnect_frame`), every other instruction by `exec_undisturbed`. -/
theorem instructionsKeepWhatTheyDoNotReach : Obligations.InstructionsKeepWhatTheyDoNotReach := by
  unfold Obligations.InstructionsKeepWhatTheyDoNotReach
  intro i s t h
  by_cases hPoll : i = .poll
  · subst hPoll
    obtain ⟨hPullup, hHost⟩ := execPoll_frame h
    simp [hPullup, hHost]
  by_cases hInit : i = .init
  · subst hInit
    obtain ⟨hState, hMem, hHost⟩ := execInit_frame h
    simp [hState, hMem, hHost]
  by_cases hDisc : i = .disconnect
  · subst hDisc
    obtain ⟨hState, hMem, hHost, hSetup⟩ := execDisconnect_frame h
    simp [hState, hMem, hHost, hSetup]
  obtain ⟨hMem, hSetup, hDev, hPullup, hHost⟩ := exec_undisturbed hPoll hInit hDisc h
  refine ⟨fun _ => hMem, fun _ _ _ => ?_, fun hAtt => ?_, fun hConn _ _ => hPullup hConn, hHost, fun _ _ => hSetup⟩
  · rw [hDev]
    exact ⟨rfl, rfl, rfl, rfl⟩
  · exact absurd hAtt (not_or.2 ⟨hInit, hDisc⟩)

end Sys2Proof.Proofs
end

section
/-! PROOFS. `encode` and `decode` are inverse to each other (spec/30_encoding.md R91 to R99): `decode_encode` and
`decode_encodes`, joined in `decode_eq_ok_iff`. The rows of the tables of R95 and R99 are read field by field
(`commandRow_iff`, `eventRow_iff`), so that a match with a row says what its instruction's word says. Then O1, O2, O3, and
O6. -/

namespace Sys2Proof

/-! ### A word is its fields (spec/30_encoding.md R91, R97) -/

theorem append_eq_append_iff {n m : Nat} {a c : BitVec n} {b d : BitVec m} : a ++ b = c ++ d ↔ a = c ∧ b = d := by
  refine ⟨fun h => ⟨?_, ?_⟩, fun ⟨ha, hb⟩ => by rw [ha, hb]⟩
  · simpa only [BitVec.extractLsb'_append_eq_left] using congrArg (BitVec.extractLsb' m n) h
  · simpa only [BitVec.extractLsb'_append_eq_right] using congrArg (BitVec.extractLsb' 0 m) h

/-- A mask acts on each part of a word by itself. -/
theorem and_append_eq_append_iff {n m : Nat} {x a c : BitVec n} {y b d : BitVec m} :
    (x ++ y) &&& (a ++ b) = c ++ d ↔ x &&& a = c ∧ y &&& b = d := by
  rw [BitVec.and_append, append_eq_append_iff]

theorem word_eq_commandFields (w : Word) :
    w = codeField w ++ epaField w ++ (w.extractLsb' 9 7 ++ BitVec.ofBool (cbField w) ++ w.extractLsb' 0 8) := by
  have hcb : BitVec.ofBool (cbField w) = w.extractLsb' 8 1 := by
    ext i hi
    obtain rfl : i = 0 := by omega
    simp [cbField]
  rw [hcb, codeField, epaField, BitVec.extractLsb'_append_extractLsb'_eq_extractLsb' (by rfl),
    BitVec.extractLsb'_append_extractLsb'_eq_extractLsb' (by rfl),
    BitVec.extractLsb'_append_extractLsb'_eq_extractLsb' (by rfl),
    BitVec.extractLsb'_append_extractLsb'_eq_extractLsb' (by rfl)]
  exact BitVec.extractLsb'_eq_self.symm

theorem word_eq_eventFields (w : Word) : w = codeField w ++ epaField w ++ (w.extractLsb' 11 5 ++ cntField w) := by
  rw [codeField, epaField, cntField, BitVec.extractLsb'_append_extractLsb'_eq_extractLsb' (by rfl),
    BitVec.extractLsb'_append_extractLsb'_eq_extractLsb' (by rfl),
    BitVec.extractLsb'_append_extractLsb'_eq_extractLsb' (by rfl)]
  exact BitVec.extractLsb'_eq_self.symm

section

variable {c e : Byte} {b : Bool} {n : BitVec 11} {w : Word}

@[simp] theorem codeField_commandWord : codeField (commandWord c e b) = c := (commandWord_fields c e b).1

@[simp] theorem epaField_commandWord : epaField (commandWord c e b) = e := (commandWord_fields c e b).2.1

@[simp] theorem cbField_commandWord : cbField (commandWord c e b) = b := (commandWord_fields c e b).2.2.1

@[simp] theorem commandWord_reserved :
    (commandWord c e b).extractLsb' 9 7 = 0#7 ∧ (commandWord c e b).extractLsb' 0 8 = 0#8 :=
  (commandWord_fields c e b).2.2.2

@[simp] theorem codeField_eventWord : codeField (eventWord c e n) = c := (eventWord_fields c e n).1

@[simp] theorem epaField_eventWord : epaField (eventWord c e n) = e := (eventWord_fields c e n).2.1

@[simp] theorem cntField_eventWord : cntField (eventWord c e n) = n := (eventWord_fields c e n).2.2.1

@[simp] theorem eventWord_reserved : (eventWord c e n).extractLsb' 11 5 = 0#5 := (eventWord_fields c e n).2.2.2

theorem commandWord_eq_iff : commandWord c e b = w ↔
    codeField w = c ∧ epaField w = e ∧ cbField w = b ∧ w.extractLsb' 9 7 = 0 ∧ w.extractLsb' 0 8 = 0 := by
  constructor
  · rintro rfl
    exact commandWord_fields c e b
  · rintro ⟨rfl, rfl, rfl, h9, h0⟩
    exact (eq_commandWord h9 h0).symm

theorem eventWord_eq_iff : eventWord c e n = w ↔
    codeField w = c ∧ epaField w = e ∧ cntField w = n ∧ w.extractLsb' 11 5 = 0 := by
  constructor
  · rintro rfl
    exact eventWord_fields c e n
  · rintro ⟨rfl, rfl, rfl, hr⟩
    exact (eq_eventWord hr).symm

end

/-- A length that CNT holds is its own count (R97). -/
theorem eq_toNat_iff {n : BitVec 11} {l : Nat} : l = n.toNat ↔ l < 2048 ∧ n = BitVec.ofNat 11 l := by
  constructor
  · rintro rfl
    exact ⟨n.isLt, by simp⟩
  · rintro ⟨hl, rfl⟩
    rw [BitVec.toNat_ofNat, Nat.mod_eq_of_lt hl]

/-! ### Decoding an encoding -/

theorem decode_encode {i : Instr} (hi : i.wellFormed = true) :
    decode (encode i).port (encode i).word (encode i).pay = .ok i := by
  cases i with
  | init | connect | disconnect | abortAll | poll => simp [encode, decode, decodeCommand, plainCommand]
  | write epa cb | read epa cb => simp [encode, decode, decodeCommand]
  | abort epa | isBusy epa | remaining epa => simp [encode, decode, decodeCommand, endpointCommand]
  | evBusReset | evSuspend | evResume | evSetupEnd => simp [encode, decode, decodeEvent, plainEvent]
  | evSof frame => simp [encode, decode, decodeEvent, sofEvent]
  | evSetup pay =>
    have hlen : pay.length = 8 := beq_iff_eq.1 hi
    simp [encode, decode, decodeEvent, setupEvent, hlen]
  | evOut epa pay =>
    obtain ⟨hdir, hlen⟩ : epa.msb = false ∧ pay.length < 2048 := by simpa [Instr.wellFormed] using hi
    simp [encode, decode, decodeEvent, outEvent, hdir, Nat.mod_eq_of_lt hlen]
  | evInTaken epa =>
    have hdir : epa.msb = true := hi
    simp [encode, decode, decodeEvent, inTakenEvent, hdir]
  | evSentStall epa => simp [encode, decode, decodeEvent, sentStallEvent]

/-! ### Encoding what was decoded -/

/-- The port, word and payload are those of a well-formed instruction. -/
def Encodes (p : Port) (w : Word) (pay : Packet) (i : Instr) : Prop := i.wellFormed = true ∧ encode i = ⟨p, w, pay⟩

section

variable {w : Word} {pay : Packet} {c e : Byte} {i : Instr}

theorem Encodes.command {b : Bool} (hr : w.extractLsb' 9 7 = 0 ∧ w.extractLsb' 0 8 = 0) (hc : codeField w = c)
    (he : epaField w = e) (hb : cbField w = b) (hi : i.wellFormed = true)
    (henc : encode i = ⟨.cmd, commandWord c e b, []⟩) : Encodes .cmd w [] i :=
  ⟨hi, by rw [henc, commandWord_eq_iff.2 ⟨hc, he, hb, hr⟩]⟩

theorem Encodes.event {n : BitVec 11} (hr : w.extractLsb' 11 5 = 0) (hc : codeField w = c) (he : epaField w = e)
    (hn : cntField w = n) (hi : i.wellFormed = true) (henc : encode i = ⟨.bus, eventWord c e n, pay⟩) :
    Encodes .bus w pay i :=
  ⟨hi, by rw [henc, eventWord_eq_iff.2 ⟨hc, he, hn, hr⟩]⟩

theorem plainCommand_encodes (hr : w.extractLsb' 9 7 = 0 ∧ w.extractLsb' 0 8 = 0) (hc : codeField w = c)
    (hi : i.wellFormed = true) (henc : encode i = ⟨.cmd, commandWord c 0 false, []⟩) :
    DecodesTo (Encodes .cmd w []) (plainCommand w i) :=
  .plainCommand fun hb he => .command hr hc he hb hi henc

theorem endpointCommand_encodes {f : Byte → Instr} (hr : w.extractLsb' 9 7 = 0 ∧ w.extractLsb' 0 8 = 0)
    (hc : codeField w = c) (hi : ∀ e, (f e).wellFormed = true)
    (henc : ∀ e, encode (f e) = ⟨.cmd, commandWord c e false, []⟩) :
    DecodesTo (Encodes .cmd w []) (endpointCommand w f) :=
  .check fun hb => .ok (.command hr hc rfl (Bool.eq_false_iff.2 hb) (hi _) (henc _))

theorem plainEvent_encodes (hr : w.extractLsb' 11 5 = 0) (hc : codeField w = c) (hi : i.wellFormed = true)
    (henc : encode i = ⟨.bus, eventWord c 0 0, []⟩) : DecodesTo (Encodes .bus w pay) (plainEvent w pay i) :=
  .check fun he => .check fun hn => .check fun hp => .ok <| by
    rw [not_not.1 hp]
    exact .event hr hc (not_not.1 he) (not_not.1 hn) hi henc

theorem sofEvent_encodes (hr : w.extractLsb' 11 5 = 0) (hc : codeField w = 0x04) :
    DecodesTo (Encodes .bus w pay) (sofEvent w pay) :=
  .check fun he => .check fun hp => .ok <| by
    rw [not_not.1 hp]
    exact .event hr hc (not_not.1 he) rfl rfl rfl

theorem setupEvent_encodes (hr : w.extractLsb' 11 5 = 0) (hc : codeField w = 0x10) :
    DecodesTo (Encodes .bus w pay) (setupEvent w pay) :=
  .check fun he => .check fun hn => .check fun hp =>
    .ok (.event hr hc (not_not.1 he) (not_not.1 hn) (beq_iff_eq.2 (not_not.1 hp)) rfl)

theorem outEvent_encodes (hr : w.extractLsb' 11 5 = 0) (hc : codeField w = 0x12) :
    DecodesTo (Encodes .bus w pay) (outEvent w pay) :=
  .check fun hd => .check fun hn => .ok <| by
    obtain ⟨hlen, hcnt⟩ := eq_toNat_iff.1 (not_not.1 hn).symm
    exact .event hr hc rfl hcnt (by simp [Instr.wellFormed, hd, hlen]) rfl

theorem inTakenEvent_encodes (hr : w.extractLsb' 11 5 = 0) (hc : codeField w = 0x13) :
    DecodesTo (Encodes .bus w pay) (inTakenEvent w pay) :=
  .check fun hd => .check fun hn => .check fun hp => .ok <| by
    have hdir : (epaField w).msb = true := by simpa using hd
    rw [not_not.1 hp]
    exact .event hr hc rfl (not_not.1 hn) hdir rfl

theorem sentStallEvent_encodes (hr : w.extractLsb' 11 5 = 0) (hc : codeField w = 0x14) :
    DecodesTo (Encodes .bus w pay) (sentStallEvent w pay) :=
  .check fun hn => .check fun hp => .ok <| by
    rw [not_not.1 hp]
    exact .event hr hc rfl (not_not.1 hn) rfl rfl

end

/-- The rows of R95, in the decoder's order. -/
theorem decodeCommand_encodes (w : Word) : DecodesTo (Encodes .cmd w []) (decodeCommand w) :=
  .check fun h => by
    obtain ⟨h9, h0⟩ := not_or.1 h
    have hr : w.extractLsb' 9 7 = 0 ∧ w.extractLsb' 0 8 = 0 := ⟨not_not.1 h9, not_not.1 h0⟩
    exact
      .ite (fun hc => plainCommand_encodes hr hc rfl rfl) fun _ =>
      .ite (fun hc => plainCommand_encodes hr hc rfl rfl) fun _ =>
      .ite (fun hc => plainCommand_encodes hr hc rfl rfl) fun _ =>
      .ite (fun hc => .ok (.command hr hc rfl rfl rfl rfl)) fun _ =>
      .ite (fun hc => .ok (.command hr hc rfl rfl rfl rfl)) fun _ =>
      .ite (fun hc => endpointCommand_encodes hr hc (fun _ => rfl) fun _ => rfl) fun _ =>
      .ite (fun hc => plainCommand_encodes hr hc rfl rfl) fun _ =>
      .ite (fun hc => endpointCommand_encodes hr hc (fun _ => rfl) fun _ => rfl) fun _ =>
      .ite (fun hc => endpointCommand_encodes hr hc (fun _ => rfl) fun _ => rfl) fun _ =>
      .ite (fun hc => plainCommand_encodes hr hc rfl rfl) fun _ => .error _

/-- The rows of R99, in the decoder's order. -/
theorem decodeEvent_encodes (w : Word) (pay : Packet) : DecodesTo (Encodes .bus w pay) (decodeEvent w pay) :=
  .check fun h => by
    have hr : w.extractLsb' 11 5 = 0 := not_not.1 h
    exact
      .ite (fun hc => plainEvent_encodes hr hc rfl rfl) fun _ =>
      .ite (fun hc => plainEvent_encodes hr hc rfl rfl) fun _ =>
      .ite (fun hc => plainEvent_encodes hr hc rfl rfl) fun _ =>
      .ite (sofEvent_encodes hr) fun _ =>
      .ite (setupEvent_encodes hr) fun _ =>
      .ite (fun hc => plainEvent_encodes hr hc rfl rfl) fun _ =>
      .ite (outEvent_encodes hr) fun _ =>
      .ite (inTakenEvent_encodes hr) fun _ =>
      .ite (sentStallEvent_encodes hr) fun _ => .error _

theorem decode_encodes (p : Port) (w : Word) (pay : Packet) : DecodesTo (Encodes p w pay) (decode p w pay) := by
  cases p with
  | cmd => exact .check fun hp => not_not.1 hp ▸ decodeCommand_encodes w
  | bus => exact decodeEvent_encodes w pay

theorem decode_eq_ok_iff {p : Port} {w : Word} {pay : Packet} {i : Instr} :
    decode p w pay = .ok i ↔ Encodes p w pay i := by
  refine ⟨decode_encodes p w pay i, fun ⟨hi, henc⟩ => ?_⟩
  have h := decode_encode hi
  rwa [henc] at h

/-! ### The rows of the tables, field by field (spec/30_encoding.md R95, R99) -/

/-- A row of R95: OPC, and the masks of EPA and CB; what is fixed of EPA and CB is 0. -/
def commandRow (opc epaMask : Byte) (cbMask : Bool) : Word × Word :=
  (commandWord opc 0 false,
    BitVec.allOnes 8 ++ epaMask ++ (BitVec.allOnes 7 ++ BitVec.ofBool cbMask ++ BitVec.allOnes 8))

/-- A row of R99: EVC, then EPA with its mask, then CNT with its mask. -/
def eventRow (evc epa epaMask : Byte) (cnt cntMask : BitVec 11) : Word × Word :=
  (eventWord evc epa cnt, BitVec.allOnes 8 ++ epaMask ++ (BitVec.allOnes 5 ++ cntMask))

theorem commandTable_eq : commandTable =
    [commandRow 0x01 (.allOnes 8) true, commandRow 0x02 (.allOnes 8) true, commandRow 0x03 (.allOnes 8) true,
      commandRow 0x10 0 false, commandRow 0x11 0 false, commandRow 0x20 0 true, commandRow 0x21 (.allOnes 8) true,
      commandRow 0x30 0 true, commandRow 0x31 0 true, commandRow 0x40 (.allOnes 8) true] := by decide

theorem eventTable_eq : eventTable =
    [eventRow 0x01 0 (.allOnes 8) 0 (.allOnes 11), eventRow 0x02 0 (.allOnes 8) 0 (.allOnes 11),
      eventRow 0x03 0 (.allOnes 8) 0 (.allOnes 11), eventRow 0x04 0 (.allOnes 8) 0 0,
      eventRow 0x10 0 (.allOnes 8) 8 (.allOnes 11), eventRow 0x11 0 (.allOnes 8) 0 (.allOnes 11),
      eventRow 0x12 0 0x80 0 0, eventRow 0x13 0x80 0x80 0 (.allOnes 11), eventRow 0x14 0 0 0 (.allOnes 11)] := by
  decide

section

variable {w : Word} {pay : Packet} {c e m : Byte}

theorem commandRow_iff {k : Bool} :
    w &&& (commandRow c m k).2 = (commandRow c m k).1 ↔
      codeField w = c ∧ epaField w &&& m = 0 ∧ (k = true → cbField w = false)
        ∧ w.extractLsb' 9 7 = 0 ∧ w.extractLsb' 0 8 = 0 := by
  have hcb : ∀ b k : Bool, BitVec.ofBool b &&& BitVec.ofBool k = BitVec.ofBool false ↔ (k = true → b = false) := by
    decide
  conv_lhs => lhs; lhs; rw [word_eq_commandFields w]
  refine (and_append_eq_append_iff (n := 8 + 8) (m := 7 + 1 + 8)).trans ?_
  simp only [and_append_eq_append_iff, BitVec.and_allOnes, hcb, and_assoc]
  exact and_congr_right' (and_congr_right' and_left_comm)

theorem eventRow_iff {n k : BitVec 11} :
    w &&& (eventRow c e m n k).2 = (eventRow c e m n k).1 ↔
      codeField w = c ∧ epaField w &&& m = e ∧ w.extractLsb' 11 5 = 0 ∧ cntField w &&& k = n := by
  conv_lhs => lhs; lhs; rw [word_eq_eventFields w]
  refine (and_append_eq_append_iff (n := 8 + 8) (m := 5 + 11)).trans ?_
  simp only [and_append_eq_append_iff, BitVec.and_allOnes, and_assoc]
  rfl

/-- A row decides the length of the payload as well: CNT for EV_SETUP and EV_OUT, none otherwise (R97). -/
theorem eventRow_payload_iff {n k : BitVec 11} :
    w &&& (eventRow c e m n k).2 = (eventRow c e m n k).1 ∧ pay.length = payloadLength w ↔
      codeField w = c ∧ epaField w &&& m = e ∧ w.extractLsb' 11 5 = 0 ∧ cntField w &&& k = n
        ∧ pay.length = if c = 0x10 ∨ c = 0x12 then (cntField w).toNat else 0 := by
  rw [eventRow_iff, and_assoc, and_assoc, and_assoc]
  refine and_congr_right fun hc => ?_
  rw [payloadLength, hc]

theorem and_dirMask_eq_zero_iff : ∀ a : Byte, a &&& 0x80 = 0 ↔ a.msb = false := by decide

theorem and_dirMask_eq_dirMask_iff : ∀ a : Byte, a &&& 0x80 = 0x80 ↔ a.msb = true := by decide

/-! ### A word decodes when it matches a row -/

/-- An instruction is one of the rows of spec/opcode_table.json. -/
theorem exists_instr_iff {P : Instr → Prop} : (∃ i, P i) ↔
    P .init ∨ P .connect ∨ P .disconnect ∨ (∃ epa cb, P (.write epa cb)) ∨ (∃ epa cb, P (.read epa cb))
    ∨ (∃ epa, P (.abort epa)) ∨ P .abortAll ∨ (∃ epa, P (.isBusy epa)) ∨ (∃ epa, P (.remaining epa)) ∨ P .poll
    ∨ P .evBusReset ∨ P .evSuspend ∨ P .evResume ∨ (∃ frame, P (.evSof frame)) ∨ (∃ pay, P (.evSetup pay))
    ∨ P .evSetupEnd ∨ (∃ epa pay, P (.evOut epa pay)) ∨ (∃ epa, P (.evInTaken epa)) ∨ ∃ epa, P (.evSentStall epa) := by
  constructor
  · rintro ⟨i, h⟩
    cases i <;> grind
  · rintro (h | h | h | ⟨_, _, h⟩ | ⟨_, _, h⟩ | ⟨_, h⟩ | h | ⟨_, h⟩ | ⟨_, h⟩ | h | h | h | h | ⟨_, h⟩ | ⟨_, h⟩ | h
      | ⟨_, _, h⟩ | ⟨_, h⟩ | ⟨_, h⟩) <;> exact ⟨_, h⟩

theorem exists_encodes_evSetup_iff : (∃ p, Encodes .bus w pay (.evSetup p)) ↔
    codeField w = 0x10 ∧ epaField w = 0 ∧ w.extractLsb' 11 5 = 0 ∧ cntField w = 8
      ∧ pay.length = (cntField w).toNat := by
  simp only [Encodes, encode, Instr.wellFormed, Encoded.mk.injEq, eventWord_eq_iff, beq_iff_eq]
  constructor
  · rintro ⟨_, hlen, -, ⟨hc, he, hn, hr⟩, rfl⟩
    exact ⟨hc, he, hr, hn, by rw [hlen, hn]; rfl⟩
  · rintro ⟨hc, he, hr, hn, hlen⟩
    rw [hn] at hlen
    exact ⟨pay, hlen, trivial, ⟨hc, he, hn, hr⟩, rfl⟩

theorem exists_encodes_evOut_iff : (∃ epa p, Encodes .bus w pay (.evOut epa p)) ↔
    codeField w = 0x12 ∧ (epaField w).msb = false ∧ w.extractLsb' 11 5 = 0 ∧ pay.length = (cntField w).toNat := by
  simp only [Encodes, encode, Instr.wellFormed, Encoded.mk.injEq, eventWord_eq_iff, eq_toNat_iff, Bool.and_eq_true,
    Bool.not_eq_true', decide_eq_true_eq]
  constructor
  · rintro ⟨_, _, ⟨hdir, hlen⟩, -, ⟨hc, rfl, hn, hr⟩, rfl⟩
    exact ⟨hc, hdir, hr, hlen, hn⟩
  · rintro ⟨hc, hdir, hr, hlen, hn⟩
    exact ⟨_, pay, ⟨hdir, hlen⟩, trivial, ⟨hc, rfl, hn, hr⟩, rfl⟩

theorem decode_cmd_iff_matches_row :
    (∃ i, decode .cmd w [] = .ok i) ↔ ∃ row ∈ commandTable, w &&& row.2 = row.1 := by
  simp only [decode_eq_ok_iff, exists_instr_iff, commandTable_eq, List.mem_cons, exists_eq_or_imp, commandRow_iff,
    BitVec.and_allOnes]
  simp [Encodes, encode, commandWord_eq_iff, Instr.wellFormed]

theorem decode_bus_iff_matches_row :
    (∃ i, decode .bus w pay = .ok i) ↔ (∃ row ∈ eventTable, w &&& row.2 = row.1) ∧ pay.length = payloadLength w := by
  have hrow : ((∃ row ∈ eventTable, w &&& row.2 = row.1) ∧ pay.length = payloadLength w) ↔
      ∃ row ∈ eventTable, w &&& row.2 = row.1 ∧ pay.length = payloadLength w := by
    simp only [← exists_and_right, and_assoc]
  rw [hrow]
  simp only [decode_eq_ok_iff, exists_instr_iff, exists_encodes_evSetup_iff, exists_encodes_evOut_iff, eventTable_eq,
    List.mem_cons, exists_eq_or_imp, eventRow_payload_iff, BitVec.and_allOnes, and_dirMask_eq_zero_iff,
    and_dirMask_eq_dirMask_iff]
  simp [Encodes, encode, eventWord_eq_iff, Instr.wellFormed, and_assoc, and_comm, and_left_comm]

end

end Sys2Proof

namespace Sys2Proof.Machine

open Sys2Proof

/-! ### Commands for an endpoint that does not exist (spec/40_endpoint_table.md R120) -/

theorem setResult_illegal (s : State) : s.setResult .illegal 0 = { s with result := 0x01000000 } := rfl

theorem onEndpoint_of_lookup_none {s : State} {epa : Byte} (h : lookup s epa = none) (f : EpRef → State → State) :
    onEndpoint epa f s = s.setResult .illegal 0 := by
  rw [onEndpoint, h]

theorem transferCommand_of_lookup_none {s : State} {epa : Byte} (h : lookup s epa = none) (d : Dir) (cb : Bool) :
    transferCommand epa d cb s = s.setResult .illegal 0 := by
  have hb : beginTransfer epa d s.argAddr s.argLen cb s = (.illegal, s) := by
    rw [beginTransfer, beginCheck, h]
  rw [transferCommand, hb]

end Sys2Proof.Machine

namespace Sys2Proof.Proofs

open Sys2Proof Sys2Proof.Machine

/-- Settles O1, by `decode_encode`: each instruction's word has the fields that its row of the decoder reads. -/
theorem decodeOfEncodeGivesInstruction : Obligations.DecodeOfEncodeGivesInstruction := by
  unfold Obligations.DecodeOfEncodeGivesInstruction
  exact fun _ hi => decode_encode hi

/-- Settles O2, by `decode_encodes`: the decoder's checks fix every bit of the word that no operand takes. -/
theorem encodeOfDecodeGivesWord : Obligations.EncodeOfDecodeGivesWord := by
  unfold Obligations.EncodeOfDecodeGivesWord
  exact fun p w pay i h => decode_encodes p w pay i h

/-- Settles O3: a word decodes when it is some instruction's word (`decode_eq_ok_iff`), which row by row says what the
match with the mask says. -/
theorem masksDecideDecoding : Obligations.MasksDecideDecoding := by
  unfold Obligations.MasksDecideDecoding
  exact ⟨fun _ => decode_cmd_iff_matches_row, fun _ _ => decode_bus_iff_matches_row⟩

/-- Settles O6: the store to CMD and each of the five commands end in `setResult .illegal 0`; the delivery stops with
`malformedEvent`. -/
theorem malformedWordOnlyWritesIllegal : Obligations.MalformedWordOnlyWritesIllegal := by
  unfold Obligations.MalformedWordOnlyWritesIllegal
  refine ⟨fun s rest w e hi hd => ?_, fun s epa cb hl => ?_, fun s rest w pay e hi hd t ht => ?_⟩
  · rw [step_cons hi]
    refine (cpuRegWrite_aligned (off := 0) (by decide) rfl w { s with inputs := rest }).trans ?_
    rw [if_pos rfl, runCommand, hd]
    exact congrArg Host.Outcome.next (setResult_illegal _)
  · simp only [exec, execWrite, execRead, execAbort, execIsBusy, execRemaining, transferCommand_of_lookup_none hl,
      onEndpoint_of_lookup_none hl, setResult_illegal, and_self]
  · rw [step_cons hi, deliverStimulus, runEvent, hd] at ht
    exact nomatch ht

end Sys2Proof.Proofs
end

section
/-! PROOFS. The commands of the endpoint table (spec/40_endpoint_table.md R121 to R135): what a transfer command answers
for each kind of endpoint and each failing check of `begin_transfer`, what `abort` and `abort_all` leave, and O4 and O12
to O17. -/

namespace Sys2Proof

/-- With a given payload, an instruction has one word. -/
theorem decode_eq_ok_iff_eq {i : Instr} {p : Port} {v w : Word} {pay : Packet} (hi : i.wellFormed = true)
    (henc : encode i = ⟨p, v, pay⟩) : decode p w pay = .ok i ↔ w = v := by
  rw [decode_eq_ok_iff, Encodes, henc]
  simp [hi, eq_comm]

end Sys2Proof

namespace Sys2Proof.Machine

open Sys2Proof

/-! ### Addresses, RESULT and the meanings of the commands -/

theorem epaDir_eq_in_iff {a : Byte} : epaDir a = .in ↔ a.msb = true := by simp [epaDir]

theorem epaDir_eq_out_iff {a : Byte} : epaDir a = .out ↔ a.msb = false := by simp [epaDir]

theorem dir_ne_in_iff {d : Dir} : d ≠ .in ↔ d = .out := by cases d <;> decide

theorem dir_ne_out_iff {d : Dir} : d ≠ .out ↔ d = .in := by cases d <;> decide

theorem resultWord_ok (v : Half) : resultWord .ok v = v.zeroExtend 32 := by
  exact (BitVec.setWidth_eq_append (v := 16) (w := 32) (by decide)).symm

theorem setResult_ok (s : State) : s.setResult .ok 0 = { s with result := 0 } := rfl

section

variable (epa : Byte) (cb : Bool) (s : State)

theorem exec_write : exec (.write epa cb) s = .next (transferCommand epa .in cb s) := rfl

theorem exec_read : exec (.read epa cb) s = .next (transferCommand epa .out cb s) := rfl

theorem exec_abort : exec (.abort epa) s = .next (onEndpoint epa (fun e s => (abort e s).setResult .ok 0) s) := rfl

theorem exec_abortAll : exec .abortAll s = .next ((abortAll s).setResult .ok 0) := rfl

theorem exec_isBusy : exec (.isBusy epa) s =
    .next (onEndpoint epa (fun e s => s.setResult .ok (if (e.rec0 s).state ≠ .idle then 1 else 0)) s) := rfl

theorem exec_remaining : exec (.remaining epa) s =
    .next (onEndpoint epa (fun e s => s.setResult .ok (e.rec0 s).rem) s) := rfl

/-- A WRITE to an IN address or a READ of an OUT one is a transfer in the address's direction. -/
theorem exec_transfer_of_msb {i : Instr}
    (hi : (i = .write epa cb ∧ epa.msb = true) ∨ (i = .read epa cb ∧ epa.msb = false)) :
    exec i s = .next (transferCommand epa (epaDir epa) cb s) := by
  rcases hi with ⟨rfl, hm⟩ | ⟨rfl, hm⟩
  · rw [exec_write, epaDir_eq_in_iff.2 hm]
  · rw [exec_read, epaDir_eq_out_iff.2 hm]

end

/-! ### The checks of `begin_transfer`, in their order (R122) -/

section

variable {s t : State} {a : Byte} {d : Dir} {cb : Bool} {e : EpRef} {st : Status}

theorem beginCheck_of_wrong_direction (hl : lookup s a = some e) (hd : epaDir a ≠ d) :
    beginCheck s a d = .error .illegal := by
  rw [beginCheck, hl]
  exact if_pos hd

theorem beginCheck_of_stalled (hl : lookup s a = some e) (hs : (e.rec0 s).state = .stalled) :
    beginCheck s a (epaDir a) = .error .endpointStalled := by
  rw [beginCheck, hl]
  exact (if_neg (not_not.2 rfl)).trans (if_pos hs)

theorem beginCheck_of_busy (hl : lookup s a = some e) (hs : (e.rec0 s).state ≠ .stalled)
    (hi : (e.rec0 s).state ≠ .idle) : beginCheck s a (epaDir a) = .error .endpointBusy := by
  rw [beginCheck, hl]
  exact (if_neg (not_not.2 rfl)).trans ((if_neg hs).trans (if_pos hi))

theorem transferCommand_of_beginTransfer (h : beginTransfer a d s.argAddr s.argLen cb s = (st, t)) :
    transferCommand a d cb s = t.setResult st 0 := by
  rw [transferCommand, h]

theorem transferCommand_of_beginTransfer_ite {p : Prop} [Decidable p]
    (h : beginTransfer a d s.argAddr s.argLen cb s = if p then (.ok, t) else (st, s)) :
    transferCommand a d cb s = if p then { t with result := 0 } else s.setResult st 0 := by
  rw [transferCommand, h]
  split
  · exact setResult_ok t
  · rfl

theorem transferCommand_of_beginCheck_error (h : beginCheck s a d = .error st) :
    transferCommand a d cb s = s.setResult st 0 :=
  transferCommand_of_beginTransfer (by rw [beginTransfer, h])

/-- R125: the status other than Ok is in RESULT, and nothing else has changed. -/
theorem transferCommand_of_result_ne_zero (h : (transferCommand a d cb s).result ≠ 0) :
    transferCommand a d cb s = { s with result := (transferCommand a d cb s).result } := by
  obtain ⟨st, hb⟩ | ⟨e, -, -, -, -, -, hb⟩ := beginTransfer_cases a d s.argAddr s.argLen cb s
  · rw [transferCommand_of_beginTransfer hb]
    rfl
  · rw [transferCommand_of_beginTransfer hb, setResult_ok] at h
    exact absurd rfl h

end

/-! ### Transfers that start (R122, R124, R126, R127) -/

/-- R126: an IN transfer sets the latch. -/
theorem or_in_beq_in (b : Bool) : (b || Dir.in == Dir.in) = true := Bool.or_true b

/-- R126: an OUT transfer leaves the latch as it was. -/
theorem or_out_beq_in (b : Bool) : (b || Dir.out == Dir.in) = b := Bool.or_false b

theorem armEp_data {s : State} {k : Nat} {x : DataEp} (hk : s.deps[k]? = some x) (d : Dir) (addr : Addr) (n : Half)
    (cb : Bool) : armEp (.data k x) d addr n cb s =
      { s with deps := s.deps.set k { x with ep := x.ep.arm d addr n cb, latch := x.latch || d == .in } } := by
  rw [armEp, State.modifyEp, modify_eq_set hk]

theorem transferCommand_data {s : State} {a : Byte} {k : Nat} {x : DataEp} (hl : lookup s a = some (.data k x))
    (hi : x.ep.state = .idle) (cb : Bool) : transferCommand a (epaDir a) cb s =
      if s.dev.state = .configured then
        { s with
          deps := s.deps.set k
            { x with ep := x.ep.arm (epaDir a) s.argAddr s.argLen cb, latch := x.latch || epaDir a == .in }
          result := 0 }
      else s.setResult .deviceUnconfigured 0 := by
  rw [transferCommand_of_beginTransfer_ite (beginTransfer_data hl rfl hi s.argAddr s.argLen cb),
    armEp_data (lookup_data hl).1]

theorem ep0DataLegal_iff {s : State} {d : Dir} :
    ep0DataLegal s d = true ↔ s.ctlOpen = true ∧ s.setup.wLength ≠ 0 ∧ s.setup.dir = d := by
  simp only [ep0DataLegal, Bool.and_eq_true, bne_iff_ne, beq_iff_eq, and_assoc, eq_comm (a := d)]

theorem ep0DataLegal_eq_false_iff {s : State} {d : Dir} :
    ep0DataLegal s d = false ↔ s.ctlOpen = false ∨ s.setup.wLength = 0 ∨ s.setup.dir ≠ d := by
  rw [← Bool.not_eq_true, ep0DataLegal_iff]
  simp only [not_and_or, Bool.not_eq_true, not_not, ne_eq]

theorem transferCommand_in0 {s : State} (hi : s.ep0.state = .idle) (cb : Bool) : transferCommand 0x80 .in cb s =
    if ep0DataLegal s .in then { armEp .ep0 .in s.argAddr s.argLen cb s with result := 0 }
    else s.setResult .illegal 0 :=
  transferCommand_of_beginTransfer_ite (beginTransfer_in0 hi s.argAddr s.argLen cb)

theorem transferCommand_out0 {s : State} (hi : s.ep0.state = .idle) (cb : Bool) : transferCommand 0x00 .out cb s =
    if ep0DataLegal s .out then { armEp .ep0 .out s.argAddr s.argLen cb s with result := 0 }
    else s.setResult .illegal 0 :=
  transferCommand_of_beginTransfer_ite (beginTransfer_out0 hi s.argAddr s.argLen cb)

/-! ### Aborts and queries (R130 to R135) -/

theorem onEndpoint_of_lookup_some {s : State} {epa : Byte} {e : EpRef} (h : lookup s epa = some e)
    (f : EpRef → State → State) : onEndpoint epa f s = f e s := by
  rw [onEndpoint, h]

section

variable {s : State} {a : Byte} {e : EpRef} {k : Nat} {d : DataEp}

theorem abort_data (hk : s.deps[k]? = some d) : abort (.data k d) s =
    { s with deps := s.deps.set k d.aborted, acts := s.acts ++ d.abortActs } := by
  rw [abort, State.modifyEp, modify_eq_set hk]

theorem abort_of_idle (hl : lookup s a = some e) (hi : (e.rec0 s).state = .idle) : abort e s = s := by
  cases e with
  | ep0 => exact if_pos hi
  | data k d =>
    obtain ⟨hk, -⟩ := lookup_data hl
    have hep : d.aborted = d := if_pos hi
    have hacts : d.abortActs = [] := if_pos hi
    have hset : s.deps.set k d = s.deps := by
      obtain ⟨hlt, rfl⟩ := List.getElem?_eq_some_iff.1 hk
      exact List.set_getElem_self hlt
    rw [abort_data hk, hep, hacts, hset, List.append_nil]

theorem abort_data_of_busy (hk : s.deps[k]? = some d) (hi : d.ep.state ≠ .idle) : abort (.data k d) s =
    { s with
      deps := s.deps.set k { d with pkt := none, latch := false, ep := d.ep.aborted }
      acts := s.acts ++ [.flush (epaOf d.desc)] } := by
  rw [abort_data hk, DataEp.aborted, DataEp.abortActs, if_neg hi, if_neg hi]

end

theorem abortAll_eq (s : State) : abortAll s =
    { s with
      deps := s.deps.map DataEp.aborted
      acts := s.acts ++ (s.deps.filter (fun d => d.ep.state != .idle)).map (fun d => .flush (epaOf d.desc)) } := by
  rw [abortAll, flatMap_abortActs]

end Sys2Proof.Machine

namespace Sys2Proof.Proofs

open Sys2Proof Sys2Proof.Machine

/-- Settles O16, by `abortAll_eq`: the aborts of the table are one map, and their actions those of the endpoints that
are not Idle. -/
theorem abortAllReturnsEveryDataEndpointToIdle : Obligations.AbortAllReturnsEveryDataEndpointToIdle := by
  unfold Obligations.AbortAllReturnsEveryDataEndpointToIdle
  refine ⟨fun w => decode_eq_ok_iff_eq rfl rfl, fun s => ?_⟩
  rw [exec_abortAll, abortAll_eq]
  rfl

/-- Settles O4: each word is the one that its instruction's encoding gives. -/
theorem specWordsDecode : Obligations.SpecWordsDecode := by
  unfold Obligations.SpecWordsDecode
  simp only [decode_eq_ok_iff, Encodes]
  decide

/-- Settles O12, by `transferCommand_data` in each direction. -/
theorem transferArmsAnIdleDataEndpoint : Obligations.TransferArmsAnIdleDataEndpoint := by
  unfold Obligations.TransferArmsAnIdleDataEndpoint
  intro s epa cb k d hl hi hc
  have h := transferCommand_data hl hi cb
  rw [if_pos hc] at h
  refine ⟨fun hm => ?_, fun hm => ?_⟩
  · rw [epaDir_eq_in_iff.2 hm] at h
    rw [exec_write, h, or_in_beq_in]
    rfl
  · rw [epaDir_eq_out_iff.2 hm] at h
    rw [exec_read, h, or_out_beq_in]
    rfl

/-- Settles O13: an Idle EP0 is armed exactly when `ep0_data_legal` holds of the direction (R124). -/
theorem endpointZeroAcceptsOnlyItsDataStage : Obligations.EndpointZeroAcceptsOnlyItsDataStage := by
  unfold Obligations.EndpointZeroAcceptsOnlyItsDataStage
  intro s cb hi
  rw [exec_write, exec_read, transferCommand_in0 hi, transferCommand_out0 hi]
  refine ⟨fun h => ?_, fun h => ?_, fun h => ?_, fun h => ?_⟩
  · rw [if_pos (ep0DataLegal_iff.2 h), armEp, or_in_beq_in]
    rfl
  · rw [if_pos (ep0DataLegal_iff.2 h), armEp, or_out_beq_in]
    rfl
  · rw [ep0DataLegal_eq_false_iff.2 (by rwa [dir_ne_in_iff])]
    rfl
  · rw [ep0DataLegal_eq_false_iff.2 (by rwa [dir_ne_out_iff])]
    rfl

/-- Settles O14: a transfer command leaves all but RESULT unless it is answered Ok
(`transferCommand_of_result_ne_zero`), and each clause is one failing check of R122, past the checks before it. -/
theorem refusedTransferChangesOnlyResult : Obligations.RefusedTransferChangesOnlyResult := by
  unfold Obligations.RefusedTransferChangesOnlyResult
  refine ⟨fun s epa cb i hi => ?_, fun s epa cb e hl => ⟨fun hm => ?_, fun hm => ?_, fun i hi => ?_⟩⟩
  · rcases hi with rfl | rfl <;> exact ⟨_, rfl, transferCommand_of_result_ne_zero⟩
  · have hd : epaDir epa ≠ .in := by simp [epaDir_eq_in_iff, hm]
    rw [exec_write, transferCommand_of_beginCheck_error (beginCheck_of_wrong_direction hl hd)]
    rfl
  · have hd : epaDir epa ≠ .out := by simp [epaDir_eq_out_iff, hm]
    rw [exec_read, transferCommand_of_beginCheck_error (beginCheck_of_wrong_direction hl hd)]
    rfl
  · rw [exec_transfer_of_msb epa cb s hi]
    refine ⟨fun hs => ?_, fun hs hb => ?_, fun hidle he hc => ?_⟩
    · rw [transferCommand_of_beginCheck_error (beginCheck_of_stalled hl hs)]
      rfl
    · rw [transferCommand_of_beginCheck_error (beginCheck_of_busy hl hs hb)]
      rfl
    · cases e with
      | ep0 => exact absurd rfl he
      | data k x =>
        rw [transferCommand_data hl hidle, if_neg hc]
        rfl

/-- Settles O15, by the equation of `abort` for an Idle endpoint, for EP0 and for a busy data endpoint. -/
theorem abortReturnsTheEndpointToIdle : Obligations.AbortReturnsTheEndpointToIdle := by
  unfold Obligations.AbortReturnsTheEndpointToIdle
  intro s epa e hl
  rw [exec_abort, onEndpoint_of_lookup_some hl]
  refine ⟨fun hi => ?_, fun he hb => ?_, fun k d he hb => ?_⟩
  · rw [abort_of_idle hl hi, setResult_ok]
  · rw [he, abort, abort0, if_neg hb]
    rfl
  · subst he
    rw [abort_data_of_busy (lookup_data hl).1 hb]
    rfl

/-- Settles O17: both queries only write RESULT, with the status Ok over the value read. -/
theorem queriesOnlyReadTheEndpoint : Obligations.QueriesOnlyReadTheEndpoint := by
  unfold Obligations.QueriesOnlyReadTheEndpoint
  intro s epa e hl
  rw [exec_isBusy, exec_remaining, onEndpoint_of_lookup_some hl, onEndpoint_of_lookup_some hl]
  refine ⟨?_, ?_⟩
  · by_cases h : (e.rec0 s).state = .idle
    · rw [if_pos h, if_neg (not_not.2 h)]
      rfl
    · rw [if_neg h, if_pos h]
      rfl
  · rw [State.setResult, resultWord_ok]

end Sys2Proof.Proofs
end

section
/-! PROOFS. Which bytes of memory a service invocation can write (spec/20_memory.md R65, spec/41_fifo_transport.md R158,
spec/42_control_transfer.md R185): `Spared a b s` says that the byte `b` at `a` lies outside SERIAL_BUF and outside the
buffers of the data endpoints. Every step of an invocation keeps it up to the last one that writes memory, the data OUT
service, although the SETUP service may arm EP0 anew: that service leaves no EP0 OUT packet to be drained into the new
buffer (`Answering`). Then O58. -/

namespace Sys2Proof.Machine

open Sys2Proof

/-! ### Records that do not own an address -/

theorem legal_addrW_le {c : Config} (h : c.legal = true) : c.addrW ≤ 32 := by
  simp only [Config.legal, Bool.and_eq_true, decide_eq_true_eq] at h
  omega

theorem wrapAddr_toNat {c : Config} (h : c.addrW ≤ 32) (x : Nat) : (wrapAddr c x).toNat = x % 2 ^ c.addrW := by
  rw [wrapAddr, BitVec.toNat_ofNat]
  exact Nat.mod_eq_of_lt ((Nat.mod_lt _ (Nat.two_pow_pos _)).trans_le (Nat.pow_le_pow_right (by decide) h))

/-- The owned bytes are counted from the start of the buffer, so moving some of the bytes left does not change them. -/
theorem EpRec.owns_advance {c : Config} {r : EpRec} (hc : c.addrW ≤ 32) (hr : RecordOk c r) {n : Nat}
    (hn : n ≤ r.rem.toNat) (a : Nat) : (r.advance c n).owns c a = r.owns c a := by
  have hStart : wrapSub c (r.advance c n).buf.toNat (r.advance c n).moved.toNat
      = wrapSub c r.buf.toNat r.moved.toNat := by
    have hBuf : (r.advance c n).buf.toNat = (r.buf.toNat + n) % 2 ^ c.addrW := wrapAddr_toNat hc _
    have hMoved : ((r.advance c n).moved.toNat : Int) = r.moved.toNat + n := by
      rw [(hr.advance hn).moved_cast, hr.moved_cast, EpRec.advance_rem hn, Nat.cast_sub hn]
      simp only [EpRec.advance]
      ring
    apply Int.ofNat_inj.1
    rw [wrapSub_cast, wrapSub_cast, hBuf, hMoved, Int.natCast_emod, Int.emod_sub_emod, Nat.cast_add,
      add_sub_add_right_eq_sub]
  unfold EpRec.owns
  rw [hStart]
  rfl

/-- A record in range that does not own the address `a`. -/
def EpRec.Avoids (c : Config) (a : Nat) (r : EpRec) : Prop := RecordOk c r ∧ r.owns c a = false

section

variable {c : Config} {a : Nat} {r : EpRec}

theorem EpRec.Avoids.of_idle (hr : RecordOk c r) (hs : r.state = .idle) : r.Avoids c a :=
  ⟨hr, by simp [EpRec.owns, hs]⟩

theorem EpRec.Avoids.reset : EpRec.reset.Avoids c a := .of_idle (.reset c) rfl

theorem EpRec.Avoids.completed (h : r.Avoids c a) : r.completed.Avoids c a := .of_idle h.1 rfl

theorem EpRec.Avoids.overrun (h : r.Avoids c a) : r.overrun.Avoids c a := .of_idle (.zero rfl h.1.2) rfl

theorem EpRec.Avoids.advance (h : r.Avoids c a) (hc : c.addrW ≤ 32) {n : Nat} (hn : n ≤ r.rem.toNat) :
    (r.advance c n).Avoids c a :=
  ⟨h.1.advance hn, (r.owns_advance hc h.1 hn a).trans h.2⟩

theorem DataEp.aborted_avoids {d : DataEp} (h : d.ep.Avoids c a) : d.aborted.ep.Avoids c a := by
  unfold DataEp.aborted
  split
  · exact h
  · exact .of_idle (.zero rfl h.1.2) rfl

/-- A packet that fits is drained into bytes that the receiving record owns (spec/42_control_transfer.md R185, R186). -/
theorem EpRec.Avoids.ne_drained (h : r.Avoids c a) (ha : a < 2 ^ c.addrW) (hs : r.state = .receiving) {i : Nat}
    (hi : i < r.rem.toNat) : a ≠ (r.buf.toNat + i) % 2 ^ c.addrW := by
  intro hEq
  obtain ⟨hr, hOwns⟩ := h
  have hRem := hr.1
  refine Bool.false_ne_true (hOwns.symm.trans ((EpRec.owns_iff hr ha).2
    ⟨.inr hs, r.len.toNat - r.rem.toNat + i, by omega, ?_⟩))
  rw [hEq]
  push_cast [Nat.cast_sub hRem]
  congr 1
  ring

end

/-! ### A byte outside SERIAL_BUF and the buffers of the data endpoints -/

/-- Memory holds the byte `b` at `a`, and neither a data endpoint nor SERIAL_BUF owns `a`. -/
structure Spared (a : Nat) (b : Byte) (s : State) : Prop where
  addrW  : s.cfg.addrW ≤ 32
  inside : a < 2 ^ s.cfg.addrW
  byte   : s.mem.read a = b
  serial : serialOwns s.cfg a = false
  data   : ∀ d ∈ s.deps, d.ep.Avoids s.cfg a

/-- During the dispatch of a SETUP: no EP0 OUT packet is pending, so EP0 may be armed with any buffer. -/
structure Answering (a : Nat) (b : Byte) (s : State) : Prop extends Spared a b s where
  noOut : s.lat.ep0Out = false

/-- Before the SETUP service: an EP0 OUT packet is drained only into a buffer that does not own the byte either. -/
structure SparedByEp0 (a : Nat) (b : Byte) (s : State) : Prop extends Spared a b s where
  ep0 : s.lat.ep0Out = true → s.ep0.Avoids s.cfg a

theorem SparedByEp0.of_noOut {a : Nat} {b : Byte} {s : State} (h : Spared a b s) (ho : s.lat.ep0Out = false) :
    SparedByEp0 a b s := ⟨h, fun ho' => absurd (ho.symm.trans ho') Bool.false_ne_true⟩

/-- The fields that `Spared` speaks of. -/
def State.sparing (s : State) : Config × Memory × List DataEp := (s.cfg, s.mem, s.deps)

section

variable {a : Nat} {b : Byte} {s t : State}

/-- A change of data endpoints after which none owns the address. -/
theorem Spared.of_data (h : Spared a b s) (hc : t.cfg = s.cfg) (hm : t.mem = s.mem)
    (hd : ∀ d ∈ t.deps, d.ep.Avoids s.cfg a) : Spared a b t :=
  ⟨hc ▸ h.addrW, hc ▸ h.inside, hm ▸ h.byte, hc ▸ h.serial, hc ▸ hd⟩

/-- A change of other fields. -/
theorem Spared.frame (h : Spared a b s) (e : t.sparing = s.sparing) : Spared a b t := by
  simp only [State.sparing, Prod.mk.injEq] at e
  obtain ⟨hc, hm, hd⟩ := e
  exact h.of_data hc hm (hd ▸ h.data)

theorem Spared.notify (h : Spared a b s) (r : Record) : Spared a b (notify r s) := h.frame (by simp [State.sparing])

theorem Spared.notifyIf (h : Spared a b s) (on : Bool) (r : Record) : Spared a b (notifyIf on r s) :=
  h.frame (by simp [State.sparing])

/-- A change of every data endpoint that lets none own the address. -/
theorem forall_avoids_map {c : Config} {ds : List DataEp} {f : DataEp → DataEp} (h : ∀ d ∈ ds, d.ep.Avoids c a)
    (hf : ∀ d, d.ep.Avoids c a → (f d).ep.Avoids c a) : ∀ d ∈ ds.map f, d.ep.Avoids c a :=
  List.forall_mem_map.2 fun d hd => hf d (h d hd)

/-- A change of one data endpoint. -/
theorem Spared.modifyEp (h : Spared a b s) {k : Nat} {f : DataEp → DataEp}
    (hf : ∀ d, s.deps[k]? = some d → d.ep.Avoids s.cfg a → (f d).ep.Avoids s.cfg a) :
    Spared a b (s.modifyEp k f) :=
  h.of_data rfl rfl (forall_modify h.data fun d hd => hf d hd (h.data d (List.mem_of_getElem? hd)))

theorem Spared.memWriteBytes (h : Spared a b s) {x : Nat} {p : Packet}
    (hx : ∀ i < p.length, a ≠ (x + i) % 2 ^ s.cfg.addrW) : Spared a b (memWriteBytes s x p) where
  addrW := by simpa using h.addrW
  inside := by simpa using h.inside
  byte := (memWriteBytes_read_other hx).trans h.byte
  serial := by simpa using h.serial
  data := by simpa using h.data

/-- A packet that fits, drained into the buffer of a receiving record. -/
theorem Spared.copyOut (h : Spared a b s) {r : EpRec} (hr : r.Avoids s.cfg a) (hs : r.state = .receiving) {p : Packet}
    (hp : p.length ≤ r.rem.toNat) : Spared a b (copyOut r p s) :=
  h.memWriteBytes fun _ hi => hr.ne_drained h.inside hs (hi.trans_le hp)

/-! ### The device state machine -/

theorem Spared.abortAll (h : Spared a b s) : Spared a b (abortAll s) :=
  h.of_data rfl rfl (forall_avoids_map h.data fun _ => DataEp.aborted_avoids)

/-- Aborts and deactivations give no endpoint a buffer (spec/45_device_state.md R270). -/
theorem Spared.setState (h : Spared a b s) (n : DevState) : Spared a b (setState n s) := by
  have hLeave : Spared a b (leaveConfigured n s) := by
    unfold leaveConfigured
    split
    · exact h.abortAll.frame rfl
    · exact h
  have hEnter : Spared a b (enterBelowSuspended n (leaveConfigured n s)) := by
    unfold enterBelowSuspended
    split
    · exact hLeave.of_data rfl rfl (forall_avoids_map hLeave.data fun _ hd => hd)
    · exact hLeave
  unfold Machine.setState
  refine Spared.notify ?_ _
  exact hEnter.frame rfl

theorem Spared.activateAll (h : Spared a b s) : Spared a b (activateAll s) :=
  h.of_data rfl rfl (forall_avoids_map h.data fun _ hd => hd)

theorem SparedByEp0.serviceReset (h : SparedByEp0 a b s) : SparedByEp0 a b (serviceReset s) := by
  have h1 := Spared.setState (s := { s with lat := { s.lat with reset := false } }) (h.toSpared.frame rfl) .default
  unfold Machine.serviceReset
  refine ⟨Spared.notifyIf ?_ _ _, fun _ => ?_⟩
  · exact h1.of_data rfl rfl (List.forall_mem_map.2 fun _ _ => .reset)
  · simpa using EpRec.Avoids.reset

theorem SparedByEp0.setState (h : SparedByEp0 a b s) (n : DevState) : SparedByEp0 a b (setState n s) :=
  ⟨h.toSpared.setState n, by simpa using h.ep0⟩

theorem SparedByEp0.serviceSuspend (h : SparedByEp0 a b s) : SparedByEp0 a b (serviceSuspend s) := by
  have h1 : SparedByEp0 a b { s with lat := { s.lat with suspend := false } } := ⟨h.toSpared.frame rfl, h.ep0⟩
  unfold Machine.serviceSuspend
  dsimp only
  split
  · exact h1.setState _
  · exact h1

theorem SparedByEp0.serviceResume (h : SparedByEp0 a b s) : SparedByEp0 a b (serviceResume s) := by
  have h1 : SparedByEp0 a b { s with lat := { s.lat with resume := false } } := ⟨h.toSpared.frame rfl, h.ep0⟩
  unfold Machine.serviceResume
  dsimp only
  split
  · exact h1.setState _
  · exact h1

/-! ### The dispatch of a SETUP (spec/43_request_dispatch.md) -/

/-- An operation that keeps the latches. -/
theorem Answering.of_spared (h : Answering a b s) (ht : Spared a b t) (hl : t.lat = s.lat) : Answering a b t :=
  ⟨ht, hl ▸ h.noOut⟩

/-- A transfer start of the dispatch is one of EP0: no data endpoint is armed. -/
theorem Answering.beginTransfer0 (h : Answering a b s) {x : Byte} (hx : x = 0x00 ∨ x = 0x80) (d : Dir) (addr : Addr)
    (n : Half) (cb : Bool) : Answering a b (beginTransfer x d addr n cb s).2 := by
  obtain ⟨st, hb⟩ | ⟨e, hl, -, -, -, -, hb⟩ := beginTransfer_cases x d addr n cb s
  · rwa [hb]
  · rw [lookup_ep0_iff.2 hx] at hl
    obtain rfl := Option.some.inj hl
    rw [hb]
    exact ⟨h.toSpared.frame rfl, h.noOut⟩

theorem Answering.setAddress (h : Answering a b s) (p : Setup) : Answering a b (setAddress p s).2 := by
  have hSet (n : DevState) : Answering a b (setState n s) := h.of_spared (h.toSpared.setState n) (by simp)
  have hLoad {t : State} (v : BitVec 7) (ht : Answering a b t) : Answering a b (loadAddress v t) :=
    ht.of_spared (ht.toSpared.frame rfl) rfl
  unfold Machine.setAddress
  split
  · exact h
  · dsimp only
    split
    · refine hLoad _ ?_
      split
      · exact hSet .addressed
      · exact h
    · refine hLoad _ ?_
      split
      · exact hSet .default
      · exact h
    all_goals exact h

theorem Answering.drawProduct (h : Answering a b s) : Answering a b (drawProduct s).2 := by
  unfold Machine.drawProduct
  split <;> exact h.of_spared (h.toSpared.frame rfl) rfl

theorem Answering.drawHook (h : Answering a b s) : Answering a b (drawHook s).2 := by
  unfold Machine.drawHook
  split <;> exact h.of_spared (h.toSpared.frame rfl) rfl

/-- The serial-number descriptor has the length of the region that is always owned (spec/43_request_dispatch.md R224,
spec/20_memory.md R65). -/
theorem serialBytes_length (c : Config) : (serialBytes c).length = 4 * c.uid.length + 2 := by
  simp [serialBytes, Nat.mul_comm]

theorem Answering.writeSerial (h : Answering a b s) : Answering a b (serial s).2 := by
  refine h.of_spared (h.toSpared.memWriteBytes fun i hi hEq => ?_) (by simp [Machine.serial])
  rw [serialBytes_length] at hi
  exact Bool.false_ne_true (h.serial.symm.trans ((serialOwns_iff h.inside).2 ⟨i, hi, hEq⟩))

theorem Answering.select (h : Answering a b s) (t i : Byte) : Answering a b (select t i s).2 := by
  unfold Machine.select selectString
  split
  · exact h
  · split
    · exact h
    · split
      · split
        · exact h.drawProduct
        · split
          · exact h.writeSerial
          · exact h
      · exact h

theorem Answering.getDescriptor (h : Answering a b s) (p : Setup) : Answering a b (getDescriptor p s).2 := by
  unfold Machine.getDescriptor
  split
  · exact h
  · dsimp only
    split
    · exact h.select _ _
    · split
      · exact (h.select _ _).beginTransfer0 (.inr rfl) _ _ _ _
      · exact h.select _ _

theorem Answering.setConfiguration (h : Answering a b s) (p : Setup) : Answering a b (setConfiguration p s).2 := by
  have hSet (n : DevState) (config : Byte) :
      Spared a b (setState n { s with dev := { s.dev with config := config } }) :=
    Spared.setState (s := { s with dev := { s.dev with config := config } }) (h.toSpared.frame rfl) n
  unfold Machine.setConfiguration
  split
  · exact h
  · split
    · split
      · exact h.of_spared (hSet .configured Config.configValue).activateAll (by simp)
      · exact h
    · split
      · exact h.of_spared (hSet .addressed 0) (by simp)
      · split
        · exact h.of_spared h.toSpared.activateAll rfl
        · exact h
    all_goals exact h

theorem Answering.stdDispatch (h : Answering a b s) (p : Setup) : Answering a b (stdDispatch p s).2 := by
  unfold Machine.stdDispatch
  split
  · exact h
  · split
    · exact h.setAddress p
    · split
      · exact h.getDescriptor p
      · split
        · exact h.setConfiguration p
        · split <;> exact h

theorem Answering.applyArm (h : Answering a b s) (p : Setup) (arm : Option Arm) : Answering a b (applyArm p arm s) := by
  cases arm with
  | none => exact h
  | some x => exact h.beginTransfer0 (by cases p.dir <;> decide) _ _ _ _

theorem Answering.dispatch (h : Answering a b s) (p : Setup) : Answering a b (dispatch p s).2 := by
  unfold Machine.dispatch
  split
  · dsimp only
    split
    · exact h.drawHook.applyArm p _
    · exact h.drawHook
    · exact h.drawHook.stdDispatch p
  · exact h.stdDispatch p

theorem Answering.afterDispatch {r : Answer × State} (h : Answering a b r.2) (p : Setup) :
    Answering a b (afterDispatch p r) := by
  unfold Machine.afterDispatch
  split
  · split
    · exact h.of_spared (h.toSpared.frame rfl) rfl
    · split
      · exact h
      · split
        · exact h.of_spared (h.toSpared.frame rfl) rfl
        · exact h
  all_goals exact h.of_spared (h.toSpared.frame rfl) rfl

/-! ### The EP0 services (spec/42_control_transfer.md) -/

/-- The SETUP service accepts no SETUP, or leaves no EP0 OUT packet pending (spec/42_control_transfer.md R175). -/
theorem SparedByEp0.serviceEp0Setup (h : SparedByEp0 a b s) : SparedByEp0 a b (serviceEp0Setup s) := by
  have h1 : SparedByEp0 a b { s with lat := { s.lat with ep0Setup := false } } := ⟨h.toSpared.frame rfl, h.ep0⟩
  unfold Machine.serviceEp0Setup
  dsimp only
  split
  · exact h1
  · split
    · exact h1
    · rename_i p _
      have hAccept : Answering a b (acceptSetup p { s with lat := { s.lat with ep0Setup := false } }) :=
        ⟨h.toSpared.frame rfl, rfl⟩
      have hAnswer := (hAccept.dispatch p).afterDispatch p
      exact .of_noOut hAnswer.toSpared hAnswer.noOut

theorem Spared.complete0 (h : Spared a b s) (x : Byte) : Spared a b (complete0 x s) := by
  rw [complete0_eq]
  refine Spared.notifyIf ?_ _ _
  exact h.frame rfl

theorem Spared.ep0Receive (h : Spared a b s) (hr : s.ep0.Avoids s.cfg a) (hs : s.ep0.state = .receiving) {q : Packet}
    (hq : q.length ≤ s.ep0.rem.toNat) : Spared a b (ep0Receive q s) := by
  have h1 : Spared a b (Machine.copyOut s.ep0 (fifoRead q q.length) s) := h.copyOut hr hs (by simpa [fifoRead] using hq)
  unfold Machine.ep0Receive
  dsimp only
  split
  · refine Spared.complete0 ?_ _
    exact h1.frame rfl
  · exact h1.frame rfl

/-- The EP0 OUT service writes memory only for a packet that fits the transfer (spec/42_control_transfer.md R184 to
R186). -/
theorem SparedByEp0.serviceEp0Out (h : SparedByEp0 a b s) (ho : s.lat.ep0Out = true) :
    Spared a b (serviceEp0Out s) := by
  have h1 : Spared a b { s with lat := { s.lat with ep0Out := false } } := h.toSpared.frame rfl
  unfold Machine.serviceEp0Out
  dsimp only
  split
  · exact h1
  · split
    · refine Spared.notifyIf ?_ _ _
      exact h1.frame rfl
    · rename_i hs
      split
      · refine Spared.notify ?_ _
        exact h1.frame rfl
      · rename_i hq
        exact h1.ep0Receive (h.ep0 ho) (not_not.1 hs) (Nat.le_of_not_lt hq)

theorem serviceEp0In_mem (s : State) : (serviceEp0In s).mem = s.mem := by
  unfold serviceEp0In
  dsimp only
  split
  · rfl
  · split <;> simp [complete0_eq]

theorem Spared.serviceEp0In (h : Spared a b s) : Spared a b (serviceEp0In s) :=
  h.of_data (serviceEp0In_lat s).1 (serviceEp0In_mem s) (serviceEp0In_deps s ▸ h.data)

theorem SparedByEp0.serviceControl (h : SparedByEp0 a b s) : Spared a b (serviceControl s) := by
  unfold Machine.serviceControl
  dsimp only
  refine serviceWhen_of (fun _ => Spared.serviceEp0In) (fun _ h => h) ?_
  refine serviceWhen_of (P := SparedByEp0 a b) (fun ho h => h.serviceEp0Out ho) (fun _ h => h.toSpared) ?_
  refine serviceWhen_of (fun _ => SparedByEp0.serviceEp0Setup) (fun _ h => h) ?_
  refine serviceWhen_of (P := SparedByEp0 a b) (fun _ h => .of_noOut (h.toSpared.frame rfl) rfl) (fun _ h => h) ?_
  refine serviceWhen_of (P := SparedByEp0 a b) (fun _ h => .of_noOut (h.toSpared.frame rfl) rfl) (fun _ h => h) ?_
  refine serviceWhen_of (fun _ => SparedByEp0.serviceResume) (fun _ h => h) ?_
  refine serviceWhen_of (fun _ => SparedByEp0.serviceSuspend) (fun _ h => h) ?_
  exact serviceWhen_of (fun _ => SparedByEp0.serviceReset) (fun _ h => h) h

/-! ### The data services (spec/44_data_endpoints.md) -/

theorem Spared.completeData (h : Spared a b s) (k : Nat) : Spared a b (completeData k s) := by
  unfold Machine.completeData withEp
  split
  · exact h
  · exact (h.notifyIf _ _).modifyEp fun _ _ hd => hd.completed

theorem Spared.dataReceive (h : Spared a b s) {k : Nat} {d : DataEp} (hd : s.deps[k]? = some d.clearLatch)
    (hs : d.ep.state = .receiving) {q : Packet} (hq : q.length ≤ d.ep.rem.toNat) :
    Spared a b (dataReceive k d q s) := by
  have hr : d.ep.Avoids s.cfg a := h.data d.clearLatch (List.mem_of_getElem? hd)
  have h1 : Spared a b (Machine.copyOut d.ep (fifoRead q q.length) s) := h.copyOut hr hs (by simpa [fifoRead] using hq)
  unfold Machine.dataReceive
  generalize hu : Machine.copyOut d.ep (fifoRead q q.length) s = u at *
  have hdu : u.deps[k]? = some d.clearLatch := by rw [← hu]; simpa using hd
  have h2 : Spared a b ((releaseRx k d u).modifyRec k (fun r => r.advance u.cfg q.length)) := by
    change Spared a b (act _ ((u.modifyEp k _).modifyEp k _))
    rw [modifyEp_modifyEp]
    refine (h1.modifyEp (k := k) fun x hx hok => ?_).frame rfl
    obtain rfl := Option.some.inj (hdu.symm.trans hx)
    exact hok.advance h1.addrW hq
  dsimp only
  split
  · exact h2.completeData k
  · exact h2

theorem Spared.serviceDataOut (h : Spared a b s) (k : Nat) : Spared a b (serviceDataOut k s) := by
  have h1 : Spared a b (s.modifyEp k DataEp.clearLatch) := h.modifyEp fun _ _ hd => hd
  unfold Machine.serviceDataOut withEp
  split
  · exact h
  · rename_i d hd
    dsimp only
    split
    · exact h1
    · split
      · refine Spared.notify (h1.modifyEp fun _ _ hd => ?_) _
        exact hd
      · split
        · exact (h1.modifyEp fun _ _ hd => hd.overrun).notify _
        · rename_i hs hq
          exact h1.dataReceive (getElem?_modifyEp_same hd _) (not_not.1 hs) (Nat.le_of_not_lt hq)

/-- What every service of the data endpoints keeps, serving a list of them keeps. -/
theorem serviceEach_of {P : State → Prop} {f : Nat → State → State} (hf : ∀ k t, P t → P (f k t)) (ks : List Nat)
    (h : P s) : P (serviceEach f ks s) := by
  induction ks generalizing s with
  | nil => exact h
  | cons k ks ih => exact ih (serviceWhen_of (fun _ => hf k s) (fun _ h => h) h)

theorem completeData_mem (k : Nat) (s : State) : (completeData k s).mem = s.mem := by
  unfold completeData withEp
  split
  · rfl
  · simp

theorem serviceDataIn_mem (k : Nat) (s : State) : (serviceDataIn k s).mem = s.mem := by
  unfold serviceDataIn withEp
  split
  · rfl
  · dsimp only
    repeat' split
    · rfl
    · rfl
    · exact completeData_mem k (s.modifyEp k DataEp.clearLatch)

/-- The data OUT services write no such byte, and those after them write no memory. -/
theorem Spared.serviceData_byte (h : Spared a b s) : (serviceData s).mem.read a = b := by
  have hOut : Spared a b (serviceEach Machine.serviceDataOut (epOrder .out s.deps) s) :=
    serviceEach_of (fun k _ ht => ht.serviceDataOut k) _ h
  exact serviceEach_of (P := fun t => t.mem.read a = b) (fun k t ht => by rw [serviceDataIn_mem, ht]) _ hOut.byte

theorem serviceSof_mem (s : State) : (serviceSof s).mem = s.mem := by
  unfold serviceSof rearm0
  rw [notifyIf_mem]
  dsimp only
  split <;> rfl

/-- A byte that EP0 does not own either reads the same after an invocation, whatever is pending. -/
theorem SparedByEp0.service_byte (h : SparedByEp0 a b s) : (service s).mem.read a = b := by
  have hEnter : SparedByEp0 a b (Machine.notifyIf s.cfg.hookIsr (observer .serviceEnter) s) :=
    ⟨h.toSpared.notifyIf _ _, by simpa using h.ep0⟩
  unfold service
  dsimp only
  rw [notifyIf_mem]
  exact serviceWhen_of (P := fun t => t.mem.read a = b) (Q := fun t => t.mem.read a = b)
    (fun _ ht => by rw [serviceSof_mem, ht]) (fun _ ht => ht) hEnter.serviceControl.serviceData_byte

/-- A byte that is not owned is spared at the start of an invocation (spec/20_memory.md R65). -/
theorem SparedByEp0.of_not_owned (hi : Inv s) (hl : s.cfg.legal = true) (ha : a < 2 ^ s.cfg.addrW)
    (ho : owned s a = false) : SparedByEp0 a (s.mem.read a) s := by
  obtain ⟨⟨h0, hData⟩, hSerial⟩ : (s.ep0.owns s.cfg a = false ∧ ∀ d ∈ s.deps, d.ep.owns s.cfg a = false)
      ∧ serialOwns s.cfg a = false := by simpa [owned] using ho
  obtain ⟨-, hRec0, hRecs⟩ := hi.counts
  exact ⟨⟨legal_addrW_le hl, ha, rfl, hSerial, fun d hd => ⟨hRecs d hd, hData d hd⟩⟩, fun _ => ⟨hRec0, h0⟩⟩

end

end Sys2Proof.Machine

namespace Sys2Proof.Proofs

open Sys2Proof Sys2Proof.Machine

/-- Settles O58: a byte that is not owned is spared at the start (`SparedByEp0.of_not_owned`), and so unchanged at the
end (`SparedByEp0.service_byte`). -/
theorem invocationWritesOnlyOwnedMemory : Obligations.InvocationWritesOnlyOwnedMemory := by
  unfold Obligations.InvocationWritesOnlyOwnedMemory
  intro s a hInv hLegal ha hOwned
  exact ⟨_, rfl, (SparedByEp0.of_not_owned hInv hLegal ha hOwned).service_byte⟩

end Sys2Proof.Proofs
end

section
/-! PROOFS. POLL with only a latch of EP0 pending (spec/46_events_and_service.md R315, R319), the order of the EP0
services (spec/42_control_transfer.md R172 to R174), and O29. -/

namespace Sys2Proof.Machine

open Sys2Proof

/-- An invocation that ends with the control services: POLL answers Ok in the state they leave (R319). -/
theorem exec_poll_of_control {s u : State} (h : serviceControl s = u) (hIsr : s.cfg.hookIsr = false)
    (hCfg : u.cfg = s.cfg) (hSof : u.lat.sof = false) (hDeps : ∀ d ∈ u.deps, d.latch = false ∧ d.stall = false) :
    exec .poll s = .next { u with result := 0 } := by
  have hRes : resultWord .ok 0 = 0 := by decide
  simp only [exec, execPoll, State.setResult, service_of_control h hIsr hCfg hSof hDeps, hRes]

/-- With no device-wide latch pending, the control services are those of EP0. -/
theorem serviceControl_of_noBus {s : State} (h1 : s.lat.reset = false) (h2 : s.lat.suspend = false)
    (h3 : s.lat.resume = false) :
    serviceControl s = serviceWhen (fun s => s.lat.ep0In) serviceEp0In
      (serviceWhen (fun s => s.lat.ep0Out) serviceEp0Out (serviceWhen (fun s => s.lat.ep0Setup) serviceEp0Setup
        (serviceWhen (fun s => s.lat.ep0SetupEnd) serviceEp0SetupEnd
          (serviceWhen (fun s => s.lat.ep0SentStall) serviceEp0SentStall s)))) := by
  simp only [serviceControl]
  rw [serviceWhen_false (s := s) serviceReset h1, serviceWhen_false (s := s) serviceSuspend h2,
    serviceWhen_false (s := s) serviceResume h3]

/-- The old control transfer is dropped: EP0 reset, its data latches cleared, the transfer closed
(spec/42_control_transfer.md R172, R173). -/
def State.transferDropped (s : State) : State :=
  { s with
    lat := { s.lat with ep0SentStall := false, ep0SetupEnd := false, ep0Out := false, ep0In := false }
    ep0 := EpRec.reset, ctlOpen := false }

/-- The stall-sent and SetupEnd services, when one of them or both run. -/
theorem transferDropped_of_pending {s : State} (h : s.lat.ep0SentStall = true ∨ s.lat.ep0SetupEnd = true) :
    serviceWhen (fun s => s.lat.ep0SetupEnd) serviceEp0SetupEnd
      (serviceWhen (fun s => s.lat.ep0SentStall) serviceEp0SentStall s) = s.transferDropped := by
  cases hStall : s.lat.ep0SentStall with
  | true =>
    rw [serviceWhen_true serviceEp0SentStall hStall]
    cases hEnd : s.lat.ep0SetupEnd with
    | true =>
      rw [serviceWhen_true serviceEp0SetupEnd (s := serviceEp0SentStall s) hEnd]
      rfl
    | false =>
      rw [serviceWhen_false serviceEp0SetupEnd (s := serviceEp0SentStall s) hEnd]
      simp [serviceEp0SentStall, ep0SoftReset, State.transferDropped, hEnd]
  | false =>
    have hEnd : s.lat.ep0SetupEnd = true := h.resolve_left (by simp [hStall])
    rw [serviceWhen_false serviceEp0SentStall hStall, serviceWhen_true serviceEp0SetupEnd hEnd]
    simp [serviceEp0SetupEnd, ep0SoftReset, State.transferDropped, hStall]

/-- With a stall-sent or SetupEnd pending, the control services are those of the state without the old transfer. -/
theorem serviceControl_transferDropped {s : State} (h1 : s.lat.reset = false) (h2 : s.lat.suspend = false)
    (h3 : s.lat.resume = false) (h : s.lat.ep0SentStall = true ∨ s.lat.ep0SetupEnd = true) :
    serviceControl s = serviceControl s.transferDropped := by
  rw [serviceControl_of_noBus h1 h2 h3, transferDropped_of_pending h,
    serviceControl_ep0 (s := s.transferDropped) h1 h2 h3 rfl rfl]

/-- With no latch pending, the control services do nothing. -/
theorem serviceControl_none {s : State} (h1 : s.lat.reset = false) (h2 : s.lat.suspend = false)
    (h3 : s.lat.resume = false) (h4 : s.lat.ep0SentStall = false) (h5 : s.lat.ep0SetupEnd = false)
    (h6 : s.lat.ep0Setup = false) (h7 : s.lat.ep0Out = false) (h8 : s.lat.ep0In = false) : serviceControl s = s := by
  rw [serviceControl_ep0 h1 h2 h3 h4 h5, serviceWhen_false (s := s) serviceEp0Setup h6,
    serviceWhen_false (s := s) serviceEp0Out h7, serviceWhen_false (s := s) serviceEp0In h8]

section

variable {s : State} (h1 : s.lat.reset = false) (h2 : s.lat.suspend = false) (h3 : s.lat.resume = false)
  (h4 : s.lat.ep0SentStall = false) (h5 : s.lat.ep0SetupEnd = false)

include h1 h2 h3 h4 h5

/-- A pending SETUP is served first (R315). -/
theorem serviceControl_setup (h : s.lat.ep0Setup = true) : serviceControl s = serviceControl (serviceEp0Setup s) := by
  obtain ⟨-, hLat⟩ := serviceEp0Setup_keeps s
  rw [serviceControl_ep0 h1 h2 h3 h4 h5, serviceControl_ep0 (s := serviceEp0Setup s) (by rw [hLat]; exact h1)
    (by rw [hLat]; exact h2) (by rw [hLat]; exact h3) (by rw [hLat]; exact h4) (by rw [hLat]; exact h5),
    serviceWhen_true (s := s) serviceEp0Setup h,
    serviceWhen_false (s := serviceEp0Setup s) serviceEp0Setup (by rw [hLat])]

/-- With no SETUP pending, an EP0 OUT packet is served first (R315). -/
theorem serviceControl_out (hSetup : s.lat.ep0Setup = false) (h : s.lat.ep0Out = true) :
    serviceControl s = serviceControl (serviceEp0Out s) := by
  obtain ⟨-, hLat⟩ := serviceEp0Out_lat s
  rw [serviceControl_ep0 h1 h2 h3 h4 h5, serviceControl_ep0 (s := serviceEp0Out s) (by rw [hLat]; exact h1)
    (by rw [hLat]; exact h2) (by rw [hLat]; exact h3) (by rw [hLat]; exact h4) (by rw [hLat]; exact h5),
    serviceWhen_false (s := s) serviceEp0Setup hSetup, serviceWhen_true (s := s) serviceEp0Out h,
    serviceWhen_false (s := serviceEp0Out s) serviceEp0Setup (by rw [hLat]; exact hSetup),
    serviceWhen_false (s := serviceEp0Out s) serviceEp0Out (by rw [hLat])]

/-- With no SETUP and no EP0 OUT packet pending, what is left is the EP0 IN service (R315). -/
theorem serviceControl_in (hSetup : s.lat.ep0Setup = false) (hOut : s.lat.ep0Out = false) (h : s.lat.ep0In = true) :
    serviceControl s = serviceEp0In s := by
  rw [serviceControl_ep0 h1 h2 h3 h4 h5, serviceWhen_false (s := s) serviceEp0Setup hSetup,
    serviceWhen_false (s := s) serviceEp0Out hOut, serviceWhen_true (s := s) serviceEp0In h]

end

end Sys2Proof.Machine

namespace Sys2Proof.Proofs

open Sys2Proof Sys2Proof.Machine

/-- Settles O29: the stall-sent and SetupEnd services leave `State.transferDropped`, whichever of them runs, and each
later service is the first to run when its turn comes. -/
theorem pollServesStallAndSetupEndFirst : Obligations.PollServesStallAndSetupEndFirst := by
  unfold Obligations.PollServesStallAndSetupEndFirst
  refine ⟨fun s a b c d hab ⟨hLat, hIsr, hDeps⟩ => ?_, fun s hIsr h1 h2 h3 => ⟨fun h => ?_, fun h4 h5 =>
    ⟨fun h => ?_, fun hSetup h => ?_, fun hSetup hOut h => ?_⟩⟩⟩
  · have hDrop : s.transferDropped.lat = Latches.none := by simp [State.transferDropped, hLat, Latches.none]
    have hControl : serviceControl s = s.transferDropped := by
      rw [serviceControl_transferDropped (by rw [hLat]; rfl) (by rw [hLat]; rfl) (by rw [hLat]; rfl)
        (by simpa [hLat] using hab)]
      exact serviceControl_none (by rw [hDrop]; rfl) (by rw [hDrop]; rfl) (by rw [hDrop]; rfl) rfl rfl
        (by rw [hDrop]; rfl) rfl rfl
    rw [exec_poll_of_control hControl hIsr rfl (by rw [hDrop]; rfl) hDeps, ← hDrop]
    rfl
  · exact exec_poll_congr (serviceControl_transferDropped h1 h2 h3 h) hIsr hIsr
  · exact exec_poll_congr (serviceControl_setup h1 h2 h3 h4 h5 h) hIsr ((serviceEp0Setup_keeps s).1 ▸ hIsr)
  · exact exec_poll_congr (serviceControl_out h1 h2 h3 h4 h5 hSetup h) hIsr ((serviceEp0Out_lat s).1 ▸ hIsr)
  · obtain ⟨hCfg, hLat⟩ := serviceEp0In_lat s
    have hNone : serviceControl (serviceEp0In s) = serviceEp0In s := by
      apply serviceControl_none <;> rw [hLat] <;> assumption
    exact exec_poll_congr ((serviceControl_in h1 h2 h3 h4 h5 hSetup hOut h).trans hNone.symm) hIsr (hCfg ▸ hIsr)

end Sys2Proof.Proofs
end

section
/-! PROOFS. The EP0 IN and OUT services (spec/42_control_transfer.md R182 to R188), case by case as one update of the
state each, and O37, O38 and O39. -/

namespace Sys2Proof.Machine

open Sys2Proof

/-! ### POLL with one latch of EP0 -/

/-- With `L0_IN` alone pending, POLL is the EP0 IN service. -/
theorem exec_poll_in {s : State} (h : OnlyLatches { Latches.none with ep0In := true } s) :
    exec .poll s = .next { serviceEp0In s with result := 0 } := by
  obtain ⟨hLat, hIsr, hDeps⟩ := h
  obtain ⟨hCfg, hLat'⟩ := serviceEp0In_lat s
  have hControl : serviceControl s = serviceEp0In s := by apply serviceControl_in <;> rw [hLat] <;> rfl
  exact exec_poll_of_control hControl hIsr hCfg (by rw [hLat', hLat]; rfl) (serviceEp0In_deps s ▸ hDeps)

/-- With `L0_OUT` alone pending, POLL is the EP0 OUT service. -/
theorem exec_poll_out {s : State} (h : OnlyLatches { Latches.none with ep0Out := true } s) :
    exec .poll s = .next { serviceEp0Out s with result := 0 } := by
  obtain ⟨hLat, hIsr, hDeps⟩ := h
  obtain ⟨hCfg, hLat'⟩ := serviceEp0Out_lat s
  have hOut : serviceControl s = serviceControl (serviceEp0Out s) := by
    apply serviceControl_out <;> rw [hLat] <;> rfl
  have hNone : serviceControl (serviceEp0Out s) = serviceEp0Out s := by
    apply serviceControl_none <;> rw [hLat', hLat] <;> rfl
  exact exec_poll_of_control (hOut.trans hNone) hIsr hCfg (by rw [hLat', hLat]; rfl) (serviceEp0Out_deps s ▸ hDeps)

/-- RESULT is not read by a notification. -/
theorem notify_result_comm (r : Record) (s : State) (w : Word) :
    { notify r s with result := w } = notify r { s with result := w } := by
  unfold notify
  dsimp only
  split <;> rfl

theorem notifyIf_result_comm (b : Bool) (r : Record) (s : State) (w : Word) :
    { notifyIf b r s with result := w } = notifyIf b r { s with result := w } := by
  cases b
  · rfl
  · exact notify_result_comm r s w

/-! ### EP0 IN (R182) -/

/-- `rem` counts down by the bytes moved, and does not wrap. -/
theorem EpRec.rem_sub {r : EpRec} {n : Nat} (h : n ≤ r.rem.toNat) :
    r.rem - BitVec.ofNat 16 n = BitVec.ofNat 16 (r.rem.toNat - n) := by
  apply BitVec.eq_of_toNat_eq
  have := r.rem.isLt
  simp only [BitVec.toNat_sub, BitVec.toNat_ofNat]
  omega

/-- A read of memory depends on memory and the configuration only. -/
theorem memReadBytes_congr {s t : State} (hMem : t.mem = s.mem) (hCfg : t.cfg = s.cfg) {a b : Nat}
    (hab : a % 2 ^ s.cfg.addrW = b % 2 ^ s.cfg.addrW) (n : Nat) : memReadBytes t a n = memReadBytes s b n := by
  induction n generalizing a b with
  | zero => rfl
  | succ n ih =>
    have hNext : (a + 1) % 2 ^ s.cfg.addrW = (b + 1) % 2 ^ s.cfg.addrW := Nat.ModEq.add_right 1 hab
    simp only [memReadBytes, memRead, hMem, hCfg, hab, ih hNext]

/-- The bytes of an IN packet are those of memory, whichever latches are cleared first. -/
theorem copyIn_latched (s : State) (l : Latches) (r : EpRec) (n : Nat) :
    copyIn { s with lat := l } r n = memReadBytes s r.buf.toNat n :=
  memReadBytes_congr (s := s) (t := { s with lat := l }) rfl rfl rfl n

/-- A latch that finds EP0 not Transmitting, or its packet still waiting. -/
theorem serviceEp0In_stale {s : State} (h : s.ep0.state ≠ .transmitting ∨ s.tx0 ≠ none) :
    serviceEp0In s = { s with lat := { s.lat with ep0In := false } } := if_pos h

section

variable {s : State} (hState : s.ep0.state = .transmitting) (hTx : s.tx0 = none) (hStage : s.tx0stage = [])
  {bytes : Packet}

include hState hTx hStage

/-- A full packet: EP0 stays Transmitting. -/
theorem serviceEp0In_full (hn : s.cfg.mps0 ≤ s.ep0.rem.toNat)
    (hb : bytes = memReadBytes s s.ep0.buf.toNat s.cfg.mps0) :
    serviceEp0In s = { s with
      lat := { s.lat with ep0In := false }, tx0 := some bytes, ep0 := s.ep0.advance s.cfg s.cfg.mps0
      acts := s.acts ++ [.commit 0x80 bytes] } := by
  unfold serviceEp0In
  dsimp only
  rw [if_neg (by simp [hState, hTx]), Nat.min_eq_right hn, if_neg (Nat.lt_irrefl _), copyIn_latched, ← hb]
  simp [ep0Commit, fifoWrite0, act, hStage]

/-- A short packet, the zero-length one included: the data stage ends and the transfer completes (R188). -/
theorem serviceEp0In_last (hn : s.ep0.rem.toNat < s.cfg.mps0)
    (hb : bytes = memReadBytes s s.ep0.buf.toNat s.ep0.rem.toNat) :
    serviceEp0In s = notifyIf s.ep0.cb ⟨.xferDone, 0x80, 0, 0, s.ep0.len, 0⟩ { s with
      lat := { s.lat with ep0In := false }, tx0 := some bytes
      ep0 := { s.ep0 with
        state := .idle, buf := wrapAddr s.cfg (s.ep0.buf.toNat + s.ep0.rem.toNat), rem := 0, cb := false }
      ctlOpen := false
      acts := s.acts ++ [.commit 0x80 bytes, .dataEnd] } := by
  unfold serviceEp0In
  dsimp only
  rw [if_neg (by simp [hState, hTx]), Nat.min_eq_left hn.le, if_pos hn, copyIn_latched, ← hb, complete0_eq]
  simp [ep0Commit, fifoWrite0, act, hStage, EpRec.advance, EpRec.completed, EpRec.moved]

end

/-! ### EP0 OUT (R184 to R187) -/

/-- A latch that finds no packet. -/
theorem serviceEp0Out_stale {s : State} (h : s.rx0 = none) :
    serviceEp0Out s = { s with lat := { s.lat with ep0Out := false } } := by
  simp [serviceEp0Out, h]

section

variable {s : State} {q : Packet} (hRx : s.rx0 = some q)

include hRx

/-- A packet that no transfer expects is held. -/
theorem serviceEp0Out_unexpected (h : s.ep0.state ≠ .receiving) :
    serviceEp0Out s = notifyIf (!s.ep0.wr) (xferError 0x00 .endpointError 0 q.length)
      { s with lat := { s.lat with ep0Out := false }, ep0 := s.ep0.hold } := by
  simp [serviceEp0Out, hRx, h]

/-- A packet longer than what is left is held, and the transfer is aborted. -/
theorem serviceEp0Out_overrun (h : s.ep0.state = .receiving) (hq : s.ep0.rem.toNat < q.length) :
    serviceEp0Out s = notify (xferError 0x00 .rxBufferOverrun s.ep0.moved q.length)
      { s with lat := { s.lat with ep0Out := false }, ep0 := s.ep0.overrun } := by
  simp [serviceEp0Out, hRx, h, hq]

/-- A packet that fits is received. -/
theorem serviceEp0Out_fits (h : s.ep0.state = .receiving) (hq : q.length ≤ s.ep0.rem.toNat) :
    serviceEp0Out s = ep0Receive q { s with lat := { s.lat with ep0Out := false } } := by
  simp [serviceEp0Out, hRx, h, Nat.not_lt.2 hq]

end

/-- A write of several bytes changes memory only. -/
theorem memWriteBytes_eq (s : State) (a : Nat) (p : Packet) :
    memWriteBytes s a p = { s with mem := (memWriteBytes s a p).mem } := by
  induction p generalizing s a with
  | nil => rfl
  | cons b p ih =>
    rw [memWriteBytes, ih (memWrite s a b) (a + 1)]
    rfl

/-- The last byte written to an address is the one read back, however often the write wraps around. -/
theorem memWriteBytes_read_last {s : State} (hm : Memory.wf s.mem) {p : Packet} {a i : Nat} {b : Byte}
    (hi : p[i]? = some b)
    (hLast : ∀ j, i < j → j < p.length → (a + j) % 2 ^ s.cfg.addrW ≠ (a + i) % 2 ^ s.cfg.addrW) :
    (memWriteBytes s a p).mem.read ((a + i) % 2 ^ s.cfg.addrW) = b := by
  induction p generalizing s a i with
  | nil => simp at hi
  | cons c p ih =>
    cases i with
    | zero =>
      obtain rfl : c = b := by simpa using hi
      have hOther : (memWriteBytes (memWrite s a c) (a + 1) p).mem.read (a % 2 ^ s.cfg.addrW)
          = (memWrite s a c).mem.read (a % 2 ^ s.cfg.addrW) :=
        memWriteBytes_read_other fun j hj => by
          have := hLast (j + 1) (Nat.succ_pos j) (by simpa using hj)
          rw [memWrite_cfg, Nat.add_assoc, Nat.add_comm 1 j]
          exact this.symm
      exact hOther.trans (Memory.read_write_same hm _ _)
    | succ i =>
      have hTail := ih (s := memWrite s a c) (Memory.wf_write hm _ _) (a := a + 1) (i := i) (by simpa using hi)
        fun j hij hj => by
          have := hLast (j + 1) (Nat.succ_lt_succ hij) (by simpa using hj)
          rwa [memWrite_cfg, Nat.add_assoc, Nat.add_comm 1 j, Nat.add_assoc, Nat.add_comm 1 i]
      rwa [memWrite_cfg, Nat.add_assoc, Nat.add_comm 1 i] at hTail

/-- The memory after EP0 received the packet `q`. -/
def State.drained (s : State) (q : Packet) : Memory := (memWriteBytes s s.ep0.buf.toNat q).mem

section

variable {s : State} {q : Packet} {left : Half} (hq : q.length ≤ s.ep0.rem.toNat)
  (hLeft : left = BitVec.ofNat 16 (s.ep0.rem.toNat - q.length))

include hq hLeft

/-- A packet of MPS0 bytes: EP0 stays Receiving. -/
theorem ep0Receive_full (hn : s.cfg.mps0 ≤ q.length) :
    ep0Receive q s = { s with
      mem := s.drained q, rx0 := none
      ep0 := { s.ep0 with buf := wrapAddr s.cfg (s.ep0.buf.toNat + q.length), rem := left }
      acts := s.acts ++ [.rxRelease 0x00] } := by
  unfold ep0Receive copyOut
  rw [fifoRead, List.take_length, memWriteBytes_eq]
  dsimp only
  rw [if_neg (Nat.not_lt.2 hn)]
  simp [releaseRx0, act, EpRec.advance, EpRec.rem_sub hq, hLeft, State.drained]

/-- A shorter packet: the data stage ends and the transfer completes (R187, R188). -/
theorem ep0Receive_short (hn : q.length < s.cfg.mps0) :
    ep0Receive q s = notifyIf s.ep0.cb ⟨.xferDone, 0x00, 0, 0, s.ep0.len - left, left⟩ { s with
      mem := s.drained q, rx0 := none
      ep0 := { s.ep0 with
        state := .idle, buf := wrapAddr s.cfg (s.ep0.buf.toNat + q.length), rem := left, cb := false }
      ctlOpen := false
      acts := s.acts ++ [.rxRelease 0x00, .dataEnd] } := by
  unfold ep0Receive copyOut
  rw [fifoRead, List.take_length, memWriteBytes_eq]
  dsimp only
  rw [if_pos hn, complete0_eq]
  simp [releaseRx0, act, EpRec.advance, EpRec.rem_sub hq, hLeft, State.drained, EpRec.completed, EpRec.moved]

end

end Sys2Proof.Machine

namespace Sys2Proof.Proofs

open Sys2Proof Sys2Proof.Machine

/-- Settles O37: POLL is the EP0 IN service (`exec_poll_in`), which is one of its three cases. -/
theorem pollSendsTheNextEndpointZeroPacket : Obligations.PollSendsTheNextEndpointZeroPacket := by
  unfold Obligations.PollSendsTheNextEndpointZeroPacket
  intro s n bytes h hn hb
  obtain ⟨hLat, -, -⟩ := id h
  have hClear : { s.lat with ep0In := false } = Latches.none := by rw [hLat]; rfl
  rw [exec_poll_in h]
  refine ⟨fun hStale => ?_, fun hState hTx hStage => ⟨fun hFull => ?_, fun hShort => ?_⟩⟩
  · rw [serviceEp0In_stale hStale, hClear]
  · have hle : n ≤ s.ep0.rem.toNat := hn ▸ Nat.min_le_left _ _
    rw [← EpRec.rem_sub hle]
    rw [hFull] at hle hb ⊢
    rw [serviceEp0In_full hState hTx hStage hle hb, hClear]
    rfl
  · have hAll : n = s.ep0.rem.toNat := by omega
    rw [hAll] at hShort hb ⊢
    rw [serviceEp0In_last hState hTx hStage hShort hb, hClear, notifyIf_result_comm]

/-- Settles O38: POLL is the EP0 OUT service (`exec_poll_out`), in the cases that receive nothing. -/
theorem pollHoldsAnUnexpectedEndpointZeroPacket : Obligations.PollHoldsAnUnexpectedEndpointZeroPacket := by
  unfold Obligations.PollHoldsAnUnexpectedEndpointZeroPacket
  intro s h
  obtain ⟨hLat, -, -⟩ := id h
  have hClear : { s.lat with ep0Out := false } = Latches.none := by rw [hLat]; rfl
  rw [exec_poll_out h]
  refine ⟨fun hRx => ?_, fun q hRx => ⟨fun hState => ?_, fun hState hLong => ?_⟩⟩
  · rw [serviceEp0Out_stale hRx, hClear]
  · rw [serviceEp0Out_unexpected hRx hState, hClear, notifyIf_result_comm]
    rfl
  · rw [serviceEp0Out_overrun hRx hState hLong, hClear, notify_result_comm]
    rfl

/-- Settles O39: POLL is the EP0 OUT service (`exec_poll_out`) in the case that receives; memory is that of
`State.drained`. -/
theorem pollReceivesAnEndpointZeroPacket : Obligations.PollReceivesAnEndpointZeroPacket := by
  unfold Obligations.PollReceivesAnEndpointZeroPacket
  intro s q left h hm hState hRx hq hLeft
  obtain ⟨hLat, -, -⟩ := id h
  have hClear : { s.lat with ep0Out := false } = Latches.none := by rw [hLat]; rfl
  have hPoll : exec .poll s = .next { ep0Receive q { s with lat := Latches.none } with result := 0 } := by
    rw [exec_poll_out h, serviceEp0Out_fits hRx hState hq, hClear]
  refine ⟨State.drained { s with lat := Latches.none } q,
    fun i b hi hLast => memWriteBytes_read_last (s := { s with lat := Latches.none }) hm hi hLast,
    fun a ha => memWriteBytes_read_other (s := { s with lat := Latches.none }) ha, fun hFull => ?_, fun hShort => ?_⟩
  · have hn : s.cfg.mps0 ≤ q.length := by omega
    rw [hPoll, ep0Receive_full (s := { s with lat := Latches.none }) hq hLeft hn]
  · rw [hPoll, ep0Receive_short (s := { s with lat := Latches.none }) hq hLeft hShort, notifyIf_result_comm]

end Sys2Proof.Proofs
end

section
/-! PROOFS. An EP0 IN data stage from its first packet to its last (spec/42_control_transfer.md R182, R183), and O59. -/

namespace Sys2Proof.Machine

open Sys2Proof

/-- EP0 is about to send, and nothing else is pending. -/
structure Ep0Sends (s : State) : Prop where
  legal   : s.cfg.legal = true
  latches : OnlyLatches { Latches.none with ep0In := true } s
  live    : busLive s = true
  noStall : s.ep0Stall = false
  running : s.ep0.state = .transmitting
  empty   : s.tx0 = none
  staged  : s.tx0stage = []

/-- Packet `i` of the data stage, as the host sees it (R183). -/
def ep0Packet (s : State) (i : Nat) : Byte × Packet :=
  (0x80, memReadBytes s (s.ep0.buf.toNat + i * s.cfg.mps0) (min s.cfg.mps0 (s.ep0.rem.toNat - i * s.cfg.mps0)))

/-- The state after a full packet was sent and taken: `L0_IN` is set again. -/
def State.packetTaken (s : State) : State :=
  { s with
    ep0 := s.ep0.advance s.cfg s.cfg.mps0, hostIn := s.hostIn ++ [ep0Packet s 0]
    acts := s.acts ++ [.commit 0x80 (ep0Packet s 0).2], result := 0 }

theorem legal_mps0_pos {c : Config} (h : c.legal = true) : 0 < c.mps0 := by
  simp only [Config.legal, Bool.and_eq_true] at h
  obtain ⟨⟨⟨⟨⟨⟨⟨⟨⟨⟨⟨⟨⟨-, hMps⟩, -⟩, -⟩, -⟩, -⟩, -⟩, -⟩, -⟩, -⟩, -⟩, -⟩, -⟩, -⟩ := h
  have hSize : c.mps0 = 8 ∨ c.mps0 = 16 ∨ c.mps0 = 32 ∨ c.mps0 = 64 := by simpa using hMps
  omega

/-- The bus is as live as the device state and the bus latches say (spec/46_events_and_service.md R300). -/
theorem busLive_congr {s t : State} (hDev : t.dev = s.dev) (h1 : t.lat.reset = s.lat.reset)
    (h2 : t.lat.suspend = s.lat.suspend) (h3 : t.lat.resume = s.lat.resume) : busLive t = busLive s := by
  simp only [busLive, busUp, hDev, h1, h2, h3]

/-- The host takes a committed packet of EP0 (spec/46_events_and_service.md R309). -/
theorem exec_evInTaken_ep0 {s : State} {bytes : Packet} (hLive : busLive s = true) (hStall : s.ep0Stall = false)
    (hTx : s.tx0 = some bytes) :
    exec (.evInTaken 0x80) s = .next { s with
      hostIn := s.hostIn ++ [(0x80, bytes)], tx0 := none, lat := { s.lat with ep0In := true } } := by
  have hl : lookup s 0x80 = some .ep0 := lookup_ep0_iff.2 (.inr rfl)
  change execEvInTaken 0x80 s = _
  simp only [execEvInTaken, hl, hLive, hTx, hStall]
  rfl

/-- An invocation that commits a packet, and the host takes it. -/
theorem execAll_round {s t : State} {bytes : Packet} (hPoll : exec .poll s = .next t) (hLive : busLive t = true)
    (hStall : t.ep0Stall = false) (hTx : t.tx0 = some bytes) (is : List Instr) :
    execAll (.poll :: .evInTaken 0x80 :: is) s = execAll is { t with
      hostIn := t.hostIn ++ [(0x80, bytes)], tx0 := none, lat := { t.lat with ep0In := true } } := by
  simp only [execAll, hPoll, exec_evInTaken_ep0 hLive hStall hTx]

section

variable {s : State} (h : Ep0Sends s)

include h

/-- A full packet: one round brings EP0 to the next. -/
theorem Ep0Sends.execAll_full (hn : s.cfg.mps0 ≤ s.ep0.rem.toNat) (is : List Instr) :
    execAll (.poll :: .evInTaken 0x80 :: is) s = execAll is s.packetTaken := by
  obtain ⟨hLat, -, -⟩ := id h.latches
  have hBytes : (ep0Packet s 0).2 = memReadBytes s s.ep0.buf.toNat s.cfg.mps0 := by
    simp [ep0Packet, Nat.min_eq_left hn]
  have hPoll := exec_poll_in h.latches
  rw [serviceEp0In_full h.running h.empty h.staged hn hBytes] at hPoll
  have hLive : busLive { s with lat := { s.lat with ep0In := false } } = true :=
    (busLive_congr (s := s) rfl rfl rfl rfl).trans h.live
  have hKept : { s.lat with ep0In := true } = s.lat := by rw [hLat]
  rw [execAll_round hPoll hLive h.noStall rfl, State.packetTaken, ← h.empty, hKept]
  rfl

/-- After a full packet EP0 is about to send the next. -/
theorem Ep0Sends.packetTaken : Ep0Sends s.packetTaken :=
  ⟨h.legal, h.latches, h.live, h.noStall, h.running, h.empty, h.staged⟩

/-- The packets left after a full one are those that follow it: `buf` and `rem` advance by MPS0. -/
theorem Ep0Sends.ep0Packet_packetTaken (hn : s.cfg.mps0 ≤ s.ep0.rem.toNat) (i : Nat) :
    ep0Packet s.packetTaken i = ep0Packet s (i + 1) := by
  have hRem : s.packetTaken.ep0.rem.toNat = s.ep0.rem.toNat - s.cfg.mps0 := EpRec.advance_rem hn
  have hBuf : s.packetTaken.ep0.buf.toNat = (s.ep0.buf.toNat + s.cfg.mps0) % 2 ^ s.cfg.addrW :=
    wrapAddr_toNat (legal_addrW_le h.legal) _
  have hLeft : s.ep0.rem.toNat - s.cfg.mps0 - i * s.cfg.mps0 = s.ep0.rem.toNat - (i + 1) * s.cfg.mps0 := by
    rw [Nat.sub_sub, Nat.succ_mul, Nat.add_comm]
  have hAddr : ((s.ep0.buf.toNat + s.cfg.mps0) % 2 ^ s.cfg.addrW + i * s.cfg.mps0) % 2 ^ s.cfg.addrW
      = (s.ep0.buf.toNat + (i + 1) * s.cfg.mps0) % 2 ^ s.cfg.addrW := by
    rw [Nat.mod_add_mod, Nat.succ_mul, Nat.add_assoc, Nat.add_comm s.cfg.mps0]
  unfold ep0Packet
  rw [hRem, hBuf, show s.packetTaken.cfg = s.cfg from rfl, hLeft,
    memReadBytes_congr (s := s) (t := s.packetTaken) rfl rfl hAddr]

/-- The last packet, shorter than MPS0: it ends the data stage. -/
theorem Ep0Sends.execAll_last (hn : s.ep0.rem.toNat < s.cfg.mps0) :
    ∃ t, execAll (hostReads 0x80 1) s = .next t ∧ t.hostIn = s.hostIn ++ [ep0Packet s 0]
      ∧ t.ep0.state = .idle ∧ t.ep0.rem = 0 ∧ t.ctlOpen = false ∧ t.mem = s.mem
      ∧ t.acts.getLast? = some .dataEnd := by
  have hBytes : (ep0Packet s 0).2 = memReadBytes s s.ep0.buf.toNat s.ep0.rem.toNat := by
    simp [ep0Packet, Nat.min_eq_right hn.le]
  have hPoll := exec_poll_in h.latches
  rw [serviceEp0In_last h.running h.empty h.staged hn hBytes, notifyIf_result_comm] at hPoll
  refine ⟨_, execAll_round (bytes := (ep0Packet s 0).2) hPoll ?_ (by simpa using h.noStall) (by simp) [], ?_⟩
  · exact (busLive_congr (by simp) (by simp) (by simp) (by simp)).trans h.live
  · simp [ep0Packet]

end

/-- The data stage: full packets one by one, then the short one. -/
theorem Ep0Sends.execAll_hostReads {n : Nat} {s : State} (h : Ep0Sends s) (hn : s.ep0.rem.toNat / s.cfg.mps0 = n) :
    ∃ t, execAll (hostReads 0x80 (n + 1)) s = .next t
      ∧ t.hostIn = s.hostIn ++ (List.range (n + 1)).map (ep0Packet s)
      ∧ t.ep0.state = .idle ∧ t.ep0.rem = 0 ∧ t.ctlOpen = false ∧ t.mem = s.mem
      ∧ t.acts.getLast? = some .dataEnd := by
  have hPos := legal_mps0_pos h.legal
  induction n generalizing s with
  | zero => exact h.execAll_last ((Nat.div_eq_zero_iff_lt hPos).1 hn)
  | succ n ih =>
    have hFull : s.cfg.mps0 ≤ s.ep0.rem.toNat := (Nat.div_pos_iff.1 (by omega)).2
    have hRem : s.packetTaken.ep0.rem.toNat = s.ep0.rem.toNat - s.cfg.mps0 := EpRec.advance_rem hFull
    have hRest : s.packetTaken.ep0.rem.toNat / s.packetTaken.cfg.mps0 = n := by
      have hDiv : s.ep0.rem.toNat / s.cfg.mps0 = (s.ep0.rem.toNat - s.cfg.mps0) / s.cfg.mps0 + 1 :=
        Nat.div_eq_sub_div hPos hFull
      rw [hRem]
      exact Nat.succ.inj (hDiv.symm.trans hn)
    obtain ⟨t, hRun, hHost, hEnd⟩ := ih h.packetTaken hRest hPos
    refine ⟨t, (h.execAll_full hFull _).trans hRun, ?_, hEnd⟩
    have hPackets : (List.range (n + 1 + 1)).map (ep0Packet s)
        = ep0Packet s 0 :: (List.range (n + 1)).map (ep0Packet s.packetTaken) := by
      rw [List.range_succ_eq_map, List.map_cons, List.map_map]
      exact congrArg _ (List.map_congr_left fun i _ => (h.ep0Packet_packetTaken hFull i).symm)
    rw [hHost, hPackets]
    exact List.append_assoc _ [_] _

end Sys2Proof.Machine

namespace Sys2Proof.Proofs

open Sys2Proof Sys2Proof.Machine

/-- Settles O59: by induction on the number of full packets (`Ep0Sends.execAll_hostReads`). -/
theorem endpointZeroDataStageReachesTheHost : Obligations.EndpointZeroDataStageReachesTheHost := by
  unfold Obligations.EndpointZeroDataStageReachesTheHost
  rintro s L hLegal hLatches hLive hStall hState hTx hStage rfl
  exact Ep0Sends.execAll_hostReads ⟨hLegal, hLatches, hLive, hStall, hState, hTx, hStage⟩ rfl

end Sys2Proof.Proofs
end

section
/-! PROOFS. A request without a data stage (spec/42_control_transfer.md R179, R181): no request handler touches EP0's
record, buffers or latches, or has the SIE move a packet (`UsesNoFifo s t`, of a change from `s` to `t`), and O36. -/

namespace Sys2Proof.Machine

open Sys2Proof

/-! ### What a request handler has the SIE do -/

/-- An action on addresses and endpoints, as opposed to packets, EP0's handshakes and the pull-up. -/
def Action.ofDevice : Action → Bool
  | .addrLoad _ | .epEnable _ _ | .toggleReset _ | .flush _ => true
  | .commit _ _ | .dataEnd | .rxRelease _ | .stall0 _ | .pullup _ => false

/-- The configuration, and what belongs to EP0 and to the latches. -/
def State.ep0Side (s : State) : Config × EpRec × Option Packet × Option Packet × Packet × Latches :=
  (s.cfg, s.ep0, s.rx0, s.tx0, s.tx0stage, s.lat)

/-- No data endpoint has a latch set. -/
def Quiet (ds : List DataEp) : Prop := ∀ d ∈ ds, d.latch = false ∧ d.stall = false

/-- EP0 and the latches are the same, no data endpoint's latch was set, and the SIE was told nothing of packets. -/
structure UsesNoFifo (s t : State) : Prop where
  ep0   : t.ep0Side = s.ep0Side
  quiet : Quiet s.deps → Quiet t.deps
  acts  : ∃ l : List Action, t.acts = s.acts ++ l ∧ ∀ x ∈ l, x.ofDevice = true

theorem UsesNoFifo.refl (s : State) : UsesNoFifo s s := ⟨rfl, id, [], by simp, nofun⟩

theorem UsesNoFifo.trans {s t u : State} (h : UsesNoFifo s t) (k : UsesNoFifo t u) : UsesNoFifo s u := by
  obtain ⟨l, hl, hd⟩ := h.acts
  obtain ⟨m, hm, he⟩ := k.acts
  refine ⟨k.ep0.trans h.ep0, k.quiet ∘ h.quiet, l ++ m, by rw [hm, hl, List.append_assoc], fun x hx => ?_⟩
  exact (List.mem_append.1 hx).elim (hd x) (he x)

/-- A change of other fields. -/
theorem UsesNoFifo.of_eq {s t : State} (h0 : t.ep0Side = s.ep0Side) (hd : t.deps = s.deps) (ha : t.acts = s.acts) :
    UsesNoFifo s t := ⟨h0, by rw [hd]; exact id, [], by simp [ha], nofun⟩

/-- An operation over the whole table. -/
theorem UsesNoFifo.table (s : State) {f : DataEp → DataEp} {g : DataEp → List Action}
    (hf : ∀ d, d.latch = false ∧ d.stall = false → (f d).latch = false ∧ (f d).stall = false)
    (hg : ∀ d, ∀ x ∈ g d, x.ofDevice = true) :
    UsesNoFifo s { s with deps := s.deps.map f, acts := s.acts ++ s.deps.flatMap g } := by
  refine ⟨rfl, fun hq => List.forall_mem_map.2 fun d hd => hf d (hq d hd), _, rfl, fun x hx => ?_⟩
  obtain ⟨d, -, hx⟩ := List.mem_flatMap.1 hx
  exact hg d x hx

/-! ### The device state machine -/

theorem abortAll_usesNoFifo (s : State) : UsesNoFifo s (abortAll s) :=
  .table s (fun d h => by
      unfold DataEp.aborted
      split
      · exact h
      · exact ⟨rfl, h.2⟩)
    fun d x hx => by
      unfold DataEp.abortActs at hx
      split at hx
      · exact nomatch hx
      · rw [List.mem_singleton.1 hx, Action.ofDevice]

theorem deactivateAll_usesNoFifo (s : State) : UsesNoFifo s (deactivateAll s) :=
  .table s (fun _ _ => ⟨rfl, rfl⟩) fun d x hx => by
    unfold DataEp.deactivateActs at hx
    split at hx
    · rw [List.mem_singleton.1 hx, Action.ofDevice]
    · exact nomatch hx

theorem activateAll_usesNoFifo (s : State) : UsesNoFifo s (activateAll s) :=
  .table s (fun _ h => h) fun d x hx => by
    unfold DataEp.activateActs at hx
    rcases List.mem_pair.1 hx with rfl | rfl <;> rfl

theorem leaveConfigured_usesNoFifo (n : DevState) (s : State) : UsesNoFifo s (leaveConfigured n s) := by
  unfold leaveConfigured
  split
  · exact (abortAll_usesNoFifo s).trans (.of_eq rfl rfl rfl)
  · exact .refl s

theorem enterBelowSuspended_usesNoFifo (n : DevState) (s : State) : UsesNoFifo s (enterBelowSuspended n s) := by
  unfold enterBelowSuspended
  split
  · exact deactivateAll_usesNoFifo s
  · exact .refl s

theorem setState_usesNoFifo (n : DevState) (s : State) : UsesNoFifo s (setState n s) :=
  ((leaveConfigured_usesNoFifo n s).trans (enterBelowSuspended_usesNoFifo n _)).trans
    (.of_eq (by simp [setState, State.ep0Side]) (by simp [setState]) (by simp [setState]))

/-! ### The request handlers (spec/43_request_dispatch.md) -/

theorem loadAddress_usesNoFifo (v : BitVec 7) (s : State) : UsesNoFifo s (loadAddress v s) :=
  ⟨rfl, id, [.addrLoad v], rfl, by simp [Action.ofDevice]⟩

theorem setAddress_usesNoFifo (p : Setup) (s : State) : UsesNoFifo s (setAddress p s).2 := by
  have hMove (b : Prop) [Decidable b] (n : DevState) (v : BitVec 7) :
      UsesNoFifo s (loadAddress v (if b then setState n s else s)) := by
    refine UsesNoFifo.trans ?_ (loadAddress_usesNoFifo v _)
    split
    · exact setState_usesNoFifo n s
    · exact .refl s
  unfold setAddress
  split
  · exact .refl s
  · dsimp only
    split
    · exact hMove _ .addressed _
    · exact hMove _ .default _
    all_goals exact .refl s

theorem drawProduct_usesNoFifo (s : State) : UsesNoFifo s (drawProduct s).2 := by
  unfold drawProduct
  split <;> exact .of_eq rfl rfl rfl

theorem select_usesNoFifo (t i : Byte) (s : State) : UsesNoFifo s (select t i s).2 := by
  unfold select selectString
  split
  · exact .refl s
  · split
    · exact .refl s
    · split
      · split
        · exact drawProduct_usesNoFifo s
        · split
          · exact .of_eq (by simp [serial, State.ep0Side]) (by simp [serial]) (by simp [serial])
          · exact .refl s
      · exact .refl s

/-- GET_DESCRIPTOR with `wLength = 0` starts no transfer (R223). -/
theorem getDescriptor_usesNoFifo {p : Setup} (h : p.wLength = 0) (s : State) : UsesNoFifo s (getDescriptor p s).2 := by
  unfold getDescriptor
  split
  · exact .refl s
  · have hSelect := select_usesNoFifo (p.wValue.extractLsb' 8 8) (p.wValue.extractLsb' 0 8) s
    dsimp only
    split
    · exact hSelect
    · rw [if_neg (not_not.2 h)]
      exact hSelect

theorem setConfiguration_usesNoFifo (p : Setup) (s : State) : UsesNoFifo s (setConfiguration p s).2 := by
  have hSet (n : DevState) (c : Byte) : UsesNoFifo s (setState n { s with dev := { s.dev with config := c } }) := by
    have hDev : UsesNoFifo s { s with dev := { s.dev with config := c } } := .of_eq rfl rfl rfl
    exact hDev.trans (setState_usesNoFifo n _)
  unfold setConfiguration
  split
  · exact .refl s
  · split
    · split
      · exact (hSet .configured _).trans (activateAll_usesNoFifo _)
      · exact .refl s
    · split
      · exact hSet .addressed _
      · split
        · exact activateAll_usesNoFifo s
        · exact .refl s
    all_goals exact .refl s

theorem stdDispatch_usesNoFifo {p : Setup} (h : p.wLength = 0) (s : State) : UsesNoFifo s (stdDispatch p s).2 := by
  unfold stdDispatch
  split
  · exact .refl s
  · split
    · exact setAddress_usesNoFifo p s
    · split
      · exact getDescriptor_usesNoFifo h s
      · split
        · exact setConfiguration_usesNoFifo p s
        · split <;> exact .refl s

/-! ### The override hook -/

theorem drawHook_usesNoFifo (s : State) : UsesNoFifo s (drawHook s).2 := by
  unfold drawHook
  split <;> exact .of_eq rfl rfl rfl

/-- EP0 takes no data stage in a request without one (spec/40_endpoint_table.md R124). -/
theorem applyArm_of_noData {p : Setup} (arm : Option Arm) {s : State} (h : s.setup.wLength = 0) :
    applyArm p arm s = s := by
  have hIllegal (a : Byte) (ha : a = 0x00 ∨ a = 0x80) (d : Dir) (addr : Addr) (n : Half) (cb : Bool) :
      (beginTransfer a d addr n cb s).2 = s := by
    obtain ⟨st, hb⟩ | ⟨e, hl, -, -, hLegal, -, -⟩ := beginTransfer_cases a d addr n cb s
    · rw [hb]
    · obtain rfl := Option.some.inj (hl.symm.trans (lookup_ep0_iff.2 ha))
      simp [ep0DataLegal, h] at hLegal
  cases arm with
  | none => rfl
  | some a =>
    unfold applyArm
    cases p.dir
    · exact hIllegal _ (.inr rfl) _ _ _ _
    · exact hIllegal _ (.inl rfl) _ _ _ _

theorem drawHook_setup (s : State) : (drawHook s).2.setup = s.setup := by
  unfold drawHook
  split <;> rfl

/-- Whatever the hook answers, the dispatch of a request without a data stage uses no FIFO (R210 to R212). -/
theorem dispatch_usesNoFifo {p : Setup} (h : p.wLength = 0) {s : State} (hs : s.setup = p) :
    UsesNoFifo s (dispatch p s).2 := by
  have hDraw := drawHook_usesNoFifo s
  unfold dispatch
  split
  · dsimp only
    split
    · rw [applyArm_of_noData _ (by rw [drawHook_setup, hs, h])]
      exact hDraw
    · exact hDraw
    · exact hDraw.trans (stdDispatch_usesNoFifo h _)
  · exact stdDispatch_usesNoFifo h s

/-! ### POLL with a SETUP pending -/

/-- With a SETUP pending alone, POLL is the SETUP service, when that sets no latch. -/
theorem exec_poll_setup {p : Setup} {s u : State} (h : SetupArrived p s)
    (hu : afterDispatch p (dispatch p (accepted p s)) = u) (hLat : u.lat = Latches.none) (hCfg : u.cfg = s.cfg)
    (hDeps : Quiet u.deps) : exec .poll s = .next { u with result := 0 } := by
  obtain ⟨⟨hl, hIsr, -⟩, -⟩ := id h
  have hSetup : serviceControl s = serviceControl u := by
    rw [← hu, ← serviceEp0Setup_arrived h]
    apply serviceControl_setup <;> rw [hl] <;> rfl
  have hNone : serviceControl u = u := by apply serviceControl_none <;> rw [hLat] <;> rfl
  exact exec_poll_of_control (hSetup.trans hNone) hIsr hCfg (by rw [hLat]; rfl) hDeps

/-- A request ended by one action, with EP0 in the state `r` (R179, R181). -/
def State.requestEnded (s : State) (r : EpRec) (stalled : Bool) (x : Action) : State :=
  { s with ep0 := r, ctlOpen := false, ep0Stall := stalled, acts := s.acts ++ [x] }

/-- A request without a data stage is acknowledged or stalled, whatever the dispatcher answers (R179, R181). -/
theorem afterDispatch_noData {p : Setup} (hw : p.wLength = 0) (r : Answer × State) :
    afterDispatch p r = r.2.requestEnded { r.2.ep0 with state := .idle } r.2.ep0Stall .dataEnd
    ∨ afterDispatch p r = r.2.requestEnded r.2.ep0.stall true (.stall0 true) := by
  obtain ⟨a, v⟩ := r
  cases a with
  | ok => exact .inl (if_pos hw)
  | requestError => exact .inr rfl
  | unhandled => exact .inr rfl

/-- POLL with such a request: the SETUP is released, the device may change, and the request ends. -/
theorem exec_poll_noData {p : Setup} {s : State} (h : SetupArrived p s) (hw : p.wLength = 0) {r : EpRec}
    {stalled : Bool} {x : Action} (hEnd : afterDispatch p (dispatch p (accepted p s))
      = (dispatch p (accepted p s)).2.requestEnded r stalled x) :
    ∃ t l, exec .poll s = .next t ∧ t.acts = s.acts ++ .rxRelease 0x00 :: (l ++ [x]) ∧ (∀ y ∈ l, y.ofDevice = true)
      ∧ t.tx0 = none ∧ t.rx0 = none ∧ t.tx0stage = [] ∧ t.ctlOpen = false ∧ t.ep0 = r ∧ t.ep0Stall = stalled := by
  obtain ⟨⟨-, -, hQuiet⟩, -, hTx, hStage⟩ := id h
  obtain ⟨hEp0, hQuiet', l, hActs, hDevice⟩ := dispatch_usesNoFifo (s := accepted p s) hw rfl
  generalize (dispatch p (accepted p s)).2 = v at *
  simp only [State.ep0Side, Prod.mk.injEq] at hEp0
  obtain ⟨hCfg, -, hRx', hTx', hStage', hLat⟩ := hEp0
  refine ⟨_, l, exec_poll_setup h hEnd hLat hCfg (hQuiet' hQuiet), ?_, hDevice, hTx'.trans hTx, hRx',
    hStage'.trans hStage, rfl, rfl, rfl⟩
  simp [State.requestEnded, hActs, accepted]

/-- An action of the device moves no packet and is not DataEnd. -/
theorem Action.ofDevice_ne {x : Action} (h : x.ofDevice = true) :
    ((∀ e b, x ≠ .commit e b) ∧ ∀ e, x ≠ .rxRelease e) ∧ x ≠ .dataEnd := by
  cases x <;> simp_all [Action.ofDevice]

end Sys2Proof.Machine

namespace Sys2Proof.Proofs

open Sys2Proof Sys2Proof.Machine

/-- Settles O36: the dispatch uses no FIFO (`dispatch_usesNoFifo`), and what follows it is DataEnd or a stall. -/
theorem noDataRequestsUseNoDataFifo : Obligations.NoDataRequestsUseNoDataFifo := by
  unfold Obligations.NoDataRequestsUseNoDataFifo
  intro s p h hw
  rcases afterDispatch_noData hw (dispatch p (accepted p s)) with hEnd | hEnd
  · obtain ⟨t, l, hPoll, hActs, hDevice, hTx, hRx, hStage, hOpen, hRec, -⟩ := exec_poll_noData h hw hEnd
    refine ⟨t, l ++ [.dataEnd], hPoll, hActs, ?_, hTx, hRx, hStage, hOpen, .inl ⟨by rw [hRec], by simp⟩⟩
    exact List.forall_mem_append.2 ⟨fun y hy => (Action.ofDevice_ne (hDevice y hy)).1, by simp⟩
  · obtain ⟨t, l, hPoll, hActs, hDevice, hTx, hRx, hStage, hOpen, hRec, hStall⟩ := exec_poll_noData h hw hEnd
    refine ⟨t, l ++ [.stall0 true], hPoll, hActs, ?_, hTx, hRx, hStage, hOpen, .inr ⟨by rw [hRec]; rfl, hStall, ?_⟩⟩
    · exact List.forall_mem_append.2 ⟨fun y hy => (Action.ofDevice_ne (hDevice y hy)).1, by simp⟩
    · intro hx
      rcases List.mem_append.1 hx with hx | hx
      · exact (Action.ofDevice_ne (hDevice _ hx)).2 rfl
      · exact nomatch List.mem_singleton.1 hx

end Sys2Proof.Proofs
end

section
/-! PROOFS. POLL with a SETUP whose request is answered Ok: one without a data stage is acknowledged
(`exec_poll_acknowledged`), one that armed EP0 for IN sends its first packet (`exec_poll_armed`); SET_ADDRESS and
SET_CONFIGURATION (spec/43_request_dispatch.md R218, R219, R226 to R230), and O31 and O32. -/

namespace Sys2Proof.Machine

open Sys2Proof

/-! ### POLL with a SETUP that is answered Ok -/

theorem dispatch_accepted (p : Setup) {s : State} (h : s.cfg.hook = false) :
    dispatch p (accepted p s) = stdDispatch p (accepted p s) := by
  have hAccepted : (accepted p s).cfg.hook = false := h
  simp [dispatch, hAccepted]

section

variable {p : Setup} (hw : p.wLength ≠ 0) (u : State)

include hw

/-- Ok to a request from the device: its IN data stage is left as the handler set it up. -/
theorem afterDispatch_in (hDir : p.dir = .in) : afterDispatch p (.ok, u) = u := (if_neg hw).trans (if_pos hDir)

/-- Ok to a request to the device, with no transfer started: EP0 awaits a consumer's read
(spec/42_control_transfer.md R190). -/
theorem afterDispatch_out_waits (hDir : p.dir = .out) (hu : u.ep0.state ≠ .receiving) :
    afterDispatch p (.ok, u) = { u with ep0 := { u.ep0 with wr := true } } :=
  (if_neg hw).trans ((if_neg (by simp [hDir])).trans (if_pos hu))

/-- Ok to a request to the device, with a transfer started. -/
theorem afterDispatch_out_runs (hDir : p.dir = .out) (hu : u.ep0.state = .receiving) : afterDispatch p (.ok, u) = u :=
  (if_neg hw).trans ((if_neg (by simp [hDir])).trans (if_neg (not_not.2 hu)))

end

section

variable {p : Setup} {s u : State} (h : SetupArrived p s) (hd : dispatch p (accepted p s) = (.ok, u))

include h hd

/-- A request without a data stage that is answered Ok is acknowledged (spec/42_control_transfer.md R179). -/
theorem exec_poll_acknowledged (hw : p.wLength = 0) :
    exec .poll s = .next { u with acts := u.acts ++ [.dataEnd], ctlOpen := false, result := 0 } := by
  have hNoFifo := dispatch_usesNoFifo (s := accepted p s) hw rfl
  rw [hd] at hNoFifo
  obtain ⟨hEp0, hQuiet, -⟩ := hNoFifo
  simp only [State.ep0Side, Prod.mk.injEq] at hEp0
  obtain ⟨hCfg, hRec, -, -, -, hLat⟩ := hEp0
  have hEnd : afterDispatch p (dispatch p (accepted p s)) = u.requestEnded u.ep0 u.ep0Stall .dataEnd := by
    rw [hd]
    simp [afterDispatch, hw, noDataPhase, State.requestEnded, act, hRec, accepted, EpRec.reset]
  obtain ⟨⟨-, -, hDeps⟩, -⟩ := id h
  exact exec_poll_setup h hEnd hLat hCfg (hQuiet hDeps)

/-- A request from the device that armed EP0 has its first packet sent in the same invocation
(spec/42_control_transfer.md R180, R182). -/
theorem exec_poll_armed (hw : p.wLength ≠ 0) (hDir : p.dir = .in)
    (hLat : u.lat = { Latches.none with ep0In := true }) (hCfg : u.cfg = s.cfg) (hDeps : u.deps = s.deps) :
    exec .poll s = .next { serviceEp0In u with result := 0 } := by
  obtain ⟨⟨hl, hIsr, hQuiet⟩, -⟩ := id h
  have hAfter : afterDispatch p (dispatch p (accepted p s)) = u := by
    rw [hd, afterDispatch_in hw u hDir]
  have hSetup : serviceControl s = serviceControl u := by
    rw [← hAfter, ← serviceEp0Setup_arrived h]
    apply serviceControl_setup <;> rw [hl] <;> rfl
  have hIsr' : u.cfg.hookIsr = false := hCfg ▸ hIsr
  rw [exec_poll_congr hSetup hIsr hIsr', exec_poll_in ⟨hLat, hIsr', hDeps ▸ hQuiet⟩]

end

/-! ### SET_ADDRESS (spec/43_request_dispatch.md R218, R219) -/

/-- The device state moves between Default and Addressed as the address asks. -/
def State.movedTo (s : State) (v : BitVec 7) : State :=
  if s.dev.state = .default ∧ v ≠ 0 then setState .addressed s
  else if s.dev.state = .addressed ∧ v = 0 then setState .default s
  else s

/-- A valid SET_ADDRESS. -/
theorem setAddress_ok {p : Setup} {s : State} (hv : p.wValue.toNat < 128) (hw : p.wLength = 0) (hRec : p.recipient = 0)
    (hx : p.wIndex = 0) (hState : s.dev.state = .default ∨ s.dev.state = .addressed) :
    setAddress p s = (.ok, loadAddress (p.wValue.setWidth 7) (s.movedTo (p.wValue.setWidth 7))) := by
  have hFields : addressFieldsOk p = true := by simp [addressFieldsOk, hv, hw, hRec, hx]
  unfold setAddress State.movedTo
  rcases hState with hs | hs
  · simp [hFields, hs]
  · simp [hFields, hs]

/-! ### SET_CONFIGURATION (spec/43_request_dispatch.md R226 to R230) -/

section

variable {p : Setup} {s : State} (hw : p.wLength = 0) (hRec : p.recipient = 0) (hx : p.wIndex = 0)

include hw hRec hx

/-- SET_CONFIGURATION(1) in Addressed. -/
theorem setConfiguration_configures (hs : s.dev.state = .addressed) (hv : p.wValue = 1) :
    setConfiguration p s
      = (.ok, activateAll (setState .configured { s with dev := { s.dev with config := 1 } })) := by
  simp [setConfiguration, hw, hRec, hx, hs, hv]

/-- SET_CONFIGURATION(0) in Configured. -/
theorem setConfiguration_deconfigures (hs : s.dev.state = .configured) (hv : p.wValue = 0) :
    setConfiguration p s = (.ok, setState .addressed { s with dev := { s.dev with config := 0 } }) := by
  simp [setConfiguration, hw, hRec, hx, hs, hv]

/-- SET_CONFIGURATION(1) in Configured (R230). -/
theorem setConfiguration_reactivates (hs : s.dev.state = .configured) (hv : p.wValue = 1) :
    setConfiguration p s = (.ok, activateAll s) := by
  simp [setConfiguration, hw, hRec, hx, hs, hv]

end

end Sys2Proof.Machine

namespace Sys2Proof.Proofs

open Sys2Proof Sys2Proof.Machine

/-- Settles O31: the dispatcher answers Ok with the address loaded (`setAddress_ok`), and that is acknowledged. -/
theorem pollServesSetAddress : Obligations.PollServesSetAddress := by
  unfold Obligations.PollServesSetAddress
  rintro s t p v hHook h ht hr hVal hw hRec hx hState rfl hMove
  have hMoved : t = (accepted p s).movedTo (p.wValue.setWidth 7) := hMove
  have hDisp : dispatch p (accepted p s) = (.ok, loadAddress (p.wValue.setWidth 7) t) := by
    rw [dispatch_accepted p hHook, stdDispatch_setAddress ht hr,
      setAddress_ok (s := accepted p s) hVal hw hRec hx hState, hMoved]
  rw [exec_poll_acknowledged h hDisp hw]
  simp [loadAddress, act]

/-- Settles O32: the dispatcher answers Ok in each of the three cases, and that is acknowledged. -/
theorem pollServesSetConfiguration : Obligations.PollServesSetConfiguration := by
  unfold Obligations.PollServesSetConfiguration
  intro s p hHook h ht hr hw hRec hx
  have hPoll {u : State} (hSet : setConfiguration p (accepted p s) = (.ok, u)) :
      exec .poll s = .next { u with acts := u.acts ++ [.dataEnd], ctlOpen := false, result := 0 } :=
    exec_poll_acknowledged h (by rw [dispatch_accepted p hHook, stdDispatch_setConfiguration ht hr, hSet]) hw
  refine ⟨fun hs hv t hMoved => ?_, fun hs hv t hMoved => ?_, fun hs hv => ?_⟩
  · rw [hPoll (setConfiguration_configures (s := accepted p s) hw hRec hx hs hv), hMoved]
    rfl
  · rw [hPoll (setConfiguration_deconfigures (s := accepted p s) hw hRec hx hs hv), hMoved]
    rfl
  · exact hPoll (setConfiguration_reactivates (s := accepted p s) hw hRec hx hs hv)

end Sys2Proof.Proofs
end

section
/-! PROOFS. The override hook (spec/43_request_dispatch.md R210 to R212): what the dispatcher answers for each outcome
of the hook's answer, the data stage that an arm starts on the accepted SETUP, and O35. -/

namespace Sys2Proof.Machine

open Sys2Proof

/-! ### The hook's answer (R210, R211) -/

/-- The state after the hook was consulted. -/
def State.hookDrawn (s : State) (rest : List HookAnswer) (n : Nat) : State := { s with hookIn := rest, draws := n }

theorem drawHook_of_draw {a : HookAnswer} {rest : List HookAnswer} {n : Nat} {s : State} (h : HookDraw a rest n s) :
    drawHook s = (a, s.hookDrawn rest n) := by
  unfold drawHook State.hookDrawn
  obtain ⟨hIn, hn⟩ | ⟨hIn, hRest, ha, hn⟩ := h
  · simp only [hIn, hn]
  · simp only [hIn, hRest, ha, hn]

section

variable {p : Setup} {a : HookAnswer} {rest : List HookAnswer} {n : Nat} {s : State} (hHook : s.cfg.hook = true)
  (hDraw : HookDraw a rest n s)

include hHook hDraw

theorem dispatch_hook_unhandled (ha : a.outcome = .unhandled) :
    dispatch p s = stdDispatch p (s.hookDrawn rest n) := by
  simp only [dispatch, hHook, drawHook_of_draw hDraw, ha, if_true]

theorem dispatch_hook_requestError (ha : a.outcome = .requestError) :
    dispatch p s = (.requestError, s.hookDrawn rest n) := by
  simp only [dispatch, hHook, drawHook_of_draw hDraw, ha, if_true]

theorem dispatch_hook_ok (ha : a.outcome = .ok) :
    dispatch p s = (.ok, applyArm p a.arm (s.hookDrawn rest n)) := by
  simp only [dispatch, hHook, drawHook_of_draw hDraw, ha, if_true]

end

/-! ### The arm (R212) -/

section

variable {p : Setup} {s : State} (hIdle : s.ep0.state = .idle)

include hIdle

/-- An arm of a request from the device starts an IN data stage. -/
theorem applyArm_in (m : Arm) (hLegal : ep0DataLegal s .in = true) (hDir : p.dir = .in) :
    applyArm p (some m) s = armEp .ep0 .in (wrapAddr s.cfg m.addr.toNat) m.n m.cb s := by
  simp only [applyArm, hDir, beginTransfer_in0 hIdle, hLegal, if_true]

/-- An arm of a request to the device starts an OUT data stage. -/
theorem applyArm_out (m : Arm) (hLegal : ep0DataLegal s .out = true) (hDir : p.dir = .out) :
    applyArm p (some m) s = armEp .ep0 .out (wrapAddr s.cfg m.addr.toNat) m.n m.cb s := by
  simp only [applyArm, hDir, beginTransfer_out0 hIdle, hLegal, if_true]

end

/-- The data stage of an accepted SETUP is the one its direction and `wLength` ask for
(spec/40_endpoint_table.md R124). -/
theorem ep0DataLegal_of_setup {p : Setup} {s : State} (hOpen : s.ctlOpen = true) (hSetup : s.setup = p)
    (hw : p.wLength ≠ 0) {d : Dir} (hDir : p.dir = d) : ep0DataLegal s d = true := by
  simp only [ep0DataLegal, hOpen, hSetup, hDir, bne_iff_ne.2 hw, beq_self_eq_true, Bool.and_self]

/-- RESULT is not read by the EP0 IN service. -/
theorem serviceEp0In_result_comm (s : State) (w : Word) :
    { serviceEp0In s with result := w } = serviceEp0In { s with result := w } := by
  have hBytes (l : Latches) (n : Nat) :
      copyIn { s with lat := l, result := w } s.ep0 n = copyIn { s with lat := l } s.ep0 n :=
    memReadBytes_congr (s := { s with lat := l }) (t := { s with lat := l, result := w }) rfl rfl rfl n
  unfold serviceEp0In
  dsimp only
  rw [hBytes]
  split
  · rfl
  · split
    · rw [complete0_eq, complete0_eq, notifyIf_result_comm]
      rfl
    · rfl

/-! ### POLL when the hook answers (R211, R212) -/

section

variable {p : Setup} {a : HookAnswer} {rest : List HookAnswer} {n : Nat} {s : State} (h : SetupArrived p s)
  (hHook : s.cfg.hook = true) (hDraw : HookDraw a rest n s)

include h hHook hDraw

/-- RequestError stalls EP0 (spec/42_control_transfer.md R181). -/
theorem exec_poll_hook_requestError (ha : a.outcome = .requestError) :
    exec .poll s = .next { stall0 ((accepted p s).hookDrawn rest n) with result := 0 } := by
  have hEnd : afterDispatch p (dispatch p (accepted p s)) = stall0 ((accepted p s).hookDrawn rest n) := by
    rw [dispatch_hook_requestError (s := accepted p s) hHook hDraw ha]
    rfl
  exact exec_poll_arrived h hEnd rfl rfl rfl

variable (ha : a.outcome = .ok)

include ha

/-- Ok without a data stage is acknowledged (spec/42_control_transfer.md R179). -/
theorem exec_poll_hook_noData (hw : p.wLength = 0) :
    exec .poll s = .next { (accepted p s).hookDrawn rest n with
      acts := s.acts ++ [.rxRelease 0x00] ++ [.dataEnd], ctlOpen := false, result := 0 } := by
  have hDisp := dispatch_hook_ok (p := p) (s := accepted p s) hHook hDraw ha
  rw [applyArm_of_noData (s := (accepted p s).hookDrawn rest n) a.arm hw] at hDisp
  exact exec_poll_acknowledged h hDisp hw

variable (hw : p.wLength ≠ 0)

include hw

/-- Ok with nothing armed defers an IN data stage (spec/42_control_transfer.md R180). -/
theorem exec_poll_hook_deferred_in (hm : a.arm = none) (hd : p.dir = .in) :
    exec .poll s = .next { (accepted p s).hookDrawn rest n with result := 0 } := by
  have hEnd : afterDispatch p (dispatch p (accepted p s)) = (accepted p s).hookDrawn rest n := by
    rw [dispatch_hook_ok (s := accepted p s) hHook hDraw ha, hm]
    exact afterDispatch_in hw _ hd
  exact exec_poll_arrived h hEnd rfl rfl rfl

/-- Ok with nothing armed defers an OUT data stage, and EP0 awaits a consumer's read (spec/42_control_transfer.md
R190). -/
theorem exec_poll_hook_deferred_out (hm : a.arm = none) (hd : p.dir = .out) :
    exec .poll s = .next { (accepted p s).hookDrawn rest n with
      ep0 := { EpRec.reset with wr := true }, result := 0 } := by
  have hEnd : afterDispatch p (dispatch p (accepted p s))
      = { (accepted p s).hookDrawn rest n with ep0 := { EpRec.reset with wr := true } } := by
    rw [dispatch_hook_ok (s := accepted p s) hHook hDraw ha, hm]
    exact afterDispatch_out_waits hw ((accepted p s).hookDrawn rest n) hd nofun
  exact exec_poll_arrived h hEnd rfl rfl rfl

/-- Ok with an arm starts the OUT data stage. -/
theorem exec_poll_hook_armed_out {m : Arm} (hm : a.arm = some m) (hd : p.dir = .out) :
    exec .poll s = .next { (accepted p s).hookDrawn rest n with
      ep0 := EpRec.reset.arm .out (wrapAddr s.cfg m.addr.toNat) m.n m.cb, result := 0 } := by
  have hLegal : ep0DataLegal ((accepted p s).hookDrawn rest n) .out = true :=
    ep0DataLegal_of_setup (p := p) rfl rfl hw hd
  have hEnd : afterDispatch p (dispatch p (accepted p s)) = { (accepted p s).hookDrawn rest n with
      ep0 := EpRec.reset.arm .out (wrapAddr s.cfg m.addr.toNat) m.n m.cb } := by
    rw [dispatch_hook_ok (s := accepted p s) hHook hDraw ha, hm, applyArm_out rfl m hLegal hd]
    exact afterDispatch_out_runs hw _ hd rfl
  exact exec_poll_arrived h hEnd rfl rfl rfl

/-- Ok with an arm starts the IN data stage, and its first packet is sent in the same invocation
(spec/42_control_transfer.md R182). -/
theorem exec_poll_hook_armed_in {m : Arm} (hm : a.arm = some m) (hd : p.dir = .in) :
    exec .poll s = .next (serviceEp0In { (accepted p s).hookDrawn rest n with
      ep0 := EpRec.reset.arm .in (wrapAddr s.cfg m.addr.toNat) m.n m.cb
      lat := { Latches.none with ep0In := true }, result := 0 }) := by
  have hLegal : ep0DataLegal ((accepted p s).hookDrawn rest n) .in = true :=
    ep0DataLegal_of_setup (p := p) rfl rfl hw hd
  have hDisp := dispatch_hook_ok (p := p) (s := accepted p s) hHook hDraw ha
  rw [hm, applyArm_in rfl m hLegal hd] at hDisp
  rw [exec_poll_armed h hDisp hw hd rfl rfl rfl, serviceEp0In_result_comm]
  rfl

end

end Sys2Proof.Machine

namespace Sys2Proof.Proofs

open Sys2Proof Sys2Proof.Machine

/-- Settles O35: the hook's answer is the dispatcher's, and POLL does what each of its outcomes asks for
(`exec_poll_hook_requestError` and its like). -/
theorem hookIsConsultedFirst : Obligations.HookIsConsultedFirst := by
  unfold Obligations.HookIsConsultedFirst
  intro s p a rest n hHook hDraw
  refine ⟨fun ha => dispatch_hook_unhandled hHook hDraw ha, ?_⟩
  rintro h t rfl
  refine ⟨fun ha => ?_, fun ha => ⟨fun hw => ?_, fun hw hm hd => ?_, fun hw hm hd => ?_, fun m hw hm hd => ?_,
    fun m hw hm hd => ?_⟩⟩
  · rw [exec_poll_hook_requestError h hHook hDraw ha]
    simp [stall0, act, accepted, State.hookDrawn, EpRec.stall, EpRec.reset]
  · rw [exec_poll_hook_noData h hHook hDraw ha hw]
    simp [accepted, State.hookDrawn]
  · exact exec_poll_hook_deferred_in h hHook hDraw ha hw hm hd
  · exact exec_poll_hook_deferred_out h hHook hDraw ha hw hm hd
  · exact exec_poll_hook_armed_out h hHook hDraw ha hw hm hd
  · exact exec_poll_hook_armed_in h hHook hDraw ha hw hm hd

end Sys2Proof.Proofs
end

section
/-! PROOFS. GET_DESCRIPTOR without a hook (spec/43_request_dispatch.md R221 to R225): which descriptor is selected, and
what POLL answers once one is (`DescriptorAsked p s src m product draws`); O33. -/

namespace Sys2Proof.Machine

open Sys2Proof

/-! ### Lengths and addresses -/

theorem clampLen_eq (n w : Half) : clampLen n w = BitVec.ofNat 16 (min n.toNat w.toNat) := by
  unfold clampLen
  split
  · rename_i h
    rw [Nat.min_eq_left h, BitVec.ofNat_toNat, BitVec.setWidth_eq]
  · rename_i h
    rw [Nat.min_eq_right (Nat.le_of_not_le h), BitVec.ofNat_toNat, BitVec.setWidth_eq]

/-- An address that was reduced modulo `2^ADDR_W` is reduced the same after a step. -/
theorem wrapAddr_mod_add (c : Config) (a n : Nat) : wrapAddr c (a % 2 ^ c.addrW + n) = wrapAddr c (a + n) := by
  rw [wrapAddr, wrapAddr, Nat.mod_add_mod]

/-! ### Which descriptor is selected (R222) -/

/-- The type and the index are the two bytes of `wValue` (R221). -/
theorem select_of_wValue {p : Setup} {w : Half} (h : p.wValue = w) (s : State) :
    select p.b3 p.b2 s = select (w.extractLsb' 8 8) (w.extractLsb' 0 8) s := by
  rw [← h, p.wValue_bytes.1, p.wValue_bytes.2]

theorem select_device (s : State) : select 1 0 s = (some (locate s.cfg s.cfg.devDesc), s) := rfl

theorem select_configuration (s : State) : select 2 0 s = (some (locate s.cfg s.cfg.cfgDesc), s) := rfl

theorem drawProduct_of_draw {a : Option DescLoc} {product : List (Option DescLoc)} {m : Nat} {s : State}
    (h : ProductDraw a product m s) : drawProduct s = (a, { s with productIn := product, draws := m }) := by
  unfold drawProduct
  obtain ⟨hIn, hm⟩ | ⟨hIn, hProduct, ha, hm⟩ := h
  · simp only [hIn, hm]
  · simp only [hIn, hProduct, ha, hm]

/-- A string of STR other than the product name and the serial number. -/
theorem select_string {i : Byte} {src : DescLoc} {s : State} (h2 : i ≠ 2) (h3 : i ≠ 3)
    (hStr : strEntry s.cfg i = some src) : select 3 i s = (some (locate s.cfg src), s) := by
  have hString : select 3 i s = selectString i s := rfl
  rw [hString, selectString, if_neg h2, if_neg h3, hStr, Option.map_some]

/-- The product name is the accessor's answer, or else that of STR. -/
theorem select_product {a : Option DescLoc} {src : DescLoc} {product : List (Option DescLoc)} {m : Nat} {s : State}
    (hDraw : ProductDraw a product m s) (h : a = some src ∨ (a = none ∧ strEntry s.cfg 2 = some src)) :
    select 3 2 s = (some (locate s.cfg src), { s with productIn := product, draws := m }) := by
  have hString : select 3 2 s = selectString Config.productIndex s := rfl
  rw [hString, selectString, if_pos rfl, drawProduct_of_draw hDraw]
  rcases h with rfl | ⟨rfl, hStr⟩
  · rfl
  · dsimp only
    rw [show strEntry s.cfg Config.productIndex = some src from hStr]
    rfl

/-! ### The first packet (spec/42_control_transfer.md R182) -/

/-- EP0 about to send `n` bytes from address `a`, and nothing else pending. -/
def State.sending (v : State) (a n : Nat) : State :=
  { v with
    ep0 := ⟨.transmitting, wrapAddr v.cfg a, BitVec.ofNat 16 n, BitVec.ofNat 16 n, false, false, false⟩
    lat := { Latches.none with ep0In := true } }

section

variable {v : State} (hLegal : v.cfg.legal = true) (hTx : v.tx0 = none) (hStage : v.tx0stage = []) {a n : Nat}
  (hSize : n < 2 ^ 16) {bytes : Packet}

include hLegal in
theorem State.sending_buf : (v.sending a n).ep0.buf.toNat = a % 2 ^ v.cfg.addrW :=
  wrapAddr_toNat (legal_addrW_le hLegal) a

include hSize in
theorem State.sending_rem : (v.sending a n).ep0.rem.toNat = n := Nat.mod_eq_of_lt hSize

include hLegal in
/-- The bytes EP0 sends are those of memory at the address. -/
theorem State.sending_bytes (k : Nat) :
    memReadBytes (v.sending a n) (v.sending a n).ep0.buf.toNat k = memReadBytes v (a % 2 ^ v.cfg.addrW) k := by
  rw [State.sending_buf hLegal]
  exact memReadBytes_congr (s := v) (t := v.sending a n) rfl rfl rfl k

include hLegal hTx hStage hSize

/-- A first packet of MPS0 bytes. -/
theorem serviceEp0In_sending_full (hFull : v.cfg.mps0 ≤ n)
    (hBytes : bytes = memReadBytes v (a % 2 ^ v.cfg.addrW) v.cfg.mps0) :
    serviceEp0In (v.sending a n) = { v with
      lat := Latches.none, tx0 := some bytes
      ep0 := ⟨.transmitting, wrapAddr v.cfg (a + v.cfg.mps0), BitVec.ofNat 16 n, BitVec.ofNat 16 (n - v.cfg.mps0),
        false, false, false⟩
      acts := v.acts ++ [.commit 0x80 bytes] } := by
  have hRem := State.sending_rem (v := v) (a := a) hSize
  have hFits : v.cfg.mps0 ≤ (v.sending a n).ep0.rem.toNat := hRem.symm ▸ hFull
  have hAdvance : (v.sending a n).ep0.advance (v.sending a n).cfg (v.sending a n).cfg.mps0
      = ⟨.transmitting, wrapAddr v.cfg (a + v.cfg.mps0), BitVec.ofNat 16 n, BitVec.ofNat 16 (n - v.cfg.mps0),
        false, false, false⟩ := by
    change (v.sending a n).ep0.advance v.cfg v.cfg.mps0 = _
    rw [EpRec.advance, EpRec.rem_sub hFits, hRem, State.sending_buf hLegal, wrapAddr_mod_add]
    rfl
  rw [serviceEp0In_full (s := v.sending a n) rfl hTx hStage hFits (hBytes.trans (State.sending_bytes hLegal _).symm),
    hAdvance]
  rfl

/-- A shorter first packet, which ends the data stage. -/
theorem serviceEp0In_sending_last (hShort : n < v.cfg.mps0) (hBytes : bytes = memReadBytes v (a % 2 ^ v.cfg.addrW) n) :
    serviceEp0In (v.sending a n) = { v with
      lat := Latches.none, tx0 := some bytes
      ep0 := ⟨.idle, wrapAddr v.cfg (a + n), BitVec.ofNat 16 n, 0, false, false, false⟩
      ctlOpen := false
      acts := v.acts ++ [.commit 0x80 bytes, .dataEnd] } := by
  have hRem := State.sending_rem (v := v) (a := a) hSize
  have hSent : bytes = memReadBytes (v.sending a n) (v.sending a n).ep0.buf.toNat (v.sending a n).ep0.rem.toNat := by
    rw [State.sending_bytes hLegal, hRem, hBytes]
  have hEnd : wrapAddr (v.sending a n).cfg ((v.sending a n).ep0.buf.toNat + n) = wrapAddr v.cfg (a + n) := by
    rw [State.sending_buf hLegal]
    exact wrapAddr_mod_add v.cfg a n
  have hRemShort : (v.sending a n).ep0.rem.toNat < v.cfg.mps0 := hRem.symm ▸ hShort
  rw [serviceEp0In_last (s := v.sending a n) rfl hTx hStage hRemShort hSent, hRem, hEnd]
  rfl

end

/-! ### What is answered once a descriptor is selected (R223) -/

/-- The state after the selection of a descriptor: it may have written memory and taken a draw. -/
def State.afterSelect (s : State) (m : Memory) (product : List (Option DescLoc)) (draws : Nat) : State :=
  { s with mem := m, productIn := product, draws := draws }

/-- A GET_DESCRIPTOR has arrived, which selects the descriptor at `src` and leaves this memory and these draws. -/
structure DescriptorAsked (p : Setup) (s : State) (src : DescLoc) (m : Memory) (product : List (Option DescLoc))
    (draws : Nat) : Prop where
  legal     : s.cfg.legal = true
  noHook    : s.cfg.hook = false
  arrived   : SetupArrived p s
  type      : p.type = 0
  request   : p.request = 6
  dir       : p.dir = .in
  recipient : p.recipient = 0
  selected  : select p.b3 p.b2 (accepted p s) = (some (locate s.cfg src), (accepted p s).afterSelect m product draws)

namespace DescriptorAsked

section

variable {p : Setup} {s v : State} {src : DescLoc} {m : Memory} {product : List (Option DescLoc)} {draws : Nat}
  (h : DescriptorAsked p s src m product draws) (hv : v = (accepted p s).afterSelect m product draws)

include h hv

/-- The dispatcher answers Ok, with EP0 armed if there is a data stage. -/
theorem dispatch_eq : dispatch p (accepted p s)
    = (.ok, if p.wLength = 0 then v else v.sending src.addr.toNat (min src.len.toNat p.wLength.toNat)) := by
  have hHandled : ¬(p.dir ≠ .in ∨ p.recipient ≠ 0) := by simp [h.dir, h.recipient]
  have hSelect : select (p.wValue.extractLsb' 8 8) (p.wValue.extractLsb' 0 8) (accepted p s)
      = (some (locate s.cfg src), v) := by
    rw [p.wValue_bytes.1, p.wValue_bytes.2, h.selected, hv]
  rw [dispatch_accepted p h.noHook, stdDispatch_getDescriptor h.type h.request, getDescriptor, if_neg hHandled, hSelect]
  by_cases hw : p.wLength = 0
  · rw [if_pos hw]
    exact if_neg (not_not.2 hw)
  · have hBegin : beginTransfer 0x80 .in (locate s.cfg src).addr (clampLen src.len p.wLength) false v
        = (.ok, v.sending src.addr.toNat (min src.len.toNat p.wLength.toNat)) := by
      subst hv
      have hLegal : ep0DataLegal ((accepted p s).afterSelect m product draws) .in = true :=
        ep0DataLegal_of_setup (p := p) rfl rfl hw h.dir
      rw [clampLen_eq]
      exact (beginTransfer_in0 rfl _ _ false).trans (if_pos hLegal)
    rw [if_neg hw]
    exact (if_pos hw).trans (congrArg (fun r => (Answer.ok, r.2)) hBegin)

/-- With `wLength = 0` the request is acknowledged at once (spec/42_control_transfer.md R179). -/
theorem exec_poll_noData (hw : p.wLength = 0) :
    exec .poll s = .next { v with
      acts := s.acts ++ [.rxRelease 0x00, .dataEnd], ctlOpen := false, result := 0 } := by
  have hActs : v.acts ++ [.dataEnd] = s.acts ++ [.rxRelease 0x00, .dataEnd] := by
    rw [hv]
    exact List.append_assoc _ _ _
  rw [exec_poll_acknowledged h.arrived ((h.dispatch_eq hv).trans (by rw [if_pos hw])) hw, hActs]

variable (hw : p.wLength ≠ 0) {n chunk : Nat} (hn : n = min src.len.toNat p.wLength.toNat)
  (hChunk : chunk = min n s.cfg.mps0) {bytes : Packet}
  (hBytes : bytes = memReadBytes v (src.addr.toNat % 2 ^ s.cfg.addrW) chunk)

include hw hn in
/-- Otherwise the EP0 IN service sends the first packet (spec/42_control_transfer.md R182). -/
theorem exec_poll_data : exec .poll s = .next { serviceEp0In (v.sending src.addr.toNat n) with result := 0 } := by
  subst hv hn
  exact exec_poll_armed h.arrived ((h.dispatch_eq rfl).trans (by rw [if_neg hw])) hw h.dir rfl rfl rfl

include hw hn hChunk hBytes

/-- A first packet of MPS0 bytes: EP0 stays Transmitting. -/
theorem exec_poll_full (hFull : chunk = s.cfg.mps0) :
    exec .poll s = .next { v with
      ep0 := ⟨.transmitting, wrapAddr s.cfg (src.addr.toNat + chunk), BitVec.ofNat 16 n, BitVec.ofNat 16 (n - chunk),
        false, false, false⟩
      tx0 := some bytes
      acts := s.acts ++ [.rxRelease 0x00, .commit 0x80 bytes]
      result := 0 } := by
  obtain ⟨-, -, hTx, hStage⟩ := id h.arrived
  have hSize : n < 2 ^ 16 := by have := p.wLength.isLt; omega
  have hFits : s.cfg.mps0 ≤ n := by omega
  have hPoll := h.exec_poll_data hv hw hn
  subst hv hFull
  rw [serviceEp0In_sending_full (v := (accepted p s).afterSelect m product draws)
    h.legal hTx hStage hSize hFits hBytes] at hPoll
  rw [hPoll]
  simp [State.afterSelect, accepted]

/-- A shorter first packet: it ends the data stage. -/
theorem exec_poll_short (hShort : chunk < s.cfg.mps0) :
    exec .poll s = .next { v with
      ep0 := ⟨.idle, wrapAddr s.cfg (src.addr.toNat + chunk), BitVec.ofNat 16 n, 0, false, false, false⟩
      tx0 := some bytes
      ctlOpen := false
      acts := s.acts ++ [.rxRelease 0x00, .commit 0x80 bytes, .dataEnd]
      result := 0 } := by
  obtain ⟨-, -, hTx, hStage⟩ := id h.arrived
  have hSize : n < 2 ^ 16 := by have := p.wLength.isLt; omega
  have hAll : chunk = n := by omega
  have hPoll := h.exec_poll_data hv hw hn
  subst hv hAll
  rw [serviceEp0In_sending_last (v := (accepted p s).afterSelect m product draws)
    h.legal hTx hStage hSize hShort hBytes] at hPoll
  rw [hPoll]
  simp [State.afterSelect, accepted]

end

/-- Whatever is sent, memory is as the selection left it. -/
theorem exists_next {p : Setup} {s : State} {src : DescLoc} {m : Memory} {product : List (Option DescLoc)} {draws : Nat}
    (h : DescriptorAsked p s src m product draws) : ∃ t, exec .poll s = .next t ∧ t.mem = m ∧ t.cfg = s.cfg := by
  by_cases hw : p.wLength = 0
  · exact ⟨_, h.exec_poll_noData rfl hw, rfl, rfl⟩
  · rcases (Nat.min_le_right (min src.len.toNat p.wLength.toNat) s.cfg.mps0).lt_or_eq with hShort | hFull
    · exact ⟨_, h.exec_poll_short rfl hw rfl rfl rfl hShort, rfl, rfl⟩
    · exact ⟨_, h.exec_poll_full rfl hw rfl rfl rfl hFull, rfl, rfl⟩

end DescriptorAsked

end Sys2Proof.Machine

namespace Sys2Proof.Proofs

open Sys2Proof Sys2Proof.Machine

/-- Settles O33: the descriptor is the one that `select` finds, and it is answered as every descriptor is
(`DescriptorAsked`). -/
theorem pollAnswersGetDescriptor : Obligations.PollAnswersGetDescriptor := by
  unfold Obligations.PollAnswersGetDescriptor
  intro s p src product m n chunk bytes hLegal hHook h ht hr hd hRec hSel hn hChunk hBytes
  have hSelect : select p.b3 p.b2 (accepted p s)
      = (some (locate s.cfg src), (accepted p s).afterSelect s.mem product m) := by
    obtain ⟨rfl, rfl, ⟨hv, rfl⟩ | ⟨hv, rfl⟩ | ⟨hb3, hb2, hb2', hStr⟩⟩ | ⟨hv, a, hDraw, ha⟩ := hSel
    · exact (select_of_wValue hv _).trans (select_device _)
    · exact (select_of_wValue hv _).trans (select_configuration _)
    · rw [hb3]
      exact select_string (s := accepted p s) hb2 hb2' hStr
    · exact (select_of_wValue hv _).trans (select_product (s := accepted p s) hDraw ha)
  have hAsked : DescriptorAsked p s src s.mem product m := ⟨hLegal, hHook, h, ht, hr, hd, hRec, hSelect⟩
  have hBytes' : bytes = memReadBytes ((accepted p s).afterSelect s.mem product m)
      (src.addr.toNat % 2 ^ s.cfg.addrW) chunk := by
    rw [hBytes]
    exact (memReadBytes_congr (s := s) (t := (accepted p s).afterSelect s.mem product m) rfl rfl rfl chunk).symm
  exact ⟨hAsked.exec_poll_noData rfl, fun hw => hAsked.exec_poll_full rfl hw hn hChunk hBytes',
    fun hw => hAsked.exec_poll_short rfl hw hn hChunk hBytes'⟩

end Sys2Proof.Proofs
end

section
/-! PROOFS. The serial number's descriptor (spec/43_request_dispatch.md R224): its bytes, and what memory holds once
they are written at SERIAL_BUF; O34. -/

namespace Sys2Proof.Machine

open Sys2Proof

/-! ### The bytes of the descriptor -/

/-- The two UTF-16 characters of a byte of the UID. -/
def uidChars (u : Byte) : Packet := [hexDigit (u.extractLsb' 4 4), 0x00, hexDigit (u.extractLsb' 0 4), 0x00]

/-- Where the pieces have one length, each place of the whole is a place of one piece. -/
theorem flatMap_getElem?_of_length {α β : Type} {f : α → List β} {w : Nat} (hf : ∀ x, (f x).length = w)
    {l : List α} {k : Nat} {x : α} (h : l[k]? = some x) {j : Nat} (hj : j < w) :
    (l.flatMap f)[w * k + j]? = (f x)[j]? := by
  induction l generalizing k with
  | nil => simp at h
  | cons y l ih =>
    rw [List.flatMap_cons]
    cases k with
    | zero =>
      obtain rfl : y = x := by simpa using h
      rw [Nat.mul_zero, Nat.zero_add, List.getElem?_append_left ((hf y).symm ▸ hj)]
    | succ k =>
      have hTail : l[k]? = some x := by simpa using h
      have hSkip : w * (k + 1) + j - (f y).length = w * k + j := by rw [hf, Nat.mul_succ]; omega
      rw [List.getElem?_append_right (by rw [hf, Nat.mul_succ]; omega), hSkip, ih hTail]

/-- The characters of byte `k` of the UID in the descriptor. -/
theorem serialBytes_char {c : Config} {k : Nat} {u : Byte} (h : c.uid[k]? = some u) {j : Nat} (hj : j < 4) :
    (serialBytes c)[2 + 4 * k + j]? = (uidChars u)[j]? := by
  have hChars : (c.uid.flatMap uidChars)[4 * k + j]? = (uidChars u)[j]? :=
    flatMap_getElem?_of_length (f := uidChars) (fun _ => rfl) h hj
  have hPlace : 2 + 4 * k + j = (4 * k + j) + 1 + 1 := by omega
  rw [hPlace, ← hChars]
  rfl

/-- The descriptor of a legal configuration is shorter than any memory. -/
theorem legal_serialLen_lt {c : Config} (h : c.legal = true) : serialLen c < 256 ∧ 256 ≤ 2 ^ c.addrW := by
  simp only [Config.legal, Bool.and_eq_true, decide_eq_true_eq] at h
  have hWidth : 8 ≤ c.addrW := by omega
  exact ⟨by unfold serialLen; omega, Nat.pow_le_pow_right (n := 2) (by decide) hWidth⟩

/-! ### Memory after the descriptor was written -/

/-- The memory after `serial()` (R224). -/
def State.serialWritten (s : State) : Memory := (memWriteBytes s s.cfg.serialBuf.toNat (serialBytes s.cfg)).mem

section

variable {s : State}

/-- Each byte of the descriptor stands at its place. -/
theorem State.serialWritten_read (hLegal : s.cfg.legal = true) (hm : Memory.wf s.mem) {i : Nat} {b : Byte}
    (h : (serialBytes s.cfg)[i]? = some b) :
    s.serialWritten.read ((s.cfg.serialBuf.toNat + i) % 2 ^ s.cfg.addrW) = b := by
  obtain ⟨hi, rfl⟩ := List.getElem?_eq_some_iff.1 h
  obtain ⟨hLen, hRoom⟩ := legal_serialLen_lt hLegal
  have hSize : (serialBytes s.cfg).length = serialLen s.cfg := serialBytes_length s.cfg
  exact memWriteBytes_read_same hm hi (by omega)

/-- No other byte changes. -/
theorem State.serialWritten_read_other {a : Nat}
    (h : ∀ i, i < 4 * s.cfg.uid.length + 2 → a ≠ (s.cfg.serialBuf.toNat + i) % 2 ^ s.cfg.addrW) :
    s.serialWritten.read a = s.mem.read a :=
  memWriteBytes_read_other fun i hi => h i (serialBytes_length s.cfg ▸ hi)

/-- The serial number is written at SERIAL_BUF when it is selected (R222). -/
theorem select_serial :
    select 3 3 s = (some (locate s.cfg ⟨s.cfg.serialBuf, BitVec.ofNat 16 (serialLen s.cfg)⟩),
      s.afterSelect s.serialWritten s.productIn s.draws) :=
  congrArg (Prod.mk _) (memWriteBytes_eq s _ _)

end

end Sys2Proof.Machine

namespace Sys2Proof.Proofs

open Sys2Proof Sys2Proof.Machine

/-- Settles O34: `select` writes the descriptor (`State.serialWritten`), and it is answered as every descriptor is
(`DescriptorAsked`). -/
theorem pollSynthesizesTheSerialNumber : Obligations.PollSynthesizesTheSerialNumber := by
  unfold Obligations.PollSynthesizesTheSerialNumber
  rintro s p hex base n chunk hLegal hHook hm h ht hr hd hRec hv hHex rfl hn hChunk
  obtain rfl : hex = hexDigit := funext hHex
  have hAsked : DescriptorAsked p s ⟨s.cfg.serialBuf, BitVec.ofNat 16 (serialLen s.cfg)⟩
      (accepted p s).serialWritten s.productIn s.draws :=
    ⟨hLegal, hHook, h, ht, hr, hd, hRec, (select_of_wValue hv _).trans select_serial⟩
  obtain ⟨t, hPoll, hMem, hCfg⟩ := hAsked.exists_next
  have hNext {u : State} (hu : exec .poll s = .next u) : t = u := Host.Outcome.next.inj (hPoll.symm.trans hu)
  have hRead {i : Nat} {b : Byte} (hi : (serialBytes s.cfg)[i]? = some b) :
      memRead t (s.cfg.serialBuf.toNat + i) = b := by
    rw [memRead, hMem, hCfg]
    exact State.serialWritten_read (s := accepted p s) hLegal hm hi
  have hLen : n = min (BitVec.ofNat 16 (serialLen s.cfg)).toNat p.wLength.toNat := by
    have hSmall := (legal_serialLen_lt hLegal).1
    rw [BitVec.toNat_ofNat, Nat.mod_eq_of_lt (by omega)]
    exact hn
  have hBytes : memReadBytes t s.cfg.serialBuf.toNat chunk
      = memReadBytes ((accepted p s).afterSelect (accepted p s).serialWritten s.productIn s.draws)
        (s.cfg.serialBuf.toNat % 2 ^ s.cfg.addrW) chunk :=
    memReadBytes_congr (t := t)
      (s := (accepted p s).afterSelect (accepted p s).serialWritten s.productIn s.draws) hMem hCfg
      (Nat.mod_mod _ _).symm chunk
  refine ⟨t, hPoll, hRead (i := 0) rfl, hRead (i := 1) rfl, fun k u hu => ?_, fun a ha => ?_, fun hw => ?_,
    fun hw hFull => ?_, fun hw hShort => ?_⟩
  · have hChar {j : Nat} {b : Byte} (hj : j < 4) (hb : (uidChars u)[j]? = some b) :
        memRead t (s.cfg.serialBuf.toNat + 2 + 4 * k + j) = b := by
      have := hRead ((serialBytes_char hu hj).trans hb)
      rwa [← Nat.add_assoc, ← Nat.add_assoc] at this
    exact ⟨hChar (j := 0) (by decide) rfl, hChar (by decide) rfl, hChar (by decide) rfl, hChar (by decide) rfl⟩
  · rw [hMem]
    exact State.serialWritten_read_other (s := accepted p s) ha
  · rw [hMem]
    exact hNext (hAsked.exec_poll_noData rfl hw)
  · rw [hMem]
    exact hNext (hAsked.exec_poll_full rfl hw hLen hChunk hBytes hFull)
  · rw [hMem]
    exact hNext (hAsked.exec_poll_short rfl hw hLen hChunk hBytes hShort)

end Sys2Proof.Proofs
end

section
/-! PROOFS. POLL with only latches of data endpoints pending (spec/46_events_and_service.md R315, R319), the stall-sent
latches (spec/44_data_endpoints.md R258, spec/46_events_and_service.md R310), and O25. -/

namespace Sys2Proof.Machine

open Sys2Proof

/-- With no latch set but those of data endpoints, POLL is the data endpoints' service steps. -/
theorem exec_poll_of_data {s u : State} (hLat : s.lat = Latches.none) (hIsr : s.cfg.hookIsr = false)
    (h : serviceData s = u) (hKept : u.lat = s.lat) : exec .poll s = .next { u with result := 0 } := by
  have hControl : serviceControl s = s := by apply serviceControl_none <;> rw [hLat] <;> rfl
  have hNoSof : u.lat.sof = false := by rw [hKept, hLat]; rfl
  have hService : service s = u := by
    rw [service_off hIsr, serviceBody, hControl, h, serviceWhen_false serviceSof hNoSof]
  simp only [exec, execPoll, hService, setResult_ok]

/-- With no packet latch set, the data endpoints' service steps clear the stall-sent latches (R258). -/
theorem serviceData_of_noPacketLatch {s : State} (h : ∀ d ∈ s.deps, d.latch = false) :
    serviceData s = serviceDataStalls s := by
  simp only [serviceData, serviceEach_noop fun k _ => latchOf_false h k]

/-- An event that has a step was admitted, and the step is its effect (R300). -/
theorem deliver_eq_next_iff {admitted : Bool} {s t : State} :
    deliver admitted s = .next t ↔ admitted = true ∧ s = t := by
  cases admitted <;> simp [deliver]

/-- EV_SENTSTALL on EP0 (R310). -/
theorem exec_evSentStall_ep0 {s : State} {epa : Byte} (hl : lookup s epa = some .ep0) :
    exec (.evSentStall epa) s =
      deliver (busLive s && s.ep0Stall) { s with lat := { s.lat with ep0SentStall := true } } := by
  simp only [exec, execEvSentStall, hl]

/-- EV_SENTSTALL on a data endpoint (R310). -/
theorem exec_evSentStall_data {s : State} {epa : Byte} {k : Nat} {d : DataEp} (hl : lookup s epa = some (.data k d)) :
    exec (.evSentStall epa) s =
      deliver (busLive s && d.active && d.desc.type != .isochronous)
        { s with deps := s.deps.set k { d with stall := true } } := by
  simp only [exec, execEvSentStall, hl, State.modifyEp, modify_eq_set (lookup_data hl).1]

end Sys2Proof.Machine

namespace Sys2Proof.Proofs

open Sys2Proof Sys2Proof.Machine

/-- Settles O25: POLL is `serviceDataStalls` when no packet latch is set; EV_SENTSTALL is one `deliver` for each kind of
endpoint, and an address that names none has no step. -/
theorem sentStallIsLatched : Obligations.SentStallIsLatched := by
  unfold Obligations.SentStallIsLatched
  refine ⟨fun s hLat hIsr hLatch => exec_poll_of_data hLat hIsr (serviceData_of_noPacketLatch hLatch) rfl,
    fun s epa => ⟨fun hl ⟨hLive, hStall⟩ => ?_, fun k d hl ⟨hLive, hActive, hType⟩ => ?_, fun t ht => ?_⟩⟩
  · rw [exec_evSentStall_ep0 hl, deliver_eq_next_iff]
    simp [hLive, hStall]
  · rw [exec_evSentStall_data hl, deliver_eq_next_iff]
    simp [hLive, hActive, hType]
  · cases hl : lookup s epa with
    | none => simp [exec, execEvSentStall, hl] at ht
    | some e =>
      cases e with
      | ep0 =>
        rw [exec_evSentStall_ep0 hl, deliver_eq_next_iff, Bool.and_eq_true] at ht
        obtain ⟨⟨hLive, hStall⟩, -⟩ := ht
        exact ⟨hLive, .inl ⟨rfl, hStall⟩⟩
      | data k d =>
        rw [exec_evSentStall_data hl, deliver_eq_next_iff, Bool.and_eq_true, Bool.and_eq_true, bne_iff_ne] at ht
        obtain ⟨⟨⟨hLive, hActive⟩, hType⟩, -⟩ := ht
        exact ⟨hLive, .inr ⟨k, d, rfl, hActive, hType⟩⟩

end Sys2Proof.Proofs
end

section
/-! PROOFS. The data IN and OUT services (spec/44_data_endpoints.md R251 to R257), case by case as one update of the
state each; POLL with one packet latch pending is one of the two; and O40, O41 and O42. -/

namespace Sys2Proof.Machine

open Sys2Proof

/-! ### The table of a legal configuration -/

section

variable {s : State} (hShape : TableShape s) (hLegal : s.cfg.legal = true) {k : Nat} {d : DataEp}
  (hd : s.deps[k]? = some d)

include hShape hLegal

/-- No two endpoints of the table share number and direction. -/
theorem TableShape.nodup : (s.deps.map (fun d => (d.desc.num, d.desc.dir))).Nodup := by
  have hNodup := (legal_eps hLegal).1
  have hDescs : s.deps.map DataEp.desc = s.cfg.eps := hShape
  rwa [← hDescs, List.map_map] at hNodup

include hd

theorem TableShape.num_ne_zero : d.desc.num ≠ 0 :=
  (legal_eps hLegal).2 _ (hShape ▸ List.mem_map_of_mem (List.mem_of_getElem? hd))

/-- The sequencer serves every endpoint of the table in the turn of its direction (R315). -/
theorem TableShape.mem_epOrder : k ∈ epOrder d.desc.dir s.deps := by
  have hNum := hShape.num_ne_zero hLegal hd
  have hPos : d.desc.num.toNat ≠ 0 := fun h => hNum (BitVec.eq_of_toNat_eq h)
  have hFind := findEp_of_getElem (hShape.nodup hLegal) hd
  refine List.mem_filterMap.2 ⟨d.desc.num.toNat, List.mem_range'_1.2 (by omega), ?_⟩
  rw [BitVec.ofNat_toNat, BitVec.setWidth_eq, hFind, Option.map_some]

/-- The address of an endpoint of the table names it (spec/10_state.md R37). -/
theorem TableShape.lookup_eq : lookup s (epaOf d.desc) = some (.data k d) :=
  lookup_epaOf (hShape.nodup hLegal) hd (hShape.num_ne_zero hLegal hd)

end

/-- No endpoint is served twice in one turn (R315): two places differ in their number. -/
theorem epOrder_nodup (dir : Dir) (ds : List DataEp) : (epOrder dir ds).Nodup := by
  have hNums : (List.range' 1 15).Pairwise (fun m n => BitVec.ofNat 4 m ≠ BitVec.ofNat 4 n) := by decide
  refine List.pairwise_filterMap.2 (hNums.imp fun {m n} hne i hi j hj hij => hne ?_)
  obtain ⟨p, hp, rfl⟩ := Option.map_eq_some_iff.1 hi
  obtain ⟨q, hq, rfl⟩ := Option.map_eq_some_iff.1 hj
  obtain ⟨hpk, hpn, -⟩ := findEp_some hp
  obtain ⟨hqk, hqn, -⟩ := findEp_some hq
  rw [hij, hqk] at hpk
  rw [← hpn, ← hqn, Option.some.inj hpk]

/-! ### Changes of one place -/

theorem getElem?_set_same {ds : List DataEp} {k : Nat} {d : DataEp} (hd : ds[k]? = some d) (e : DataEp) :
    (ds.set k e)[k]? = some e :=
  List.getElem?_set_self (List.getElem?_eq_some_iff.1 hd).1

/-- A place of a table in which place `k` was set: it is `k`, or it is as before. -/
theorem getElem?_set_cases {ds : List DataEp} {k j : Nat} {d e x : DataEp} (hd : ds[k]? = some d)
    (hx : (ds.set k e)[j]? = some x) : (j = k ∧ x = e) ∨ (j ≠ k ∧ ds[j]? = some x) := by
  by_cases hjk : j = k
  · rw [hjk, getElem?_set_same hd] at hx
    exact .inl ⟨hjk, (Option.some.inj hx).symm⟩
  · rw [List.getElem?_set_ne (Ne.symm hjk)] at hx
    exact .inr ⟨hjk, hx⟩

section

variable (s : State) (k : Nat) (f : DataEp → DataEp)

/-- A notification does not read the table. -/
theorem notify_modifyEp (r : Record) : (notify r s).modifyEp k f = notify r (s.modifyEp k f) :=
  apply_ite (fun t : State => t.modifyEp k f) (s.nq.length < s.cfg.nqDepth) _ _

theorem notifyIf_modifyEp (b : Bool) (r : Record) : (notifyIf b r s).modifyEp k f = notifyIf b r (s.modifyEp k f) := by
  cases b
  · rfl
  · exact notify_modifyEp s k f r

/-- A write of memory does not read the table. -/
theorem memWriteBytes_modifyEp (a : Nat) (p : Packet) :
    memWriteBytes (s.modifyEp k f) a p = (memWriteBytes s a p).modifyEp k f := by
  induction p generalizing s a with
  | nil => rfl
  | cons b p ih => exact ih (memWrite s a b) (a + 1)

end

section

variable {s : State} {k : Nat} {d : DataEp} (hd : s.deps[k]? = some d)

include hd

theorem withEp_eq (f : DataEp → State → State) : withEp k f s = f d s := by
  rw [withEp, hd]

theorem modifyEp_eq (f : DataEp → DataEp) : s.modifyEp k f = { s with deps := s.deps.set k (f d) } := by
  rw [State.modifyEp, modify_eq_set hd]

/-- A data transfer completes: the endpoint is Idle, and XFER_DONE is pushed when it was asked for (R257). -/
theorem completeData_set (e : DataEp) :
    completeData k { s with deps := s.deps.set k e } =
      notifyIf e.ep.cb ⟨.xferDone, epaOf e.desc, 0, 0, e.ep.moved, e.ep.rem⟩
        { s with deps := s.deps.set k { e with ep := e.ep.completed } } := by
  have he : (s.deps.set k e)[k]? = some e := getElem?_set_same hd e
  rw [completeData, withEp_eq (s := { s with deps := s.deps.set k e }) he, State.modifyRec, notifyIf_modifyEp,
    modifyEp_eq (s := { s with deps := s.deps.set k e }) he, List.set_set]

/-! ### Data IN (R251, R252) -/

/-- A latch that finds the endpoint not Transmitting, or its packet still waiting. -/
theorem serviceDataIn_stale (h : d.ep.state ≠ .transmitting ∨ d.pkt ≠ none) :
    serviceDataIn k s = { s with deps := s.deps.set k { d with latch := false } } := by
  rw [serviceDataIn, withEp_eq hd]
  exact (if_pos h).trans (modifyEp_eq hd _)

/-- Bytes are left: the next packet is committed. -/
theorem serviceDataIn_send (hState : d.ep.state = .transmitting) (hPkt : d.pkt = none) (hRem : d.ep.rem ≠ 0) {n : Nat}
    {bytes : Packet} (hn : n = min d.desc.mps d.ep.rem.toNat) (hb : bytes = memReadBytes s d.ep.buf.toNat n) :
    serviceDataIn k s = { s with
      deps := s.deps.set k { d with latch := false, pkt := some bytes, ep := d.ep.advance s.cfg n }
      acts := s.acts ++ [.commit (epaOf d.desc) bytes] } := by
  have hCopy : copyIn (s.modifyEp k DataEp.clearLatch) d.ep n = bytes :=
    hb ▸ memReadBytes_congr (s := s) (t := s.modifyEp k DataEp.clearLatch) rfl rfl rfl n
  rw [serviceDataIn, withEp_eq hd]
  dsimp only
  rw [if_neg (by simp [hState, hPkt]), if_pos hRem, ← hn, hCopy]
  change act _ (((s.modifyEp k _).modifyEp k _).modifyEp k _) = _
  rw [modifyEp_modifyEp, modifyEp_modifyEp, modifyEp_eq hd]
  rfl

/-- No byte is left: the transfer completes, and no packet is sent (R252). -/
theorem serviceDataIn_done (hState : d.ep.state = .transmitting) (hPkt : d.pkt = none) (hRem : d.ep.rem = 0) :
    serviceDataIn k s = notifyIf d.ep.cb ⟨.xferDone, epaOf d.desc, 0, 0, d.ep.len, 0⟩
      { s with deps := s.deps.set k { d with latch := false, ep := d.ep.completed } } := by
  have hMoved : d.ep.moved = d.ep.len := by simp [EpRec.moved, hRem]
  rw [serviceDataIn, withEp_eq hd]
  dsimp only
  rw [if_neg (by simp [hState, hPkt]), if_neg (by simp [hRem]), modifyEp_eq hd, completeData_set hd, ← hMoved, ← hRem]
  rfl

/-! ### Data OUT (R254 to R256) -/

/-- A latch that finds no packet. -/
theorem serviceDataOut_stale (hPkt : d.pkt = none) :
    serviceDataOut k s = { s with deps := s.deps.set k { d with latch := false } } := by
  have hNone : serviceDataOut k s = s.modifyEp k DataEp.clearLatch := by rw [serviceDataOut, withEp_eq hd, hPkt]
  exact hNone.trans (modifyEp_eq hd _)

end

section

variable {s : State} {k : Nat} {d : DataEp} {q : Packet} (hd : s.deps[k]? = some d) (hPkt : d.pkt = some q)

include hd hPkt

/-- What the service does with a packet, by the endpoint's state and by what is left of its transfer. -/
theorem serviceDataOut_packet :
    serviceDataOut k s =
      if d.ep.state ≠ .receiving then
        notify (xferError (epaOf d.desc) .endpointError 0 q.length)
          (s.modifyEp k (fun x => { x.clearLatch with ep := x.ep.hold }))
      else if d.ep.rem.toNat < q.length then
        notify (xferError (epaOf d.desc) .rxBufferOverrun d.ep.moved q.length)
          (s.modifyEp k (fun x => { x.clearLatch with ep := x.ep.overrun }))
      else dataReceive k d q (s.modifyEp k DataEp.clearLatch) := by
  rw [serviceDataOut, withEp_eq hd, hPkt]
  simp only [State.modifyRec, modifyEp_modifyEp]
  rfl

/-- A packet that no transfer expects is held (R254). -/
theorem serviceDataOut_unexpected (h : d.ep.state ≠ .receiving) :
    serviceDataOut k s = notify (xferError (epaOf d.desc) .endpointError 0 q.length)
      { s with deps := s.deps.set k { d with latch := false, ep := d.ep.hold } } := by
  rw [serviceDataOut_packet hd hPkt, if_pos h, modifyEp_eq hd]
  rfl

/-- A packet longer than what is left is held, and the transfer is aborted (R255). -/
theorem serviceDataOut_overrun (h : d.ep.state = .receiving) (hq : d.ep.rem.toNat < q.length) :
    serviceDataOut k s = notify (xferError (epaOf d.desc) .rxBufferOverrun d.ep.moved q.length)
      { s with deps := s.deps.set k { d with latch := false, ep := d.ep.overrun } } := by
  rw [serviceDataOut_packet hd hPkt, if_neg (not_not.2 h), if_pos hq, modifyEp_eq hd]
  rfl

/-- The bytes of a packet are written to memory, and the packet is released to the SIE; the table is not changed yet
(R256). -/
def State.drainedBy (s : State) (d : DataEp) (q : Packet) : State :=
  { s with mem := (memWriteBytes s d.ep.buf.toNat q).mem, acts := s.acts ++ [.rxRelease (epaOf d.desc)] }

/-- A packet that fits is received, which leaves the record `r`; the transfer completes when no byte is left or the
packet is short (R256). -/
theorem serviceDataOut_fits (h : d.ep.state = .receiving) (hq : q.length ≤ d.ep.rem.toNat) {r : EpRec}
    (hr : r = d.ep.advance s.cfg q.length) :
    serviceDataOut k s =
      if d.ep.rem.toNat = q.length ∨ q.length < d.desc.mps then
        notifyIf r.cb ⟨.xferDone, epaOf d.desc, 0, 0, r.moved, r.rem⟩
          { s.drainedBy d q with deps := s.deps.set k { d with latch := false, pkt := none, ep := r.completed } }
      else { s.drainedBy d q with deps := s.deps.set k { d with latch := false, pkt := none, ep := r } } := by
  have hd' : (s.drainedBy d q).deps[k]? = some d := hd
  have hDrained : (releaseRx k d (copyOut d.ep q (s.modifyEp k DataEp.clearLatch))).modifyRec k
      (fun x => x.advance s.cfg q.length)
        = { s.drainedBy d q with deps := s.deps.set k { d with latch := false, pkt := none, ep := r } } := by
    rw [copyOut, memWriteBytes_modifyEp, memWriteBytes_eq]
    change (((s.drainedBy d q).modifyEp k _).modifyEp k _).modifyEp k _ = _
    rw [modifyEp_modifyEp, modifyEp_modifyEp, modifyEp_eq hd', hr]
    rfl
  rw [serviceDataOut_packet hd hPkt, if_neg (not_not.2 h), if_neg (Nat.not_lt.2 hq), dataReceive, fifoRead,
    List.take_length]
  simp only [releaseRx, act_cfg, modifyEp_cfg, copyOut_cfg]
  rw [← releaseRx, hDrained]
  exact if_congr Iff.rfl (completeData_set hd' _) rfl

end

/-! ### POLL with one packet latch -/

/-- A step that serves place `k` of the table: its packet latch is cleared, and no other place and no latch changes. -/
structure Serves (k : Nat) (s t : State) : Prop where
  lat   : t.lat = s.lat
  place : ∀ d, s.deps[k]? = some d → ∃ e, t.deps = s.deps.set k e ∧ e.latch = false ∧ e.stall = d.stall

section

variable {s t : State} {k : Nat} {d : DataEp}

theorem Serves.of_set (hd : s.deps[k]? = some d) (hLat : t.lat = s.lat) {e : DataEp} (hDeps : t.deps = s.deps.set k e)
    (hLatch : e.latch = false) (hStall : e.stall = d.stall) : Serves k s t :=
  ⟨hLat, fun x hx => ⟨e, hDeps, hLatch, by rw [hStall, Option.some.inj (hd.symm.trans hx)]⟩⟩

theorem serviceDataIn_serves (hd : s.deps[k]? = some d) : Serves k s (serviceDataIn k s) := by
  by_cases h : d.ep.state ≠ .transmitting ∨ d.pkt ≠ none
  · rw [serviceDataIn_stale hd h]
    exact .of_set hd rfl rfl rfl rfl
  · obtain ⟨hState, hPkt⟩ := not_or.1 h
    by_cases hRem : d.ep.rem = 0
    · rw [serviceDataIn_done hd (not_not.1 hState) (not_not.1 hPkt) hRem]
      exact .of_set hd (notifyIf_lat ..) (notifyIf_deps ..) rfl rfl
    · rw [serviceDataIn_send hd (not_not.1 hState) (not_not.1 hPkt) hRem rfl rfl]
      exact .of_set hd rfl rfl rfl rfl

theorem serviceDataOut_serves (hd : s.deps[k]? = some d) : Serves k s (serviceDataOut k s) := by
  cases hPkt : d.pkt with
  | none =>
    rw [serviceDataOut_stale hd hPkt]
    exact .of_set hd rfl rfl rfl rfl
  | some q =>
    by_cases h : d.ep.state = .receiving
    · by_cases hq : d.ep.rem.toNat < q.length
      · rw [serviceDataOut_overrun hd hPkt h hq]
        exact .of_set hd (notify_lat ..) (notify_deps ..) rfl rfl
      · rw [serviceDataOut_fits hd hPkt h (Nat.not_lt.1 hq) rfl]
        split
        · exact .of_set hd (notifyIf_lat ..) (notifyIf_deps ..) rfl rfl
        · exact .of_set hd rfl rfl rfl rfl
    · rw [serviceDataOut_unexpected hd hPkt h]
      exact .of_set hd (notify_lat ..) (notify_deps ..) rfl rfl

/-- When the one packet latch that is set has been served, none is. -/
theorem Serves.quiet (h : Serves k s t) (hs : OnlyDataLatch k s) (hd : s.deps[k]? = some d) : Quiet t.deps := by
  obtain ⟨-, -, hStall, hLatch⟩ := hs
  obtain ⟨e, hDeps, heLatch, heStall⟩ := h.place d hd
  rw [hDeps]
  intro x hx
  obtain ⟨j, hj⟩ := List.mem_iff_getElem?.1 hx
  rcases getElem?_set_cases hd hj with ⟨-, rfl⟩ | ⟨hjk, hj⟩
  · exact ⟨heLatch, heStall.trans (hStall d (List.mem_of_getElem? hd))⟩
  · exact ⟨Bool.eq_false_iff.2 fun hl => hjk ((hLatch j x hj).1 hl), hStall x (List.mem_of_getElem? hj)⟩

/-- Among places of which one has its packet latch set, that one is served. -/
theorem OnlyDataLatch.serviceEach_eq (hs : OnlyDataLatch k s) (hd : s.deps[k]? = some d) {f : Nat → State → State}
    (hf : Serves k s (f k s)) {ks : List Nat} (hk : k ∈ ks) (hNodup : ks.Nodup) :
    serviceEach f ks s = f k s := by
  have hQuiet := hf.quiet hs hd
  refine serviceEach_single hk hNodup (fun j => ?_) fun j _ _ => latchOf_false (fun x hx => (hQuiet x hx).1) j
  obtain ⟨-, -, -, hLatch⟩ := hs
  cases hj : s.deps[j]? with
  | none =>
    have hjk : j ≠ k := fun e => by simp [e, hd] at hj
    simp [latchOf, hj, hjk]
  | some x => rw [latchOf_eq hj, hLatch j x hj]

end

section

variable {s : State} {k : Nat} {d : DataEp} (hLegal : s.cfg.legal = true) (hShape : TableShape s)
  (hs : OnlyDataLatch k s) (hd : s.deps[k]? = some d)

include hLegal hShape hs hd

/-- With the latch of one OUT endpoint set, POLL is its service. -/
theorem exec_poll_dataOut (hDir : d.desc.dir = .out) :
    exec .poll s = .next { serviceDataOut k s with result := 0 } := by
  have hf := serviceDataOut_serves hd
  have hQuiet := hf.quiet hs hd
  have hOut : serviceEach serviceDataOut (epOrder .out s.deps) s = serviceDataOut k s :=
    hs.serviceEach_eq hd hf (hDir ▸ hShape.mem_epOrder hLegal hd) (epOrder_nodup _ _)
  have hData : serviceData s = serviceData (serviceDataOut k s) := by
    simp only [serviceData, hOut, serviceEach_noop fun j _ => latchOf_false (fun x hx => (hQuiet x hx).1) j]
  obtain ⟨hLat, hIsr, -⟩ := hs
  exact exec_poll_of_data hLat hIsr (hData.trans (serviceData_noop hQuiet)) hf.lat

/-- With the latch of one IN endpoint set, POLL is its service: no OUT endpoint has one. -/
theorem exec_poll_dataIn (hDir : d.desc.dir = .in) :
    exec .poll s = .next { serviceDataIn k s with result := 0 } := by
  have hf := serviceDataIn_serves hd
  have hQuiet := hf.quiet hs hd
  have hNoOut : ∀ j ∈ epOrder .out s.deps, latchOf j s = false := fun j hj => by
    obtain ⟨x, hx, hxDir⟩ := mem_epOrder hj
    rw [latchOf_eq hx, Bool.eq_false_iff]
    intro hl
    obtain ⟨-, -, -, hLatch⟩ := hs
    obtain rfl := (hLatch j x hx).1 hl
    obtain rfl := Option.some.inj (hd.symm.trans hx)
    exact absurd (hDir.symm.trans hxDir) nofun
  have hIn : serviceEach serviceDataIn (epOrder .in s.deps) s = serviceDataIn k s :=
    hs.serviceEach_eq hd hf (hDir ▸ hShape.mem_epOrder hLegal hd) (epOrder_nodup _ _)
  have hData : serviceData s = serviceData (serviceDataIn k s) := by
    simp only [serviceData, serviceEach_noop hNoOut, hIn,
      serviceEach_noop fun j _ => latchOf_false (fun x hx => (hQuiet x hx).1) j]
  obtain ⟨hLat, hIsr, -⟩ := hs
  exact exec_poll_of_data hLat hIsr (hData.trans (serviceData_noop hQuiet)) hf.lat

end

end Sys2Proof.Machine

namespace Sys2Proof.Proofs

open Sys2Proof Sys2Proof.Machine

/-- Settles O40: POLL is the data IN service (`exec_poll_dataIn`), which is one of its three cases. -/
theorem pollSendsTheNextDataPacket : Obligations.PollSendsTheNextDataPacket := by
  unfold Obligations.PollSendsTheNextDataPacket
  intro s k d n bytes hLegal hShape hs hd hDir hn hb
  rw [exec_poll_dataIn hLegal hShape hs hd hDir]
  refine ⟨fun hStale => ?_, fun hState hPkt => ⟨fun hRem => ?_, fun hRem => ?_⟩⟩
  · rw [serviceDataIn_stale hd hStale]
  · have hle : n ≤ d.ep.rem.toNat := hn ▸ Nat.min_le_right _ _
    rw [serviceDataIn_send hd hState hPkt hRem hn hb, ← EpRec.rem_sub hle]
    rfl
  · rw [serviceDataIn_done hd hState hPkt hRem, notifyIf_result_comm]
    rfl

/-- Settles O41: POLL is the data OUT service (`exec_poll_dataOut`), in the cases that receive nothing. -/
theorem pollHoldsAnUnexpectedDataPacket : Obligations.PollHoldsAnUnexpectedDataPacket := by
  unfold Obligations.PollHoldsAnUnexpectedDataPacket
  intro s k d hLegal hShape hs hd hDir
  rw [exec_poll_dataOut hLegal hShape hs hd hDir]
  refine ⟨fun hPkt => ?_, fun q hPkt => ⟨fun hState => ?_, fun hState hLong => ?_⟩⟩
  · rw [serviceDataOut_stale hd hPkt]
  · rw [serviceDataOut_unexpected hd hPkt hState, notify_result_comm]
    rfl
  · rw [serviceDataOut_overrun hd hPkt hState hLong, notify_result_comm]
    rfl

/-- Settles O42: POLL is the data OUT service (`exec_poll_dataOut`) in the case that receives; memory is that of
`State.drainedBy`. -/
theorem pollReceivesADataPacket : Obligations.PollReceivesADataPacket := by
  unfold Obligations.PollReceivesADataPacket
  intro s k d q left r hLegal hShape hs hm hd hDir hPkt hState hq hLeft hr
  have hAdvance : r = d.ep.advance s.cfg q.length := by rw [hr, hLeft, ← EpRec.rem_sub hq]; rfl
  have hAll : left = 0 ↔ d.ep.rem.toNat = q.length := by
    have := d.ep.rem.isLt
    rw [hLeft]
    bv_omega
  rw [exec_poll_dataOut hLegal hShape hs hd hDir, serviceDataOut_fits hd hPkt hState hq hAdvance]
  refine ⟨(s.drainedBy d q).mem, fun i b hi hLast => memWriteBytes_read_last hm hi hLast,
    fun a ha => memWriteBytes_read_other ha, fun ⟨hMore, hFull⟩ => ?_, fun hEnd => ?_⟩
  · rw [if_neg (not_or.2 ⟨mt hAll.2 hMore, Nat.not_lt.2 hFull⟩)]
    rfl
  · rw [if_pos (hEnd.imp_left hAll.1), notifyIf_result_comm, hr]
    rfl

end Sys2Proof.Proofs
end

section
/-! PROOFS. A data IN transfer from its first packet to its completion (spec/44_data_endpoints.md R251 to R253), and
O60. -/

namespace Sys2Proof.Machine

open Sys2Proof

/-- The data endpoint `d` at place `k` transmits with its buffer empty, and its packet latch is the only one set. -/
structure DataSends (k : Nat) (d : DataEp) (s : State) : Prop where
  legal   : s.cfg.legal = true
  shape   : TableShape s
  latches : OnlyDataLatch k s
  live    : busLive s = true
  place   : s.deps[k]? = some d
  dirIn   : d.desc.dir = .in
  active  : d.active = true
  running : d.ep.state = .transmitting
  empty   : d.pkt = none

/-- Packet `i` of the transfer, as the host sees it (R251). -/
def dataPacket (d : DataEp) (s : State) (i : Nat) : Byte × Packet :=
  (epaOf d.desc, memReadBytes s (d.ep.buf.toNat + i * d.desc.mps) (min d.desc.mps (d.ep.rem.toNat - i * d.desc.mps)))

/-- The endpoint after its next packet was committed (R251). -/
def DataEp.packetSent (d : DataEp) (s : State) : DataEp :=
  { d with
    latch := false, pkt := some (dataPacket d s 0).2, ep := d.ep.advance s.cfg (min d.desc.mps d.ep.rem.toNat) }

/-- The state after POLL committed the next packet. -/
def State.dataPacketSent (s : State) (k : Nat) (d : DataEp) : State :=
  { s with
    deps := s.deps.set k (d.packetSent s)
    acts := s.acts ++ [.commit (epaOf d.desc) (dataPacket d s 0).2]
    result := 0 }

/-- The state after the host took that packet: the latch is set again. -/
def State.dataPacketTaken (s : State) (k : Nat) (d : DataEp) : State :=
  { s.dataPacketSent k d with
    deps := s.deps.set k (d.packetSent s).taken, hostIn := s.hostIn ++ [dataPacket d s 0] }

/-- `rem` counts down by a packet, the short one included. -/
theorem DataEp.packetTaken_rem (d : DataEp) (s : State) :
    (d.packetSent s).taken.ep.rem.toNat = d.ep.rem.toNat - d.desc.mps :=
  (EpRec.advance_rem (Nat.min_le_right _ _)).trans (by omega)

/-- A run of one instruction. -/
theorem execAll_of_exec {i : Instr} {s t : State} (h : exec i s = .next t) : execAll [i] s = .next t := by
  simp only [execAll, h]

theorem legal_mps_pos {c : Config} (h : c.legal = true) {d : EpDesc} (hd : d ∈ c.eps) : 0 < d.mps := by
  simp only [Config.legal, Bool.and_eq_true, decide_eq_true_eq, List.all_eq_true] at h
  obtain ⟨⟨⟨⟨⟨⟨⟨⟨⟨⟨⟨⟨-, hEps⟩, -⟩, -⟩, -⟩, -⟩, -⟩, -⟩, -⟩, -⟩, -⟩, -⟩, -⟩ := h
  exact (hEps d hd).1.2

/-- An endpoint of the same entry of `EPS` in its place keeps the table's shape. -/
theorem TableShape.set {s t : State} (hShape : TableShape s) {k : Nat} {d e : DataEp} (hd : s.deps[k]? = some d)
    (hDesc : e.desc = d.desc) (hCfg : t.cfg = s.cfg) (hDeps : t.deps = s.deps.set k e) : TableShape t := by
  have hDescs : s.deps.map DataEp.desc = s.cfg.eps := hShape
  obtain ⟨hk, rfl⟩ := List.getElem?_eq_some_iff.1 hd
  rw [TableShape, hDeps, hCfg, ← hDescs, List.map_set, hDesc, ← List.getElem_map DataEp.desc (h := by simpa using hk),
    List.set_getElem_self]

/-- The host takes a committed packet of a data endpoint (spec/46_events_and_service.md R309). -/
theorem exec_evInTaken_data {s : State} {epa : Byte} {k : Nat} {d : DataEp} {bytes : Packet}
    (hl : lookup s epa = some (.data k d)) (hDir : d.desc.dir = .in) (hLive : busLive s = true)
    (hPkt : d.pkt = some bytes) (hActive : d.active = true) :
    exec (.evInTaken epa) s = .next { s with
      hostIn := s.hostIn ++ [(epaOf d.desc, bytes)], deps := s.deps.set k d.taken } := by
  obtain ⟨hd, -, hEpaDir, -⟩ := lookup_data hl
  have hMsb : epa.msb = true := epaDir_eq_in_iff.1 (hEpaDir.symm.trans hDir)
  change execEvInTaken epa s = _
  simp only [execEvInTaken, hl, hMsb, hLive, hPkt, hActive, modifyEp_eq hd]
  rfl

/-- The place with the one packet latch keeps it when its endpoint does. -/
theorem OnlyDataLatch.set {s t : State} {k : Nat} {d e : DataEp} (hs : OnlyDataLatch k s) (hd : s.deps[k]? = some d)
    (hLatch : e.latch = true) (hStall : e.stall = d.stall) (hLat : t.lat = s.lat) (hCfg : t.cfg = s.cfg)
    (hDeps : t.deps = s.deps.set k e) : OnlyDataLatch k t := by
  obtain ⟨hsLat, hIsr, hsStall, hsLatch⟩ := hs
  refine ⟨hLat.trans hsLat, hCfg ▸ hIsr, fun x hx => ?_, fun j x hj => ?_⟩
  · rw [hDeps] at hx
    rcases List.mem_or_eq_of_mem_set hx with hx | rfl
    · exact hsStall x hx
    · exact hStall.trans (hsStall d (List.mem_of_getElem? hd))
  · rcases getElem?_set_cases hd (hDeps ▸ hj) with ⟨hjk, rfl⟩ | ⟨-, hj⟩
    · exact iff_of_true hLatch hjk
    · exact hsLatch j x hj

section

variable {k : Nat} {d : DataEp} {s : State} (h : DataSends k d s)

include h

theorem DataSends.mps_pos : 0 < d.desc.mps :=
  legal_mps_pos h.legal (h.shape ▸ List.mem_map_of_mem (List.mem_of_getElem? h.place))

/-- With bytes left, POLL commits the next packet. -/
theorem DataSends.exec_poll_send (hRem : d.ep.rem ≠ 0) : exec .poll s = .next (s.dataPacketSent k d) := by
  have hBytes : (dataPacket d s 0).2 = memReadBytes s d.ep.buf.toNat (min d.desc.mps d.ep.rem.toNat) := by
    simp [dataPacket]
  rw [exec_poll_dataIn h.legal h.shape h.latches h.place h.dirIn,
    serviceDataIn_send h.place h.running h.empty hRem rfl hBytes]
  rfl

/-- The host takes the committed packet. -/
theorem DataSends.exec_evInTaken :
    exec (.evInTaken (epaOf d.desc)) (s.dataPacketSent k d) = .next (s.dataPacketTaken k d) := by
  have hPlace : (s.dataPacketSent k d).deps[k]? = some (d.packetSent s) := getElem?_set_same h.place _
  have hShape : TableShape (s.dataPacketSent k d) := h.shape.set (e := d.packetSent s) h.place rfl rfl rfl
  have hLookup : lookup (s.dataPacketSent k d) (epaOf d.desc) = some (.data k (d.packetSent s)) :=
    hShape.lookup_eq h.legal hPlace
  have hLive : busLive (s.dataPacketSent k d) = true := (busLive_congr (s := s) rfl rfl rfl rfl).trans h.live
  rw [exec_evInTaken_data hLookup h.dirIn hLive rfl h.active, State.dataPacketTaken]
  simp only [State.dataPacketSent, List.set_set]
  rfl

/-- After a packet was taken the endpoint is about to send the next. -/
theorem DataSends.packetTaken : DataSends k (d.packetSent s).taken (s.dataPacketTaken k d) where
  legal := h.legal
  shape := h.shape.set (e := (d.packetSent s).taken) h.place rfl rfl rfl
  latches := h.latches.set (e := (d.packetSent s).taken) h.place rfl rfl rfl rfl rfl
  live := (busLive_congr (s := s) rfl rfl rfl rfl).trans h.live
  place := getElem?_set_same h.place _
  dirIn := h.dirIn
  active := h.active
  running := h.running
  empty := rfl

/-- The packets left after a full one are those that follow it: `buf` and `rem` advance by `mps(e)`. -/
theorem DataSends.dataPacket_packetTaken (hFull : d.desc.mps ≤ d.ep.rem.toNat) (i : Nat) :
    dataPacket (d.packetSent s).taken (s.dataPacketTaken k d) i = dataPacket d s (i + 1) := by
  have hBuf : (d.packetSent s).taken.ep.buf.toNat = (d.ep.buf.toNat + d.desc.mps) % 2 ^ s.cfg.addrW := by
    rw [← wrapAddr_toNat (legal_addrW_le h.legal), ← Nat.min_eq_left hFull]
    rfl
  have hLeft : d.ep.rem.toNat - d.desc.mps - i * d.desc.mps = d.ep.rem.toNat - (i + 1) * d.desc.mps := by
    rw [Nat.sub_sub, Nat.succ_mul, Nat.add_comm]
  have hAddr : ((d.ep.buf.toNat + d.desc.mps) % 2 ^ s.cfg.addrW + i * d.desc.mps) % 2 ^ s.cfg.addrW
      = (d.ep.buf.toNat + (i + 1) * d.desc.mps) % 2 ^ s.cfg.addrW := by
    rw [Nat.mod_add_mod, Nat.succ_mul, Nat.add_assoc, Nat.add_comm d.desc.mps]
  unfold dataPacket
  rw [d.packetTaken_rem s, hBuf, show (d.packetSent s).taken.desc = d.desc from rfl, hLeft,
    memReadBytes_congr (s := s) (t := s.dataPacketTaken k d) rfl rfl hAddr]

/-- With no byte left, POLL completes the transfer and sends no packet (R252). -/
theorem DataSends.execAll_done (hRem : d.ep.rem = 0) :
    ∃ t e, execAll [.poll] s = .next t ∧ t.hostIn = s.hostIn ∧ t.deps[k]? = some e ∧ e.ep.state = .idle ∧ e.ep.rem = 0
      ∧ e.pkt = none ∧ t.mem = s.mem := by
  have hPoll := exec_poll_dataIn h.legal h.shape h.latches h.place h.dirIn
  rw [serviceDataIn_done h.place h.running h.empty hRem, notifyIf_result_comm] at hPoll
  refine ⟨_, { d with latch := false, ep := d.ep.completed }, execAll_of_exec hPoll, notifyIf_hostIn .., ?_, rfl,
    hRem, h.empty, notifyIf_mem ..⟩
  rw [notifyIf_deps]
  exact getElem?_set_same h.place _

end

/-- `ceil(L / m)` counts down by one with each packet, the short one included. -/
theorem ceilDiv_sub {L m n : Nat} (hm : 0 < m) (h : (L + (m - 1)) / m = n + 1) :
    (L - m + (m - 1)) / m = n ∧ n * m < L := by
  obtain ⟨hLow, hHigh⟩ := (Nat.div_eq_iff hm).1 h
  rw [Nat.div_eq_iff hm]
  rw [Nat.succ_mul] at hLow hHigh
  omega

/-- The transfer: its packets one by one, then its completion. -/
theorem DataSends.execAll_hostReads {k n : Nat} {d : DataEp} {s : State} (h : DataSends k d s)
    (hn : (d.ep.rem.toNat + (d.desc.mps - 1)) / d.desc.mps = n) :
    ∃ t e, execAll (hostReads (epaOf d.desc) n ++ [.poll]) s = .next t
      ∧ t.hostIn = s.hostIn ++ (List.range n).map (dataPacket d s)
      ∧ t.deps[k]? = some e ∧ e.ep.state = .idle ∧ e.ep.rem = 0 ∧ e.pkt = none ∧ t.mem = s.mem := by
  have hPos := h.mps_pos
  induction n generalizing d s with
  | zero =>
    have hRem : d.ep.rem.toNat = 0 := by
      have := (Nat.div_eq_zero_iff_lt hPos).1 hn
      omega
    obtain ⟨t, e, hRun, hHost, hEnd⟩ := h.execAll_done (BitVec.eq_of_toNat_eq hRem)
    exact ⟨t, e, hRun, by simp [hHost], hEnd⟩
  | succ n ih =>
    obtain ⟨hRest, hMore⟩ := ceilDiv_sub hPos hn
    have hRem : d.ep.rem ≠ 0 := fun e => by simp [e] at hMore
    obtain ⟨t, e, hRun, hHost, hEnd⟩ := ih h.packetTaken (by rw [d.packetTaken_rem s]; exact hRest) hPos
    have hRound : execAll (hostReads (epaOf d.desc) (n + 1) ++ [.poll]) s
        = execAll (hostReads (epaOf d.desc) n ++ [.poll]) (s.dataPacketTaken k d) := by
      simp only [hostReads, List.cons_append, execAll, h.exec_poll_send hRem, h.exec_evInTaken]
    refine ⟨t, e, hRound.trans hRun, ?_, hEnd⟩
    have hPackets : (List.range (n + 1)).map (dataPacket d s)
        = dataPacket d s 0 :: (List.range n).map (dataPacket (d.packetSent s).taken (s.dataPacketTaken k d)) := by
      rw [List.range_succ_eq_map, List.map_cons, List.map_map]
      refine congrArg _ (List.map_congr_left fun i hi => (h.dataPacket_packetTaken ?_ i).symm)
      have : d.desc.mps ≤ n * d.desc.mps := Nat.le_mul_of_pos_left _ (Nat.zero_lt_of_lt (List.mem_range.1 hi))
      omega
    rw [hHost, hPackets]
    exact List.append_assoc _ [_] _

end Sys2Proof.Machine

namespace Sys2Proof.Proofs

open Sys2Proof Sys2Proof.Machine

/-- Settles O60: by induction on the number of packets (`DataSends.execAll_hostReads`). -/
theorem dataInTransferReachesTheHost : Obligations.DataInTransferReachesTheHost := by
  unfold Obligations.DataInTransferReachesTheHost
  rintro s k d L n hLegal hShape hLatches hLive hPlace hDir hActive hState hPkt rfl rfl
  exact DataSends.execAll_hostReads ⟨hLegal, hShape, hLatches, hLive, hPlace, hDir, hActive, hState, hPkt⟩ rfl

end Sys2Proof.Proofs
end

section
/-! PROOFS. `set_state` and the device-wide services (spec/45_device_state.md R270 to R283): each case of `set_state` as
one update of the state, POLL with a bus reset, suspend or resume pending, the commands INIT, CONNECT and DISCONNECT,
and O8, O9, O10, O26, O27 and O28. -/

namespace Sys2Proof.Machine

open Sys2Proof

/-! ### set_state (R270, R283) -/

theorem atLeastSuspended_iff {d : DevState} : d.atLeastSuspended = true ↔ d = .suspended ∨ d = .configured := by
  cases d <;> decide

theorem atLeastSuspended_eq_false_iff {d : DevState} :
    d.atLeastSuspended = false ↔ d = .attached ∨ d = .default ∨ d = .addressed := by
  cases d <;> decide

section

variable {n : DevState} {s : State}

/-- Entering Suspended or Configured touches no endpoint. -/
theorem setState_of_above (hn : n.atLeastSuspended = true) : setState n s =
    notify (stateChange s.dev.state n) { s with
      dev := { s.dev with saved := if n = .suspended then s.dev.state else s.dev.saved, state := n } } := by
  simp only [setState, enterBelowSuspended, leaveConfigured, hn, Bool.not_true, Bool.and_false, Bool.false_eq_true,
    if_false]

/-- Between two states below Suspended the endpoints are deactivated. -/
theorem setState_of_below (hs : s.dev.state.atLeastSuspended = false) (hn : n.atLeastSuspended = false) :
    setState n s = notify (stateChange s.dev.state n) { s with
      dev := { s.dev with saved := if n = .suspended then s.dev.state else s.dev.saved, state := n }
      deps := s.deps.map DataEp.deactivated
      acts := s.acts ++ s.deps.flatMap DataEp.deactivateActs } := by
  simp only [setState, enterBelowSuspended, leaveConfigured, hn, hs, Bool.not_false, Bool.and_true, Bool.false_eq_true,
    if_false, if_true]
  rfl

/-- Leaving Suspended or Configured for a state below, the endpoints are aborted and then deactivated. -/
theorem setState_of_leaving (hs : s.dev.state.atLeastSuspended = true) (hn : n.atLeastSuspended = false) :
    setState n s = notify (stateChange s.dev.state n) { s with
      dev := { s.dev with saved := if n = .suspended then s.dev.state else s.dev.saved, state := n, alt := 0 }
      deps := (s.deps.map DataEp.aborted).map DataEp.deactivated
      acts := s.acts ++ s.deps.flatMap DataEp.abortActs ++ s.deps.flatMap DataEp.deactivateActs } := by
  rw [← flatMap_deactivateActs_aborted s.deps]
  simp only [setState, enterBelowSuspended, leaveConfigured, hn, hs, Bool.not_false, Bool.and_true, if_true]
  rfl

/-- Of the device-wide fields `set_state` writes `state`, `saved` and `alt` only. -/
theorem setState_dev_eq (n : DevState) (s : State) : ∃ alt, (setState n s).dev =
    { s.dev with state := n, saved := if n = .suspended then s.dev.state else s.dev.saved, alt := alt } := by
  cases hn : n.atLeastSuspended with
  | true => exact ⟨_, by rw [setState_of_above hn, notify_dev]⟩
  | false =>
    cases hs : s.dev.state.atLeastSuspended with
    | true => exact ⟨_, by rw [setState_of_leaving hs hn, notify_dev]⟩
    | false => exact ⟨_, by rw [setState_of_below hs hn, notify_dev]⟩

theorem setState_dev_saved (n : DevState) (s : State) :
    (setState n s).dev.saved = if n = .suspended then s.dev.state else s.dev.saved := by
  obtain ⟨alt, hDev⟩ := setState_dev_eq n s
  rw [hDev]

/-- Below Suspended every data endpoint has been deactivated. -/
theorem setState_deps_of_below (hn : n.atLeastSuspended = false) :
    ∃ ds : List DataEp, (setState n s).deps = ds.map DataEp.deactivated := by
  cases hs : s.dev.state.atLeastSuspended with
  | true => exact ⟨_, by rw [setState_of_leaving hs hn, notify_deps]⟩
  | false => exact ⟨_, by rw [setState_of_below hs hn, notify_deps]⟩

/-- An abort and a deactivation of a data endpoint, field by field (R130, R283). -/
theorem DataEp.deactivated_aborted (d : DataEp) : d.aborted.deactivated =
    { d with
      active := false, pkt := none, latch := false, stall := false
      ep := { d.ep with
        state := .idle
        rem := if d.ep.state != .idle then 0 else d.ep.rem
        cb := if d.ep.state != .idle then false else d.ep.cb
        wr := if d.ep.state != .idle then false else d.ep.wr
        pp := false } } := by
  by_cases h : d.ep.state = .idle
  · simp [DataEp.aborted, DataEp.deactivated, h]
  · simp [DataEp.aborted, DataEp.deactivated, EpRec.aborted, h]

end

/-! ### The bus reset, suspend and resume services (R275 to R277) -/

/-- A record that finds room is pushed (spec/60_exceptions.md R347). -/
theorem notify_of_room {s : State} (h : s.nq.length < s.cfg.nqDepth) (r : Record) :
    notify r s = { s with nq := s.nq ++ [r] } := if_pos h

theorem serviceSuspend_eq (s : State) : serviceSuspend s =
    if s.dev.state = .suspended then { s with lat := { s.lat with suspend := false } }
    else setState .suspended { s with lat := { s.lat with suspend := false } } := ite_not ..

theorem serviceResume_eq (s : State) : serviceResume s =
    if s.dev.state = .suspended then setState s.dev.saved { s with lat := { s.lat with resume := false } }
    else { s with lat := { s.lat with resume := false } } := rfl

theorem serviceReset_dev_state (s : State) : (serviceReset s).dev.state = .default := by
  rw [serviceReset, notifyIf_dev]
  exact setState_dev_state ..

/-- The suspend service saves the state that it leaves. -/
theorem serviceSuspend_dev {s : State} (h : s.dev.state ≠ .suspended) :
    (serviceSuspend s).dev.state = .suspended ∧ (serviceSuspend s).dev.saved = s.dev.state := by
  rw [serviceSuspend_eq, if_neg h]
  exact ⟨setState_dev_state .., setState_dev_saved ..⟩

/-- The resume service restores the saved state, and keeps it saved. -/
theorem serviceResume_dev {s : State} (h : s.dev.state = .suspended) (hSaved : s.dev.saved ≠ .suspended) :
    (serviceResume s).dev.state = s.dev.saved ∧ (serviceResume s).dev.saved = s.dev.saved := by
  rw [serviceResume_eq, if_pos h]
  exact ⟨setState_dev_state .., (setState_dev_saved ..).trans (if_neg hSaved)⟩

/-- A pending bus reset is served first (spec/46_events_and_service.md R315). -/
theorem serviceControl_reset {s : State} (h : s.lat.reset = true) :
    serviceControl s = serviceControl (serviceReset s) := by
  simp only [serviceControl]
  rw [serviceWhen_true (s := s) serviceReset h,
    serviceWhen_false (s := serviceReset s) serviceReset (by rw [serviceReset_lat])]

/-- With no bus reset pending, a suspend is served first. -/
theorem serviceControl_suspend {s : State} (hReset : s.lat.reset = false) (h : s.lat.suspend = true) :
    serviceControl s = serviceControl (serviceSuspend s) := by
  have hLat := serviceSuspend_lat s
  simp only [serviceControl]
  rw [serviceWhen_false (s := s) serviceReset hReset, serviceWhen_true (s := s) serviceSuspend h,
    serviceWhen_false (s := serviceSuspend s) serviceReset (by rw [hLat]; exact hReset),
    serviceWhen_false (s := serviceSuspend s) serviceSuspend (by rw [hLat])]

/-- With no bus reset and no suspend pending, a resume is served first. -/
theorem serviceControl_resume {s : State} (hReset : s.lat.reset = false) (hSuspend : s.lat.suspend = false)
    (h : s.lat.resume = true) : serviceControl s = serviceControl (serviceResume s) := by
  have hLat := serviceResume_lat s
  simp only [serviceControl]
  rw [serviceWhen_false (s := s) serviceReset hReset, serviceWhen_false (s := s) serviceSuspend hSuspend,
    serviceWhen_true (s := s) serviceResume h,
    serviceWhen_false (s := serviceResume s) serviceReset (by rw [hLat]; exact hReset),
    serviceWhen_false (s := serviceResume s) serviceSuspend (by rw [hLat]; exact hSuspend),
    serviceWhen_false (s := serviceResume s) serviceResume (by rw [hLat])]

section

variable {s : State}

/-- POLL with a bus reset pending goes on from the state that the reset service leaves. -/
theorem exec_poll_reset (hIsr : s.cfg.hookIsr = false) (h : s.lat.reset = true) :
    exec .poll s = exec .poll (serviceReset s) :=
  exec_poll_congr (serviceControl_reset h) hIsr (serviceReset_cfg s ▸ hIsr)

@[inherit_doc exec_poll_reset]
theorem exec_poll_suspend (hIsr : s.cfg.hookIsr = false) (hReset : s.lat.reset = false) (h : s.lat.suspend = true) :
    exec .poll s = exec .poll (serviceSuspend s) :=
  exec_poll_congr (serviceControl_suspend hReset h) hIsr (serviceSuspend_cfg s ▸ hIsr)

@[inherit_doc exec_poll_reset]
theorem exec_poll_resume (hIsr : s.cfg.hookIsr = false) (hReset : s.lat.reset = false)
    (hSuspend : s.lat.suspend = false) (h : s.lat.resume = true) : exec .poll s = exec .poll (serviceResume s) :=
  exec_poll_congr (serviceControl_resume hReset hSuspend h) hIsr (serviceResume_cfg s ▸ hIsr)

end

/-! ### The latches that are left pending -/

section

variable {l : Latches} {s : State} (h : OnlyLatches l s)

include h

theorem OnlyLatches.lat_eq : s.lat = l := h.1

theorem OnlyLatches.observer_off : s.cfg.hookIsr = false := h.2.1

theorem OnlyLatches.setState (n : DevState) : OnlyLatches l (setState n s) := by
  obtain ⟨hLat, hIsr, hDeps⟩ := h
  exact ⟨(setState_lat ..).trans hLat, by rw [setState_cfg]; exact hIsr, setState_quiet hDeps⟩

theorem OnlyLatches.with_lat (l' : Latches) : OnlyLatches l' { s with lat := l' } := ⟨rfl, h.2⟩

theorem OnlyLatches.serviceReset : OnlyLatches { l with reset := false } (serviceReset s) := by
  obtain ⟨hLat, hIsr, hDeps⟩ := h
  refine ⟨by rw [serviceReset_lat, hLat], by rw [serviceReset_cfg]; exact hIsr, ?_⟩
  have hQuiet := setState_quiet (new := .default) (s := { s with lat := { s.lat with reset := false } }) hDeps
  rw [Machine.serviceReset, notifyIf_deps]
  exact List.forall_mem_map.2 hQuiet

theorem OnlyLatches.serviceSuspend : OnlyLatches { l with suspend := false } (serviceSuspend s) := by
  have h' := h.with_lat { l with suspend := false }
  rw [serviceSuspend_eq, h.lat_eq]
  split
  · exact h'
  · exact h'.setState _

theorem OnlyLatches.serviceResume : OnlyLatches { l with resume := false } (serviceResume s) := by
  have h' := h.with_lat { l with resume := false }
  rw [serviceResume_eq, h.lat_eq]
  split
  · exact h'.setState _
  · exact h'

end

/-- POLL with nothing pending only writes RESULT (spec/46_events_and_service.md R319). -/
theorem exec_poll_idle {s : State} (h : OnlyLatches Latches.none s) : exec .poll s = .next { s with result := 0 } := by
  obtain ⟨hLat, hIsr, hDeps⟩ := h
  have hControl : serviceControl s = s := by apply serviceControl_none <;> rw [hLat] <;> rfl
  exact exec_poll_of_control hControl hIsr rfl (by rw [hLat]; rfl) hDeps

/-- POLL with only a bus reset pending is the reset service. -/
theorem exec_poll_only_reset {s : State} (h : OnlyLatches { Latches.none with reset := true } s) :
    exec .poll s = .next { serviceReset s with result := 0 } := by
  rw [exec_poll_reset h.observer_off (by rw [h.lat_eq])]
  exact exec_poll_idle h.serviceReset

/-- POLL with only a suspend pending is the suspend service. -/
theorem exec_poll_only_suspend {s : State} (h : OnlyLatches { Latches.none with suspend := true } s) :
    exec .poll s = .next { serviceSuspend s with result := 0 } := by
  rw [exec_poll_suspend h.observer_off (by rw [h.lat_eq]; rfl) (by rw [h.lat_eq])]
  exact exec_poll_idle h.serviceSuspend

/-- POLL with only a resume pending is the resume service. -/
theorem exec_poll_only_resume {s : State} (h : OnlyLatches { Latches.none with resume := true } s) :
    exec .poll s = .next { serviceResume s with result := 0 } := by
  rw [exec_poll_resume h.observer_off (by rw [h.lat_eq]; rfl) (by rw [h.lat_eq]; rfl) (by rw [h.lat_eq])]
  exact exec_poll_idle h.serviceResume

/-! ### A suspend and a resume of a Configured device (R271) -/

section

variable {s : State}

/-- EV_SUSPEND with the pull-up on and no resume pending (spec/46_events_and_service.md R303). -/
theorem exec_evSuspend (hUp : s.dev.pullup = true) (hLat : s.lat = Latches.none) :
    exec .evSuspend s = .next { s with lat := { Latches.none with suspend := true } } := by
  simp [exec, execEvSuspend, deliver, busUp, hUp, hLat, Latches.none]

/-- EV_RESUME with the pull-up on in Suspended (spec/46_events_and_service.md R304). -/
theorem exec_evResume (hUp : s.dev.pullup = true) (hState : s.dev.state = .suspended) (hLat : s.lat = Latches.none) :
    exec .evResume s = .next { s with lat := { Latches.none with resume := true } } := by
  simp [exec, execEvResume, deliver, busUp, hUp, hState, hLat]

/-- In Configured the suspend service saves the state, and touches no endpoint. -/
theorem serviceSuspend_of_configured (hState : s.dev.state = .configured) (hRoom : s.nq.length < s.cfg.nqDepth) :
    serviceSuspend s = { s with
      dev := { s.dev with state := .suspended, saved := .configured }
      nq := s.nq ++ [stateChange .configured .suspended]
      lat := { s.lat with suspend := false } } := by
  rw [serviceSuspend_eq, if_neg (by simp [hState]), setState_of_above rfl, notify_of_room]
  · simp only [hState, if_true]
  · exact hRoom

/-- In Suspended, with Configured saved, the resume service restores Configured, and touches no endpoint. -/
theorem serviceResume_of_configured (hState : s.dev.state = .suspended) (hSaved : s.dev.saved = .configured)
    (hRoom : s.nq.length < s.cfg.nqDepth) :
    serviceResume s = { s with
      dev := { s.dev with state := .configured }
      nq := s.nq ++ [stateChange .suspended .configured]
      lat := { s.lat with resume := false } } := by
  rw [serviceResume_eq, if_pos hState, hSaved, setState_of_above rfl, notify_of_room]
  · simp only [hState, reduceCtorEq, if_false]
  · exact hRoom

/-- EV_SUSPEND and POLL in Configured. -/
theorem execAll_suspend (h : OnlyLatches Latches.none s) (hUp : s.dev.pullup = true)
    (hState : s.dev.state = .configured) (hRoom : s.nq.length < s.cfg.nqDepth) (is : List Instr) :
    execAll (.evSuspend :: .poll :: is) s = execAll is { s with
      dev := { s.dev with state := .suspended, saved := .configured }
      nq := s.nq ++ [stateChange .configured .suspended]
      lat := Latches.none
      result := 0 } := by
  have hPoll := exec_poll_only_suspend (h.with_lat { Latches.none with suspend := true })
  rw [serviceSuspend_of_configured (by exact hState) (by exact hRoom)] at hPoll
  simp only [execAll, exec_evSuspend hUp h.lat_eq, hPoll]
  rfl

/-- EV_RESUME and POLL in Suspended, with Configured saved. -/
theorem execAll_resume (h : OnlyLatches Latches.none s) (hUp : s.dev.pullup = true) (hState : s.dev.state = .suspended)
    (hSaved : s.dev.saved = .configured) (hRoom : s.nq.length < s.cfg.nqDepth) :
    execAll [.evResume, .poll] s = .next { s with
      dev := { s.dev with state := .configured }
      nq := s.nq ++ [stateChange .suspended .configured]
      lat := Latches.none
      result := 0 } := by
  have hPoll := exec_poll_only_resume (h.with_lat { Latches.none with resume := true })
  rw [serviceResume_of_configured (by exact hState) (by exact hSaved) (by exact hRoom)] at hPoll
  simp only [execAll, exec_evResume hUp hState h.lat_eq, hPoll]
  rfl

end

/-! ### INIT and DISCONNECT (R278, R280) -/

theorem exec_init (s : State) : exec .init s =
    .next ((notify (stateChange s.dev.state .attached) (act (.pullup false) (initState s))).setResult .ok 0) := rfl

theorem exec_disconnect (s : State) : exec .disconnect s = .next ((disconnectState s).setResult .ok 0) := rfl

theorem clearStall_eq (s : State) : clearStall s =
    { s with ep0Stall := false, acts := s.acts ++ (if s.ep0Stall then [.stall0 false] else []) } := by
  by_cases h : s.ep0Stall = true
  · rw [clearStall, if_pos h, if_pos h]
    rfl
  · rw [clearStall, if_neg h, if_neg h, List.append_nil, ← Bool.eq_false_iff.2 h]

/-- DISCONNECT clears the latches of endpoints that `set_state(Attached)` has deactivated: they are clear already. -/
theorem map_clearLatches_of_setState_below {n : DevState} (hn : n.atLeastSuspended = false) (s : State) :
    (setState n s).deps.map (fun d => { d with latch := false, stall := false }) = (setState n s).deps := by
  obtain ⟨ds, hDeps⟩ := setState_deps_of_below (s := s) hn
  rw [hDeps, List.map_map]
  rfl

/-- DISCONNECT over the state that `set_state(Attached)` leaves. -/
theorem disconnectState_eq {s t : State} (ht : t = setState .attached { s with
      dev := { s.dev with pullup := false }, acts := s.acts ++ [.pullup false] }) :
    disconnectState s = { t with
      ep0 := EpRec.reset, ctlOpen := false, rx0 := none, tx0 := none, tx0stage := [], lat := Latches.none
      ep0Stall := false
      dev := { t.dev with addr := 0, config := 0, alt := 0 }
      acts := t.acts ++ (if t.ep0Stall then [.stall0 false] else []) ++ [.addrLoad 0] } := by
  have hDeps : t.deps.map (fun d => { d with latch := false, stall := false }) = t.deps :=
    ht ▸ map_clearLatches_of_setState_below rfl _
  simp only [disconnectState, act, ← ht, ep0SoftReset, clearStall_eq, hDeps]

end Sys2Proof.Machine

namespace Sys2Proof.Proofs

open Sys2Proof Sys2Proof.Machine

/-- Settles O8: with an empty queue and room for one record, INIT is the reset state with that record. -/
theorem initGivesTheResetState : Obligations.InitGivesTheResetState := by
  unfold Obligations.InitGivesTheResetState
  refine ⟨fun w => decode_eq_ok_iff_eq rfl rfl, fun s hDepth => ?_⟩
  rw [exec_init, notify_of_room (by exact hDepth)]
  rfl

/-- Settles O9: the meaning of CONNECT is this one update. -/
theorem connectSwitchesThePullupOn : Obligations.ConnectSwitchesThePullupOn := by
  unfold Obligations.ConnectSwitchesThePullupOn
  exact ⟨fun w => decode_eq_ok_iff_eq rfl rfl, fun s => rfl⟩

/-- Settles O10, over the rules of `set_state`: what it leaves of the device-wide fields and of the latches. -/
theorem disconnectLeavesTheBus : Obligations.DisconnectLeavesTheBus := by
  unfold Obligations.DisconnectLeavesTheBus
  refine ⟨fun w => decode_eq_ok_iff_eq rfl rfl, fun s t ht => ?_⟩
  obtain ⟨alt, hDev⟩ := setState_dev_eq .attached
    { s with dev := { s.dev with pullup := false }, acts := s.acts ++ [.pullup false] }
  have hStall : t.ep0Stall = s.ep0Stall := by rw [ht, setState_ep0Stall]
  rw [← ht] at hDev
  rw [exec_disconnect, setResult_ok, disconnectState_eq ht, hDev, hStall]
  rfl

/-- Settles O26, by the equation of `set_state` for each of its three cases. -/
theorem setStateFollowsTheContract : Obligations.SetStateFollowsTheContract := by
  unfold Obligations.SetStateFollowsTheContract
  intro new s up down hUp hDown
  obtain rfl : up = s.dev.state.atLeastSuspended := Bool.eq_iff_iff.2 (hUp.trans atLeastSuspended_iff.symm)
  obtain rfl : down = !new.atLeastSuspended :=
    Bool.eq_iff_iff.2 (hDown.trans (by rw [Bool.not_eq_true', atLeastSuspended_eq_false_iff]))
  cases hn : new.atLeastSuspended with
  | true =>
    rw [setState_of_above hn]
    simp only [Bool.not_true, Bool.and_false, Bool.false_eq_true, if_false, List.append_nil]
    rfl
  | false =>
    cases hs : s.dev.state.atLeastSuspended with
    | true =>
      rw [setState_of_leaving hs hn, flatMap_abortActs, flatMap_deactivateActs, List.map_map]
      simp only [Bool.not_false, Bool.and_true, Bool.true_and, if_true, Function.comp_def, DataEp.deactivated_aborted]
      rfl
    | false =>
      rw [setState_of_below hs hn, flatMap_deactivateActs]
      simp only [Bool.not_false, Bool.and_true, Bool.false_and, Bool.false_eq_true, if_false, if_true, List.append_nil]
      rfl

/-- Settles O27: each service is the first to run when its turn comes (`exec_poll_reset`, `exec_poll_suspend`,
`exec_poll_resume`), and POLL with it alone pending is the service. A reset with a suspend is then the suspend service
in Default, and a suspend with a resume the resume service in the Suspended state that saved the old one. -/
theorem pollServesTheBusSignals : Obligations.PollServesTheBusSignals := by
  unfold Obligations.PollServesTheBusSignals
  refine fun s => ⟨fun h t ht => ?_, fun h => ?_, fun h => ?_, fun hIsr => ⟨fun hr t ht => ?_, fun hr hs t ht => ?_,
    fun hr hs hm t ht => ?_⟩, fun h => ?_, fun h hState => ?_⟩
  · rw [exec_poll_only_reset h, serviceReset, notifyIf_result_comm, h.lat_eq, ht]
    rfl
  · rw [exec_poll_only_suspend h, serviceSuspend_eq, h.lat_eq]
    rfl
  · rw [exec_poll_only_resume h, serviceResume_eq, h.lat_eq]
    rfl
  · rw [exec_poll_reset hIsr hr, ht]
    rfl
  · rw [exec_poll_suspend hIsr hr hs, serviceSuspend_eq, ht]
  · rw [exec_poll_resume hIsr hr hs hm, serviceResume_eq, ht]
  · have hDefault := serviceReset_dev_state s
    obtain ⟨hState, hSaved⟩ := serviceSuspend_dev (s := serviceReset s) (by rw [hDefault]; decide)
    rw [exec_poll_reset h.observer_off (by rw [h.lat_eq])]
    exact ⟨_, exec_poll_only_suspend h.serviceReset, hState, hSaved.trans hDefault⟩
  · obtain ⟨hSuspended, hSaved⟩ := serviceSuspend_dev hState
    obtain ⟨hRestored, hKept⟩ := serviceResume_dev hSuspended (hSaved ▸ hState)
    rw [exec_poll_suspend h.observer_off (by rw [h.lat_eq]; rfl) (by rw [h.lat_eq])]
    exact ⟨_, exec_poll_only_resume h.serviceSuspend, hRestored.trans hSaved, hKept.trans hSaved⟩

/-- Settles O28, by `execAll_suspend` and `execAll_resume`. -/
theorem suspendThenResumeKeepsTransfers : Obligations.SuspendThenResumeKeepsTransfers := by
  unfold Obligations.SuspendThenResumeKeepsTransfers
  intro s h hUp hState hRoom
  rw [execAll_suspend h hUp hState (by omega), execAll_resume]
  · simp only [List.append_assoc, h.lat_eq, hState]
    rfl
  · exact ⟨rfl, h.2⟩
  · exact hUp
  · rfl
  · rfl
  · rw [List.length_append]
    exact Nat.lt_of_succ_le hRoom

end Sys2Proof.Proofs
end

section
/-! PROOFS. The order of the data services and the SOF service (spec/46_events_and_service.md R315, R317): within a
direction the lowest-numbered latched endpoint is served first, and the SOF comes last; and O43. -/

namespace Sys2Proof.Machine

open Sys2Proof

/-! ### The lowest-numbered latched endpoint is served first (R315) -/

/-- The endpoints of a direction are served by ascending number. -/
theorem epOrder_sorted (dir : Dir) (ds : List DataEp) :
    (epOrder dir ds).Pairwise fun i j =>
      ∀ d e, ds[i]? = some d → ds[j]? = some e → d.desc.num.toNat < e.desc.num.toNat := by
  have hNums : (List.range' 1 15).Pairwise (fun m n => (BitVec.ofNat 4 m).toNat < (BitVec.ofNat 4 n).toNat) := by decide
  refine List.pairwise_filterMap.2 (hNums.imp fun {m n} hlt i hi j hj d e hd he => ?_)
  obtain ⟨p, hp, rfl⟩ := Option.map_eq_some_iff.1 hi
  obtain ⟨q, hq, rfl⟩ := Option.map_eq_some_iff.1 hj
  obtain ⟨hpd, hpn, -⟩ := findEp_some hp
  obtain ⟨hqe, hqn, -⟩ := findEp_some hq
  rwa [← Option.some.inj (hpd.symm.trans hd), ← Option.some.inj (hqe.symm.trans he), hpn, hqn]

section

variable {s t : State} {k : Nat} {d : DataEp} (h : Serves k s t) (hd : s.deps[k]? = some d)

include h hd

theorem Serves.latchOf_self : latchOf k t = false := by
  obtain ⟨e, hDeps, hLatch, -⟩ := h.place d hd
  exact (latchOf_eq (by rw [hDeps, getElem?_set_same hd])).trans hLatch

/-- Serving one place sets no packet latch. -/
theorem Serves.latchOf_false {j : Nat} (hj : latchOf j s = false) : latchOf j t = false := by
  by_cases hjk : j = k
  · exact hjk ▸ h.latchOf_self hd
  · obtain ⟨e, hDeps, -⟩ := h.place d hd
    rw [latchOf, hDeps, List.getElem?_set_ne (Ne.symm hjk)]
    exact hj

end

section

variable {s : State} {k : Nat} {d : DataEp} (hLegal : s.cfg.legal = true) (hShape : TableShape s)
  (hd : s.deps[k]? = some d) (hLatch : d.latch = true)
  (hLow : ∀ e ∈ s.deps, e.desc.dir = d.desc.dir → e.latch = true → d.desc.num.toNat ≤ e.desc.num.toNat)

include hLegal hShape hd hLatch hLow

/-- The turn of a direction goes on as from the state that serving its lowest-numbered latched endpoint leaves. -/
theorem serviceEach_lowest {f : Nat → State → State} (hf : Serves k s (f k s)) :
    serviceEach f (epOrder d.desc.dir s.deps) s = serviceEach f (epOrder d.desc.dir s.deps) (f k s) := by
  obtain ⟨pre, post, hOrder⟩ := List.append_of_mem (hShape.mem_epOrder hLegal hd)
  have hSorted := epOrder_sorted d.desc.dir s.deps
  rw [hOrder, List.pairwise_append] at hSorted
  obtain ⟨-, -, hBelow⟩ := hSorted
  have hPre : ∀ j ∈ pre, latchOf j s = false := fun j hj => by
    obtain ⟨e, he, heDir⟩ := mem_epOrder (hOrder ▸ List.mem_append_left _ hj)
    rw [latchOf_eq he, Bool.eq_false_iff]
    exact fun heLatch => absurd (hLow e (List.mem_of_getElem? he) heDir heLatch)
      (Nat.not_le.2 (hBelow j hj k List.mem_cons_self e d he hd))
  rw [hOrder]
  exact serviceEach_first hPre ((latchOf_eq hd).trans hLatch) (fun j hj => hf.latchOf_false hd (hPre j hj))
    (hf.latchOf_self hd)

/-- The data services with an OUT endpoint latched serve the lowest-numbered one first. -/
theorem serviceData_lowest_out (hDir : d.desc.dir = .out) : serviceData s = serviceData (serviceDataOut k s) := by
  have hOrder : epOrder .out (serviceDataOut k s).deps = epOrder .out s.deps := epOrder_congr (serviceDataOut_descs k s)
  have hEach := serviceEach_lowest hLegal hShape hd hLatch hLow (serviceDataOut_serves hd)
  rw [hDir] at hEach
  simp only [serviceData, hOrder, hEach]

/-- The data services with no OUT endpoint latched serve the lowest-numbered latched IN endpoint first. -/
theorem serviceData_lowest_in (hDir : d.desc.dir = .in) (hNoOut : ∀ e ∈ s.deps, e.desc.dir = .out → e.latch = false) :
    serviceData s = serviceData (serviceDataIn k s) := by
  have hf := serviceDataIn_serves hd
  have hOrder (dir : Dir) : epOrder dir (serviceDataIn k s).deps = epOrder dir s.deps :=
    epOrder_congr (serviceDataIn_descs k s)
  have hOut : ∀ j ∈ epOrder .out s.deps, latchOf j s = false := fun j hj => by
    obtain ⟨e, he, heDir⟩ := mem_epOrder hj
    exact (latchOf_eq he).trans (hNoOut e (List.mem_of_getElem? he) heDir)
  have hEach := serviceEach_lowest hLegal hShape hd hLatch hLow hf
  rw [hDir] at hEach
  simp only [serviceData, hOrder, serviceEach_noop hOut,
    serviceEach_noop fun j hj => hf.latchOf_false hd (hOut j hj), hEach]

end

/-! ### POLL with no latch pending but those of data endpoints and the SOF -/

theorem serviceControl_of_sof {s : State} {z : Bool} (h : s.lat = { Latches.none with sof := z }) :
    serviceControl s = s := by
  apply serviceControl_none <;> rw [h] <;> rfl

/-- Two states that the data services bring to one state are alike for POLL. -/
theorem exec_poll_congr_data {s t : State} {z : Bool} (hs : s.lat = { Latches.none with sof := z }) (ht : t.lat = s.lat)
    (hIsr : s.cfg.hookIsr = false) (hCfg : t.cfg = s.cfg) (h : serviceData s = serviceData t) :
    exec .poll s = exec .poll t := by
  have hService : service s = service t := by
    rw [service_off hIsr, service_off (hCfg ▸ hIsr), serviceBody, serviceBody, serviceControl_of_sof hs,
      serviceControl_of_sof (ht.trans hs), h]
  simp only [exec, execPoll, hService]

/-- POLL with only an SOF pending is the SOF service. -/
theorem exec_poll_only_sof {s : State} (h : OnlyLatches { Latches.none with sof := true } s) :
    exec .poll s = .next { serviceSof s with result := 0 } := by
  obtain ⟨hLat, hIsr, hQuiet⟩ := h
  have hService : service s = serviceSof s := by
    rw [service_off hIsr, serviceBody, serviceControl_of_sof hLat, serviceData_noop hQuiet,
      serviceWhen_true serviceSof (by rw [hLat])]
  simp only [exec, execPoll, hService, setResult_ok]

/-- The SOF re-arm of EP0, by whether it holds a packet and is Receiving again (R317). -/
theorem rearm0_eq {s : State} {z : Bool} (hz : z = true ↔ s.ep0.pp = true ∧ s.ep0.state = .receiving ∧ s.rx0 ≠ none) :
    rearm0 s = { s with
      lat := { s.lat with ep0Out := z || s.lat.ep0Out }, ep0 := if z then { s.ep0 with pp := false } else s.ep0 } := by
  cases z with
  | true => exact if_pos (hz.1 rfl)
  | false => exact if_neg (mt hz.2 nofun)

/-- The SOF service as one update of the state and one notification (R317). -/
theorem serviceSof_eq {s : State} {z : Bool}
    (hz : z = true ↔ s.ep0.pp = true ∧ s.ep0.state = .receiving ∧ s.rx0 ≠ none) :
    serviceSof s = notifyIf s.cfg.hookSof ⟨.sofHook, 0, 0, 0, 0, s.sofFrame.zeroExtend 16⟩ { s with
      lat := { s.lat with sof := false, ep0Out := z || s.lat.ep0Out }
      ep0 := if z then { s.ep0 with pp := false } else s.ep0
      deps := s.deps.map DataEp.rearmed } := by
  have hRearm := rearm0_eq (s := { s with lat := { s.lat with sof := false } }) hz
  simp only [serviceSof, hRearm]
  rfl

end Sys2Proof.Machine

namespace Sys2Proof.Proofs

open Sys2Proof Sys2Proof.Machine

/-- Settles O43: the data services begin with the lowest-numbered latched endpoint (`serviceData_lowest_out`,
`serviceData_lowest_in`), and with the SOF alone pending POLL is the SOF service. -/
theorem pollOnSofRearmsHeldPackets : Obligations.PollOnSofRearmsHeldPackets := by
  unfold Obligations.PollOnSofRearmsHeldPackets
  refine ⟨fun s z k d hLegal hShape hIsr hLat hd hLatch hLow => ⟨fun hDir => ?_, fun hDir hNoOut => ?_⟩,
    fun s z h hz => ?_⟩
  · exact exec_poll_congr_data hLat (serviceDataOut_serves hd).lat hIsr (serviceDataOut_cfg k s)
      (serviceData_lowest_out hLegal hShape hd hLatch hLow hDir)
  · exact exec_poll_congr_data hLat (serviceDataIn_serves hd).lat hIsr (serviceDataIn_cfg k s)
      (serviceData_lowest_in hLegal hShape hd hLatch hLow hDir hNoOut)
  · rw [exec_poll_only_sof h, serviceSof_eq hz, notifyIf_result_comm, h.lat_eq, Latches.none, Bool.or_false]
    rfl

end Sys2Proof.Proofs
end

section
/-! PROOFS. One invocation with nothing pending and with the enter/exit observer on (spec/46_events_and_service.md R319,
R320), the sequencer's own steps (R314), and O18 and O7. -/

namespace Sys2Proof.Machine

open Sys2Proof

/-! ### What is pending -/

/-- No latch is set: not those of the device and EP0, and none of a data endpoint. -/
theorem latchPending_eq_false_iff {s : State} : latchPending s = false ↔ s.lat = Latches.none ∧ Quiet s.deps := by
  cases hLat : s.lat
  simp [latchPending, hLat, Latches.none, Quiet, and_assoc]

theorem latchPending_notify (r : Record) (s : State) : latchPending (notify r s) = latchPending s := by
  simp only [latchPending, notify_lat, notify_deps]

/-- With no latch set, the service steps do nothing. -/
theorem serviceBody_of_quiet {s : State} (h : latchPending s = false) : serviceBody s = s := by
  obtain ⟨hLat, hQuiet⟩ := latchPending_eq_false_iff.1 h
  rw [serviceBody, serviceControl_of_sof (z := false) hLat, serviceData_noop hQuiet,
    serviceWhen_false serviceSof (by rw [hLat]; rfl)]

/-! ### POLL and the observer -/

/-- POLL runs one invocation, whatever the mode, and answers Ok. -/
theorem exec_poll (s : State) : exec .poll s = .next { service s with result := 0 } := rfl

/-- With the observer on, an invocation is the one with the observer off, between the two records. -/
theorem service_observed {s : State} (h : s.cfg.hookIsr = true) :
    service s = notify (observer .serviceExit)
      { service (notify (observer .serviceEnter) s).unobserved with cfg := s.cfg } := by
  rw [service_on h, serviceBody_unobserved, notify_cfg, service_off (s := State.unobserved _) rfl]

/-! ### The sequencer's own steps -/

theorem sequencerEnabled_iff {s : State} :
    sequencerEnabled s = true ↔ s.cfg.mode = .interrupt ∧ latchPending s = true := by
  rw [sequencerEnabled, Bool.and_eq_true, beq_iff_eq]

theorem sequencerEnabled_eq_false_iff {s : State} :
    sequencerEnabled s = false ↔ s.cfg.mode = .polled ∨ latchPending s = false := by
  cases h : s.cfg.mode <;> simp [sequencerEnabled, h]

/-- Scheduled or not, when nothing else is, the sequencer takes its step if it is enabled. -/
theorem step_sequencer {s : State} {rest : List Stimulus}
    (h : (s.inputs = [] ∧ rest = []) ∨ s.inputs = .service :: rest) :
    ∃ f, step s = if sequencerEnabled s then .next (service { s with inputs := rest }) else .fault f := by
  rcases h with ⟨hIdle, rfl⟩ | hTurn
  · have hKept : { s with inputs := [] } = s := by rw [← hIdle]
    exact ⟨.noAgentEnabled, by rw [hKept, step, hIdle, idleStep]⟩
  · refine ⟨.sequencerNotEnabled, ?_⟩
    rw [step, hTurn]
    rfl

end Sys2Proof.Machine

namespace Sys2Proof.Proofs

open Sys2Proof Sys2Proof.Machine

/-- Settles O18: with nothing pending the service steps do nothing (`serviceBody_of_quiet`), and the observer only adds
its two records (`service_observed`). -/
theorem pollRunsOneInvocation : Obligations.PollRunsOneInvocation := by
  unfold Obligations.PollRunsOneInvocation
  refine ⟨fun w => decode_eq_ok_iff_eq rfl rfl, fun s => ⟨exec_poll s, fun hQuiet hIsr => ?_, fun hQuiet hIsr => ?_,
    fun hIsr => ?_⟩⟩
  · rw [exec_poll, service_off hIsr, serviceBody_of_quiet hQuiet]
  · rw [exec_poll, service_on hIsr, serviceBody_of_quiet ((latchPending_notify ..).trans hQuiet)]
    rfl
  · rw [service_observed hIsr, State.unobserved, notify_cfg]
    rfl

/-- Settles O7, by the sequencer's step (`step_sequencer`) when it is enabled and when it is not. -/
theorem sequencerStepsExactlyWhenEnabled : Obligations.SequencerStepsExactlyWhenEnabled := by
  unfold Obligations.SequencerStepsExactlyWhenEnabled
  intro s rest h
  obtain ⟨f, hStep⟩ := step_sequencer h
  refine ⟨fun hOn => ?_, fun hOff => ?_⟩
  · rw [hStep, if_pos (sequencerEnabled_iff.2 hOn)]
  · rw [hStep, sequencerEnabled_eq_false_iff.2 hOff]
    exact fun t => nofun

end Sys2Proof.Proofs
end

section
/-! PROOFS. The bus events (spec/46_events_and_service.md R300 to R309): the condition that admits each, the step it has
then, and O24 and O19 to O23. -/

namespace Sys2Proof.Machine

open Sys2Proof

/-! ### Admission (R300) -/

theorem deliver_of_admitted {admitted : Bool} {s : State} (h : admitted = true) : deliver admitted s = .next s :=
  if_pos h

theorem deliver_of_refused {admitted : Bool} {s : State} (h : admitted = false) (t : State) :
    deliver admitted s ≠ .next t := by
  rw [Ne, deliver_eq_next_iff, h]
  exact nofun

theorem busLive_iff {s : State} : busLive s = true ↔ s.dev.pullup = true
    ∧ (s.lat.reset = true ∨ (s.lat.suspend = false ∧ (s.dev.state = .default ∨ s.dev.state = .addressed
      ∨ s.dev.state = .configured ∨ (s.dev.state = .suspended ∧ s.lat.resume = true)))) := by
  simp [busLive, busUp, or_assoc]

/-- The bus is not live with the pull-up off, and, unless a reset is pending, with a suspend pending, in Attached, and
in Suspended with no resume pending. -/
theorem busLive_eq_false_iff {s : State} : busLive s = false ↔ s.dev.pullup = false
    ∨ (s.lat.reset = false ∧ (s.lat.suspend = true ∨ s.dev.state = .attached
      ∨ (s.dev.state = .suspended ∧ s.lat.resume = false))) := by
  cases h : s.dev.state <;> simp [busLive, busUp, h, imp_iff_not_or]

theorem setupEndsTransfer_iff {s : State} : setupEndsTransfer s = true ↔
    s.lat.reset = false ∧ (s.ctlOpen = true ∨ s.ep0.state = .transmitting ∨ s.ep0.state = .receiving) := by
  simp [setupEndsTransfer, or_assoc]

theorem setupEndAdmitted_iff {s : State} : setupEndAdmitted s = true ↔
    busLive s = true ∧ s.lat.reset = false ∧ s.ctlOpen = true ∧ s.lat.ep0Setup = false := by
  simp [setupEndAdmitted, and_assoc]

theorem setupEndAdmitted_eq_false_iff {s : State} : setupEndAdmitted s = false ↔
    busLive s = false ∨ s.lat.reset = true ∨ s.ctlOpen = false ∨ s.lat.ep0Setup = true := by
  simp [setupEndAdmitted, imp_iff_not_or, or_assoc]

theorem out0Admitted_iff {pay : Packet} {s : State} : out0Admitted pay s = true ↔
    busLive s = true ∧ s.rx0 = none ∧ s.lat.reset = false ∧ s.ctlOpen = true ∧ s.setup.dir = .out ∧ s.ep0Stall = false
      ∧ s.lat.ep0Setup = false ∧ pay.length ≤ s.cfg.mps0 := by
  simp [out0Admitted, and_assoc]

theorem outAdmitted_iff {pay : Packet} {d : DataEp} {s : State} : outAdmitted pay d s = true ↔
    busLive s = true ∧ d.pkt = none ∧ d.active = true ∧ pay.length ≤ d.desc.mps := by
  simp [outAdmitted, and_assoc]

/-! ### EV_SETUP (R306) -/

theorem exec_evSetup {pay : Packet} (h : pay.length = 8) (s : State) :
    exec (.evSetup pay) s = deliver (busLive s) (setupState pay s) := by
  simp only [exec, execEvSetup, h, beq_self_eq_true, Bool.true_and]

/-- The effect of EV_SETUP, with the condition that ends an open transfer written out. -/
theorem setupState_eq (pay : Packet) (s : State) : setupState pay s = { s with
    rx0 := some pay, tx0 := none, tx0stage := [], ep0Stall := false
    lat := { s.lat with
      ep0Setup := true
      ep0SetupEnd :=
        if s.lat.reset = false ∧ (s.ctlOpen = true ∨ s.ep0.state = .transmitting ∨ s.ep0.state = .receiving)
        then true else s.lat.ep0SetupEnd } } := by
  rw [setupState]
  by_cases h : setupEndsTransfer s = true
  · rw [if_pos (setupEndsTransfer_iff.1 h), h, Bool.or_true]
  · rw [if_neg (mt setupEndsTransfer_iff.2 h), Bool.eq_false_iff.2 h, Bool.or_false]

/-! ### EV_OUT and EV_IN_TAKEN (R308, R309) -/

section

variable {s t : State} {epa : Byte} {pay : Packet} {k : Nat} {d : DataEp}

theorem exec_evOut_ep0 (hOut : epa.msb = false) (hl : lookup s epa = some .ep0) : exec (.evOut epa pay) s =
    deliver (out0Admitted pay s) { s with rx0 := some pay, lat := { s.lat with ep0Out := true } } := by
  simp only [exec, execEvOut, hl, hOut, Bool.not_false, Bool.true_and]

theorem exec_evOut_data (hOut : epa.msb = false) (hl : lookup s epa = some (.data k d)) : exec (.evOut epa pay) s =
    deliver (outAdmitted pay d s) { s with deps := s.deps.set k { d with pkt := some pay, latch := true } } := by
  simp only [exec, execEvOut, hl, hOut, Bool.not_false, Bool.true_and, modifyEp_eq (lookup_data hl).1]
  rfl

/-- No packet is delivered to an address that names no endpoint. -/
theorem lookup_ne_none_of_evOut (h : exec (.evOut epa pay) s = .next t) : lookup s epa ≠ none := by
  intro hl
  simp [exec, execEvOut, hl] at h

/-- No packet is taken from an address that names no endpoint. -/
theorem lookup_ne_none_of_evInTaken (h : exec (.evInTaken epa) s = .next t) : lookup s epa ≠ none := by
  intro hl
  simp [exec, execEvInTaken, hl] at h

theorem admitted_of_evInTaken_ep0 (hl : lookup s epa = some .ep0) (h : exec (.evInTaken epa) s = .next t) :
    busLive s = true ∧ s.tx0 ≠ none ∧ s.ep0Stall = false := by
  simp only [exec, execEvInTaken, hl, deliver_eq_next_iff, Bool.and_eq_true, Bool.not_eq_true',
    Option.isSome_iff_ne_none] at h
  obtain ⟨⟨⟨⟨-, hLive⟩, hTx⟩, hStall⟩, -⟩ := h
  exact ⟨hLive, hTx, hStall⟩

theorem admitted_of_evInTaken_data (hl : lookup s epa = some (.data k d)) (h : exec (.evInTaken epa) s = .next t) :
    busLive s = true ∧ d.pkt ≠ none ∧ d.active = true := by
  simp only [exec, execEvInTaken, hl, deliver_eq_next_iff, Bool.and_eq_true, Option.isSome_iff_ne_none] at h
  obtain ⟨⟨⟨⟨-, hLive⟩, hPkt⟩, hActive⟩, -⟩ := h
  exact ⟨hLive, hPkt, hActive⟩

end

end Sys2Proof.Machine

namespace Sys2Proof.Proofs

open Sys2Proof Sys2Proof.Machine

/-- Settles O24: of the two addresses of EP0 the one with bit 7 is `0x80`, and an address that names a data endpoint is
that endpoint's own. -/
theorem hostTakesTheCommittedPacket : Obligations.HostTakesTheCommittedPacket := by
  unfold Obligations.HostTakesTheCommittedPacket
  refine fun s epa hIn => ⟨fun p hl ⟨hLive, hTx, hStall⟩ => ?_, fun k d p hl ⟨hLive, hPkt, hActive⟩ => ?_,
    fun t ht => ?_⟩
  · obtain rfl : epa = 0x80 := (lookup_ep0_iff.1 hl).resolve_left (by rintro rfl; exact absurd hIn (by decide))
    exact exec_evInTaken_ep0 hLive hStall hTx
  · obtain ⟨-, hNum, hDir, hReserved, -⟩ := lookup_data hl
    rw [exec_evInTaken_data hl (hDir.trans (epaDir_eq_in_iff.2 hIn)) hLive hPkt hActive, ← eq_epaOf hNum hDir hReserved]
    rfl
  · cases hl : lookup s epa with
    | none => exact absurd hl (lookup_ne_none_of_evInTaken ht)
    | some e =>
      cases e with
      | ep0 =>
        obtain ⟨hLive, hAdmitted⟩ := admitted_of_evInTaken_ep0 hl ht
        exact ⟨hLive, .inl ⟨rfl, hAdmitted⟩⟩
      | data k d =>
        obtain ⟨hLive, hAdmitted⟩ := admitted_of_evInTaken_data hl ht
        exact ⟨hLive, .inr ⟨k, d, rfl, hAdmitted⟩⟩

/-- Settles O19: the event is admitted exactly with the pull-up on, and its effect is this one update. -/
theorem busResetFlushesTheBuffers : Obligations.BusResetFlushesTheBuffers := by
  unfold Obligations.BusResetFlushesTheBuffers
  exact fun s => ⟨fun hUp => deliver_of_admitted hUp, fun hDown => deliver_of_refused hDown⟩

/-- Settles O20: each event is one `deliver`, whose condition is evaluated in either case. -/
theorem busSignalsAreLatched : Obligations.BusSignalsAreLatched := by
  unfold Obligations.BusSignalsAreLatched
  refine fun s frame => ⟨fun ⟨hUp, hResume⟩ => deliver_of_admitted ?_, fun h => deliver_of_refused ?_,
    fun ⟨hUp, hSuspended⟩ => deliver_of_admitted ?_, fun h => deliver_of_refused ?_,
    fun hLive => deliver_of_admitted hLive, fun hDead => deliver_of_refused hDead⟩
  · simp [busUp, hUp, hResume]
  · rcases h with hDown | hResume
    · simp [busUp, hDown]
    · simp [hResume]
  · simpa [busUp, hUp] using hSuspended
  · rcases h with hDown | hActive
    · simp [busUp, hDown]
    · simp [hActive]

/-- Settles O21: the event is admitted exactly while the bus is live (`busLive_iff`, `busLive_eq_false_iff`). -/
theorem setupReplacesThePacket : Obligations.SetupReplacesThePacket := by
  unfold Obligations.SetupReplacesThePacket
  intro s pay hLength
  rw [exec_evSetup hLength, setupState_eq]
  exact ⟨fun hLive => deliver_of_admitted (busLive_iff.2 hLive),
    fun hDead => deliver_of_refused (busLive_eq_false_iff.2 hDead)⟩

/-- Settles O22, by the admission condition of the event and its negation. -/
theorem setupEndFlushesEndpointZero : Obligations.SetupEndFlushesEndpointZero := by
  unfold Obligations.SetupEndFlushesEndpointZero
  exact fun s => ⟨fun h => deliver_of_admitted (setupEndAdmitted_iff.2 h),
    fun h => deliver_of_refused (setupEndAdmitted_eq_false_iff.2 h)⟩

/-- Settles O23: the event is one `deliver` for each kind of endpoint, and an address that names none has no step. -/
theorem outPacketFillsTheFreeBuffer : Obligations.OutPacketFillsTheFreeBuffer := by
  unfold Obligations.OutPacketFillsTheFreeBuffer
  refine fun s epa pay hOut => ⟨fun hl h => ?_, fun k d hl h => ?_, fun t ht => ?_⟩
  · rw [exec_evOut_ep0 hOut hl, deliver_of_admitted (out0Admitted_iff.2 h)]
  · rw [exec_evOut_data hOut hl, deliver_of_admitted (outAdmitted_iff.2 h)]
  · cases hl : lookup s epa with
    | none => exact absurd hl (lookup_ne_none_of_evOut ht)
    | some e =>
      cases e with
      | ep0 =>
        rw [exec_evOut_ep0 hOut hl, deliver_eq_next_iff, out0Admitted_iff] at ht
        obtain ⟨⟨hLive, hAdmitted⟩, -⟩ := ht
        exact ⟨hLive, .inl ⟨rfl, hAdmitted⟩⟩
      | data k d =>
        rw [exec_evOut_data hOut hl, deliver_eq_next_iff, outAdmitted_iff] at ht
        obtain ⟨⟨hLive, hAdmitted⟩, -⟩ := ht
        exact ⟨hLive, .inr ⟨k, d, rfl, hAdmitted⟩⟩

end Sys2Proof.Proofs
end

section
/-! PROOFS. What one invocation leaves of the latches (spec/46_events_and_service.md R315 to R317): the services before
the SOF clear every latch but `L_SOF` (`serviceControlData_latches`), and only an SOF that was pending sets one again
(`service_quiet`); and O56. -/

namespace Sys2Proof.Machine

open Sys2Proof

/-! ### The device-wide latches and those of EP0 -/

/-- The latches but `L0_OUT` and `L0_IN`, which the EP0 services may change while they serve another latch. -/
def State.sequencedLatches (s : State) : Latches := { s.lat with ep0Out := false, ep0In := false }

/-- A step that clears the latch it serves leaves it clear, whether it was set or not. The latches are read by `view`;
`put l b` is `l` with the latch of the step set to `b`. -/
theorem serviceWhen_latches {latch : State → Bool} {f : State → State} {view : State → Latches}
    {put : Latches → Bool → Latches} (hf : ∀ s, view (f s) = put (view s) false)
    (hPut : ∀ s, put (view s) (latch s) = view s) (s : State) :
    view (serviceWhen latch f s) = put (view s) false := by
  cases h : latch s with
  | true => rw [serviceWhen_true f h, hf]
  | false => rw [serviceWhen_false f h, ← h, hPut]

theorem KeepsLatches.sequencedLatches_eq {s t : State} (h : KeepsLatches s t) :
    t.sequencedLatches = s.sequencedLatches := by
  obtain ⟨-, hLat⟩ := h
  rw [State.sequencedLatches, hLat, State.sequencedLatches]

/-- The service steps before the SETUP, in order (R315). -/
def serviceBeforeSetup (s : State) : State :=
  let s := serviceWhen (fun s => s.lat.reset) serviceReset s
  let s := serviceWhen (fun s => s.lat.suspend) serviceSuspend s
  let s := serviceWhen (fun s => s.lat.resume) serviceResume s
  let s := serviceWhen (fun s => s.lat.ep0SentStall) serviceEp0SentStall s
  serviceWhen (fun s => s.lat.ep0SetupEnd) serviceEp0SetupEnd s

/-- The service steps of EP0 after the SETUP, in order (R315). -/
def serviceEp0Packets (s : State) : State :=
  serviceWhen (fun s => s.lat.ep0In) serviceEp0In (serviceWhen (fun s => s.lat.ep0Out) serviceEp0Out s)

/-- The device-wide and EP0 services are those before the SETUP, the SETUP, and those after it. -/
theorem serviceControl_eq (s : State) : serviceControl s
    = serviceEp0Packets (serviceWhen (fun s => s.lat.ep0Setup) serviceEp0Setup (serviceBeforeSetup s)) := rfl

theorem serviceBeforeSetup_sequencedLatches (s : State) : (serviceBeforeSetup s).sequencedLatches
    = { Latches.none with sof := s.lat.sof, ep0Setup := s.lat.ep0Setup } := by
  unfold serviceBeforeSetup
  dsimp only
  rw [serviceWhen_latches (f := serviceEp0SetupEnd) (view := State.sequencedLatches)
      (put := fun l b => { l with ep0SetupEnd := b }) (fun _ => rfl) (fun _ => rfl),
    serviceWhen_latches (f := serviceEp0SentStall) (view := State.sequencedLatches)
      (put := fun l b => { l with ep0SentStall := b }) (fun _ => rfl) (fun _ => rfl),
    serviceWhen_latches (view := State.sequencedLatches) (put := fun l b => { l with resume := b })
      (fun s => by rw [State.sequencedLatches, serviceResume_lat]; rfl) (fun _ => rfl),
    serviceWhen_latches (view := State.sequencedLatches) (put := fun l b => { l with suspend := b })
      (fun s => by rw [State.sequencedLatches, serviceSuspend_lat]; rfl) (fun _ => rfl),
    serviceWhen_latches (view := State.sequencedLatches) (put := fun l b => { l with reset := b })
      (fun s => by rw [State.sequencedLatches, serviceReset_lat]; rfl) (fun _ => rfl)]
  rfl

theorem serviceEp0Packets_lat (s : State) : (serviceEp0Packets s).lat = s.sequencedLatches := by
  rw [serviceEp0Packets,
    serviceWhen_latches (view := State.lat) (put := fun l b => { l with ep0In := b })
      (fun s => (serviceEp0In_lat s).2) (fun _ => rfl),
    serviceWhen_latches (view := State.lat) (put := fun l b => { l with ep0Out := b })
      (fun s => (serviceEp0Out_lat s).2) (fun _ => rfl)]
  rfl

/-- The device-wide and EP0 services leave no latch of theirs set, but `L_SOF`, whatever was pending (R315). -/
theorem serviceControl_lat (s : State) : (serviceControl s).lat = { Latches.none with sof := s.lat.sof } := by
  rw [serviceControl_eq, serviceEp0Packets_lat,
    serviceWhen_latches (view := State.sequencedLatches) (put := fun l b => { l with ep0Setup := b })
      (fun s => (serviceEp0Setup_keeps s).sequencedLatches_eq) (fun _ => rfl),
    serviceBeforeSetup_sequencedLatches]
  rfl

/-! ### The latches of the data endpoints -/

/-- Serving the places `ks` of the table: no packet latch of theirs is set afterwards, and none is set that was not. -/
structure Clears (ks : List Nat) (s t : State) : Prop where
  lat    : t.lat = s.lat
  served : ∀ j ∈ ks, latchOf j t = false
  kept   : ∀ j, latchOf j s = false → latchOf j t = false

section

variable {f : Nat → State → State} (hf : ∀ k s d, s.deps[k]? = some d → Serves k s (f k s))

include hf

/-- One place in its turn, whether its latch is set or not. -/
theorem serviceWhen_clears (k : Nat) (s : State) : Clears [k] s (serviceWhen (latchOf k) (f k) s) := by
  cases hk : latchOf k s with
  | false =>
    rw [serviceWhen_false _ hk]
    exact ⟨rfl, fun j hj => List.mem_singleton.1 hj ▸ hk, fun _ h => h⟩
  | true =>
    rw [serviceWhen_true _ hk]
    cases hd : s.deps[k]? with
    | none => simp [latchOf, hd] at hk
    | some d =>
      have h := hf k s d hd
      exact ⟨h.lat, fun j hj => List.mem_singleton.1 hj ▸ h.latchOf_self hd, fun _ hj => h.latchOf_false hd hj⟩

theorem serviceEach_clears (ks : List Nat) (s : State) : Clears ks s (serviceEach f ks s) := by
  induction ks generalizing s with
  | nil => exact ⟨rfl, nofun, fun _ h => h⟩
  | cons k ks ih =>
    obtain ⟨hLat, hServed, hKept⟩ := serviceWhen_clears hf k s
    obtain ⟨hLat', hServed', hKept'⟩ := ih (serviceWhen (latchOf k) (f k) s)
    refine ⟨hLat'.trans hLat, fun j hj => ?_, fun j hj => hKept' j (hKept j hj)⟩
    rcases List.mem_cons.1 hj with rfl | hj
    · exact hKept' j (hServed j List.mem_cons_self)
    · exact hServed' j hj

end

theorem serviceOuts_clears (ks : List Nat) (s : State) : Clears ks s (serviceEach serviceDataOut ks s) :=
  serviceEach_clears (fun _ _ _ => serviceDataOut_serves) ks s

theorem serviceIns_clears (ks : List Nat) (s : State) : Clears ks s (serviceEach serviceDataIn ks s) :=
  serviceEach_clears (fun _ _ _ => serviceDataIn_serves) ks s

theorem serviceData_lat (s : State) : (serviceData s).lat = s.lat :=
  (serviceIns_clears _ _).lat.trans (serviceOuts_clears _ s).lat

/-- The data services leave no latch of a data endpoint set: each endpoint has its turn in one direction, and
`L_STALL` is cleared on all (R315, R258). -/
theorem serviceData_quiet {s : State} (hLegal : s.cfg.legal = true) (hShape : TableShape s) :
    Quiet (serviceData s).deps := by
  have hOut := serviceOuts_clears (epOrder .out s.deps) s
  have hOutDescs := serviceEach_descs serviceDataOut_descs (epOrder .out s.deps) s
  have hOutCfg := serviceEach_cfg serviceDataOut_cfg (epOrder .out s.deps) s
  unfold serviceData
  dsimp only
  generalize serviceEach serviceDataOut (epOrder .out s.deps) s = t at *
  have hIn := serviceIns_clears (epOrder .in t.deps) t
  have hInDescs := serviceEach_descs serviceDataIn_descs (epOrder .in t.deps) t
  have hInCfg := serviceEach_cfg serviceDataIn_cfg (epOrder .in t.deps) t
  generalize serviceEach serviceDataIn (epOrder .in t.deps) t = u at *
  have hCfg : u.cfg = s.cfg := hInCfg.trans hOutCfg
  have hDescs : u.deps.map DataEp.desc = s.deps.map DataEp.desc := hInDescs.trans hOutDescs
  have hShape' : TableShape u := by
    rw [TableShape, hDescs, hCfg]
    exact hShape
  refine List.forall_mem_map.2 fun d hd => ⟨?_, rfl⟩
  obtain ⟨k, hk⟩ := List.mem_iff_getElem?.1 hd
  have hTurn := hShape'.mem_epOrder (hCfg ▸ hLegal) hk
  refine (latchOf_eq hk).symm.trans ?_
  cases hDir : d.desc.dir
  · rw [hDir, epOrder_congr hInDescs] at hTurn
    exact hIn.served k hTurn
  · rw [hDir, epOrder_congr hDescs] at hTurn
    exact hIn.kept k (hOut.served k hTurn)

/-! ### The invocation -/

/-- No SOF is pending after its service (R317). -/
theorem serviceSof_lat_sof (s : State) : (serviceSof s).lat.sof = false := by
  unfold serviceSof
  rw [notifyIf_lat]
  unfold rearm0
  dsimp only
  split <;> rfl

/-- When the turn of the SOF comes, no other latch is set. -/
theorem serviceControlData_latches {s : State} (hLegal : s.cfg.legal = true) (hShape : TableShape s) :
    (serviceData (serviceControl s)).lat = { Latches.none with sof := s.lat.sof }
    ∧ Quiet (serviceData (serviceControl s)).deps := by
  have hCfg := serviceControl_cfg s
  have hShape' : TableShape (serviceControl s) := by
    rw [TableShape, serviceControl_descs, hCfg]
    exact hShape
  exact ⟨(serviceData_lat _).trans (serviceControl_lat s), serviceData_quiet (hCfg ▸ hLegal) hShape'⟩

/-- Whatever was pending, no SOF is after the service steps. -/
theorem serviceBody_lat_sof (s : State) : (serviceBody s).lat.sof = false := by
  rw [serviceBody]
  exact serviceWhen_of (P := fun _ => True) (Q := fun t => t.lat.sof = false) (fun _ _ => serviceSof_lat_sof _)
    (fun hl _ => hl) trivial

/-- With no SOF pending, no latch is set after the service steps. -/
theorem serviceBody_quiet {s : State} (hLegal : s.cfg.legal = true) (hShape : TableShape s)
    (hSof : s.lat.sof = false) : latchPending (serviceBody s) = false := by
  obtain ⟨hLat, hQuiet⟩ := serviceControlData_latches hLegal hShape
  rw [hSof] at hLat
  rw [serviceBody, serviceWhen_false serviceSof (by rw [hLat])]
  exact latchPending_eq_false_iff.2 ⟨hLat, hQuiet⟩

/-- Whatever was pending, no SOF is after an invocation. -/
theorem service_lat_sof (s : State) : (service s).lat.sof = false := by
  cases h : s.cfg.hookIsr with
  | false => rw [service_off h, serviceBody_lat_sof]
  | true => rw [service_on h, notify_lat, serviceBody_lat_sof]

/-- An invocation with no SOF pending clears every latch. -/
theorem service_quiet {s : State} (hLegal : s.cfg.legal = true) (hShape : TableShape s) (hSof : s.lat.sof = false) :
    latchPending (service s) = false := by
  cases h : s.cfg.hookIsr with
  | false => rw [service_off h, serviceBody_quiet hLegal hShape hSof]
  | true =>
    rw [service_on h, latchPending_notify]
    refine serviceBody_quiet ?_ ?_ ?_
    · rwa [notify_cfg]
    · rwa [TableShape, notify_deps, notify_cfg]
    · rwa [notify_lat]

end Sys2Proof.Machine

namespace Sys2Proof.Proofs

open Sys2Proof Sys2Proof.Machine

/-- Settles O56: the first invocation leaves no SOF pending (`service_lat_sof`) and keeps the table, so the second
clears every latch (`service_quiet`). -/
theorem twoInvocationsClearEveryLatch : Obligations.TwoInvocationsClearEveryLatch := by
  unfold Obligations.TwoInvocationsClearEveryLatch
  intro s hLegal hShape
  obtain ⟨hCfg, hDescs⟩ := service_sameTable s
  have hSof := service_lat_sof s
  simp only [execAll, exec_poll]
  generalize service s = t at *
  have hShape' : TableShape { t with result := 0 } := hDescs.trans (hShape.trans (congrArg Config.eps hCfg.symm))
  have hQuiet := service_quiet (s := { t with result := 0 }) (hCfg ▸ hLegal) hShape' hSof
  exact ⟨_, rfl, hQuiet⟩

end Sys2Proof.Proofs
end

section
/-! PROOFS. How many records one invocation pushes (spec/70_reset_and_hazards.md R380): `Pushes n s t` bounds the
records of a change from `s` to `t`, one lemma for each service step; EP0 pushes one record at most in the whole
invocation (`serviceEp0_pushes`), and each data endpoint one (`serviceData_pushes`); and O46 and O57. -/

namespace Sys2Proof.Machine

open Sys2Proof

/-! ### Records pushed -/

/-- What `Notify` reads and writes (spec/60_exceptions.md R345, R347). -/
def State.queueSide (s : State) : Config × List Record × Bool × List FaultReason := (s.cfg, s.nq, s.nqOvf, s.faults)

/-- From `s` to `t` at most `n` records are pushed: where the queue of `s` has room for `n`, none is lost and no fault
is recorded. The configuration, and with it the size of the queue, is the same. -/
structure Pushes (n : Nat) (s t : State) : Prop where
  cfg  : t.cfg = s.cfg
  room : s.nq.length + n ≤ s.cfg.nqDepth →
    t.faults = s.faults ∧ t.nqOvf = s.nqOvf ∧ t.nq.length ≤ s.nq.length + n

/-- A change that does not touch the queue. -/
theorem Pushes.of_queueSide {n : Nat} {s t : State} (h : t.queueSide = s.queueSide) : Pushes n s t := by
  simp only [State.queueSide, Prod.mk.injEq] at h
  obtain ⟨hCfg, hNq, hOvf, hFaults⟩ := h
  exact ⟨hCfg, fun _ => ⟨hFaults, hOvf, hNq ▸ Nat.le_add_right _ _⟩⟩

theorem Pushes.refl (n : Nat) (s : State) : Pushes n s s := .of_queueSide rfl

theorem Pushes.trans {m n : Nat} {s t u : State} (h : Pushes m s t) (k : Pushes n t u) : Pushes (m + n) s u := by
  refine ⟨k.cfg.trans h.cfg, fun hRoom => ?_⟩
  obtain ⟨hFaults, hOvf, hLen⟩ := h.room (by omega)
  obtain ⟨hFaults', hOvf', hLen'⟩ := k.room (by rw [h.cfg]; omega)
  exact ⟨hFaults'.trans hFaults, hOvf'.trans hOvf, by omega⟩

theorem Pushes.mono {m n : Nat} {s t : State} (h : Pushes m s t) (hmn : m ≤ n) : Pushes n s t := by
  refine ⟨h.cfg, fun hRoom => ?_⟩
  obtain ⟨hFaults, hOvf, hLen⟩ := h.room (by omega)
  exact ⟨hFaults, hOvf, by omega⟩

/-- The queue is not touched before the change. -/
theorem Pushes.after {n : Nat} {s s' t : State} (h : Pushes n s' t) (hs : s'.queueSide = s.queueSide) : Pushes n s t :=
  ((Pushes.of_queueSide hs).trans (m := 0) h).mono (Nat.zero_add n).le

/-- The queue is not touched after the change. -/
theorem Pushes.before {n : Nat} {s t t' : State} (h : Pushes n s t) (ht : t'.queueSide = t.queueSide) : Pushes n s t' :=
  h.trans (n := 0) (.of_queueSide ht)

theorem notify_pushes (r : Record) (s : State) : Pushes 1 s (notify r s) :=
  ⟨notify_cfg r s, fun hRoom => by rw [notify_of_room hRoom]; exact ⟨rfl, rfl, by simp⟩⟩

theorem notifyIf_pushes (b : Bool) (r : Record) (s : State) : Pushes 1 s (notifyIf b r s) := by
  cases b with
  | false => exact .refl 1 s
  | true => exact notify_pushes r s

/-- A service step, whether its latch is set or not. -/
theorem serviceWhen_pushes {latch : State → Bool} {f : State → State} {n : Nat} (hf : ∀ s, Pushes n s (f s))
    (s : State) : Pushes n s (serviceWhen latch f s) :=
  serviceWhen_of (P := fun t => t = s) (fun _ h => h ▸ hf s) (fun _ h => h ▸ .refl n s) rfl

/-! ### The device state machine (spec/45_device_state.md) -/

/-- `set_state` pushes its one STATE_CHANGE record (R274). -/
theorem setState_pushes (n : DevState) (s : State) : Pushes 1 s (setState n s) :=
  (notify_pushes _ _).after (by simp [State.queueSide])

/-- The bus reset service pushes STATE_CHANGE, and RESET_HOOK when asked to (R275). -/
theorem serviceReset_pushes (s : State) : Pushes 2 s (serviceReset s) := by
  have hState := (setState_pushes .default { s with lat := { s.lat with reset := false } }).after (s := s) rfl
  unfold serviceReset
  refine Pushes.trans (m := 1) ?_ (notifyIf_pushes _ _ _)
  exact hState.before rfl

theorem serviceSuspend_pushes (s : State) : Pushes 1 s (serviceSuspend s) := by
  rw [serviceSuspend_eq]
  split
  · exact .of_queueSide rfl
  · exact (setState_pushes .suspended _).after rfl

theorem serviceResume_pushes (s : State) : Pushes 1 s (serviceResume s) := by
  rw [serviceResume_eq]
  split
  · exact (setState_pushes s.dev.saved _).after rfl
  · exact .of_queueSide rfl

/-- The services before the SETUP push three STATE_CHANGE records and a RESET_HOOK at most. -/
theorem serviceBeforeSetup_pushes (s : State) : Pushes 4 s (serviceBeforeSetup s) := by
  have hReset := serviceWhen_pushes (latch := fun s => s.lat.reset) serviceReset_pushes s
  have hSuspend := hReset.trans (serviceWhen_pushes (latch := fun s => s.lat.suspend) serviceSuspend_pushes _)
  have hResume := hSuspend.trans (serviceWhen_pushes (latch := fun s => s.lat.resume) serviceResume_pushes _)
  have hStall := hResume.trans (n := 0) (serviceWhen_pushes (latch := fun s => s.lat.ep0SentStall)
    (f := serviceEp0SentStall) (fun _ => .of_queueSide rfl) _)
  exact hStall.trans (n := 0) (serviceWhen_pushes (latch := fun s => s.lat.ep0SetupEnd)
    (f := serviceEp0SetupEnd) (fun _ => .of_queueSide rfl) _)

/-! ### The request handlers (spec/43_request_dispatch.md) -/

/-- How many records a request may push: one of a change of state, which only a request without a data stage makes
(R218, R226). -/
def Setup.records (p : Setup) : Nat := if p.wLength = 0 then 1 else 0

theorem Setup.records_of_noData {p : Setup} (h : p.wLength = 0) : p.records = 1 := if_pos h

theorem Setup.records_of_data {p : Setup} (h : p.wLength ≠ 0) : p.records = 0 := if_neg h

theorem beginTransfer_queueSide (a : Byte) (d : Dir) (addr : Addr) (n : Half) (cb : Bool) (s : State) :
    (beginTransfer a d addr n cb s).2.queueSide = s.queueSide := by
  obtain ⟨st, h⟩ | ⟨e, -, -, -, -, -, h⟩ := beginTransfer_cases a d addr n cb s
  · rw [h]
  · rw [h]
    cases e <;> rfl

theorem drawProduct_queueSide (s : State) : (drawProduct s).2.queueSide = s.queueSide := by
  unfold drawProduct
  split <;> rfl

theorem drawHook_queueSide (s : State) : (drawHook s).2.queueSide = s.queueSide := by
  unfold drawHook
  split <;> rfl

theorem select_queueSide (t i : Byte) (s : State) : (select t i s).2.queueSide = s.queueSide := by
  unfold select selectString
  split
  · rfl
  · split
    · rfl
    · split
      · split
        · exact drawProduct_queueSide s
        · split
          · simp [serial, State.queueSide]
          · rfl
      · rfl

theorem getDescriptor_queueSide (p : Setup) (s : State) : (getDescriptor p s).2.queueSide = s.queueSide := by
  have hSelect := select_queueSide (p.wValue.extractLsb' 8 8) (p.wValue.extractLsb' 0 8) s
  unfold getDescriptor
  split
  · rfl
  · dsimp only
    split
    · exact hSelect
    · split
      · exact (beginTransfer_queueSide ..).trans hSelect
      · exact hSelect

theorem applyArm_queueSide (p : Setup) (arm : Option Arm) (s : State) : (applyArm p arm s).queueSide = s.queueSide := by
  cases arm with
  | none => rfl
  | some a => exact beginTransfer_queueSide ..

/-- A change of state in a request without a data stage, or none. -/
theorem setStateIf_pushes {p : Setup} (hw : p.wLength = 0) (b : Prop) [Decidable b] (n : DevState) (s : State) :
    Pushes p.records s (if b then setState n s else s) := by
  rw [Setup.records_of_noData hw]
  split
  · exact setState_pushes n s
  · exact .refl 1 s

theorem setAddress_pushes (p : Setup) (s : State) : Pushes p.records s (setAddress p s).2 := by
  have hNone : Pushes p.records s s := .refl _ s
  unfold setAddress
  split
  · exact hNone
  · rename_i hFields
    have hw : p.wLength = 0 := by simp_all [addressFieldsOk]
    dsimp only
    split
    · exact (setStateIf_pushes hw _ .addressed s).before rfl
    · exact (setStateIf_pushes hw _ .default s).before rfl
    all_goals exact hNone

theorem setConfiguration_pushes (p : Setup) (s : State) : Pushes p.records s (setConfiguration p s).2 := by
  have hNone : Pushes p.records s s := .refl _ s
  unfold setConfiguration
  split
  · exact hNone
  · rename_i hFields
    have hSet (n : DevState) (c : Byte) :
        Pushes p.records s (setState n { s with dev := { s.dev with config := c } }) := by
      rw [Setup.records_of_noData (not_not.1 fun hw => hFields (.inl hw))]
      exact (setState_pushes n _).after rfl
    split
    · split
      · exact (hSet .configured Config.configValue).before rfl
      · exact hNone
    · split
      · exact hSet .addressed 0
      · split
        · exact .of_queueSide rfl
        · exact hNone
    all_goals exact hNone

theorem stdDispatch_pushes (p : Setup) (s : State) : Pushes p.records s (stdDispatch p s).2 := by
  have hNone : Pushes p.records s s := .refl _ s
  unfold stdDispatch
  split
  · exact hNone
  · split
    · exact setAddress_pushes p s
    · split
      · exact .of_queueSide (getDescriptor_queueSide p s)
      · split
        · exact setConfiguration_pushes p s
        · split <;> exact hNone

/-- Whatever the hook answers, the dispatch pushes no more than the request may (R210 to R212). -/
theorem dispatch_pushes (p : Setup) (s : State) : Pushes p.records s (dispatch p s).2 := by
  have hDraw : Pushes p.records s (drawHook s).2 := .of_queueSide (drawHook_queueSide s)
  unfold dispatch
  split
  · dsimp only
    split
    · exact hDraw.before (applyArm_queueSide ..)
    · exact hDraw
    · exact (stdDispatch_pushes p _).after (drawHook_queueSide s)
  · exact stdDispatch_pushes p s

theorem afterDispatch_queueSide (p : Setup) (r : Answer × State) : (afterDispatch p r).queueSide = r.2.queueSide := by
  unfold afterDispatch
  repeat' split
  all_goals rfl

/-! ### EP0 (spec/42_control_transfer.md) -/

/-- What a SETUP does to the queue: it pushes no record, or it pushes one and leaves no packet of EP0 to serve. -/
def SetupPushes (s t : State) : Prop :=
  Pushes 0 s t ∨ (Pushes 1 s t ∧ t.lat.ep0Out = false ∧ t.lat.ep0In = false)

/-- A request that pushes a record has no data stage, so it latches no packet after the soft reset of EP0 (R175). -/
theorem request_pushes (p : Setup) (s : State) :
    SetupPushes s (afterDispatch p (dispatch p (acceptSetup p s))) := by
  have hPushes : Pushes p.records s (afterDispatch p (dispatch p (acceptSetup p s))) :=
    ((dispatch_pushes p (acceptSetup p s)).before (afterDispatch_queueSide p _)).after rfl
  by_cases hw : p.wLength = 0
  · rw [Setup.records_of_noData hw] at hPushes
    obtain ⟨hEp0, -, -⟩ := dispatch_usesNoFifo (s := acceptSetup p s) hw rfl
    simp only [State.ep0Side, Prod.mk.injEq] at hEp0
    obtain ⟨-, -, -, -, -, hLat⟩ := hEp0
    have hLat' : (afterDispatch p (dispatch p (acceptSetup p s))).lat = (acceptSetup p s).lat := by
      rcases afterDispatch_noData hw (dispatch p (acceptSetup p s)) with h | h <;> rw [h, ← hLat] <;> rfl
    rw [SetupPushes, hLat']
    exact .inr ⟨hPushes, rfl, rfl⟩
  · rw [Setup.records_of_data hw] at hPushes
    exact .inl hPushes

theorem serviceEp0Setup_pushes (s : State) : SetupPushes s (serviceEp0Setup s) := by
  unfold serviceEp0Setup
  dsimp only
  split
  · exact .inl (.of_queueSide rfl)
  · split
    · exact .inl (.of_queueSide rfl)
    · exact (request_pushes _ _).imp (·.after rfl) (.imp_left (·.after rfl))

theorem complete0_pushes (x : Byte) (s : State) : Pushes 1 s (complete0 x s) := by
  rw [complete0_eq]
  exact (notifyIf_pushes _ _ _).after rfl

theorem serviceEp0In_pushes (s : State) : Pushes 1 s (serviceEp0In s) := by
  unfold serviceEp0In
  dsimp only
  split
  · exact .of_queueSide rfl
  · split
    · exact (complete0_pushes 0x80 _).after (by simp [State.queueSide])
    · exact .of_queueSide (by simp [State.queueSide])

theorem ep0Receive_pushes (q : Packet) (s : State) : Pushes 1 s (ep0Receive q s) := by
  unfold ep0Receive
  dsimp only
  split
  · exact (complete0_pushes 0x00 _).after (by simp [State.queueSide])
  · exact .of_queueSide (by simp [State.queueSide])

theorem serviceEp0Out_pushes (s : State) : Pushes 1 s (serviceEp0Out s) := by
  unfold serviceEp0Out
  dsimp only
  split
  · exact .of_queueSide rfl
  · split
    · exact (notifyIf_pushes _ _ _).after rfl
    · split
      · exact (notify_pushes _ _).after rfl
      · exact (ep0Receive_pushes _ _).after rfl

theorem complete0_state (x : Byte) (s : State) : (complete0 x s).ep0.state = .idle := by
  rw [complete0_eq, notifyIf_ep0]
  rfl

/-- An OUT packet starts no IN transfer (R184 to R186). -/
theorem serviceEp0Out_not_transmitting {s : State} (h : s.ep0.state ≠ .transmitting) :
    (serviceEp0Out s).ep0.state ≠ .transmitting := by
  unfold serviceEp0Out ep0Receive
  dsimp only
  split
  · exact h
  · split
    · rw [notifyIf_ep0]
      exact h
    · split
      · rw [notify_ep0]
        exact nofun
      · split
        · rw [complete0_state]
          exact nofun
        · simpa [EpRec.advance] using h

/-- EP0 OUT and EP0 IN push one record together, as EP0 runs a transfer of one direction (spec/10_state.md R44.3). -/
theorem serviceEp0Packets_pushes {s : State} (h : s.lat.ep0Out = true → s.ep0.state ≠ .transmitting) :
    Pushes 1 s (serviceEp0Packets s) := by
  unfold serviceEp0Packets
  cases hOut : s.lat.ep0Out with
  | false =>
    rw [serviceWhen_false (s := s) serviceEp0Out hOut]
    exact serviceWhen_pushes serviceEp0In_pushes s
  | true =>
    rw [serviceWhen_true (s := s) serviceEp0Out hOut]
    refine (serviceEp0Out_pushes s).trans (n := 0) ?_
    refine serviceWhen_of (P := fun t => t = serviceEp0Out s) (fun _ ht => ?_) (fun _ ht => ht ▸ .refl 0 _) rfl
    rw [ht, serviceEp0In_stale (.inl (serviceEp0Out_not_transmitting (h hOut)))]
    exact .of_queueSide rfl

theorem Sound.serviceBeforeSetup {s : State} (h : Sound s) : Sound (serviceBeforeSetup s) := by
  unfold Machine.serviceBeforeSetup
  dsimp only
  refine serviceWhen_of (P := Sound) (fun _ h => h.serviceEp0SetupEnd) (fun _ h => h) ?_
  refine serviceWhen_of (P := Sound) (fun _ h => h.serviceEp0SentStall) (fun _ h => h) ?_
  refine serviceWhen_of (P := Sound) (fun _ h => h.serviceResume) (fun _ h => h) ?_
  refine serviceWhen_of (P := Sound) (fun _ h => h.serviceSuspend) (fun _ h => h) ?_
  exact serviceWhen_of (P := Sound) (fun _ h => h.serviceReset) (fun _ h => h) h

/-- While an OUT packet of EP0 waits, EP0 does not transmit (spec/10_state.md R44.3, R44.9). -/
theorem Sound.not_transmitting {s : State} (h : Sound s) (hOut : s.lat.ep0Out = true) :
    s.ep0.state ≠ .transmitting := fun hTx => by
  obtain ⟨-, -, ⟨hIn, -, -, hDir, -⟩, -, -⟩ := h.base.control
  exact absurd ((hIn hTx).2.symm.trans (hDir hOut)) nofun

/-- The three services of EP0 push one record together. -/
theorem serviceEp0_pushes {s : State} (h : Sound s) (hReset : s.lat.reset = false) :
    Pushes 1 s (serviceEp0Packets (serviceWhen (fun s => s.lat.ep0Setup) serviceEp0Setup s)) := by
  cases hSetup : s.lat.ep0Setup with
  | false =>
    rw [serviceWhen_false (s := s) serviceEp0Setup hSetup]
    exact serviceEp0Packets_pushes h.not_transmitting
  | true =>
    rw [serviceWhen_true (s := s) serviceEp0Setup hSetup]
    obtain hNone | ⟨hOne, hOut, hIn⟩ := serviceEp0Setup_pushes s
    · exact hNone.trans (serviceEp0Packets_pushes (h.serviceEp0Setup hReset).not_transmitting)
    · rw [serviceEp0Packets, serviceWhen_false serviceEp0Out hOut, serviceWhen_false serviceEp0In hIn]
      exact hOne

theorem serviceControl_pushes {s : State} (h : Sound s) : Pushes 5 s (serviceControl s) := by
  have hReset : (serviceBeforeSetup s).lat.reset = false :=
    congrArg Latches.reset (serviceBeforeSetup_sequencedLatches s)
  exact (serviceBeforeSetup_pushes s).trans (serviceEp0_pushes h.serviceBeforeSetup hReset)

/-! ### The data endpoints (spec/44_data_endpoints.md) -/

theorem withEp_pushes (k : Nat) {f : DataEp → State → State} {n : Nat} (hf : ∀ d s, Pushes n s (f d s)) (s : State) :
    Pushes n s (withEp k f s) := by
  unfold withEp
  split
  · exact .refl n s
  · exact hf _ s

theorem completeData_pushes (k : Nat) : ∀ s, Pushes 1 s (completeData k s) := withEp_pushes k fun _ _ =>
  (notifyIf_pushes _ _ _).before rfl

theorem serviceDataIn_pushes (k : Nat) : ∀ s, Pushes 1 s (serviceDataIn k s) := withEp_pushes k fun d s => by
  dsimp only
  split
  · exact .of_queueSide rfl
  · split
    · exact .of_queueSide rfl
    · exact (completeData_pushes k _).after rfl

theorem dataReceive_pushes (k : Nat) (d : DataEp) (q : Packet) (s : State) : Pushes 1 s (dataReceive k d q s) := by
  unfold dataReceive
  dsimp only
  split
  · exact (completeData_pushes k _).after (by simp [State.queueSide])
  · exact .of_queueSide (by simp [State.queueSide])

theorem serviceDataOut_pushes (k : Nat) : ∀ s, Pushes 1 s (serviceDataOut k s) := withEp_pushes k fun d s => by
  dsimp only
  split
  · exact .of_queueSide rfl
  · split
    · exact (notify_pushes _ _).after rfl
    · split
      · exact (notify_pushes _ _).after rfl
      · exact (dataReceive_pushes k d _ _).after rfl

/-- Serving some places of the table pushes one record for each at most. -/
theorem serviceEach_pushes {f : Nat → State → State} (hf : ∀ k s, Pushes 1 s (f k s)) (ks : List Nat) (s : State) :
    Pushes ks.length s (serviceEach f ks s) := by
  induction ks generalizing s with
  | nil => exact .refl 0 s
  | cons k ks ih =>
    rw [serviceEach, List.length_cons, Nat.add_comm]
    exact (serviceWhen_pushes (hf k) s).trans (ih _)

/-- The two turns serve no more places than the table has: no place is served twice (R315). -/
theorem epOrder_length (ds : List DataEp) : (epOrder .out ds).length + (epOrder .in ds).length ≤ ds.length := by
  have hNodup : (epOrder .out ds ++ epOrder .in ds).Nodup := by
    refine List.Nodup.append (epOrder_nodup _ _) (epOrder_nodup _ _) fun k hOut hIn => ?_
    obtain ⟨d, hd, hDir⟩ := mem_epOrder hOut
    obtain ⟨e, he, hDir'⟩ := mem_epOrder hIn
    rw [Option.some.inj (hd.symm.trans he), hDir'] at hDir
    exact nomatch hDir
  have hPlaces : epOrder .out ds ++ epOrder .in ds ⊆ List.range ds.length := fun k hk => by
    obtain ⟨d, hd⟩ : ∃ d, ds[k]? = some d := by
      rcases List.mem_append.1 hk with hk | hk
      · exact (mem_epOrder hk).imp fun _ h => h.1
      · exact (mem_epOrder hk).imp fun _ h => h.1
    exact List.mem_range.2 (List.getElem?_eq_some_iff.1 hd).1
  simpa using (hNodup.subperm hPlaces).length_le

/-- The data services push one record for each endpoint at most. -/
theorem serviceData_pushes (s : State) : Pushes s.deps.length s (serviceData s) := by
  have hOrder : epOrder .in (serviceEach serviceDataOut (epOrder .out s.deps) s).deps = epOrder .in s.deps :=
    epOrder_congr (serviceEach_descs serviceDataOut_descs _ s)
  have hOut := serviceEach_pushes serviceDataOut_pushes (epOrder .out s.deps) s
  have hIn := serviceEach_pushes serviceDataIn_pushes (epOrder .in s.deps)
    (serviceEach serviceDataOut (epOrder .out s.deps) s)
  unfold serviceData
  dsimp only
  rw [hOrder]
  exact ((hOut.trans hIn).mono (epOrder_length s.deps)).before rfl

/-! ### The invocation (spec/46_events_and_service.md R315) -/

theorem serviceSof_pushes (s : State) : Pushes 1 s (serviceSof s) := by
  unfold serviceSof rearm0
  refine (notifyIf_pushes _ _ _).after ?_
  dsimp only
  split <;> rfl

/-- One invocation pushes at most 8 records and one for each data endpoint (spec/70_reset_and_hazards.md R380): two of
the observer, four of the device, one of EP0 and one of the SOF. -/
theorem service_pushes {s : State} (h : Sound s) : Pushes (8 + s.deps.length) s (service s) := by
  have hEnter := notifyIf_pushes s.cfg.hookIsr (observer .serviceEnter) s
  have hControl := hEnter.trans (serviceControl_pushes (h.notifyIf s.cfg.hookIsr (observer .serviceEnter)))
  have hData := hControl.trans (serviceData_pushes _)
  have hSof := hData.trans (serviceWhen_pushes (latch := fun s => s.lat.sof) serviceSof_pushes _)
  refine (hSof.trans (notifyIf_pushes _ (observer .serviceExit) _)).mono ?_
  have hLength := congrArg List.length (serviceControl_descs (notifyIf s.cfg.hookIsr (observer .serviceEnter) s))
  rw [List.length_map, List.length_map, notifyIf_deps] at hLength
  omega

end Sys2Proof.Machine

namespace Sys2Proof.Proofs

open Sys2Proof Sys2Proof.Machine

/-- Settles O46, by whether the queue has room. -/
theorem notifyAppendsOrOverflows : Obligations.NotifyAppendsOrOverflows := by
  unfold Obligations.NotifyAppendsOrOverflows
  exact fun r s => ⟨fun hRoom => notify_of_room hRoom r, fun hFull => if_neg (Nat.not_lt.2 hFull)⟩

/-- Settles O57: POLL is one invocation, which pushes no more records than the empty queue has room for
(`service_pushes`). -/
theorem invocationNeverOverflowsAnEmptyQueue : Obligations.InvocationNeverOverflowsAnEmptyQueue := by
  unfold Obligations.InvocationNeverOverflowsAnEmptyQueue
  intro s hInv hEmpty hDepth
  have hLength : s.deps.length = s.cfg.eps.length := by
    rw [← List.length_map (f := DataEp.desc)]
    exact congrArg List.length hInv.table
  have hPushes := service_pushes hInv.sound
  rw [hLength] at hPushes
  obtain ⟨hFaults, hOvf, hRecords⟩ := hPushes.room (by rw [hEmpty, List.length_nil]; omega)
  rw [hEmpty, List.length_nil, Nat.zero_add] at hRecords
  exact ⟨_, exec_poll s, hFaults, hOvf, hRecords⟩

end Sys2Proof.Proofs
end
